-- ==== Sys2Proof/Word.lean ====
section
/-! DEFINITION. The word types: the bytes and tag codes of the part's lines. -/

namespace Sys2Proof

/-- One byte of a frame, an image or a record. -/
abbrev Byte := BitVec 8

/-- A tag code (02 R22). -/
abbrev TagCode := BitVec 64

end Sys2Proof
end

