-- ==== Sys2Proof/Syntax.lean ====
section
/-! DEFINITION. The commands of the part: one constructor per row of spec/opcode_table.json, with the inputs each row takes. -/

namespace Sys2Proof

/-- The four hoses (00, Numbering). -/
inductive HoseId where
  | h1 | h2 | h3 | h4
deriving DecidableEq, Repr

/-- The two compartments. -/
inductive CompId where
  | a | b
deriving DecidableEq, Repr

/-- The two pumps. -/
inductive PumpId where
  | p1 | p2
deriving DecidableEq, Repr

/-- The two loading bays of a depot (09 R162). -/
inductive BayId where
  | b1 | b2
deriving DecidableEq, Repr

/-- The two valves of a hose (05). -/
inductive ValveId where
  | trim | main
deriving DecidableEq, Repr

/-- A valve's command, or the position its switch reports (05 R80). -/
inductive Position where
  | opened | closed
deriving DecidableEq, Repr

/-- A report on a tag reader line (02 section 2.1, R22). `malformed` is a report that arrives incomplete or of no known type. -/
inductive TagReport where
  | present (code : TagCode) (check : Byte)
  | absent
  | readerFault
  | malformed
deriving DecidableEq, Repr

/-- What the level inputs (mm) and the temperature inputs (tenths of a degree) show at a sample event (08 R142). -/
structure Readings where
  levelA : Int
  tempA : Int
  levelB : Int
  tempB : Int
deriving DecidableEq, Repr

/-- A frame as the transceiver carries it (01 R1), from the site code on. `body` holds the body bytes that are there; `bodyLength` is
what the frame says. R1's first field, Sync, is left out, because its fixed pattern has no value in the manual and a transmission
without it is not delivered as a frame: the model's choice (log 38). -/
structure Frame where
  site : BitVec 16
  origin : Byte
  boot : Byte
  sequence : Byte
  kind : Byte
  bodyLength : Byte
  body : List Byte
  crc : BitVec 16
deriving DecidableEq, Repr

/-- What became of the log write that a power loss or a RESET met (07 R135, 10 R174). For a write of two parts, `torn true` is a
write cut in its second part, the first being whole. -/
inductive WriteFate where
  | complete
  | torn (firstPartWhole : Bool)
deriving DecidableEq, Repr

/-- Why a message is no request (11 R179, checks 1 and 2). -/
inductive BadMessage where
  | badFrame
  | unknownKind
deriving DecidableEq, Repr

/-- A field of a console request: `none` where the message does not carry it (11 R179, check 3). -/
abbrev Field := Option Nat

/-- The commands (95). Times are in hundredths of a millisecond since the command before. -/
inductive Instr where
  | start (straps : Nat) (scanDone : Nat) (fate : WriteFate)
  | imageLoadEnd (store : Option (List Byte)) (r : Readings)
  | scanWritesDone (r : Readings)
  | secondTick
  | peerSilent (station : Nat)
  | frameTaken (busy : Bool)
  | busyAsserted
  | idleGapExpiry
  | backoffExpiry (busy : Bool)
  | transmissionEnd
  | echoWindowExpiry
  | frameReceived (elapsed : Nat) (f : Frame)
  | sweepTick
  | tagReport (h : HoseId) (report : TagReport)
  | tagGraceExpiry (h : HoseId)
  | peerClaimExpiry (origin : Nat) (claim : Nat)
  | claimRenewalExpiry (h : HoseId)
  | claimHoldOffExpiry (h : HoseId)
  | listenTimerExpiry
  | phaseChange (h : HoseId) (levelA : Bool) (levelB : Bool) (elapsed : Nat)
  | rateTimeout (h : HoseId)
  | overrateExpiry (h : HoseId)
  | noFlowExpiry (h : HoseId)
  | switchChange (h : HoseId) (v : ValveId) (p : Position)
  | settleExpiry (h : HoseId) (v : ValveId)
  | overrunWindowExpiry (h : HoseId)
  | primeExpiry (p : PumpId)
  | rundownExpiry (p : PumpId)
  | pumpWaitExpiry (h : HoseId)
  | emergencyAsserted
  | emergencyDeasserted
  | powerFailWarning
  | powerFailDeasserted
  | nozzleLift (h : HoseId)
  | nozzleHang (h : HoseId)
  | writeStart
  | writeComplete
  | sampleEvent (r : Readings)
  | stockTimerExpiry
  | bayreqRepeatExpiry
  | grantExpiry (bay : BayId)
  | releaseTimerExpiry (bay : BayId)
  | responseSent
  | invalidRequest (what : BadMessage)
  | status
  | hose (h : Field)
  | preset (h : Field) (volume : Field)
  | stop (h : Field)
  | keyed (h : Field) (machine : Field)
  | hold (machine : Field) (reason : Field)
  | unhold (machine : Field)
  | shift
  | restock
  | restockCancel
  | restockDone
  | delivery (compartment : Field) (gross : Field)
  | readlog (sequence : Field)
  | release (sequence : Field)
  | accounts
  | peers
  | diag
  | events
  | reload
deriving DecidableEq, Repr

end Sys2Proof
end

