-- ==== Sys2Proof/Config.lean ====
section
/-! DEFINITION. The values that the manual leaves open and that the part's implementation fixes: opaque constants, without a body. -/

namespace Sys2Proof.Config

/-- The n-th backoff draw less one: 0 to 15 (01 R5: "a slot count from 1 to 16, each value equally likely"). Applied to the count
of draws so far. -/
opaque backoffDraw : Nat → BitVec 4

/-- What a signed 32-bit figure holds once its exact value no longer fits (04 R65, 08 R147: the manual gives the range and no
rule for leaving it). Applied to the exact value. -/
opaque unfitSigned32 : Int → BitVec 32

/-- What an unsigned 32-bit figure holds once its exact value no longer fits and no rule says that it saturates (03 R41, 07
section 7.7). Applied to the exact value. -/
opaque unfit32 : Nat → BitVec 32

/-- Whether a time left that is no whole number of seconds is reported rounded up (03 R52, 05 R101, 09 R155: "seconds left").
Applied to the time left in hundredths of a millisecond. -/
opaque secondsRoundUp : Nat → Bool

/-- Whether PRESET acts by the row of the depot role, and STATUS shows the depot side, while no role has been in force since start
(11 R180, section 11.2). -/
opaque depotWithoutRole : Bool

end Sys2Proof.Config
end

