-- ==== Sys2Proof/Machine/Blocks.lean ====
section
/-! DEFINITION. What each block of the part holds, as plain data, with its start values. -/

namespace Sys2Proof.Machine

open Sys2Proof

/-! ## Containers -/

/-- One value per hose. -/
structure Quad (α : Type) where
  h1 : α
  h2 : α
  h3 : α
  h4 : α
deriving DecidableEq, Repr

def Quad.get {α : Type} (q : Quad α) : HoseId → α
  | .h1 => q.h1
  | .h2 => q.h2
  | .h3 => q.h3
  | .h4 => q.h4

def Quad.set {α : Type} (q : Quad α) (h : HoseId) (x : α) : Quad α :=
  match h with
  | .h1 => { q with h1 := x }
  | .h2 => { q with h2 := x }
  | .h3 => { q with h3 := x }
  | .h4 => { q with h4 := x }

def Quad.replicate {α : Type} (x : α) : Quad α := ⟨x, x, x, x⟩

def Quad.map {α β : Type} (f : HoseId → α → β) (q : Quad α) : Quad β :=
  ⟨f .h1 q.h1, f .h2 q.h2, f .h3 q.h3, f .h4 q.h4⟩

/-- The hoses in hose-number order. -/
def allHoses : List HoseId := [.h1, .h2, .h3, .h4]

def hoseNumber : HoseId → Nat
  | .h1 => 1
  | .h2 => 2
  | .h3 => 3
  | .h4 => 4

/-- One value per compartment. -/
structure ByComp (α : Type) where
  a : α
  b : α
deriving DecidableEq, Repr

def ByComp.get {α : Type} (q : ByComp α) : CompId → α
  | .a => q.a
  | .b => q.b

def ByComp.set {α : Type} (q : ByComp α) (c : CompId) (x : α) : ByComp α :=
  match c with
  | .a => { q with a := x }
  | .b => { q with b := x }

/-- Compartment code of the image and of the record layout (10 section 10.6, 07 section 7.7). -/
def compCode : CompId → Nat
  | .a => 1
  | .b => 2

def compOfCode : Nat → Option CompId
  | 1 => some .a
  | 2 => some .b
  | _ => none

/-- One value per pump. -/
structure ByPump (α : Type) where
  p1 : α
  p2 : α
deriving DecidableEq, Repr

def ByPump.get {α : Type} (q : ByPump α) : PumpId → α
  | .p1 => q.p1
  | .p2 => q.p2

def ByPump.set {α : Type} (q : ByPump α) (p : PumpId) (x : α) : ByPump α :=
  match p with
  | .p1 => { q with p1 := x }
  | .p2 => { q with p2 := x }

/-- One value per bay. -/
structure ByBay (α : Type) where
  b1 : α
  b2 : α
deriving DecidableEq, Repr

def ByBay.get {α : Type} (q : ByBay α) : BayId → α
  | .b1 => q.b1
  | .b2 => q.b2

def ByBay.set {α : Type} (q : ByBay α) (b : BayId) (x : α) : ByBay α :=
  match b with
  | .b1 => { q with b1 := x }
  | .b2 => { q with b2 := x }

/-- The bays in bay-number order. -/
def allBays : List BayId := [.b1, .b2]

def bayNumber : BayId → Nat
  | .b1 => 1
  | .b2 => 2

/-- A timer: stopped, or the moment of the own time base at which it expires. -/
abbrev Timer := Option Nat

/-- A nonvolatile area with its check (07 R125, R130, R134, R135): blank, holding content whose check is bad, or valid. -/
inductive Area (α : Type) where
  | blank
  | bad
  | valid (x : α)
deriving DecidableEq, Repr

def Area.value? {α : Type} : Area α → Option α
  | .blank => none
  | .bad => none
  | .valid x => some x

/-! ## Named sets -/

inductive Role where
  | bowser | depot
deriving DecidableEq, Repr

inductive EntryMethod where
  | tag | keyed
deriving DecidableEq, Repr

/-- The hose states (06 R102). -/
inductive DscState where
  | idle | lifted | authorising | awaitPump | flowing | stopping | committing | done
deriving DecidableEq, Repr

inductive Nozzle where
  | onHook | offHook
deriving DecidableEq, Repr

/-- The end causes (06 R109, 07 section 7.7). -/
inductive Cause where
  | preset | hung | operator | tagLost | tagChanged | noFlow | meterFault | valveFault | claimCut | held | lowStock
  | pumpWait | emergency | powerLoss
deriving DecidableEq, Repr

/-- End cause codes (07 section 7.7). -/
def Cause.code : Cause → Nat
  | .preset => 1
  | .hung => 2
  | .operator => 3
  | .tagLost => 4
  | .tagChanged => 5
  | .noFlow => 6
  | .meterFault => 7
  | .valveFault => 8
  | .claimCut => 9
  | .held => 10
  | .lowStock => 11
  | .pumpWait => 12
  | .emergency => 13
  | .powerLoss => 14

/-- A set of fault flags (06 R104, 07 section 7.7). -/
structure FaultSet where
  meter : Bool := false
  valve : Bool := false
  tag : Bool := false
  overrate : Bool := false
  overrun : Bool := false
  creep : Bool := false
  estimated : Bool := false
deriving DecidableEq, Repr

/-- The refusal codes (11 section 11.2, 03 R53). -/
inductive Code where
  | busy | badFrame | badRequest | badValue | configFault | hoseDisabled | emergency | restockLock | settling | unknownTag
  | unknownMachine | held | wrongGrade | noGrant | noStock | logFull | noAllotment | accountCeiling | notLifted | tagPresent
  | keyedNotAllowed | notActive | badState | notLower | wrongRole | limit | notFound
deriving DecidableEq, Repr

/-- The phases of a valve sequencer (05 section 5.2). -/
inductive Phase where
  | shut | trim | full | taper | shutting
deriving DecidableEq, Repr

inductive PumpState where
  | stopped | priming | running | rundown
deriving DecidableEq, Repr

/-- The transmit states (01 section 1.2). -/
inductive TxState where
  | idle | defer | backoff | sending | awaitEcho
deriving DecidableEq, Repr

/-- The bowser's restock states (09 R155). -/
inductive RestockState where
  | normal | draining | requested | granted | receiving
deriving DecidableEq, Repr

inductive LoadState where
  | loading | good | fault
deriving DecidableEq, Repr

/-- How far the start sequence has come (10 R173). -/
inductive Stage where
  | imageLoad | scanWrites | running
deriving DecidableEq, Repr

/-- The check results (10 R169, R170). -/
inductive CheckResult where
  | good | badStation | noAnswer | badMarker | badFormat | badLength | badCrc | missingSection | badValue | badStrapping
  | duplicateMachine | duplicateTag
deriving DecidableEq, Repr

/-- The nine notice kinds (01 R2). -/
inductive NoticeKind where
  | claim | drop | tally | hold | shift | stock | bayreq | baygrant | loadnote
deriving DecidableEq, Repr

/-! ## Settings: what a good image gives (10 R171) -/

structure Identity where
  siteCode : Nat
  role : Role
  depotStation : Nat
  listenTime : Nat
  bays : Nat
  limits : ByPump Nat
deriving DecidableEq, Repr

structure HoseSettings where
  enabled : Bool
  compartment : CompId
  pump : PumpId
  priority : Nat
  phaseSwap : Bool
  stepsPerLitre : Nat
  calibration : Nat
  startVolume : Nat
  slowdown : Nat
  settleTime : Nat
  overrunTolerance : Nat
  ratedFlow : Nat
  noFlowTime : Nat
deriving DecidableEq, Repr

/-- The compartment settings (08 section 8.1). `strapping` holds the points as (level mm, volume L). -/
structure CompSettings where
  grade : Nat
  capacity : Nat
  reserve : Nat
  cutOff : Nat
  restockLevel : Nat
  autoRequest : Bool
  varianceLimit : Nat
  settleTolerance : Nat
  strapping : List (Nat × Nat)
deriving DecidableEq, Repr

structure AccountSettings where
  band : Nat
  ceiling : Nat
deriving DecidableEq, Repr

/-- The settings in force. `correction` holds 72 factors and `tariff` 8 prices, grade 1 first. -/
structure Settings where
  identity : Identity
  hoses : Quad (Option HoseSettings)
  comps : ByComp CompSettings
  correction : List Nat
  tariff : List Nat
  accounts : List AccountSettings
deriving DecidableEq, Repr

/-- A machine-table entry as the image gives it (02 R25). -/
structure MachineEntry where
  number : Nat
  tag : TagCode
  account : Nat
  grade1 : Bool
  grade2 : Bool
  capacity : Nat
  allowance : Option Nat
  keyed : Bool
  held : Bool
  reason : Nat
  inlet : Option (Nat × CompId)
deriving DecidableEq, Repr

/-- A hold state (02 R33). -/
structure Hold where
  held : Bool
  reason : Nat
  version : Nat
  author : Nat
deriving DecidableEq, Repr

/-- One place of the machine table: the entry, its hold state and its row of the draw table, column by station (03 R41). -/
structure MachineRow where
  entry : MachineEntry
  hold : Hold
  drawn : List Nat
deriving DecidableEq, Repr

structure Cfl where
  stage : Stage
  load : LoadState
  check : Option CheckResult
  presence : BitVec 16
  header : Option (Nat × BitVec 32)
  station : Option Nat
  settings : Option Settings
deriving DecidableEq, Repr

/-! ## Notices and the site-net controller -/

/-- One compartment's figures of a STOCK notice (01 R2). `settled` is the flag's byte. -/
structure StockFigures where
  book : Int
  gauge : Nat
  capacity : Nat
  settled : Nat
deriving DecidableEq, Repr

/-- A notice with its body fields as carried (01 R2). Codes stand as the bytes of the body: "The SNC carries body fields as offered". -/
inductive Notice where
  | claim (shift machine number reserved : Nat)
  | drop (shift number : Nat)
  | tally (shift machine cumulative closing : Nat)
  | hold (machine held reason version : Nat)
  | shift (number : Nat)
  | stock (role restockState : Nat) (a b : StockFigures)
  | bayreq (spaceA spaceB urgency cancel : Nat)
  | baygrant (station bay grant revoke : Nat)
  | loadnote (station compartment grant gross standard : Nat)
deriving DecidableEq, Repr

/-- A notice waiting in the transmit queue, marked when it is offered (01 section 1.5). -/
structure Queued where
  notice : Notice
  yielding : Bool
deriving DecidableEq, Repr

/-- A peer entry (01 R13). Role, restock state and figures stand as the STOCK notice carried them. -/
structure Peer where
  heard : Bool
  boot : Option Nat
  lastSequence : Option Nat
  received : Nat
  lost : Nat
  seconds : Nat
  role : Option Nat
  restockState : Option Nat
  figures : Option (StockFigures × StockFigures)
deriving DecidableEq, Repr

def Peer.start : Peer :=
  { heard := false, boot := none, lastSequence := none, received := 0, lost := 0, seconds := 0
    role := none, restockState := none, figures := none }

structure Snc where
  joined : Bool
  tx : TxState
  inHand : Option Frame
  attempts : Nat
  idleGap : Timer
  backoff : Timer
  echoWindow : Timer
  queue : List Queued
  sequence : Nat
  peers : List Peer
  cursor : Nat
  sweep : Timer
  rxGood : Nat
  rxBad : Nat
  rxForeign : Nat
  rxUnknown : Nat
  rxOwn : Nat
  rxRepeat : Nat
  rxStale : Nat
  txSent : Nat
  txCollisions : Nat
  txCollided : Nat
  txYielded : Nat
  txDropped : Nat
deriving DecidableEq, Repr

def Snc.start : Snc :=
  { joined := false, tx := .idle, inHand := none, attempts := 0
    idleGap := none, backoff := none, echoWindow := none
    queue := [], sequence := 0, peers := List.replicate 14 Peer.start, cursor := 0, sweep := none
    rxGood := 0, rxBad := 0, rxForeign := 0, rxUnknown := 0, rxOwn := 0, rxRepeat := 0, rxStale := 0
    txSent := 0, txCollisions := 0, txCollided := 0, txYielded := 0, txDropped := 0 }

/-! ## Allotment controller -/

/-- A peer claim entry (03 R44). `life` is the moment at which its life timer expires. -/
structure PeerClaim where
  origin : Nat
  number : Nat
  machine : Nat
  account : Nat
  reserved : Nat
  life : Nat
  placed : Nat
deriving DecidableEq, Repr

inductive ListenState where
  | listen | ready
deriving DecidableEq, Repr

inductive ClaimStatus where
  | active | oldShift
deriving DecidableEq, Repr

/-- An own claim (03 R48). Its reserved volume is the hose's active preset (R49), read where it stands. -/
structure OwnClaim where
  number : Nat
  machine : Nat
  account : Nat
  status : ClaimStatus
  renewal : Timer
deriving DecidableEq, Repr

structure Alc where
  shift : Nat
  shiftSeconds : Nat
  listen : ListenState
  listenTimer : Timer
  peerClaims : List PeerClaim
  placed : Nat
  claimCounter : Nat
deriving DecidableEq, Repr

def Alc.start : Alc :=
  { shift := 1, shiftSeconds := 0, listen := .listen, listenTimer := none, peerClaims := [], placed := 0, claimCounter := 0 }

/-! ## The blocks of one hose -/

structure Reader where
  fault : Bool
  run : Nat
  badChecks : Nat
  readTag : Option TagCode
  supervised : Option TagCode
  grace : Timer
deriving DecidableEq, Repr

def Reader.start : Reader :=
  { fault := false, run := 0, badChecks := 0, readTag := none, supervised := none, grace := none }

/-- The transaction context (06 R104), with the grant number of a loadout (09 R165). `position` counts table places from 0;
`committed` says that the commit completion step has been taken while the valves were still closing (06 R114). -/
structure Context where
  position : Nat
  machine : Nat
  account : Nat
  grade : Nat
  compartment : CompId
  method : EntryMethod
  preset : Nat
  claim : Nat
  shift : Nat
  authTime : Nat
  elapsed : Nat
  elapsedAtFlow : Nat
  slot : Nat
  sequence : Option Nat
  startTime : Option Nat
  metered : Nat
  cause : Option Cause
  faults : FaultSet
  powerFail : Bool
  target : Option (Nat × CompId)
  grant : Nat
  committed : Bool
deriving DecidableEq, Repr

/-- The last-transaction summary (06 R123). -/
structure Summary where
  sequence : Option Nat
  cause : Option Cause
  faults : FaultSet
deriving DecidableEq, Repr

/-- A meter channel (04). -/
structure Meter where
  lastA : Bool
  lastB : Bool
  window : Bool
  netSteps : Int
  gross : Nat
  boundary : Nat
  errorCount : Nat
  sticky : Bool
  live : Bool
  goodRun : Nat
  deficit : Nat
  reverseReported : Bool
  rateStart : Option Nat
  rateRun : Nat
  heldRate : Nat
  rateTimer : Timer
  overrateTimer : Timer
  overrate : Bool
  noFlow : Timer
  creep : Nat
  creepSent : Bool
  creepMark : Bool
  tempSum : Int
  tempCount : Nat
  totalErrors : Nat
  totalForward : Nat
  totalReverse : Nat
  totalCreep : Nat
deriving DecidableEq, Repr

def Meter.start : Meter :=
  { lastA := false, lastB := false, window := false, netSteps := 0, gross := 0, boundary := 0
    errorCount := 0, sticky := false, live := false, goodRun := 0, deficit := 0, reverseReported := false
    rateStart := none, rateRun := 0, heldRate := 0, rateTimer := none, overrateTimer := none, overrate := false
    noFlow := none, creep := 0, creepSent := false, creepMark := false, tempSum := 0, tempCount := 0
    totalErrors := 0, totalForward := 0, totalReverse := 0, totalCreep := 0 }

/-- One valve's switch, settle timer, close-fault latch and fault count (05 R80, R81). -/
structure Valve where
  switch : Position
  settle : Timer
  latch : Bool
  faults : Nat
deriving DecidableEq, Repr

def Valve.start : Valve := { switch := .closed, settle := none, latch := false, faults := 0 }

/-- A valve sequencer (05 R80). -/
structure Vsq where
  phase : Phase
  trim : Valve
  main : Valve
  active : Nat
  pending : Option Nat
  overrun : Timer
deriving DecidableEq, Repr

def Vsq.start : Vsq :=
  { phase := .shut, trim := Valve.start, main := Valve.start, active := 0, pending := none, overrun := none }

/-- What the blocks hold for one hose: reader (IDU), hose state, context and summary (DSC), standing preset (CNL), own claim
and hold-off (ALC), meter channel (MCH), valve sequencer (VSQ) and pump wait timer (PMA). The table position of a transaction's entry
stands in the context, and in DONE, where the context is gone (06 R104), in `kept`: the DSC keeps it until the hose returns to IDLE
or LIFTED (02 R27; log 36). -/
structure Hose where
  reader : Reader
  dsc : DscState
  nozzle : Nozzle
  context : Option Context
  kept : Option Nat
  summary : Option Summary
  standing : Option Nat
  claim : Option OwnClaim
  holdOff : Timer
  meter : Meter
  valves : Vsq
  pumpWait : Timer
deriving DecidableEq, Repr

def Hose.start : Hose :=
  { reader := Reader.start, dsc := .idle, nozzle := .onHook, context := none, kept := none, summary := none
    standing := none, claim := none, holdOff := none, meter := Meter.start, valves := Vsq.start, pumpWait := none }

/-! ## Pump arbiter -/

/-- An entry of a request list (05 R94). -/
structure Request where
  hose : HoseId
  priority : Nat
  order : Nat
deriving DecidableEq, Repr

structure Pump where
  state : PumpState
  grants : List HoseId
  requests : List Request
  prime : Timer
  rundown : Timer
  primes : Nat
deriving DecidableEq, Repr

def Pump.start : Pump :=
  { state := .stopped, grants := [], requests := [], prime := none, rundown := none, primes := 0 }

/-! ## Transaction log -/

/-- The opening fields of a record's kind (07 R125). -/
inductive OpeningFields where
  | fill (loadout : Bool) (hose : HoseId) (machine account grade : Nat) (method : EntryMethod) (claim preset : Nat)
      (target : Option (Nat × CompId))
  | receipt (compartment : CompId) (depot grant : Nat)
  | variance (compartment : CompId)
  | delivery (compartment : CompId)
deriving DecidableEq, Repr

/-- The closing fields of a record's kind (07 R125). -/
inductive ClosingFields where
  | fill (final gross standard : Nat) (temperature : Int) (amount : Nat) (cause : Cause) (faults : FaultSet)
  | receipt (gross standard : Nat) (unexpected : Bool)
  | variance (book gauge difference : Int)
  | delivery (gross : Nat)
deriving DecidableEq, Repr

structure Opening where
  sequence : Nat
  shift : Nat
  startTime : Nat
  fields : OpeningFields
deriving DecidableEq, Repr

structure Closing where
  sequence : Nat
  endTime : Nat
  fields : ClosingFields
deriving DecidableEq, Repr

inductive SlotState where
  | free | reserved | opened | closed
deriving DecidableEq, Repr

/-- A slot (07 R124): its state, the fields of its record as fixed so far, and the two parts in nonvolatile memory. -/
structure Slot where
  state : SlotState
  opening : Option Opening
  closing : Option Closing
  nvOpening : Area Opening
  nvClosing : Area Closing
deriving DecidableEq, Repr

def Slot.start : Slot :=
  { state := .free, opening := none, closing := none, nvOpening := .blank, nvClosing := .blank }

/-- A request of the log (07 section 7.2). An opening part may carry its closing part (R129). -/
inductive WriteReq where
  | opening (hose : HoseId) (slot : Nat) (withClosing : Bool)
  | closing (hose : HoseId) (slot : Nat)
  | checkpoint (hose : HoseId) (sequence gross : Nat)
  | whole (compartment : CompId) (slot : Nat)
  | mark (sequence : Nat)
deriving DecidableEq, Repr

/-- A write of the start scan (07 R134, R136). -/
inductive ScanWrite where
  | boot (second : Bool) (value : Nat)
  | recovered (slot : Nat) (closing : Closing)
deriving DecidableEq, Repr

structure Tlg where
  slots : List Slot
  bootFirst : Area Nat
  bootSecond : Area Nat
  bootNumber : Nat
  markArea : Area Nat
  checkpoints : Quad (Area (Nat × Nat))
  queue : List WriteReq
  writing : Option WriteReq
  writeTimer : Timer
  waitLists : ByComp (List WriteReq)
  nextSequence : Nat
  scanWrites : List ScanWrite
  writes : Nat
  ckptDropped : Nat
  ckptDisplaced : Nat
  recordsLost : Nat
  scanTorn : Nat
  scanRecovered : Nat
deriving DecidableEq, Repr

/-- The log of a new part: nothing waits, every counter is 0, and the memory is blank. SCAN_TORN and SCAN_RECOVERED are 0 until the scan
sets them (07 R135; log 4). -/
def Tlg.start : Tlg :=
  { slots := List.replicate 1024 Slot.start, bootFirst := .blank, bootSecond := .blank, bootNumber := 0
    markArea := .blank, checkpoints := Quad.replicate .blank, queue := [], writing := none, writeTimer := none
    waitLists := ⟨[], []⟩, nextSequence := 1, scanWrites := []
    writes := 0, ckptDropped := 0, ckptDisplaced := 0, recordsLost := 0, scanTorn := 0, scanRecovered := 0 }

/-- An account's totals of the current shift (07 R141). -/
structure Totals where
  volume : Nat
  amount : Nat
deriving DecidableEq, Repr

/-! ## Inventory unit -/

structure Compartment where
  history : List Nat
  gauge : Option Nat
  settled : Bool
  temperature : Option Int
  openingBook : Option Nat
  book : Int
  receipts : Int
  meteredOut : Int
  latched : Bool
  difference : Option Int
  receiptCheck : Option Nat
  low : Bool
  samples : Nat
  clampedLevels : Nat
  clampedTemps : Nat
deriving DecidableEq, Repr

def Compartment.start : Compartment :=
  { history := [], gauge := none, settled := false, temperature := none, openingBook := none
    book := 0, receipts := 0, meteredOut := 0, latched := false, difference := none, receiptCheck := none, low := false
    samples := 0, clampedLevels := 0, clampedTemps := 0 }

structure Inv where
  comps : ByComp Compartment
  sampleTimer : Timer
  stockTimer : Timer
deriving DecidableEq, Repr

def Inv.start : Inv :=
  { comps := ⟨Compartment.start, Compartment.start⟩, sampleTimer := none, stockTimer := none }

/-! ## Restock coordinator -/

/-- An entry of the restock queue (09 R161). -/
structure QueueEntry where
  station : Nat
  urgency : Nat
  arrival : Nat
  spaces : ByComp Nat
deriving DecidableEq, Repr

/-- What a bay timer runs as (09 R162, R163). -/
inductive BayTimer where
  | stopped
  | expiry (due : Nat)
  | release (due : Nat)
deriving DecidableEq, Repr

/-- A held bay entry (09 R162). -/
structure BayEntry where
  station : Nat
  grant : Nat
  urgency : Nat
  spaces : ByComp Nat
  loaded : ByComp Nat
  active : Nat
  noteOffered : Bool
  timer : BayTimer
deriving DecidableEq, Repr

structure Rsc where
  state : RestockState
  grant : Option (Nat × Nat)
  awaited : ByComp Bool
  repeatTimer : Timer
  armed : ByComp Bool
  queue : List QueueEntry
  arrival : Nat
  bays : ByBay (Option BayEntry)
  grantCounter : Nat
  roleInForce : Option Role
  frozenAt : Option Nat
deriving DecidableEq, Repr

def Rsc.start : Rsc :=
  { state := .normal, grant := none, awaited := ⟨false, false⟩, repeatTimer := none, armed := ⟨true, true⟩
    queue := [], arrival := 0, bays := ⟨none, none⟩, grantCounter := 0, roleInForce := none, frozenAt := none }

/-! ## Console line -/

/-- The events (11 R181). -/
inductive Event where
  | refused (hose : HoseId) (code : Code)
  | stopped (hose : HoseId) (cause : Cause)
  | done (hose : HoseId) (sequence : Nat)
  | holdChanged (machine : Nat) (held : Bool) (reason author : Nat)
  | shiftAdopted (shift : Nat)
  | variance (compartment : CompId) (difference : Int)
  | low (compartment : CompId) (entered : Bool)
  | creep (hose : HoseId) (volume : Nat)
  | overrate (hose : HoseId) (rate : Nat)
  | txDropped (kind : NoticeKind)
  | readerFault (hose : HoseId)
  | restockState (state : RestockState)
  | grant (station bay number : Nat) (revoked : Bool)
  | loadnoteTaken (compartment : CompId) (gross : Nat) (expected : Bool)
  | loadnoteOffered (station : Nat) (compartment : CompId) (gross : Nat)
deriving DecidableEq, Repr

/-- STATUS: one pump (05 R101). -/
structure PumpReport where
  state : PumpState
  grants : List HoseId
  requests : List (HoseId × Nat × Bool)
  limit : Option Nat
deriving DecidableEq, Repr

/-- STATUS: one compartment (08 R154) with the two figures computed from it. -/
structure CompReport where
  figures : Compartment
  gaugeLitres : Option Nat
  available : Option Int
deriving DecidableEq, Repr

/-- STATUS: the restock side of the role in force (09 R155, R161, R162). `bays` holds one entry per bay of the bay grant table, free
(none) or held. -/
inductive RestockReport where
  | bowser (state : RestockState) (grant : Option (Nat × Nat)) (awaited : ByComp Bool) (secondsLeft : Option Nat)
  | depot (queue : List QueueEntry) (bays : List (BayId × Option BayEntry))
deriving DecidableEq, Repr

/-- STATUS (11 section 11.2). -/
structure StatusReport where
  shift : Nat
  shiftSeconds : Nat
  listen : ListenState
  listenLeft : Option Nat
  pumps : ByPump PumpReport
  free : Nat
  reserved : Nat
  opened : Nat
  closed : Nat
  oldest : Option Nat
  newest : Option Nat
  nextSequence : Nat
  recordsLost : Nat
  comps : ByComp CompReport
  restock : RestockReport
  load : LoadState
  check : Option CheckResult
  presence : BitVec 16
  header : Option (Nat × BitVec 32)
  station : Option Nat
  bootNumber : Nat
deriving DecidableEq, Repr

/-- HOSE: one valve (05 R101). -/
structure ValveReport where
  command : Position
  switch : Position
  latch : Bool
deriving DecidableEq, Repr

/-- HOSE: the context of an active transaction, with the machine's drawn volume and hold state (06 R123). -/
structure ContextReport where
  machine : Nat
  account : Nat
  method : EntryMethod
  preset : Nat
  claim : Nat
  claimStatus : Option ClaimStatus
  shift : Nat
  sequence : Option Nat
  metered : Nat
  cause : Option Cause
  faults : FaultSet
  drawn : Nat
  hold : Option Hold
deriving DecidableEq, Repr

/-- HOSE (06 R123, 05 R101, 04 R79, 11 R180). -/
structure HoseReport where
  dsc : DscState
  nozzle : Nozzle
  tagPresent : Bool
  context : Option ContextReport
  summary : Option Summary
  standing : Option Nat
  phase : Phase
  trim : ValveReport
  main : ValveReport
  active : Nat
  pending : Option Nat
  pumpWaitLeft : Option Nat
  window : Bool
  gross : Nat
  heldRate : Nat
  live : Bool
  sticky : Bool
  errorCount : Nat
  reverseVolume : Option Nat
  creepVolume : Option Nat
  creepMark : Bool
deriving DecidableEq, Repr

/-- ACCOUNTS: one account (07 R141). Band and ceiling stand only while an image is in force. -/
structure AccountReport where
  settings : Option AccountSettings
  drawn : Nat
  totals : Totals
deriving DecidableEq, Repr

/-- PEERS: one station (01 R13, 03 R44). -/
structure PeerReport where
  entry : Peer
  own : Bool
  claims : Nat
  reserved : Nat
deriving DecidableEq, Repr

/-- DIAG: one hose's reader, channel and valves (11 R183). -/
structure HoseDiag where
  badChecks : Nat
  readerFault : Bool
  live : Bool
  sticky : Bool
  errorCount : Nat
  totalErrors : Nat
  totalForward : Nat
  totalReverse : Nat
  totalCreep : Nat
  trimFaults : Nat
  mainFaults : Nat
deriving DecidableEq, Repr

/-- DIAG (11 R183). -/
structure DiagReport where
  rxGood : Nat
  rxBad : Nat
  rxForeign : Nat
  rxUnknown : Nat
  rxOwn : Nat
  rxRepeat : Nat
  rxStale : Nat
  txSent : Nat
  txCollisions : Nat
  txCollided : Nat
  txYielded : Nat
  txDropped : Nat
  peers : List (Nat × Nat)
  hoses : Quad HoseDiag
  primes : ByPump Nat
  writes : Nat
  ckptDropped : Nat
  ckptDisplaced : Nat
  recordsLost : Nat
  scanTorn : Nat
  scanRecovered : Nat
  comps : ByComp (Nat × Nat × Nat)
  cnlBad : Nat
  cnlBusy : Nat
  cnlOverrun : Nat
deriving DecidableEq, Repr

/-- A response: a status, OK or a refusal code, with the data the request gives (11 R178, section 11.2). -/
inductive Response where
  | ok
  | refused (code : Code)
  | okStatus (r : StatusReport)
  | okHose (r : HoseReport)
  | okShift (shift : Nat)
  | okRecord (bytes : List Byte) (next : Nat)
  | okReleased (count : Nat)
  | okAccounts (r : List AccountReport)
  | okPeers (r : List PeerReport)
  | okDiag (r : DiagReport)
  | okEvents (events : List Event) (lost : Bool)
  | okLoad
  | loadFault (check : CheckResult)
deriving DecidableEq, Repr

structure Cnl where
  response : Option Response
  reloading : Bool
  busyWaiting : Nat
  events : List Event
  lost : Bool
  bad : Nat
  busyCount : Nat
  overrun : Nat
deriving DecidableEq, Repr

def Cnl.start : Cnl :=
  { response := none, reloading := false, busyWaiting := 0, events := [], lost := false, bad := 0, busyCount := 0, overrun := 0 }

/-! ## The whole part -/

/-- The levels of one hose's input lines (11 section 11.6). -/
structure HosePins where
  nozzle : Nozzle
  phaseA : Bool
  phaseB : Bool
  trim : Position
  main : Position
deriving DecidableEq, Repr

/-- The input levels that a later event reads (11 section 11.6). -/
structure Pins where
  straps : Nat
  emergency : Bool
  powerFail : Bool
  busy : Bool
  hoses : Quad HosePins
deriving DecidableEq, Repr

/-- The part: everything State holds but the queue of commands. -/
structure Part where
  now : Nat
  nextSecond : Nat
  draws : Nat
  pins : Pins
  cfl : Cfl
  snc : Snc
  machines : List MachineRow
  alc : Alc
  hoses : Quad Hose
  pumps : ByPump Pump
  requestOrder : Nat
  tlg : Tlg
  totals : List Totals
  inv : Inv
  rsc : Rsc
  cnl : Cnl
deriving DecidableEq, Repr

end Sys2Proof.Machine
end

