-- ==== Sys2Proof/Machine/Bytes.lean ====
section
/-! DEFINITION. Bytes: byte order, the two CRCs, and the bodies of notices. -/

namespace Sys2Proof.Machine

open Sys2Proof

/-- The low `width` bytes of a number, high-order byte first (07 section 7.7, 10 section 10.6). -/
def bigEndian : Nat → Nat → List Byte
  | 0, _ => []
  | width + 1, n => BitVec.ofNat 8 (n >>> (8 * width)) :: bigEndian width n

/-- The number that bytes spell, high-order byte first. -/
def ofBigEndian (bytes : List Byte) : Nat :=
  bytes.foldl (fun n b => n * 256 + b.toNat) 0

/-- A signed 32-bit figure as an unsigned one, in two's complement. -/
def word32OfInt (x : Int) : Nat := (BitVec.ofInt 32 x).toNat

/-- The signed figure of a 32-bit field. -/
def intOfWord32 (n : Nat) : Int := (BitVec.ofNat 32 n).toInt

/-- The `width` bytes at `offset`, as a number. -/
def fieldAt (bytes : List Byte) (offset width : Nat) : Nat :=
  ofBigEndian ((bytes.drop offset).take width)

/-! ## The frame's CRC (01 R1) -/

/-- One bit of the CRC with generator x^16 + x^12 + x^5 + 1, most significant bit first. -/
def crc16Bit (crc : BitVec 16) (bit : Bool) : BitVec 16 :=
  if crc.msb != bit then (crc <<< 1) ^^^ 0x1021#16 else crc <<< 1

def crc16Byte (crc : BitVec 16) (b : Byte) : BitVec 16 :=
  [7, 6, 5, 4, 3, 2, 1, 0].foldl (fun c i => crc16Bit c (b.getLsbD i)) crc

/-- Initial value 0xFFFF, no final inversion. -/
def crc16 (bytes : List Byte) : BitVec 16 :=
  bytes.foldl crc16Byte 0xFFFF#16

/-! ## The image's CRC (10 R170) -/

/-- One bit of the CRC-32 of R170, least significant bit first. -/
def crc32Bit (crc : BitVec 32) (bit : Bool) : BitVec 32 :=
  if crc.getLsbD 0 != bit then (crc >>> 1) ^^^ 0xEDB88320#32 else crc >>> 1

def crc32Byte (crc : BitVec 32) (b : Byte) : BitVec 32 :=
  [0, 1, 2, 3, 4, 5, 6, 7].foldl (fun c i => crc32Bit c (b.getLsbD i)) crc

/-- Initial value 0xFFFFFFFF, result inverted. -/
def crc32 (bytes : List Byte) : BitVec 32 :=
  ~~~ (bytes.foldl crc32Byte 0xFFFFFFFF#32)

/-! ## Codes on the medium (01 R2; log 6) -/

/-- Role code (10 section 10.6). -/
def roleCode : Role → Nat
  | .bowser => 1
  | .depot => 2

/-- Restock state code, in the order of R2's list (DESIGN CHOICE, log 6). -/
def restockCode : RestockState → Nat
  | .normal => 1
  | .draining => 2
  | .requested => 3
  | .granted => 4
  | .receiving => 5

/-- A yes-or-no field: 0 for no and 1 for yes (10 section 10.6). -/
def flagCode (b : Bool) : Nat := if b then 1 else 0

/-- Kind codes (01 R2). -/
def kindCode : NoticeKind → Nat
  | .claim => 1
  | .drop => 2
  | .tally => 3
  | .hold => 4
  | .shift => 5
  | .stock => 6
  | .bayreq => 7
  | .baygrant => 8
  | .loadnote => 9

def kindOfCode : Nat → Option NoticeKind
  | 1 => some .claim
  | 2 => some .drop
  | 3 => some .tally
  | 4 => some .hold
  | 5 => some .shift
  | 6 => some .stock
  | 7 => some .bayreq
  | 8 => some .baygrant
  | 9 => some .loadnote
  | _ => none

/-- The body length of each kind (01 R2). -/
def bodyLengthOf : NoticeKind → Nat
  | .claim => 10
  | .drop => 4
  | .tally => 10
  | .hold => 5
  | .shift => 2
  | .stock => 28
  | .bayreq => 10
  | .baygrant => 5
  | .loadnote => 12

def Notice.kind : Notice → NoticeKind
  | .claim .. => .claim
  | .drop .. => .drop
  | .tally .. => .tally
  | .hold .. => .hold
  | .shift .. => .shift
  | .stock .. => .stock
  | .bayreq .. => .bayreq
  | .baygrant .. => .baygrant
  | .loadnote .. => .loadnote

def StockFigures.bytes (f : StockFigures) : List Byte :=
  bigEndian 4 (word32OfInt f.book) ++ bigEndian 4 f.gauge ++ bigEndian 4 f.capacity ++ bigEndian 1 f.settled

/-- The body fields in the order of R2, high-order byte first (log 6). -/
def Notice.body : Notice → List Byte
  | .claim shiftNo machine number reserved => bigEndian 2 shiftNo ++ bigEndian 2 machine ++ bigEndian 2 number ++ bigEndian 4 reserved
  | .drop shiftNo number => bigEndian 2 shiftNo ++ bigEndian 2 number
  | .tally shiftNo machine cumulative closing =>
    bigEndian 2 shiftNo ++ bigEndian 2 machine ++ bigEndian 4 cumulative ++ bigEndian 2 closing
  | .hold machine held reason version => bigEndian 2 machine ++ bigEndian 1 held ++ bigEndian 1 reason ++ bigEndian 1 version
  | .shift number => bigEndian 2 number
  | .stock role state a b => bigEndian 1 role ++ bigEndian 1 state ++ a.bytes ++ b.bytes
  | .bayreq spaceA spaceB urgency cancel =>
    bigEndian 4 spaceA ++ bigEndian 4 spaceB ++ bigEndian 1 urgency ++ bigEndian 1 cancel
  | .baygrant station bay grant revoke => bigEndian 1 station ++ bigEndian 1 bay ++ bigEndian 2 grant ++ bigEndian 1 revoke
  | .loadnote station compartment grant gross standard =>
    bigEndian 1 station ++ bigEndian 1 compartment ++ bigEndian 2 grant ++ bigEndian 4 gross ++ bigEndian 4 standard

def stockFiguresAt (b : List Byte) (offset : Nat) : StockFigures :=
  { book := intOfWord32 (fieldAt b offset 4), gauge := fieldAt b (offset + 4) 4, capacity := fieldAt b (offset + 8) 4
    settled := fieldAt b (offset + 12) 1 }

/-- The notice that a body of the right length spells. -/
def noticeOf (kind : NoticeKind) (b : List Byte) : Notice :=
  match kind with
  | .claim => .claim (fieldAt b 0 2) (fieldAt b 2 2) (fieldAt b 4 2) (fieldAt b 6 4)
  | .drop => .drop (fieldAt b 0 2) (fieldAt b 2 2)
  | .tally => .tally (fieldAt b 0 2) (fieldAt b 2 2) (fieldAt b 4 4) (fieldAt b 8 2)
  | .hold => .hold (fieldAt b 0 2) (fieldAt b 2 1) (fieldAt b 3 1) (fieldAt b 4 1)
  | .shift => .shift (fieldAt b 0 2)
  | .stock => .stock (fieldAt b 0 1) (fieldAt b 1 1) (stockFiguresAt b 2) (stockFiguresAt b 15)
  | .bayreq => .bayreq (fieldAt b 0 4) (fieldAt b 4 4) (fieldAt b 8 1) (fieldAt b 9 1)
  | .baygrant => .baygrant (fieldAt b 0 1) (fieldAt b 1 1) (fieldAt b 2 2) (fieldAt b 4 1)
  | .loadnote => .loadnote (fieldAt b 0 1) (fieldAt b 1 1) (fieldAt b 2 2) (fieldAt b 4 4) (fieldAt b 8 4)

/-- The bytes the CRC covers: from the site code to the last body byte (01 R1). -/
def crcBytes (f : Frame) : List Byte :=
  bigEndian 2 f.site.toNat ++ [f.origin, f.boot, f.sequence, f.kind, f.bodyLength] ++ f.body.take f.bodyLength.toNat

end Sys2Proof.Machine
end

