-- ==== Sys2Proof/Machine/Ops.lean ====
section
/-! DEFINITION. The named operations that every block uses: time, saturating counts, the homes of each register, the event
queue, the transmit queue, the machine table and the draw table. -/

namespace Sys2Proof.Machine

open Sys2Proof

/-! ## Counts -/

/-- A saturating count (00, Arithmetic: "Counters stated as saturating stop at their maximum"). -/
def bump (limit n : Nat) : Nat := min (n + 1) limit

def addSat (limit n d : Nat) : Nat := min (n + d) limit

def max16 : Nat := 65535
def max32 : Nat := 4294967295

/-- An unsigned 32-bit figure: the exact value where it fits, otherwise a free value (log 9). -/
def fit32 (n : Nat) : Nat := if n ≤ max32 then n else (Config.unfit32 n).toNat

/-- A 32-bit figure of the draw table after an addition: the exact value where it fits, otherwise a free value that is not below the
figure it takes the place of: "Within one shift no entry of the draw table decreases while its row stands" (03 R41; log 9). -/
def grow32 (old add : Nat) : Nat := max old (fit32 (old + add))

/-- A signed 32-bit figure: the exact value where it fits, otherwise a free value (log 9). -/
def fitSigned32 (x : Int) : Int :=
  if -2147483648 ≤ x ∧ x ≤ 2147483647 then x else (Config.unfitSigned32 x).toInt

/-! ## Time (00, Time; log 2) -/

/-- Milliseconds in hundredths of a millisecond. -/
def ms (n : Nat) : Nat := 100 * n

/-- Seconds in hundredths of a millisecond. -/
def sec (n : Nat) : Nat := 100000 * n

/-- A timer started now. -/
def Part.after (p : Part) (duration : Nat) : Timer := some (p.now + duration)

/-- The time base has come to a moment: an expiry is taken, or time has passed before an event. -/
def Part.reach (p : Part) (moment : Nat) : Part := { p with now := max p.now moment }

/-- Seconds left until a moment; a broken second is rounded as the free value says (log 9). -/
def secondsLeft (now due : Nat) : Nat :=
  (due - now) / 100000 +
    (if (due - now) % 100000 = 0 then 0 else if Config.secondsRoundUp (due - now) then 1 else 0)

/-! ## One block of the part replaced -/

def Part.setSnc (p : Part) (x : Snc) : Part := { p with snc := x }

def Part.setAlc (p : Part) (x : Alc) : Part := { p with alc := x }

def Part.setTlg (p : Part) (x : Tlg) : Part := { p with tlg := x }

def Part.setTotals (p : Part) (x : List Totals) : Part := { p with totals := x }

def Part.setInv (p : Part) (x : Inv) : Part := { p with inv := x }

def Part.setRsc (p : Part) (x : Rsc) : Part := { p with rsc := x }

def Part.setCnl (p : Part) (x : Cnl) : Part := { p with cnl := x }

def Part.setMachines (p : Part) (x : List MachineRow) : Part := { p with machines := x }

def Part.setCfl (p : Part) (x : Cfl) : Part := { p with cfl := x }

def Part.setPins (p : Part) (x : Pins) : Part := { p with pins := x }

def Part.setRequestOrder (p : Part) (x : Nat) : Part := { p with requestOrder := x }

def Part.setHoses (p : Part) (x : Quad Hose) : Part := { p with hoses := x }

def Part.setPumps (p : Part) (x : ByPump Pump) : Part := { p with pumps := x }

def Part.setDraws (p : Part) (x : Nat) : Part := { p with draws := x }

/-! ## Homes -/

def Part.hose (p : Part) (h : HoseId) : Hose := p.hoses.get h

def Part.setHose (p : Part) (h : HoseId) (u : Hose) : Part := p.setHoses (p.hoses.set h u)

def Part.modHose (p : Part) (h : HoseId) (f : Hose → Hose) : Part := p.setHose h (f (p.hose h))

def Part.modReader (p : Part) (h : HoseId) (f : Reader → Reader) : Part :=
  p.modHose h fun u => { u with reader := f u.reader }

def Part.modMeter (p : Part) (h : HoseId) (f : Meter → Meter) : Part :=
  p.modHose h fun u => { u with meter := f u.meter }

def Part.modValves (p : Part) (h : HoseId) (f : Vsq → Vsq) : Part :=
  p.modHose h fun u => { u with valves := f u.valves }

/-- A change of the transaction context; a hose without one is left as it is. -/
def Part.modContext (p : Part) (h : HoseId) (f : Context → Context) : Part :=
  p.modHose h fun u => { u with context := u.context.map f }

def Part.modPump (p : Part) (i : PumpId) (f : Pump → Pump) : Part :=
  p.setPumps (p.pumps.set i (f (p.pumps.get i)))

def Part.comp (p : Part) (c : CompId) : Compartment := p.inv.comps.get c

def Part.modComp (p : Part) (c : CompId) (f : Compartment → Compartment) : Part :=
  p.setInv { p.inv with comps := p.inv.comps.set c (f (p.inv.comps.get c)) }

def Part.modPins (p : Part) (h : HoseId) (f : HosePins → HosePins) : Part :=
  p.setPins { p.pins with hoses := p.pins.hoses.set h (f (p.pins.hoses.get h)) }

/-! ## Settings in force -/

def Part.identity (p : Part) : Option Identity := p.cfl.settings.map (·.identity)

def Part.role (p : Part) : Option Role := p.cfl.settings.map (·.identity.role)

def Part.hoseSettings (p : Part) (h : HoseId) : Option HoseSettings := p.cfl.settings.bind fun s => s.hoses.get h

def Part.compSettings (p : Part) (c : CompId) : Option CompSettings := p.cfl.settings.map fun s => s.comps.get c

def Part.accountSettings (p : Part) (a : Nat) : Option AccountSettings := p.cfl.settings.bind fun s => s.accounts[a]?

/-- An account's ceiling; 0 for none (03 R54, 07 section 7.6). -/
def Part.ceiling (p : Part) (a : Nat) : Nat := ((p.accountSettings a).map (·.ceiling)).getD 0

/-- The compartment of a hose, by the image in force (08 R147). -/
def Part.hoseComp (p : Part) (h : HoseId) : Option CompId := (p.hoseSettings h).map (·.compartment)

/-- The own station number; 0 stands for none (10 R169). -/
def Part.station (p : Part) : Nat := p.cfl.station.getD 0

/-! ## The event queue (11 R181) -/

/-- An event offered: it joins the tail, or at 16 events it is discarded and LOST is set. -/
def Cnl.offer (c : Cnl) (e : Event) : Cnl :=
  if c.events.length < 16 then { c with events := c.events ++ [e] } else { c with lost := true }

def Part.event (p : Part) (e : Event) : Part := p.setCnl (p.cnl.offer e)

/-- The attention output: asserted while the queue holds at least one event. -/
def Part.attention (p : Part) : Bool := !p.cnl.events.isEmpty

/-! ## The transmit queue (01 section 1.5) -/

/-- The queue without its oldest yielding notice, or none when it holds no yielding notice (R15). -/
def withoutOldestYielding : List Queued → Option (List Queued)
  | [] => none
  | q :: rest => if q.yielding then some rest else (withoutOldestYielding rest).map (q :: ·)

/-- What becomes of an offered notice (R15). -/
inductive Admission where
  | appended
  | displaced (rest : List Queued)
  | yielded
  | dropped
deriving DecidableEq, Repr

/-- The outcome of an offer to a queue (R15). -/
def admission (queue : List Queued) (yielding : Bool) : Admission :=
  if queue.length < 16 then .appended
  else if yielding then .yielded
  else match withoutOldestYielding queue with
    | some rest => .displaced rest
    | none => .dropped

/-- A notice offered to the transmit queue (R15); discarded uncounted while the SNC is stopped (R20). -/
def Part.offer (p : Part) (n : Notice) (yielding : Bool) : Part :=
  if p.snc.joined then
    match admission p.snc.queue yielding with
    | .appended => p.setSnc { p.snc with queue := p.snc.queue ++ [⟨n, yielding⟩] }
    | .displaced rest =>
      p.setSnc { p.snc with queue := rest ++ [⟨n, yielding⟩], txYielded := bump max16 p.snc.txYielded }
    | .yielded => p.setSnc { p.snc with txYielded := bump max16 p.snc.txYielded }
    | .dropped =>
      (p.setSnc { p.snc with txDropped := bump max16 p.snc.txDropped }).event (.txDropped n.kind)
  else p

/-- Whether a waiting notice is the CLAIM of a claim number (R16, R17). -/
def isClaimOf (number : Nat) (q : Queued) : Bool :=
  match q.notice with
  | .claim _ _ n _ => n == number
  | _ => false

/-- The queue with the body of its first CLAIM of a number replaced in place (R16). -/
def replaceClaim (number : Nat) (n : Notice) : List Queued → List Queued
  | [] => []
  | q :: rest => if isClaimOf number q then { q with notice := n } :: rest else q :: replaceClaim number n rest

/-- A CLAIM offered: it replaces a waiting CLAIM of its number in place, or is admitted (R16). -/
def Part.offerClaim (p : Part) (shift machine number reserved : Nat) : Part :=
  if p.snc.joined && p.snc.queue.any (isClaimOf number) then
    p.setSnc { p.snc with queue := replaceClaim number (.claim shift machine number reserved) p.snc.queue }
  else p.offer (.claim shift machine number reserved) false

/-- A closing notice offered: every waiting CLAIM of the number leaves the queue first (R17). -/
def Part.offerClosing (p : Part) (number : Nat) (n : Notice) : Part :=
  (p.setSnc { p.snc with queue := p.snc.queue.filter fun q => !isClaimOf number q }).offer n false

/-! ## The machine table and the draw table -/

/-- Whether lookups of the role in force may match an entry (02 R26). -/
def roleAllows (role : Option Role) (e : MachineEntry) : Bool :=
  match role with
  | some .bowser => e.inlet.isNone
  | some .depot => e.inlet.isSome
  | none => false

/-- Lookup by tag code (02 R27). -/
def Part.lookupTag (p : Part) (code : TagCode) : Option Nat :=
  if code = 0 then none
  else p.machines.findIdx? fun m => roleAllows p.role m.entry && m.entry.tag == code

/-- Lookup by machine number among the entries the role allows (02 R27). -/
def Part.lookupNumber (p : Part) (number : Nat) : Option Nat :=
  p.machines.findIdx? fun m => roleAllows p.role m.entry && m.entry.number == number

/-- The entry of a machine number, "searching every entry whatever the role" (02 R34, R35, 03 R43, R45). -/
def Part.findMachine (p : Part) (number : Nat) : Option Nat :=
  p.machines.findIdx? fun m => m.entry.number == number

def Part.modMachine (p : Part) (position : Nat) (f : MachineRow → MachineRow) : Part :=
  p.setMachines (p.machines.modify position f)

/-- A bowser inlet's allowance is taken as OPEN, whatever value the image gives it (02 R26). -/
def MachineEntry.limit (e : MachineEntry) : Option Nat := if e.inlet.isSome then none else e.allowance

/-- Drawn(m) of a row: the sum across its columns (03 R41). -/
def MachineRow.total (m : MachineRow) : Nat := m.drawn.sum

/-- Drawn(m) of a machine number; 0 when no entry has it. -/
def Part.drawn (p : Part) (number : Nat) : Nat :=
  match p.machines.find? fun m => m.entry.number == number with
  | some m => m.total
  | none => 0

/-- Drawn(a): the sum of Drawn(m) over the machines whose entry names the account (03 R41). -/
def Part.drawnAccount (p : Part) (account : Nat) : Nat :=
  ((p.machines.filter fun m => m.entry.account == account).map MachineRow.total).sum

/-- The entry of a row in a station's column. -/
def MachineRow.column (m : MachineRow) (station : Nat) : Nat := m.drawn.getD (station - 1) 0

def MachineRow.setColumn (m : MachineRow) (station value : Nat) : MachineRow :=
  { m with drawn := m.drawn.set (station - 1) value }

/-- The own-column entry of a table position (03 R42, R50). -/
def Part.ownColumn (p : Part) (position : Nat) : Nat :=
  match p.machines[position]? with
  | some m => m.column p.station
  | none => 0

end Sys2Proof.Machine
end

