-- ==== Sys2Proof/Machine/Flags.lean ====
section
/-! DEFINITION. Fault flags: which cause gives which flag, and the byte the record layout shows. -/

namespace Sys2Proof.Machine

open Sys2Proof

/-- The union of two fault sets: a flag appears in a set at most once (06 R104). -/
def FaultSet.union (x y : FaultSet) : FaultSet :=
  { meter := x.meter || y.meter, valve := x.valve || y.valve, tag := x.tag || y.tag, overrate := x.overrate || y.overrate
    overrun := x.overrun || y.overrun, creep := x.creep || y.creep, estimated := x.estimated || y.estimated }

/-- The flag that a cause adds when the end cause is already set (06 R109): a meter, valve or tag cause; other causes add none. -/
def Cause.flag : Cause → FaultSet
  | .meterFault => { meter := true }
  | .valveFault => { valve := true }
  | .tagLost => { tag := true }
  | .tagChanged => { tag := true }
  | .preset => {}
  | .hung => {}
  | .operator => {}
  | .noFlow => {}
  | .claimCut => {}
  | .held => {}
  | .lowStock => {}
  | .pumpWait => {}
  | .emergency => {}
  | .powerLoss => {}

/-- Fault flags, one bit each from the lowest: METER, VALVE, TAG, OVERRATE, OVERRUN, CREEP, ESTIMATED (07 section 7.7). -/
def FaultSet.code (f : FaultSet) : Nat :=
  flagCode f.meter + 2 * flagCode f.valve + 4 * flagCode f.tag + 8 * flagCode f.overrate + 16 * flagCode f.overrun
    + 32 * flagCode f.creep + 64 * flagCode f.estimated

/-- A flag set added to a transaction's fault set. -/
def Part.addFaults (p : Part) (h : HoseId) (f : FaultSet) : Part :=
  p.modContext h fun c => { c with faults := c.faults.union f }

end Sys2Proof.Machine
end

