-- ==== Sys2Proof/Machine/Volume.lean ====
section
/-! DEFINITION. The formulas: volumes of steps, rates, temperature correction, prices, strapping. -/

namespace Sys2Proof.Machine

open Sys2Proof

/-- The volume of a number of steps at the hose's meter constants, in cL, rounded down (04 R65, R69, R73). -/
def stepVolume (st : HoseSettings) (steps : Nat) : Nat :=
  steps * 100 * st.calibration / (st.stepsPerLitre * 10000)

/-- Gross volume of a signed step count: 0 while it is below 0 (04 R65). -/
def grossOf (st : HoseSettings) (net : Int) : Nat := stepVolume st net.toNat

/-- The rate of 16 steps over an interval in hundredths of a millisecond, in cL per minute; an interval of 0 is taken as 1 (04 R70). -/
def rateOf (st : HoseSettings) (interval : Nat) : Nat :=
  960000 * st.calibration / (st.stepsPerLitre * (if interval = 0 then 1 else interval))

/-- The over-rate threshold (04 R71). -/
def rateThreshold (st : HoseSettings) : Nat := st.ratedFlow * 120

/-- The band of a temperature in tenths of a degree (04 R76). -/
def bandOf (t : Int) : Nat := (min 35 (max 0 ((t + 200) / 20))).toNat

/-- The correction factor of a grade at a temperature; 10000 while no image is in force (04 R76, 07 R136). -/
def factorOf (settings : Option Settings) (grade : Nat) (t : Int) : Nat :=
  match settings with
  | some s => s.correction.getD ((grade - 1) * 36 + bandOf t) 10000
  | none => 10000

/-- Standard volume (04 R77). -/
def standardOf (settings : Option Settings) (grade gross : Nat) (t : Int) : Nat :=
  (gross * factorOf settings grade t + 5000) / 10000

/-- The tariff's price for a grade and an account's band; 0 while no image is in force (07 R136, R140). -/
def priceOf (settings : Option Settings) (grade account : Nat) : Nat :=
  match settings with
  | some s => s.tariff.getD ((grade - 1) * 4 + ((s.accounts[account]?.map (·.band)).getD 0)) 0
  | none => 0

/-- The amount of a record, saturating (07 R140). -/
def amountOf (settings : Option Settings) (grade account standard : Nat) : Nat :=
  min ((standard * priceOf settings grade account + 50) / 100) max32

/-- The temperature that stands for an unknown one: 20.0 degrees (08 R145, 07 R136). -/
def unknownTemp : Int := 200

/-- The mean temperature of a transaction (04 R75): the sum over the count, toward zero; with no sample the latest temperature. -/
def meanTemp (m : Meter) (latest : Option Int) : Int :=
  if m.tempCount = 0 then latest.getD unknownTemp else m.tempSum.tdiv m.tempCount

/-- Litres of a signed figure in cL, rounded toward zero (08 R149, R153). -/
def litres (x : Int) : Int := x.tdiv 100

/-- The volume between a strapping point and those above it (08 R143). -/
def strapFrom : (Nat × Nat) → List (Nat × Nat) → Nat → Nat
  | (_, v1), [], _ => v1 * 100
  | (l1, v1), (l2, v2) :: rest, level =>
    if level ≤ l1 then v1 * 100
    else if level < l2 then v1 * 100 + (level - l1) * (v2 - v1) * 100 / (l2 - l1)
    else strapFrom (l2, v2) rest level

/-- A level in mm as a volume in cL through a strapping table (08 R143). -/
def strapVolume (points : List (Nat × Nat)) (level : Nat) : Nat :=
  match points with
  | [] => 0
  | p :: rest => strapFrom p rest level

end Sys2Proof.Machine
end

