-- ==== Sys2Proof/Machine/Log.lean ====
section
/-! DEFINITION. The transaction log: slots, sequence numbers, the write queue, ring order and the record layout (07). -/

namespace Sys2Proof.Machine

open Sys2Proof

/-! ## Slots and sequence numbers -/

def Part.slot (p : Part) (i : Nat) : Slot := p.tlg.slots.getD i Slot.start

def Part.modSlot (p : Part) (i : Nat) (f : Slot → Slot) : Part :=
  p.setTlg { p.tlg with slots := p.tlg.slots.modify i f }

/-- The lowest-numbered FREE slot (R127, R132). -/
def lowestFree (slots : List Slot) : Option Nat := slots.findIdx? fun s => s.state == .free

/-- The sequence limit of R126. -/
def Tlg.exhausted (t : Tlg) : Bool := 4294966271 < t.nextSequence

/-- The slot a hose reservation would take, or none (R127). -/
def Part.reservable (p : Part) : Option Nat :=
  if p.tlg.exhausted then none else lowestFree p.tlg.slots

/-- The next sequence number is given (R126). -/
def Part.takeSequence (p : Part) : Part :=
  p.setTlg { p.tlg with nextSequence := p.tlg.nextSequence + 1 }

/-! ## The write queue (07 section 7.2) -/

/-- What a request stands for in the queue, where at most one of a kind waits: the opening or closing part of a hose (R129), the
checkpoint of a hose (R130), the whole record of a compartment (R132), the release mark (R139). -/
inductive WriteKind where
  | record (hose : HoseId)
  | checkpoint (hose : HoseId)
  | whole (compartment : CompId)
  | mark
deriving DecidableEq, Repr

def WriteReq.kind : WriteReq → WriteKind
  | .opening h _ _ => .record h
  | .closing h _ => .record h
  | .checkpoint h _ _ => .checkpoint h
  | .whole c _ => .whole c
  | .mark _ => .mark

def WriteReq.isCheckpoint : WriteReq → Bool
  | .checkpoint .. => true
  | _ => false

/-- Whether a request of a kind waits. -/
def Tlg.waits (t : Tlg) (k : WriteKind) : Bool := t.queue.any fun r => r.kind == k

/-- The queue with a waiting request of the same kind replaced in place (R130, R139). -/
def replaceWaiting (r : WriteReq) : List WriteReq → List WriteReq
  | [] => []
  | q :: rest => if q.kind = r.kind then r :: rest else q :: replaceWaiting r rest

/-- The queue without its oldest checkpoint, or none when no checkpoint waits (R131). -/
def withoutOldestCheckpoint : List WriteReq → Option (List WriteReq)
  | [] => none
  | r :: rest => if r.isCheckpoint then some rest else (withoutOldestCheckpoint rest).map (r :: ·)

/-- A request other than a checkpoint joins the tail (R131). A full queue holds at least one checkpoint by R131's count. -/
def Tlg.append (t : Tlg) (r : WriteReq) : Tlg :=
  if t.queue.length < 8 then { t with queue := t.queue ++ [r] }
  else match withoutOldestCheckpoint t.queue with
    | some rest => { t with queue := rest ++ [r], ckptDisplaced := bump max16 t.ckptDisplaced }
    | none => { t with queue := t.queue ++ [r] }

/-- A request other than a checkpoint is queued: it takes the place of a waiting one of its kind (the release mark, R139), or joins
the tail (R131). No request of a hose and no whole record meets one of its kind there (R129, R132). -/
def Tlg.join (t : Tlg) (r : WriteReq) : Tlg :=
  if t.waits r.kind then { t with queue := replaceWaiting r t.queue } else t.append r

def Part.joinWrite (p : Part) (r : WriteReq) : Part := p.setTlg (p.tlg.join r)

/-- A checkpoint request (R130). -/
def Part.checkpoint (p : Part) (h : HoseId) (sequence gross : Nat) : Part :=
  let r : WriteReq := .checkpoint h sequence gross
  if p.pins.powerFail then p.setTlg { p.tlg with ckptDropped := bump max16 p.tlg.ckptDropped }
  else if p.tlg.waits r.kind then p.setTlg { p.tlg with queue := replaceWaiting r p.tlg.queue }
  else if p.tlg.queue.length < 8 then p.setTlg { p.tlg with queue := p.tlg.queue ++ [r] }
  else p.setTlg { p.tlg with ckptDropped := bump max16 p.tlg.ckptDropped }

/-- Whether a request is a hose's opening part without its closing part. -/
def isOpeningOf (h : HoseId) : WriteReq → Bool
  | .opening h' _ false => h' == h
  | _ => false

/-- The queue in which a hose's waiting opening part carries its closing part (R129). -/
def carryClosing (h : HoseId) : List WriteReq → List WriteReq
  | [] => []
  | .opening h' i false :: rest => if h' = h then .opening h' i true :: rest else .opening h' i false :: carryClosing h rest
  | r :: rest => r :: carryClosing h rest

/-- A hose's closing part is queued: it joins its waiting opening part, or the tail (R129). -/
def Part.joinClosing (p : Part) (h : HoseId) (slot : Nat) : Part :=
  if p.tlg.queue.any (isOpeningOf h) then p.setTlg { p.tlg with queue := carryClosing h p.tlg.queue }
  else p.joinWrite (.closing h slot)

/-- A whole-record request (R132): a slot, a sequence number and a place in the queue or its wait list, or it is discarded. -/
def Part.wholeRecord (p : Part) (c : CompId) (opening : OpeningFields) (closing : ClosingFields) : Part :=
  match p.reservable with
  | none => p.setTlg { p.tlg with recordsLost := bump max16 p.tlg.recordsLost }
  | some i =>
    if 4 ≤ (p.tlg.waitLists.get c).length then p.setTlg { p.tlg with recordsLost := bump max16 p.tlg.recordsLost }
    else
      let n := p.tlg.nextSequence
      let o : Opening := { sequence := n, shift := p.alc.shift, startTime := p.alc.shiftSeconds, fields := opening }
      let k : Closing := { sequence := n, endTime := p.alc.shiftSeconds, fields := closing }
      let q := (p.modSlot i fun s => { s with state := .opened, opening := some o, closing := some k }).takeSequence
      if q.tlg.waits (.whole c) then
        q.setTlg { q.tlg with waitLists := q.tlg.waitLists.set c (q.tlg.waitLists.get c ++ [.whole c i]) }
      else q.joinWrite (.whole c i)

/-- When a compartment's whole record is taken, the oldest of its wait list joins the queue (R132). -/
def Part.refill (p : Part) (c : CompId) : Part :=
  match p.tlg.waitLists.get c with
  | [] => p
  | r :: rest => p.setTlg (({ p.tlg with waitLists := p.tlg.waitLists.set c rest } : Tlg).append r)

/-- With no write in progress the oldest waiting request becomes the write in progress, for 8 ms (R128). -/
def Part.takeWrite (p : Part) : Part :=
  match p.tlg.writing, p.tlg.queue with
  | none, r :: rest =>
    let q : Part := p.setTlg { p.tlg with writing := some r, queue := rest, writeTimer := p.after (ms 8) }
    match r with
    | .whole c _ => q.refill c
    | _ => q
  | _, _ => p

/-- What a write leaves in memory (R125, R128, R130, R135). -/
def Part.memoryWrite (p : Part) (r : WriteReq) : Part :=
  match r with
  | .opening _ i withClosing =>
    p.modSlot i fun s =>
      { s with nvOpening := (s.opening.map Area.valid).getD s.nvOpening
               nvClosing := if withClosing then (s.closing.map Area.valid).getD s.nvClosing else s.nvClosing }
  | .closing _ i => p.modSlot i fun s => { s with nvClosing := (s.closing.map Area.valid).getD s.nvClosing }
  | .whole _ i =>
    p.modSlot i fun s =>
      { s with nvOpening := (s.opening.map Area.valid).getD s.nvOpening
               nvClosing := (s.closing.map Area.valid).getD s.nvClosing }
  | .checkpoint h sequence gross =>
    p.setTlg { p.tlg with checkpoints := p.tlg.checkpoints.set h (.valid (sequence, gross)) }
  | .mark sequence => p.setTlg { p.tlg with markArea := .valid sequence }

/-- What a write cut by the failing supply leaves: the part being written reads as bad (R125, R133, R135). -/
def Part.memoryTorn (p : Part) (r : WriteReq) (firstPartWhole : Bool) : Part :=
  match r with
  | .opening _ i withClosing =>
    if withClosing && firstPartWhole then
      p.modSlot i fun s => { s with nvOpening := (s.opening.map Area.valid).getD s.nvOpening, nvClosing := .bad }
    else p.modSlot i fun s => { s with nvOpening := .bad }
  | .closing _ i => p.modSlot i fun s => { s with nvClosing := .bad }
  | .whole _ i =>
    if firstPartWhole then
      p.modSlot i fun s => { s with nvOpening := (s.opening.map Area.valid).getD s.nvOpening, nvClosing := .bad }
    else p.modSlot i fun s => { s with nvOpening := .bad }
  | .checkpoint h _ _ => p.setTlg { p.tlg with checkpoints := p.tlg.checkpoints.set h .bad }
  | .mark _ => p.setTlg { p.tlg with markArea := .bad }

/-! ## Ring order (R126) -/

/-- The record a slot holds for the console: in OPEN or CLOSED, with its opening fields. -/
def Slot.record (s : Slot) : Option Opening :=
  match s.state with
  | .opened => s.opening
  | .closed => s.opening
  | .free => none
  | .reserved => none

/-- The lowest sequence number above a bound among the held records; with bound 0, the oldest record. -/
def nextAbove (bound : Nat) : List Slot → Option Nat
  | [] => none
  | s :: rest =>
    match s.record with
    | some o =>
      if bound < o.sequence then
        match nextAbove bound rest with
        | some n => some (min o.sequence n)
        | none => some o.sequence
      else nextAbove bound rest
    | none => nextAbove bound rest

/-- The highest sequence number held. -/
def newest : List Slot → Option Nat
  | [] => none
  | s :: rest =>
    match s.record, newest rest with
    | some o, some n => some (max o.sequence n)
    | some o, none => some o.sequence
    | none, r => r

/-- The slot that holds a sequence number in OPEN or CLOSED. -/
def slotOf (sequence : Nat) (slots : List Slot) : Option Nat :=
  slots.findIdx? fun s => match s.record with
    | some o => o.sequence == sequence
    | none => false

/-- Whether a hose holds a log slot: "Every hose in AUTHORISING, AWAIT_PUMP, FLOWING, STOPPING or COMMITTING holds exactly one log slot"
(06 R115), and in these states it has a context. -/
def Part.holdsSlot (p : Part) (i : Nat) : Bool := allHoses.any fun h => (p.hose h).context.any fun x => x.slot == i

/-- Frees the records of R139 from the oldest onward; answers the slots, the count and the last number freed. The CLOSED slot of a hose
that waits in COMMITTING for its valves is held: it is a CLOSED record of the log, which a RELEASE may free, from the moment the hose
gives it up (06 R114, R115; log 36). -/
def releaseLoop (limit shift : Nat) (held : Nat → Bool) : Nat → List Slot → Nat → Nat → List Slot × Nat × Nat
  | 0, slots, count, last => (slots, count, last)
  | fuel + 1, slots, count, last =>
    match nextAbove 0 slots with
    | none => (slots, count, last)
    | some n =>
      match slotOf n slots with
      | none => (slots, count, last)
      | some i =>
        let s := slots.getD i Slot.start
        if n ≤ limit ∧ s.state = .closed ∧ s.opening.map (·.shift) ≠ some shift ∧ held i = false then
          releaseLoop limit shift held fuel
            (slots.modify i fun s => { s with state := .free, opening := none, closing := none }) (count + 1) n
        else (slots, count, last)

/-- A release mark is queued, in the place of one still waiting, unless the power-fail warning is asserted (R139). -/
def Part.queueMark (p : Part) (sequence : Nat) : Part := if p.pins.powerFail then p else p.joinWrite (.mark sequence)

/-! ## The record layout (07 section 7.7) -/

def slotStateCode : SlotState → Nat
  | .free => 0
  | .reserved => 1
  | .opened => 2
  | .closed => 3

def methodCode : EntryMethod → Nat
  | .tag => 1
  | .keyed => 2

def OpeningFields.kindCode : OpeningFields → Nat
  | .fill false .. => 1
  | .fill true .. => 2
  | .receipt .. => 3
  | .variance _ => 4
  | .delivery _ => 5

/-- Offsets 16 to 51 of a record, by kind; a field not yet fixed reads as 0. -/
def recordTail (o : OpeningFields) (k : Option ClosingFields) : List Byte :=
  match o with
  | .fill _ hose machine account grade method claim preset target =>
    bigEndian 1 (hoseNumber hose) ++ bigEndian 1 account ++ bigEndian 2 machine ++ bigEndian 1 grade
      ++ bigEndian 1 (methodCode method) ++ bigEndian 2 claim ++ bigEndian 4 preset
      ++ (match k with
          | some (.fill final gross standard temperature amount cause faults) =>
            bigEndian 4 final ++ bigEndian 4 gross ++ bigEndian 4 standard
              ++ bigEndian 2 (BitVec.ofInt 16 temperature).toNat ++ bigEndian 1 cause.code ++ bigEndian 1 faults.code
              ++ bigEndian 4 amount
          | _ => bigEndian 20 0)
      ++ bigEndian 1 ((target.map (·.1)).getD 0) ++ bigEndian 1 ((target.map fun t => compCode t.2).getD 0) ++ bigEndian 2 0
  | .receipt compartment depot grant =>
    bigEndian 1 (compCode compartment) ++ bigEndian 1 depot ++ bigEndian 2 grant
      ++ (match k with
          | some (.receipt gross standard unexpected) =>
            bigEndian 1 (flagCode unexpected) ++ bigEndian 3 0 ++ bigEndian 4 gross ++ bigEndian 4 standard
          | _ => bigEndian 12 0)
      ++ bigEndian 20 0
  | .variance compartment =>
    bigEndian 1 (compCode compartment) ++ bigEndian 7 0
      ++ (match k with
          | some (.variance book gauge difference) =>
            bigEndian 4 (word32OfInt book) ++ bigEndian 4 (word32OfInt gauge) ++ bigEndian 4 (word32OfInt difference)
          | _ => bigEndian 12 0)
      ++ bigEndian 16 0
  | .delivery compartment =>
    bigEndian 1 (compCode compartment) ++ bigEndian 7 0
      ++ (match k with
          | some (.delivery gross) => bigEndian 4 gross
          | _ => bigEndian 4 0)
      ++ bigEndian 24 0

/-- The 52 bytes of a record (07 section 7.7). -/
def recordBytes (state : SlotState) (o : Opening) (k : Option Closing) : List Byte :=
  bigEndian 4 o.sequence ++ bigEndian 1 o.fields.kindCode ++ bigEndian 1 (slotStateCode state) ++ bigEndian 2 o.shift
    ++ bigEndian 4 (fit32 o.startTime) ++ bigEndian 4 (fit32 ((k.map (·.endTime)).getD 0)) ++ recordTail o.fields (k.map (·.fields))

/-! ## Account totals (07 R141) -/

def addTotals (totals : List Totals) (account volume amount : Nat) : List Totals :=
  totals.modify account fun t => { volume := addSat max32 t.volume volume, amount := addSat max32 t.amount amount }

end Sys2Proof.Machine
end

