-- ==== Sys2Proof/Machine/InventoryOps.lean ====
section
/-! DEFINITION. The inventory unit's shared operations: the book, receipts and STOCK notices (08). -/

namespace Sys2Proof.Machine

open Sys2Proof

/-- A gross change handed to the book of a hose's compartment (08 R147): metered out takes it, the book stock loses it. While
the opening book is none the figures stay 0. -/
def Compartment.meterOut (c : Compartment) (delta : Int) : Compartment :=
  if c.openingBook.isSome then
    { c with meteredOut := fitSigned32 (c.meteredOut + delta), book := fitSigned32 (c.book - delta) }
  else c

def Part.meterOut (p : Part) (h : HoseId) (delta : Int) : Part :=
  match p.hoseComp h with
  | some c => p.modComp c fun k => k.meterOut delta
  | none => p

/-- A receipt (08 R148): with the opening book set, the gross is added to receipts and book and the receipt check becomes
pending with a count of 0; otherwise no figure changes. -/
def Compartment.receive (c : Compartment) (gross : Nat) : Compartment :=
  if c.openingBook.isSome then
    { c with receipts := fitSigned32 (c.receipts + gross), book := fitSigned32 (c.book + gross), receiptCheck := some 0 }
  else c

/-- The filtered gauge in whole litres (08 R144). -/
def Compartment.gaugeLitres (c : Compartment) : Nat := (c.gauge.getD 0) / 100

/-- A compartment's figures in a STOCK notice (08 R153). -/
def stockFigures (c : Compartment) (st : CompSettings) : StockFigures :=
  { book := if c.openingBook.isSome then litres c.book else 0
    gauge := c.gaugeLitres, capacity := st.capacity, settled := flagCode c.settled }

/-- The STOCK notice of the moment (08 R153). A depot sends NORMAL (01 R2). -/
def stockNotice (p : Part) (s : Settings) : Notice :=
  .stock (roleCode s.identity.role)
    (restockCode (match s.identity.role with
      | .bowser => p.rsc.state
      | .depot => .normal))
    (stockFigures p.inv.comps.a s.comps.a) (stockFigures p.inv.comps.b s.comps.b)

/-- A STOCK offered as a yielding notice (08 R153). With no image in force the SNC is stopped and nothing is offered (R20). -/
def Part.offerStock (p : Part) : Part :=
  match p.cfl.settings with
  | some s => p.offer (stockNotice p s) true
  | none => p

end Sys2Proof.Machine
end

