-- ==== Sys2Proof/Machine/RestockOps.lean ====
section
/-! DEFINITION. The restock coordinator's shared operations: the bowser's states and BAYREQs, the depot's queue and bays (09). -/

namespace Sys2Proof.Machine

open Sys2Proof

/-! ## The bowser side -/

/-- The space of a compartment in litres (09 R157). -/
def spaceOf (c : Compartment) (st : CompSettings) : Nat :=
  if c.openingBook.isSome then st.capacity - (litres c.book).toNat
  else if c.gauge.isSome then st.capacity - c.gaugeLitres
  else 0

/-- Whether a compartment makes a BAYREQ urgent (09 R157). -/
def urgentComp (c : Compartment) (st : CompSettings) : Bool :=
  c.openingBook.isSome && decide (c.book < ((st.reserve * 100 + st.capacity * 10 : Nat) : Int))

/-- The BAYREQ of the moment (09 R157). -/
def bayreqNotice (p : Part) (s : Settings) (cancel : Bool) : Notice :=
  .bayreq (spaceOf p.inv.comps.a s.comps.a) (spaceOf p.inv.comps.b s.comps.b)
    (flagCode (urgentComp p.inv.comps.a s.comps.a || urgentComp p.inv.comps.b s.comps.b)) (flagCode cancel)

/-- A BAYREQ built and offered in REQUESTED: the repeat timer restarts and the awaited set becomes the compartments with
space (09 R157). -/
def Part.requestBay (p : Part) : Part :=
  match p.cfl.settings with
  | some s =>
    (p.setRsc { p.rsc with
        repeatTimer := p.after (sec 10)
        awaited := ⟨decide (0 < spaceOf p.inv.comps.a s.comps.a), decide (0 < spaceOf p.inv.comps.b s.comps.b)⟩ }).offer
      (bayreqNotice p s false) false
  | none => p

/-- A change of restock state with its RESTOCK_STATE event (09 R155). Its STOCK follows every other notice of the event
(01 R15): `finish` offers it. -/
def Part.setRestock (p : Part) (r : RestockState) : Part :=
  (p.setRsc { p.rsc with state := r }).event (.restockState r)

/-- Every hose is IDLE or LIFTED (09 R157). -/
def drained (p : Part) : Bool :=
  allHoses.all fun h => (p.hose h).dsc == .idle || (p.hose h).dsc == .lifted

/-- The entry into REQUESTED (09 R157). -/
def Part.enterRequested (p : Part) : Part := (p.setRestock .requested).requestBay

/-- The entry into DRAINING, with the test of R157 made at once. DRAINING entered and left at one event queues one event naming
the state reached (09 R155). -/
def Part.enterDraining (p : Part) : Part :=
  if drained p then p.enterRequested else p.setRestock .draining

/-- The test of R157 at a change of hose state. -/
def Part.drainTest (p : Part) : Part :=
  if p.rsc.state = .draining ∧ drained p = true then p.enterRequested else p

/-- The return to NORMAL (09 R160): timer cancelled, grant and awaited set given up, a cancel BAYREQ offered. -/
def Part.returnNormal (p : Part) : Part :=
  let q := (p.setRsc { p.rsc with repeatTimer := none, grant := none, awaited := ⟨false, false⟩ }).setRestock .normal
  match q.cfl.settings with
  | some s => q.offer (bayreqNotice q s true) false
  | none => q

/-- The end of an event that may have changed the restock state: the STOCK of R153, after every other notice (01 R15). -/
def finish (before after : Part) : Part :=
  if after.rsc.state = before.rsc.state then after else after.offerStock

/-! ## The depot side -/

/-- An entry takes its place: urgent first, then by arrival order (09 R161). -/
def insertEntry (e : QueueEntry) : List QueueEntry → List QueueEntry
  | [] => [e]
  | q :: rest =>
    if q.urgency < e.urgency ∨ (q.urgency = e.urgency ∧ e.arrival < q.arrival) then e :: q :: rest
    else q :: insertEntry e rest

/-- A station inserted in the queue with a new arrival order (09 R161, R163). -/
def Part.insertStation (p : Part) (station urgency : Nat) (spaces : ByComp Nat) : Part :=
  p.setRsc { p.rsc with
      arrival := p.rsc.arrival + 1
      queue := insertEntry { station := station, urgency := urgency, arrival := p.rsc.arrival + 1, spaces := spaces } p.rsc.queue }

def Part.setBay (p : Part) (b : BayId) (e : Option BayEntry) : Part :=
  p.setRsc { p.rsc with bays := p.rsc.bays.set b e }

/-- The bay a station holds. -/
def Part.bayOf (p : Part) (station : Nat) : Option BayId :=
  if (p.rsc.bays.b1.map (·.station)) = some station then some .b1
  else if (p.rsc.bays.b2.map (·.station)) = some station then some .b2
  else none

/-- Whether the image gives a bay (09 R162). -/
def Part.hasBay (p : Part) (b : BayId) : Bool :=
  match p.identity with
  | some i => decide (bayNumber b ≤ i.bays)
  | none => false

/-- The lowest-numbered free bay (09 R162). -/
def Part.freeBay (p : Part) : Option BayId :=
  if p.hasBay .b1 && p.rsc.bays.b1.isNone then some .b1
  else if p.hasBay .b2 && p.rsc.bays.b2.isNone then some .b2
  else none

/-- The next grant number: from 65535 to 1 (09 R162). -/
def nextGrant (n : Nat) : Nat := if n = 65535 then 1 else n + 1

/-- One grant: the head takes the bay, the expiry timer starts at 900 s, BAYGRANT and GRANT follow (09 R162). -/
def Part.grantBay (p : Part) (b : BayId) (e : QueueEntry) (rest : List QueueEntry) : Part :=
  let n := nextGrant p.rsc.grantCounter
  let entry : BayEntry :=
    { station := e.station, grant := n, urgency := e.urgency, spaces := e.spaces, loaded := ⟨0, 0⟩, active := 0
      noteOffered := false, timer := .expiry (p.now + sec 900) }
  let q : Part := p.setRsc { p.rsc with queue := rest, grantCounter := n, bays := p.rsc.bays.set b (some entry) }
  (q.offer (.baygrant e.station (bayNumber b) n 0) false).event (.grant e.station (bayNumber b) n false)

/-- The grant step (09 R162). There are two bays at most, so two rounds grant all that can be granted. -/
def Part.grantStep : Nat → Part → Part
  | 0, p => p
  | fuel + 1, p =>
    match p.freeBay, p.rsc.queue with
    | some b, e :: rest => Part.grantStep fuel (p.grantBay b e rest)
    | _, _ => p

/-- A grant revoked as at grant expiry (09 R163): BAYGRANT with the revoke flag, the GRANT event, the bay freed and the station
at the tail of its urgency. -/
def Part.revokeBay (p : Part) (b : BayId) (e : BayEntry) : Part :=
  let q := (p.offer (.baygrant e.station (bayNumber b) e.grant 1) false).event (.grant e.station (bayNumber b) e.grant true)
  (q.setBay b none).insertStation e.station e.urgency e.spaces

/-- A station leaves the queue, or its bay is freed and the grant step runs (09 R164). -/
def Part.removeStation (p : Part) (station : Nat) : Part :=
  match p.bayOf station with
  | some b => (p.setBay b none).grantStep 2
  | none => p.setRsc { p.rsc with queue := p.rsc.queue.filter fun e => !(e.station == station) }

/-- The bay entry a hose's loadout was authorised under, when the target still holds the bay under that grant number (09 R163). -/
def Part.bayUnderGrant (p : Part) (c : Context) : Option (BayId × BayEntry) :=
  match c.target with
  | none => none
  | some (station, _) =>
    match p.bayOf station with
    | none => none
    | some b =>
      match p.rsc.bays.get b with
      | some e => if e.grant = c.grant then some (b, e) else none
      | none => none

/-- A loadout to the bay's station has ended: the count falls by 1, and at 0 the bay timer starts anew, as the release timer
when a LOADNOTE has been offered under the grant and as the grant expiry timer otherwise (09 R163). -/
def BayEntry.loadoutEnded (now : Nat) (e : BayEntry) : BayEntry :=
  { e with
    active := e.active - 1
    timer := if e.active - 1 = 0 then (if e.noteOffered then .release (now + sec 120) else .expiry (now + sec 900)) else e.timer }

def Part.endLoadout (p : Part) (c : Context) : Part :=
  match p.bayUnderGrant c with
  | some (b, e) => p.setBay b (some (e.loadoutEnded p.now))
  | none => p

end Sys2Proof.Machine
end

