-- ==== Sys2Proof/Machine/ValveOps.lean ====
section
/-! DEFINITION. The valve sequencer's shared operations: commands, settle supervision, phase moves and load points (05). -/

namespace Sys2Proof.Machine

open Sys2Proof

/-- The command to the trim valve: OPEN in TRIM, FULL and TAPER (05 R80). -/
def trimCommand : Phase → Position
  | .shut => .closed
  | .trim => .opened
  | .full => .opened
  | .taper => .opened
  | .shutting => .closed

/-- The command to the main valve: OPEN in FULL alone (05 R80). -/
def mainCommand : Phase → Position
  | .shut => .closed
  | .trim => .closed
  | .full => .opened
  | .taper => .closed
  | .shutting => .closed

def commandOf (v : ValveId) (ph : Phase) : Position :=
  match v with
  | .trim => trimCommand ph
  | .main => mainCommand ph

def Vsq.valve (q : Vsq) : ValveId → Valve
  | .trim => q.trim
  | .main => q.main

def Vsq.setValve (q : Vsq) (v : ValveId) (x : Valve) : Vsq :=
  match v with
  | .trim => { q with trim := x }
  | .main => { q with main := x }

/-- The settle timer at an event that changed the valve's command or switch (05 R81): cancelled when they agree; started when
they differ and it does not run; otherwise it runs on. `settle` is the hose's settle time, none while no settings are loaded,
and then no settle timer runs (05 R80, R100). -/
def superviseTimer (now : Nat) (settle : Option Nat) (command : Position) (v : Valve) : Timer :=
  if command = v.switch then none
  else match v.settle, settle with
    | some due, _ => some due
    | none, some t => some (now + ms t)
    | none, none => none

def Valve.supervise (now : Nat) (settle : Option Nat) (command : Position) (v : Valve) : Valve :=
  { v with settle := superviseTimer now settle command v }

/-- A phase is entered: each valve whose command changes is supervised afresh (05 R81), also at the second change of a command at one
event, DESIGN CHOICE (log 37). -/
def Vsq.enter (now : Nat) (settle : Option Nat) (ph : Phase) (q : Vsq) : Vsq :=
  { q with
    phase := ph
    trim := if trimCommand q.phase = trimCommand ph then q.trim else q.trim.supervise now settle (trimCommand ph)
    main := if mainCommand q.phase = mainCommand ph then q.main else q.main.supervise now settle (mainCommand ph) }

/-- TRIM, FULL and TAPER: the phases with a valve commanded open. -/
def Phase.flowing : Phase → Bool
  | .trim => true
  | .full => true
  | .taper => true
  | .shut => false
  | .shutting => false

/-- A load point: a pending preset becomes the active preset (05 R91). -/
def Vsq.load (q : Vsq) : Vsq :=
  match q.pending with
  | some v => { q with active := v, pending := none }
  | none => q

/-- A load point that depends on the pending preset's value is due (05 R91, the last entries of TRIM, FULL and TAPER). -/
def Vsq.loadDue (st : HoseSettings) (gross : Nat) (q : Vsq) : Bool :=
  match q.pending with
  | none => false
  | some v =>
    match q.phase with
    | .trim => decide (v ≤ gross)
    | .taper => decide (v ≤ gross)
    | .full => decide (v ≤ gross + st.slowdown)
    | .shut => false
    | .shutting => false

def Vsq.loadIfDue (st : HoseSettings) (gross : Nat) (q : Vsq) : Vsq := if q.loadDue st gross then q.load else q

/-- A transaction step has brought the gross to a multiple of 100 cL above 0 (05 R91). -/
def Vsq.loadAtHundred (gross : Nat) (q : Vsq) : Vsq :=
  if q.phase.flowing && decide (0 < gross) && decide (gross % 100 = 0) then q.load else q

/-- The phase from a gross and an active preset, once the start volume is behind (05 R84). -/
def phaseByGross (st : HoseSettings) (gross active : Nat) : Phase :=
  if active ≤ gross then .shutting
  else if active ≤ gross + st.slowdown then .taper
  else .full

/-- The move that is due (05 R84, R85): the presets after a load point at a phase change among TRIM, FULL and TAPER (R91), and
the phase to be in. The trim valve has confirmed OPEN when its switch shows OPEN (log 13). -/
def Vsq.move (st : HoseSettings) (gross : Nat) (q : Vsq) : Vsq × Phase :=
  match q.phase with
  | .trim =>
    if q.active ≤ gross then (q, .shutting)
    else if q.trim.switch = .opened ∧ st.startVolume ≤ gross then (q.load, phaseByGross st gross q.load.active)
    else (q, .trim)
  | .full =>
    if q.active ≤ gross then (q, .shutting)
    else if q.active ≤ gross + st.slowdown then
      (q.load, if q.load.active ≤ gross then .shutting else .taper)
    else (q, .full)
  | .taper => if q.active ≤ gross then (q, .shutting) else (q, .taper)
  | .shut => (q, .shut)
  | .shutting => (q, .shutting)

/-- A valve is settled in SHUTTING: its switch shows CLOSED, or a close fault has been found on it (05 R87). -/
def Valve.settled (v : Valve) : Bool := v.switch == .closed || v.latch

def Vsq.settled (q : Vsq) : Bool := q.trim.settled && q.main.settled

/-- Whether a value is taken into the pending buffer (05 R90), by value alone. -/
def Vsq.accepts (q : Vsq) (value : Nat) : Bool :=
  match q.pending with
  | none => decide (value < q.active)
  | some v => decide (value < v) && decide (value < q.active)

end Sys2Proof.Machine
end

