-- ==== Sys2Proof/Machine/DispenseOps.lean ====
section
/-! DEFINITION. The transaction's shared operations: stops, the shutting of valves, flow start, closing parts and pump grants (05, 06). -/

namespace Sys2Proof.Machine

open Sys2Proof

/-! ## Pieces of a stop -/

/-- A hose's grant leaves the grant set of its pump (05 R96). The arbitration that follows is `settlePumps`. -/
def Part.dropGrant (p : Part) (h : HoseId) : Part :=
  p.setPumps
    ⟨{ p.pumps.p1 with grants := p.pumps.p1.grants.filter fun g => !(g == h) },
     { p.pumps.p2 with grants := p.pumps.p2.grants.filter fun g => !(g == h) }⟩

/-- A hose's request is withdrawn from its list (05 R94). -/
def Part.withdraw (p : Part) (h : HoseId) : Part :=
  p.setPumps
    ⟨{ p.pumps.p1 with requests := p.pumps.p1.requests.filter fun r => !(r.hose == h) },
     { p.pumps.p2 with requests := p.pumps.p2.requests.filter fun r => !(r.hose == h) }⟩

/-- Supervision turns off: the grace timer is cancelled and the supervised code cleared (02 R30). -/
def Part.superviseOff (p : Part) (h : HoseId) : Part :=
  p.modReader h fun r => { r with supervised := none, grace := none }

/-- The sequencer of a hose in TRIM, FULL or TAPER enters SHUTTING, and the no-flow timer is cancelled (05 R86, 04 R72). -/
def Part.beginShutting (p : Part) (h : HoseId) : Part :=
  if (p.hose h).valves.phase.flowing then
    p.modHose h fun u =>
      { u with valves := u.valves.enter p.now ((p.hoseSettings h).map (·.settleTime)) .shutting
               meter := { u.meter with noFlow := none } }
  else p

/-- The own claim of a hose closed with a DROP at a stop before flow (03 R50). -/
def Part.dropClaim (p : Part) (h : HoseId) : Part :=
  match (p.hose h).claim, (p.hose h).context with
  | some c, some x =>
    let shift := match c.status with
      | .active => p.alc.shift
      | .oldShift => x.shift
    (p.modHose h fun u => { u with claim := none }).offerClosing c.number (.drop shift c.number)
  | _, _ => p

/-- The reservation is returned: the slot becomes FREE (07 R127). -/
def Part.returnSlot (p : Part) (i : Nat) : Part :=
  p.modSlot i fun s => { s with state := .free, opening := none, closing := none }

/-- IDLE or LIFTED by the nozzle (06 R113). -/
def restState (n : Nozzle) : DscState :=
  match n with
  | .onHook => .idle
  | .offHook => .lifted

/-- A stop before flow (06 R113), in the order of its items. -/
def Part.stopBeforeFlow (p : Part) (h : HoseId) (cause : Cause) : Part :=
  match (p.hose h).context with
  | none => p
  | some x =>
    let p := p.event (.stopped h cause)
    let p := p.modHose h fun u => { u with holdOff := none }
    let p := ((p.withdraw h).dropGrant h).modHose h fun u => { u with pumpWait := none }
    let p := p.modValves h fun v => { v with pending := none }
    let p := p.superviseOff h
    let p := p.dropClaim h
    let p := p.returnSlot x.slot
    let p := p.endLoadout x
    let p := p.modHose h fun u =>
      { u with context := none, summary := some { sequence := none, cause := some cause, faults := x.faults }
               dsc := restState u.nozzle }
    p.drainTest

/-! ## The end of flow -/

/-- The hose leaves COMMITTING, to DONE or IDLE by the nozzle; the context is cleared and the summary taken (06 R104, R114). A
return to IDLE clears the pending preset (05 R92). In DONE the table position is kept beside the cleared context, until the hose returns to IDLE
(02 R27; log 36). -/
def Part.leaveCommitting (p : Part) (h : HoseId) : Part :=
  match (p.hose h).context with
  | none => p
  | some x =>
    (p.modHose h fun u =>
      { u with context := none, summary := some { sequence := x.sequence, cause := x.cause, faults := x.faults }
               dsc := match u.nozzle with
                 | .onHook => .idle
                 | .offHook => .done
               kept := match u.nozzle with
                 | .onHook => none
                 | .offHook => some x.position
               valves := match u.nozzle with
                 | .onHook => { u.valves with pending := none }
                 | .offHook => u.valves }).drainTest

/-- The entry into SHUT at the end of flow (05 R87): supervision off, the grant released, the overrun window started unless a
power-fail warning was taken; a hose whose commit is complete leaves COMMITTING (06 R114). -/
def Part.enterShut (p : Part) (h : HoseId) : Part :=
  let taken := ((p.hose h).context.map (·.powerFail)).getD false
  let committed := ((p.hose h).context.map (·.committed)).getD false
  let p := p.modValves h fun v => { v with phase := .shut, overrun := if taken then v.overrun else p.after (sec 2) }
  let p := (p.superviseOff h).dropGrant h
  if (p.hose h).dsc = .committing ∧ committed = true then p.leaveCommitting h else p

/-- In SHUTTING with both valves settled the sequencer enters SHUT, "at the event that first makes this true" (05 R87; log 11). -/
def Part.shutTest (p : Part) (h : HoseId) : Part :=
  if (p.hose h).valves.phase = .shutting ∧ (p.hose h).valves.settled = true then p.enterShut h else p

/-! ## The first-cause rule (06 R109, R110) -/

/-- A stop cause taken by a hose: before flow it undoes the transaction, in FLOWING it becomes the end cause and the valves shut,
later it may add a flag; in IDLE, LIFTED and DONE it is not taken. -/
def Part.takeCause (p : Part) (h : HoseId) (cause : Cause) : Part :=
  match (p.hose h).dsc with
  | .authorising => p.stopBeforeFlow h cause
  | .awaitPump => p.stopBeforeFlow h cause
  | .flowing =>
    let p := (p.modContext h fun c => { c with cause := some cause }).event (.stopped h cause)
    let p := p.modHose h fun u => { u with dsc := .stopping }
    (p.beginShutting h).shutTest h
  | .stopping => p.addFaults h cause.flag
  | .committing => p.addFaults h cause.flag
  | .idle => p
  | .lifted => p
  | .done => p

/-! ## Moves of the sequencer -/

/-- The moves that are due at a gross change, at the trim valve's confirmation or at a change of the active preset (05 R84, R85):
the phase is entered; a reached preset is told to the DSC as PRESET. -/
def Part.moveValves (p : Part) (h : HoseId) : Part :=
  match p.hoseSettings h with
  | none => p
  | some st =>
    let (v, ph) := (p.hose h).valves.move st (p.hose h).meter.gross
    let q := p.modValves h fun _ => v
    if ph = v.phase then q
    else if ph = .shutting then (q.beginShutting h).takeCause h .preset
    else q.modValves h fun v => v.enter p.now (some st.settleTime) ph

/-- A value written to the pending buffer (05 R90): whether it is taken, and the part after it, with a value already due taken at
the write (R91). -/
def Part.writePending (p : Part) (h : HoseId) (value : Nat) : Part × Bool :=
  match p.hoseSettings h with
  | none => (p, false)
  | some st =>
    let u := p.hose h
    let open_ := match u.dsc with
      | .authorising => true
      | .awaitPump => true
      | .flowing => u.valves.phase.flowing
      | _ => false
    if open_ && u.valves.accepts value then
      let p := p.modValves h fun v => ({ v with pending := some value } : Vsq).loadIfDue st u.meter.gross
      (p.moveValves h, true)
    else (p, false)

/-! ## Flow start (05 R83, 06 R107) -/

/-- The metering window opens: the transaction values take their opening state (04 R64), and the no-flow timer starts (04 R72). -/
def Meter.openWindow (now noFlowTime : Nat) (m : Meter) : Meter :=
  { m with
    window := true, netSteps := 0, gross := 0, boundary := 0, errorCount := 0, sticky := false, deficit := 0
    reverseReported := false, rateStart := none, rateRun := 0, heldRate := 0, rateTimer := none, overrateTimer := none
    overrate := false, tempSum := 0, tempCount := 0, noFlow := some (now + sec noFlowTime) }

/-- Flow starts in AWAIT_PUMP (05 R83, 06 R107): the pending preset becomes active, TRIM, FLOWING, the metering window opens; an active
preset of 0 is reached at once: the trim valve is commanded OPEN and CLOSED at the one event, and where its switch shows OPEN with its
settle timer running, the first command cancels the timer and the second starts it anew, DESIGN CHOICE (R81; log 37). The opening part of the record, with its sequence number, follows at the end of the event, when
the flows that start at it are known (`joinRequests`; 07 R126). -/
def Part.startFlow (p : Part) (h : HoseId) : Part :=
  match (p.hose h).dsc, p.hoseSettings h, (p.hose h).context with
  | .awaitPump, some st, some x =>
    (p.modHose h fun u =>
      { u with
        valves := u.valves.load.enter p.now (some st.settleTime) .trim
        dsc := .flowing
        pumpWait := none
        meter := u.meter.openWindow p.now st.noFlowTime
        context := some { x with startTime := some (x.authTime + x.elapsed), elapsedAtFlow := x.elapsed } }).moveValves h
  | _, _, _ => p

/-! ## The requests of hoses to the log (07 R126, R128) -/

/-- Whether the flow of a hose's transaction has started, and its commit is not queued yet. -/
def Hose.begun (u : Hose) : Bool :=
  match u.dsc with
  | .flowing => true
  | .stopping => true
  | _ => false

/-- The opening part of a hose's record (06 R107, 07 R125, R126): the slot becomes OPEN with the next sequence number, and the
opening part is queued. -/
def Part.queueOpening (p : Part) (h : HoseId) : Part :=
  match (p.hose h).context with
  | none => p
  | some x =>
    let n := p.tlg.nextSequence
    let o : Opening :=
      { sequence := n, shift := x.shift, startTime := x.startTime.getD 0
        fields := .fill (decide (p.role = some .depot)) h x.machine x.account x.grade x.method x.claim x.preset x.target }
    (((p.modContext h fun c => { c with sequence := some n }).modSlot x.slot fun s =>
      { s with state := .opened, opening := some o, closing := none }).takeSequence).joinWrite (.opening h x.slot false)

/-- The checkpoint of the boundary a hose has reached (04 R66, 06 R108, 07 R130). -/
def Part.queueCheckpoint (p : Part) (h : HoseId) : Part :=
  p.checkpoint h (((p.hose h).context.bind (·.sequence)).getD 0) (p.hose h).meter.boundary

/-- What a hose asks of the log at an event: the opening part of a flow that has started, or the checkpoint of a boundary newly
reached. -/
def Part.joinRequest (before p : Part) (h : HoseId) : Part :=
  if (p.hose h).begun && !(before.hose h).begun then p.queueOpening h
  else if (before.hose h).meter.boundary < (p.hose h).meter.boundary then p.queueCheckpoint h
  else p

/-- The requests of the hoses that arose at an event join in hose-number order (07 R128), and the records of the flows that started
at it are numbered so (07 R126). -/
def Part.joinRequests (before p : Part) : Part := allHoses.foldl (fun q h => before.joinRequest q h) p

/-! ## The closing part (06 R112) -/

/-- The metering window closes: STICKY and the overrate flag give their flags, the rate run ends (04 R64, R68, R70, R71). -/
def Part.closeWindow (p : Part) (h : HoseId) : Part :=
  let m := (p.hose h).meter
  (p.addFaults h { meter := m.sticky, overrate := m.overrate }).modMeter h fun m =>
    { m with window := false, rateStart := none, rateRun := 0, heldRate := 0, rateTimer := none, overrateTimer := none }

/-- The overrun test (05 R89). -/
def Part.overrunTest (p : Part) (h : HoseId) : Part :=
  match p.hoseSettings h with
  | none => p
  | some st =>
    p.addFaults h { overrun := decide ((p.hose h).valves.active + st.overrunTolerance < (p.hose h).meter.gross) }

/-- The closing part is queued and the hose enters COMMITTING (06 R112): creep mark taken (04 R74), standard volume (04 R77),
amount (07 R140), end time. -/
def Part.queueClosing (p : Part) (h : HoseId) : Part :=
  let mark := (p.hose h).meter.creepMark
  let p := (p.addFaults h { creep := mark }).modMeter h fun m => { m with creepMark := false }
  let u := p.hose h
  match u.context with
  | none => p
  | some x =>
    let t := meanTemp u.meter (p.comp x.compartment).temperature
    let standard := standardOf p.cfl.settings x.grade u.meter.gross t
    let k : Closing :=
      { sequence := x.sequence.getD 0
        endTime := x.startTime.getD 0 + (x.elapsed - x.elapsedAtFlow)
        fields := .fill u.valves.active u.meter.gross standard t (amountOf p.cfl.settings x.grade x.account standard)
          (x.cause.getD .preset) x.faults }
    ((p.modSlot x.slot fun s => { s with closing := some k }).modHose h fun u => { u with dsc := .committing }).joinClosing h x.slot

/-- The end of the overrun window (05 R88): overrun test, window closed, closing part queued. -/
def Part.endOverrun (p : Part) (h : HoseId) : Part :=
  (((p.modValves h fun v => { v with overrun := none }).overrunTest h).closeWindow h).queueClosing h

/-! ## Pump grants (05 section 5.5) -/

/-- A request is eligible while neither of its hose's close-fault latches is set (05 R94). -/
def Part.eligible (p : Part) (r : Request) : Bool :=
  !(p.hose r.hose).valves.trim.latch && !(p.hose r.hose).valves.main.latch

/-- The earlier of two request orders: the other exceeds it by 1 to 2,147,483,647, modulo 4,294,967,296 (05 R94). -/
def orderBefore (x y : Nat) : Bool :=
  let d := (y + 4294967296 - x % 4294967296) % 4294967296
  decide (1 ≤ d) && decide (d ≤ 2147483647)

/-- Grant order: highest priority level first, then earliest request (05 R95). -/
def grantBefore (x y : Request) : Bool :=
  decide (y.priority < x.priority) || (x.priority == y.priority && orderBefore x.order y.order)

def insertRequest (r : Request) : List Request → List Request
  | [] => [r]
  | q :: rest => if grantBefore r q then r :: q :: rest else q :: insertRequest r rest

def grantOrder : List Request → List Request
  | [] => []
  | r :: rest => insertRequest r (grantOrder rest)

/-- The concurrency limit of a pump (05 section 5.5). -/
def Part.limit (p : Part) (i : PumpId) : Nat := (p.identity.map fun s => s.limits.get i).getD 0

/-- The request the arbitration would grant now (05 R95). -/
def Part.nextGrantee (p : Part) (i : PumpId) : Option Request :=
  if (p.pumps.get i).grants.length < p.limit i then (grantOrder ((p.pumps.get i).requests.filter p.eligible)).head? else none

/-- The pump's drive by its state: on in PRIMING, RUNNING and RUNDOWN, off in STOPPED (05 R93). -/
def driveOf : PumpState → Bool
  | .stopped => false
  | .priming => true
  | .running => true
  | .rundown => true

/-- The drive output of a pump (05 R93; 11 section 11.6). -/
def Part.pumpDrive (p : Part) (i : PumpId) : Bool := driveOf (p.pumps.get i).state

/-- A pump in STOPPED whose list holds an eligible request primes (05 R93); the count of primes advances (R101). -/
def Part.wakePump (p : Part) (i : PumpId) : Part :=
  if (p.pumps.get i).state = .stopped ∧ (p.pumps.get i).requests.any p.eligible = true then
    p.modPump i fun m => { m with state := .priming, prime := p.after (sec 2), primes := bump max16 m.primes }
  else p

/-- One grant (05 R95, R96): the hose leaves the list and joins the set; a pump in RUNDOWN returns to RUNNING. -/
def Part.grantPump (p : Part) (i : PumpId) (r : Request) : Part :=
  p.modPump i fun m =>
    { m with
      requests := m.requests.filter fun q => !(q.hose == r.hose)
      grants := m.grants ++ [r.hose]
      state := if m.state = .rundown then .running else m.state
      rundown := if m.state = .rundown then none else m.rundown }

/-- The arbitration of one pump (05 R95), and the hoses whose flow starts at their grant: those granted while the pump is RUNNING
or in RUNDOWN (R96). A list holds at most four requests. -/
def grantLoop (i : PumpId) : Nat → Part → List HoseId → Part × List HoseId
  | 0, p, starts => (p, starts)
  | fuel + 1, p, starts =>
    if (p.pumps.get i).state = .stopped then (p, starts)
    else match p.nextGrantee i with
      | none => (p, starts)
      | some r =>
        grantLoop i fuel (p.grantPump i r) (if (p.pumps.get i).state = .priming then starts else r.hose :: starts)

/-- The arbitration of both pumps; it does not run while the emergency input or the power-fail warning is asserted (05 R95). -/
def Part.arbitrate (p : Part) : Part × List HoseId :=
  if p.pins.emergency || p.pins.powerFail then (p, [])
  else
    let p := (p.wakePump .p1).wakePump .p2
    let (p, starts) := grantLoop .p1 4 p []
    grantLoop .p2 4 p starts

/-- The flows of several grants start in hose-number order. -/
def Part.startFlows (p : Part) (starts : List HoseId) : Part :=
  allHoses.foldl (fun p h => if h ∈ starts then p.startFlow h else p) p

/-- A RUNNING pump whose last grant is released, with no new grant given, enters RUNDOWN (05 R93, R96). -/
def Part.restPump (p : Part) (i : PumpId) : Part :=
  if (p.pumps.get i).state = .running ∧ (p.pumps.get i).grants = [] then
    p.modPump i fun m => { m with state := .rundown, rundown := p.after (sec 5) }
  else p

/-- The arbitration that ends an event in which a request arrived, a grant was released, a latch cleared or an input was
deasserted (05 R95): grants, the flows they start, and again while a flow that ended at its start gave its grant back. Each round
grants at least one of at most four requests. -/
def settlePumps : Nat → Part → Part
  | 0, p => (p.restPump .p1).restPump .p2
  | fuel + 1, p =>
    let (q, starts) := p.arbitrate
    if starts = [] then (q.restPump .p1).restPump .p2 else settlePumps fuel (q.startFlows starts)

/-- The hoses' part of the end of an event: the arbitration, and then what the hoses ask of the log at this event. -/
def settleHoses (before after : Part) : Part := before.joinRequests (settlePumps 5 after)

/-- The end of an event of the hoses: arbitration, requests to the log, then the STOCK of a changed restock state. -/
def settle (before after : Part) : Part := finish before (settleHoses before after)

end Sys2Proof.Machine
end

