-- ==== Sys2Proof/Machine/AllotmentOps.lean ====
section
/-! DEFINITION. The allotment controller's shared operations: reservations, the cut rule, adoption and authorisation (03). -/

namespace Sys2Proof.Machine

open Sys2Proof

/-! ## Reservations -/

/-- The reserved volumes of the peer claim entries that a test picks. -/
def Part.peerReserved (p : Part) (pick : PeerClaim → Bool) : Nat :=
  ((p.alc.peerClaims.filter pick).map (·.reserved)).sum

/-- Whether a hose holds an ACTIVE own claim that a test picks. -/
def Part.holdsClaim (p : Part) (pick : OwnClaim → Bool) (h : HoseId) : Bool :=
  match (p.hose h).claim with
  | some c => decide (c.status = .active) && pick c
  | none => false

/-- The reserved volumes of the ACTIVE own claims of hoses that a test picks; each reserves its hose's active preset (R49). -/
def Part.ownReserved (p : Part) (hoses : List HoseId) (pick : OwnClaim → Bool) : Nat :=
  ((hoses.filter (p.holdsClaim pick)).map fun h => (p.hose h).valves.active).sum

/-- The hoses other than one. -/
def otherHoses (h : HoseId) : List HoseId := allHoses.filter fun k => !(k == h)

/-- The hoses numbered lower than one (R57). -/
def lowerHoses (h : HoseId) : List HoseId := allHoses.filter fun k => decide (hoseNumber k < hoseNumber h)

/-! ## The cut rule (03 section 3.7) -/

/-- The machine limit of a transaction (R57): present when the allowance is finite. -/
def Part.machineLimit (p : Part) (h : HoseId) (x : Context) : Option Int :=
  match p.machines[x.position]? with
  | none => none
  | some m =>
    match m.entry.limit with
    | none => none
    | some allowance =>
      some ((allowance * 100 : Nat) - (m.total : Int)
        - (p.peerReserved fun c => decide (c.origin < p.station) && c.machine == x.machine : Nat)
        - (p.ownReserved (lowerHoses h) fun c => c.machine == x.machine : Nat))

/-- The account limit of a transaction (R57): present when the account's ceiling is not 0. -/
def Part.accountLimit (p : Part) (h : HoseId) (x : Context) : Option Int :=
  if p.ceiling x.account = 0 then none
  else
    some ((p.ceiling x.account * 100 : Nat) - (p.drawnAccount x.account : Int)
      - (p.peerReserved fun c => decide (c.origin < p.station) && c.account == x.account : Nat)
      - (p.ownReserved (lowerHoses h) fun c => c.account == x.account : Nat))

/-- The lesser of the limits present (R57). -/
def leastOf : Option Int → Option Int → Option Int
  | some x, some y => some (min x y)
  | some x, none => some x
  | none, y => y

def Part.cutLimit (p : Part) (h : HoseId) (x : Context) : Option Int :=
  leastOf (p.machineLimit h x) (p.accountLimit h x)

/-- The states in which the cut rule runs and writes are accepted: AUTHORISING, AWAIT_PUMP and FLOWING (R58). -/
def DscState.fillable : DscState → Bool
  | .authorising => true
  | .awaitPump => true
  | .flowing => true
  | _ => false

/-- Whether the cut rule runs for a hose's transaction at an event that touches a machine and its account (R58, R60). -/
def Part.cutRuns (p : Part) (machine account : Nat) (h : HoseId) (x : Context) : Bool :=
  (p.hose h).dsc.fillable && decide (x.shift = p.alc.shift)
    && (match (p.hose h).claim with
        | some c => decide (c.status = .active)
        | none => true)
    && (x.machine == machine || (x.account == account && decide (p.ceiling x.account ≠ 0)))

/-- The effect of a limit on a transaction (R59). -/
def Part.cutTo (p : Part) (h : HoseId) (x : Context) (limit : Int) : Part :=
  if ((p.hose h).valves.active : Int) ≤ limit then p
  else if (x.metered : Int) < limit then (p.writePending h limit.toNat).1
  else p.takeCause h .claimCut

/-- The cut rule at an event that touches a machine and its account (R58), on every hose but `except`. Every limit is taken from
the tables after the event, before any cut ("each hose's outcome depends only on the tables after the event"; log 25). -/
def Part.runCuts (p : Part) (except : Option HoseId) (machine account : Nat) : Part :=
  allHoses.foldl (fun q h =>
    if some h = except then q
    else match (p.hose h).context with
      | none => q
      | some x =>
        if p.cutRuns machine account h x then
          match p.cutLimit h x with
          | some limit => q.cutTo h x limit
          | none => q
        else q) p

/-! ## The shift (03 section 3.1) -/

/-- The adoption of a shift, one event (R39), in the order of its items. -/
def Part.adopt (p : Part) (shift : Nat) : Part :=
  ({ p with
      alc := { p.alc with shift := shift, shiftSeconds := 0, peerClaims := [] }
      machines := p.machines.map fun m => { m with drawn := m.drawn.map fun _ => 0 }
      totals := p.totals.map fun _ => ⟨0, 0⟩
      hoses := p.hoses.map fun _ u => { u with claim := u.claim.map fun c => { c with status := .oldShift, renewal := none } }
      snc := { p.snc with cursor := 0 } } : Part).event (.shiftAdopted shift)

/-- A CLAIM, DROP, TALLY or SHIFT notice compared with the own shift (R40): the part in which the notice is handled, or none
after a stale notice was counted. -/
def Part.compareShift (p : Part) (shift : Nat) : Part × Bool :=
  if shift < p.alc.shift then (p.setSnc { p.snc with rxStale := bump max16 p.snc.rxStale }, false)
  else if p.alc.shift < shift then (p.adopt shift, true)
  else (p, true)

/-! ## Peer claims (03 section 3.3) -/

/-- The entry of R45's replacement: of an origin's entries the one with the least life left, and among equals the one placed
earlier. -/
def worstClaim (origin : Nat) : List PeerClaim → Option PeerClaim
  | [] => none
  | c :: rest =>
    if c.origin = origin then
      match worstClaim origin rest with
      | some d => if d.life < c.life ∨ (d.life = c.life ∧ d.placed < c.placed) then some d else some c
      | none => some c
    else worstClaim origin rest

/-- A CLAIM of the current shift placed or renewed (R45). -/
def Part.placeClaim (p : Part) (origin number machine account reserved : Nat) : Part :=
  let life := p.now + sec 120
  if p.alc.peerClaims.any fun c => c.origin == origin && c.number == number then
    p.setAlc { p.alc with
        peerClaims := p.alc.peerClaims.map fun c =>
          if c.origin = origin ∧ c.number = number then
            { c with machine := machine, account := account, reserved := reserved, life := life }
          else c }
  else
    let kept :=
      if (p.alc.peerClaims.filter fun c => c.origin == origin).length < 4 then p.alc.peerClaims
      else match worstClaim origin p.alc.peerClaims with
        | some w => p.alc.peerClaims.erase w
        | none => p.alc.peerClaims
    let entry : PeerClaim :=
      { origin := origin, number := number, machine := machine, account := account, reserved := reserved, life := life
        placed := p.alc.placed }
    p.setAlc { p.alc with peerClaims := kept ++ [entry], placed := p.alc.placed + 1 }

/-- The peer claim entry of an origin and claim number is removed, if one is held (R43, R46, R47). -/
def Part.removeClaim (p : Part) (origin number : Nat) : Part :=
  p.setAlc { p.alc with peerClaims := p.alc.peerClaims.filter fun c => !(c.origin == origin && c.number == number) }

/-- A CLAIM notice of the current shift (R45). -/
def Part.takeClaim (p : Part) (origin machine number reserved : Nat) : Part :=
  match p.findMachine machine with
  | none => p
  | some i =>
    if number = 0 then p
    else
      let account := ((p.machines[i]?).map (·.entry.account)).getD 0
      let q := p.placeClaim origin number machine account reserved
      if origin < q.station then q.runCuts none machine account else q

/-- A TALLY notice of the current shift (R43). -/
def Part.takeTally (p : Part) (origin machine cumulative closing : Nat) : Part :=
  match p.findMachine machine with
  | none => p
  | some i =>
    match p.machines[i]? with
    | none => p
    | some m =>
      let raised := decide (m.column origin < cumulative)
      let q := if raised then p.modMachine i fun m => m.setColumn origin cumulative else p
      let q := if closing = 0 then q else q.removeClaim origin closing
      if raised then q.runCuts none machine m.entry.account else q

/-! ## Own claims (03 section 3.4) -/

/-- The next value of the claim counter: from 65535 to 1, passing over numbers of own claims still held (R48). At most four are
held. -/
def nextClaim (heldNumbers : List Nat) : Nat → Nat → Nat
  | 0, n => n
  | fuel + 1, n =>
    let n := if n = 65535 then 1 else n + 1
    if n ∈ heldNumbers then nextClaim heldNumbers fuel n else n

def Part.ownNumbers (p : Part) : List Nat := allHoses.filterMap fun h => (p.hose h).claim.map (·.number)

/-- Whether an authorisation issues a claim (R48): a finite allowance, or an account with a ceiling. -/
def Part.needsClaim (p : Part) (e : MachineEntry) : Bool := e.limit.isSome || decide (p.ceiling e.account ≠ 0)

/-- An own claim closed at commit completion with its TALLY (R50). -/
def Part.tallyClaim (p : Part) (h : HoseId) (x : Context) (gross : Nat) : Part :=
  match (p.hose h).claim with
  | none => p
  | some c =>
    let notice := match c.status with
      | .active => Notice.tally p.alc.shift c.machine (p.ownColumn x.position) c.number
      | .oldShift => Notice.tally x.shift c.machine gross c.number
    (p.modHose h fun u => { u with claim := none }).offerClosing c.number notice

/-! ## Authorisation (03 section 3.6) -/

/-- Whether a hose's compartment can be drawn from: its opening book set and not LOW (R53, check 10). -/
def Compartment.ready (c : Compartment) : Bool := c.openingBook.isSome && !c.low

/-- Whether a grade is permitted (R53, check 8). -/
def MachineEntry.permits (e : MachineEntry) (grade : Nat) : Bool :=
  if grade = 1 then e.grade1 else if grade = 2 then e.grade2 else false

/-- Check 9 (09 R165): in the depot role the inlet's station holds a bay. -/
def Part.grantHeld (p : Part) (e : MachineEntry) : Bool :=
  match p.role with
  | some .depot =>
    match e.inlet with
    | some (station, _) => (p.bayOf station).isSome
    | none => false
  | _ => true

/-- The checks of R53 from the seventh on, for an entry that the lookup found. -/
def Part.entryRefusal (p : Part) (st : HoseSettings) (m : MachineRow) : Option Code :=
  if m.hold.held then some .held
  else if !m.entry.permits (((p.compSettings st.compartment).map (·.grade)).getD 0) then some .wrongGrade
  else if !p.grantHeld m.entry then some .noGrant
  else if !(p.comp st.compartment).ready then some .noStock
  else if p.reservable.isNone then some .logFull
  else none

/-- The checks of R53 in order: the first that fails gives the refusal code. -/
def Part.refusalOf (p : Part) (h : HoseId) (method : EntryMethod) (found : Option Nat) : Option Code :=
  if p.cfl.load ≠ .good then some .configFault
  else match p.hoseSettings h with
    | none => some .hoseDisabled
    | some st =>
      if !st.enabled then some .hoseDisabled
      else if p.pins.emergency then some .emergency
      else if p.rsc.state ≠ .normal then some .restockLock
      else if p.alc.listen ≠ .ready then some .settling
      else match found.bind fun i => p.machines[i]? with
        | none => some (match method with
            | .tag => .unknownTag
            | .keyed => .unknownMachine)
        | some m => p.entryRefusal st m

/-- The requested term in the depot role (09 R165). -/
def Part.loadoutTerm (p : Part) (station : Nat) (c : CompId) : Int :=
  match (p.bayOf station).bind fun b => p.rsc.bays.get b with
  | none => 0
  | some e =>
    if 0 < e.spaces.get c then max 0 ((e.spaces.get c * 100 : Nat) - (e.loaded.get c : Int))
    else match (p.snc.peers[station - 1]?).bind (·.figures) with
      | none => 0
      | some (a, b) =>
        let f := match c with
          | .a => a
          | .b => b
        max 0 (((f.capacity : Int) - f.gauge) * 100)

/-- The requested term (R54). -/
def Part.requestedTerm (p : Part) (h : HoseId) (e : MachineEntry) : Int :=
  match p.role, e.inlet with
  | some .depot, some (station, c) => p.loadoutTerm station c
  | _, _ => (((p.hose h).standing.getD (e.capacity * 100) : Nat) : Int)

/-- The machine term, when the allowance is finite (R54). -/
def Part.machineTerm (p : Part) (h : HoseId) (m : MachineRow) : Option Int :=
  m.entry.limit.map fun allowance =>
    (allowance * 100 : Nat) - (m.total : Int)
      - (p.peerReserved fun c => c.machine == m.entry.number : Nat)
      - (p.ownReserved (otherHoses h) fun c => c.machine == m.entry.number : Nat)

/-- The account term, when the account's ceiling is not 0 (R54). -/
def Part.accountTerm (p : Part) (h : HoseId) (account : Nat) : Option Int :=
  if p.ceiling account = 0 then none
  else
    some ((p.ceiling account * 100 : Nat) - (p.drawnAccount account : Int)
      - (p.peerReserved fun c => c.account == account : Nat)
      - (p.ownReserved (otherHoses h) fun c => c.account == account : Nat))

/-- What another hose has still to draw from a compartment: its active preset less its metered volume, 0 when negative (R54). -/
def Part.unmetered (p : Part) (c : CompId) (h : HoseId) : Nat :=
  match (p.hose h).context with
  | some x =>
    if (p.hose h).dsc.fillable && decide (x.compartment = c) then (p.hose h).valves.active - x.metered else 0
  | none => 0

/-- The stock term (R54). -/
def Part.stockTerm (p : Part) (h : HoseId) (c : CompId) : Int :=
  (p.comp c).book - (((p.compSettings c).map (·.reserve)).getD 0 * 100 : Nat)
    - (((otherHoses h).map (p.unmetered c)).sum : Nat)

/-- The terms of R54 and what they give (R55): the least value, and the refusal that names it when it is below 200 cL. -/
structure Terms where
  requested : Int
  machine : Option Int
  account : Option Int
  stock : Int
deriving DecidableEq, Repr

def Part.terms (p : Part) (h : HoseId) (st : HoseSettings) (m : MachineRow) : Terms :=
  { requested := p.requestedTerm h m.entry, machine := p.machineTerm h m, account := p.accountTerm h m.entry.account
    stock := p.stockTerm h st.compartment }

def Terms.least (t : Terms) : Int :=
  min (min t.requested t.stock) (min (t.machine.getD t.requested) (t.account.getD t.requested))

/-- The refusal names the least term, in the order NO_ALLOTMENT, ACCOUNT_CEILING, NO_STOCK (R55). A requested term that ties with the
account or the stock term answers NO_ALLOTMENT: DEDUCED from the sentence on ties, though the table gives the requested term its
NO_ALLOTMENT only below every other term (log 37). -/
def Terms.refusal (t : Terms) : Code :=
  if t.requested = t.least ∨ t.machine = some t.least then .noAllotment
  else if t.account = some t.least then .accountCeiling
  else .noStock

/-- The hose asks for its pump (06 R106, 05 R94, R97): AWAIT_PUMP, a request in its pump's list, the pump wait timer. -/
def Part.awaitPump (p : Part) (h : HoseId) : Part :=
  match p.hoseSettings h with
  | none => p
  | some st =>
    let r : Request := { hose := h, priority := st.priority, order := p.requestOrder }
    let p := p.modHose h fun u => { u with dsc := .awaitPump, pumpWait := p.after (sec 180), holdOff := none }
    (p.setRequestOrder ((p.requestOrder + 1) % 4294967296)).modPump st.pump fun m =>
      { m with requests := m.requests ++ [r] }

/-- The claim of an authorisation, if R48 calls for one (R56, step 2): issued with the authorised preset, its CLAIM offered, the
renewal timer and the hold-off started. -/
def Part.issueClaim (p : Part) (h : HoseId) (e : MachineEntry) (preset : Nat) : Part × Nat :=
  if p.needsClaim e then
    let n := nextClaim p.ownNumbers 5 p.alc.claimCounter
    let c : OwnClaim := { number := n, machine := e.number, account := e.account, status := .active, renewal := p.after (sec 30) }
    let q := ((p.setAlc { p.alc with claimCounter := n }).modHose h fun u =>
      { u with claim := some c, holdOff := p.after (sec 2) })
    (q.offerClaim p.alc.shift e.number n preset, n)
  else (p, 0)

/-- A loadout authorised: the bay's active count advances and its timer is cancelled (09 R163, R165). -/
def Part.beginLoadout (p : Part) (e : MachineEntry) : Part × Nat :=
  match p.role, e.inlet with
  | some .depot, some (station, _) =>
    match p.bayOf station with
    | none => (p, 0)
    | some b =>
      match p.rsc.bays.get b with
      | none => (p, 0)
      | some entry => (p.setBay b (some { entry with active := entry.active + 1, timer := .stopped }), entry.grant)
  | _, _ => (p, 0)

/-- The effects of an authorised identification, one event (R56, 06 R104, R106, 02 R30, 11 R180). -/
def Part.authorise (p : Part) (h : HoseId) (st : HoseSettings) (method : EntryMethod) (position : Nat) (m : MachineRow)
    (slot preset : Nat) : Part :=
  let p := p.modSlot slot fun s => { s with state := .reserved, opening := none, closing := none }
  let (p, number) := p.issueClaim h m.entry preset
  let p := p.modValves h fun v => { v with active := preset, pending := none }
  let (p, grant) := p.beginLoadout m.entry
  let x : Context :=
    { position := position, machine := m.entry.number, account := m.entry.account
      grade := ((p.compSettings st.compartment).map (·.grade)).getD 0, compartment := st.compartment, method := method
      preset := preset, claim := number, shift := p.alc.shift, authTime := p.alc.shiftSeconds, elapsed := 0
      elapsedAtFlow := 0, slot := slot, sequence := none, startTime := none, metered := 0, cause := none, faults := {}
      powerFail := false, target := if p.role = some .depot then m.entry.inlet else none, grant := grant, committed := false }
  let p := p.modHose h fun u =>
    { u with dsc := .authorising, context := some x, standing := none
             reader := match method with
               | .tag => { u.reader with supervised := some m.entry.tag, grace := none }
               | .keyed => u.reader }
  if number = 0 then p.awaitPump h else p

/-- A hose in LIFTED takes an identification (06 R105): the checks of R53, the terms of R54 and R55, then the authorisation of
R56, or a REFUSED event. -/
def Part.identify (p : Part) (h : HoseId) (method : EntryMethod) (found : Option Nat) : Part :=
  match p.refusalOf h method found with
  | some code => p.event (.refused h code)
  | none =>
    match p.hoseSettings h, found, found.bind (fun i => p.machines[i]?), p.reservable with
    | some st, some position, some m, some slot =>
      let t := p.terms h st m
      if t.least < 200 then p.event (.refused h t.refusal)
      else p.authorise h st method position m slot t.least.toNat
    | _, _, _, _ => p

end Sys2Proof.Machine
end

