-- ==== Sys2Proof/Machine/Operands.lean ====
section
/-! DEFINITION. The operand forms: the fields of console requests with their range checks (11 R179), and readings (08 R142). -/

namespace Sys2Proof.Machine

open Sys2Proof

/-- A hose field is 1 to 4 (11 R179). -/
def hoseField : Field → Option HoseId
  | some 1 => some .h1
  | some 2 => some .h2
  | some 3 => some .h3
  | some 4 => some .h4
  | _ => none

/-- A compartment field is A or B, coded 1 and 2 (11 R179, 10 section 10.6). -/
def compField : Field → Option CompId
  | some n => compOfCode n
  | none => none

/-- A sequence field is 0 to 4,294,967,295 (11 R179). -/
def sequenceField : Field → Option Nat
  | some n => if n ≤ max32 then some n else none
  | none => none

/-- A reading taken into its range, and whether it had to be (08 R142). -/
def clampReading (low high : Int) (x : Int) : Int × Bool :=
  if x < low then (low, true) else if high < x then (high, true) else (x, false)

/-- A level reading, 0 to 4000 mm (08 R142). -/
def clampLevel (x : Int) : Nat × Bool :=
  let (v, clamped) := clampReading 0 4000 x
  (v.toNat, clamped)

/-- A temperature reading, -40.0 to +85.0 degrees in tenths (08 R142). -/
def clampTemp (x : Int) : Int × Bool := clampReading (-400) 850 x

def levelOf (r : Readings) : CompId → Int
  | .a => r.levelA
  | .b => r.levelB

def tempOf (r : Readings) : CompId → Int
  | .a => r.tempA
  | .b => r.tempB

end Sys2Proof.Machine
end

