-- ==== Sys2Proof/Machine/State.lean ====
section
/-! DEFINITION. State: the part and the queue of waiting commands, the reasons a step could stop, and the state after reset. -/

namespace Sys2Proof.Machine

open Sys2Proof

/-- The machine: the part (every register, queue, counter, mode and pin) and the commands waiting, first in, first out. -/
structure State where
  pending : List Instr
  part : Part
deriving DecidableEq, Repr

/-- Faults: none. The manual names no event after which the part stops; what it calls faults are states, flags and events of
the running part. Safe: no outcome is hidden in a stop. -/
inductive Fault where
deriving DecidableEq, Repr

/-- Refusals. -/
inductive Refusal where
  /-- Raised by an arm of `exec` for a command that has no meaning yet. Safe: nothing is claimed of it. -/
  | notModelled (mnemonic : String)
deriving DecidableEq, Repr

/-- The input levels at reset: a bowser standing quiet, nothing asserted, strapped as station 1 (DESIGN CHOICE, log 3 and 4). -/
def Pins.quiet : Pins :=
  { straps := 1, emergency := false, powerFail := false, busy := false
    hoses := Quad.replicate { nozzle := .onHook, phaseA := false, phaseB := false, trim := .closed, main := .closed } }

/-- The configuration loader after step 1 of the start sequence (10 R169, R173). -/
def Cfl.start (station : Option Nat) : Cfl :=
  { stage := .imageLoad, load := .loading, check := none, presence := 0, header := none, station := station, settings := none }

/-- The part right after reset: step 1 of the start sequence done, the image load begun, every block at its start values
(10 R173 and the chapters' start rules); its nonvolatile memory blank. The account totals are 0 until the scan builds them (07 R141;
log 4). -/
def Part.reset : Part :=
  { now := 0, nextSecond := 100000, draws := 0, pins := Pins.quiet, cfl := Cfl.start (some 1)
    snc := Snc.start, machines := [], alc := Alc.start, hoses := Quad.replicate Hose.start
    pumps := ⟨Pump.start, Pump.start⟩, requestOrder := 0, tlg := Tlg.start
    totals := List.replicate 64 ⟨0, 0⟩, inv := Inv.start, rsc := Rsc.start, cnl := Cnl.start }

/-- The machine right after reset, no command waiting. -/
def State.reset : State := { pending := [], part := Part.reset }

end Sys2Proof.Machine
end

