-- ==== Sys2Proof/Machine/Effect.lean ====
section
/-! DEFINITION. How a command's effect on the part becomes an outcome, and how the console line takes a request (11). -/

namespace Sys2Proof.Machine

open Sys2Proof

/-- The outcome of a command whose effect on the part is `f`: the part goes on, and the queue of commands is left alone. -/
def nextPart (f : Part → Part) (s : State) : Host.Outcome State Fault Refusal :=
  .next { s with part := f s.part }

/-- A request is in progress, an answer is owed, or the start sequence runs (11 R178, 10 R174). -/
def Part.lineBusy (p : Part) : Bool :=
  !(p.cfl.stage == .running) || p.cnl.response.isSome || p.cnl.reloading || decide (0 < p.cnl.busyWaiting)

/-- A request arriving while the line is busy (11 R178): a BUSY answer waits, or with four waiting the request is discarded. -/
def Cnl.refuseBusy (c : Cnl) : Cnl :=
  if c.busyWaiting < 4 then { c with busyWaiting := c.busyWaiting + 1, busyCount := bump max16 c.busyCount }
  else { c with overrun := bump max16 c.overrun }

/-- A request arriving at the console line (11 R178): taken at its arrival when the line is free. -/
def Part.request (p : Part) (act : Part → Part) : Part :=
  if p.lineBusy then p.setCnl (p.cnl.refuseBusy) else act p

/-- The response to the request in progress. -/
def Part.respond (p : Part) (r : Response) : Part := p.setCnl { p.cnl with response := some r }

/-- A request refused: nothing else changes (11 R178). -/
def Part.refuse (p : Part) (code : Code) : Part := p.respond (.refused code)

end Sys2Proof.Machine
end

