-- ==== Sys2Proof/Machine/Allotment.lean ====
section
/-! DEFINITION. The allotment controller's own commands (03): its timers and the console request SHIFT. -/

namespace Sys2Proof.Machine

open Sys2Proof

/-- PEER_CLAIM_EXPIRY (R46): the entry is removed; a removal never runs the cut rule (R47). -/
def execPeerClaimExpiry (origin claim : Nat) (s : State) : Host.Outcome State Fault Refusal :=
  nextPart (fun p =>
    match p.alc.peerClaims.find? fun c => c.origin == origin && c.number == claim with
    | some c => (p.reach c.life).removeClaim origin claim
    | none => p) s

/-- CLAIM_RENEWAL_EXPIRY (R49): the CLAIM is offered again with the active preset, and the timer restarts. -/
def execClaimRenewalExpiry (h : HoseId) (s : State) : Host.Outcome State Fault Refusal :=
  nextPart (fun p =>
    match (p.hose h).claim with
    | some c =>
      match c.status, c.renewal with
      | .active, some due =>
        let q := p.reach due
        (q.modHose h fun u => { u with claim := some { c with renewal := some (due + sec 30) } }).offerClaim
          q.alc.shift c.machine c.number (q.hose h).valves.active
      | _, _ => p
    | none => p) s

/-- CLAIM_HOLD_OFF_EXPIRY (R51): the hose goes on to AWAIT_PUMP. -/
def execClaimHoldOffExpiry (h : HoseId) (s : State) : Host.Outcome State Fault Refusal :=
  nextPart (fun p =>
    match (p.hose h).dsc, (p.hose h).holdOff with
    | .authorising, some due => settle p ((p.reach due).awaitPump h)
    | _, _ => p) s

/-- LISTEN_TIMER_EXPIRY (R52). -/
def execListenTimerExpiry (s : State) : Host.Outcome State Fault Refusal :=
  nextPart (fun p =>
    match p.alc.listenTimer with
    | some due =>
      let q := p.reach due
      q.setAlc { q.alc with listen := .ready, listenTimer := none }
    | none => p) s

/-- A SHIFT request taken (R38). -/
def Part.newShift (p : Part) : Part :=
  if p.cfl.load = .fault then p.refuse .configFault
  else if 65535 ≤ p.alc.shift then p.refuse .limit
  else ((p.adopt (p.alc.shift + 1)).offer (.shift (p.alc.shift + 1)) false).respond (.okShift (p.alc.shift + 1))

/-- SHIFT (R38). -/
def execShift (s : State) : Host.Outcome State Fault Refusal := nextPart (fun p => p.request Part.newShift) s

end Sys2Proof.Machine
end

