-- ==== Sys2Proof/Machine/Dispense.lean ====
section
/-! DEFINITION. The dispense controller's commands (06): the nozzle switch and the console requests STOP, PRESET and HOSE. -/

namespace Sys2Proof.Machine

open Sys2Proof

/-! ## The nozzle (06 R103) -/

/-- A lift taken (R103): in IDLE the hose enters LIFTED, and a tag already read identifies at once (02 R28). -/
def Part.lift (p : Part) (h : HoseId) : Part :=
  let u := p.hose h
  let q := p.modHose h fun u => { u with nozzle := .offHook, dsc := if u.dsc = .idle then .lifted else u.dsc }
  if u.dsc = .idle then
    match u.reader.readTag with
    | some code => q.identify h .tag (q.lookupTag code)
    | none => q
  else q

/-- NOZZLE_LIFT (R103). Changes before the end of the start sequence, and a report of the position held, are not taken (R102). -/
def execNozzleLift (h : HoseId) (s : State) : Host.Outcome State Fault Refusal :=
  nextPart (fun p =>
    let q := p.modPins h fun k => { k with nozzle := .offHook }
    if q.cfl.stage = .running ∧ (q.hose h).nozzle = .onHook then settle q (q.lift h) else q) s

/-- A hose returns from LIFTED or DONE to IDLE (R103): the pending preset is cleared (05 R92), and the table position is no longer
kept (02 R27). -/
def Hose.toIdle (u : Hose) : Hose := { u with dsc := .idle, kept := none, valves := { u.valves with pending := none } }

/-- A hang taken (R103): creep is cleared (04 R73) and the standing preset given up (11 R180), whatever the state. -/
def Part.hang (p : Part) (h : HoseId) : Part :=
  let q := p.modHose h fun u =>
    { u with nozzle := .onHook, standing := none, meter := { u.meter with creep := 0, creepSent := false } }
  match (p.hose h).dsc with
  | .lifted => (q.modHose h Hose.toIdle).drainTest
  | .done => (q.modHose h Hose.toIdle).drainTest
  | _ => q.takeCause h .hung

/-- NOZZLE_HANG (R103). -/
def execNozzleHang (h : HoseId) (s : State) : Host.Outcome State Fault Refusal :=
  nextPart (fun p =>
    let q := p.modPins h fun k => { k with nozzle := .onHook }
    if q.cfl.stage = .running ∧ (q.hose h).nozzle = .offHook then settle q (q.hang h) else q) s

/-! ## Console STOP (06 R117) -/

def Part.stopRequest (p : Part) (h : Field) : Part :=
  match hoseField h with
  | none => p.refuse .badValue
  | some h =>
    match (p.hose h).dsc with
    | .authorising => settle p ((p.respond .ok).takeCause h .operator)
    | .awaitPump => settle p ((p.respond .ok).takeCause h .operator)
    | .flowing => settle p ((p.respond .ok).takeCause h .operator)
    | .stopping => p.respond .ok
    | .committing => p.respond .ok
    | .idle => p.refuse .notActive
    | .lifted => p.refuse .notActive
    | .done => p.refuse .notActive

/-- STOP (R117). -/
def execStop (h : Field) (s : State) : Host.Outcome State Fault Refusal :=
  nextPart (fun p => p.request fun p => p.stopRequest h) s

/-! ## Console PRESET (11 R180) -/

/-- Whether PRESET acts by the depot's row: the role in force, else the role last in force, else a free value (log 22). -/
def Part.presetDepot (p : Part) : Bool :=
  match p.role, p.rsc.roleInForce with
  | some r, _ => r == .depot
  | none, some r => r == .depot
  | none, none => Config.depotWithoutRole

/-- PRESET on a hose without a transaction (R180). -/
def Part.standingPreset (p : Part) (h : HoseId) (volume : Nat) : Part :=
  if p.presetDepot then p.refuse .wrongRole
  else if volume = 0 then (p.respond .ok).modHose h fun u => { u with standing := none }
  else if 200 ≤ volume ∧ volume ≤ 6000000 then (p.respond .ok).modHose h fun u => { u with standing := some volume }
  else p.refuse .badValue

/-- PRESET on an active hose (R180, 05 R90). -/
def Part.lowerPreset (p : Part) (h : HoseId) (volume : Nat) : Part :=
  if 6000000 < volume then p.refuse .badValue
  else
    let (q, taken) := p.writePending h volume
    if taken then settle p (q.respond .ok) else p.refuse .notLower

def Part.presetRequest (p : Part) (h volume : Field) : Part :=
  match hoseField h, volume with
  | some h, some volume =>
    match (p.hose h).dsc with
    | .idle => p.standingPreset h volume
    | .lifted => p.standingPreset h volume
    | .done => p.standingPreset h volume
    | .authorising => p.lowerPreset h volume
    | .awaitPump => p.lowerPreset h volume
    | .flowing => p.lowerPreset h volume
    | .stopping => p.refuse .badState
    | .committing => p.refuse .badState
  | _, _ => p.refuse .badValue

/-- PRESET (R180). -/
def execPreset (h volume : Field) (s : State) : Host.Outcome State Fault Refusal :=
  nextPart (fun p => p.request fun p => p.presetRequest h volume) s

/-! ## Console HOSE (06 R123, 05 R101, 04 R79) -/

def Vsq.reportOf (q : Vsq) (v : ValveId) : ValveReport :=
  { command := commandOf v q.phase, switch := (q.valve v).switch, latch := (q.valve v).latch }

def Part.contextReport (p : Part) (u : Hose) (x : Context) : ContextReport :=
  { machine := x.machine, account := x.account, method := x.method, preset := x.preset, claim := x.claim
    claimStatus := u.claim.map (·.status), shift := x.shift, sequence := x.sequence, metered := x.metered, cause := x.cause
    faults := x.faults, drawn := p.drawn x.machine, hold := (p.machines[x.position]?).map (·.hold) }

/-- A hose as HOSE shows it. Reverse and creep volume are computed with the hose's meter constants (04 R79), so none is shown while the
hose has no settings in force (log 35). -/
def Part.hoseReport (p : Part) (h : HoseId) : HoseReport :=
  let u := p.hose h
  { dsc := u.dsc, nozzle := u.nozzle, tagPresent := u.reader.readTag.isSome
    context := u.context.map (p.contextReport u)
    summary := match u.context with
      | some _ => none
      | none => u.summary
    standing := u.standing, phase := u.valves.phase, trim := u.valves.reportOf .trim, main := u.valves.reportOf .main
    active := u.valves.active, pending := u.valves.pending, pumpWaitLeft := u.pumpWait.map (secondsLeft p.now)
    window := u.meter.window, gross := u.meter.gross, heldRate := u.meter.heldRate, live := u.meter.live
    sticky := u.meter.sticky, errorCount := u.meter.errorCount
    reverseVolume := (p.hoseSettings h).map fun st => stepVolume st u.meter.deficit
    creepVolume := (p.hoseSettings h).map fun st => stepVolume st u.meter.creep
    creepMark := u.meter.creepMark }

def Part.hoseRequest (p : Part) (h : Field) : Part :=
  match hoseField h with
  | none => p.refuse .badValue
  | some h => p.respond (.okHose (p.hoseReport h))

/-- HOSE (R123). -/
def execHose (h : Field) (s : State) : Host.Outcome State Fault Refusal :=
  nextPart (fun p => p.request fun p => p.hoseRequest h) s

end Sys2Proof.Machine
end

