-- ==== Sys2Proof/Machine/Console.lean ====
section
/-! DEFINITION. The console line (11): the end of a response, messages that are no request, and the requests that only read. -/

namespace Sys2Proof.Machine

open Sys2Proof

/-! ## The line -/

/-- The answer being sent has gone out (R178): the response first, then the waiting BUSY answers one by one; while RELOAD's load
runs its response is still to come, and no BUSY answer goes ahead of it. A BUSY answer counts among the four that wait until it has gone
out, also while it is being sent, DESIGN CHOICE (log 37). -/
def Cnl.sent (c : Cnl) : Cnl :=
  if c.response.isSome then { c with response := none }
  else if c.reloading then c
  else { c with busyWaiting := c.busyWaiting - 1 }

/-- RESPONSE_SENT (R178). -/
def execResponseSent (s : State) : Host.Outcome State Fault Refusal :=
  nextPart (fun p => p.setCnl (p.cnl.sent)) s

/-- Checks 1 and 2 of R179. -/
def Part.invalid (p : Part) (what : BadMessage) : Part :=
  match what with
  | .badFrame => (p.setCnl { p.cnl with bad := bump max16 p.cnl.bad }).refuse .badFrame
  | .unknownKind => p.refuse .badRequest

/-- INVALID_REQUEST (R179). -/
def execInvalidRequest (what : BadMessage) (s : State) : Host.Outcome State Fault Refusal :=
  nextPart (fun p => p.request fun p => p.invalid what) s

/-! ## STATUS -/

/-- A pump as STATUS shows it: its requests in grant order with their eligibility (05 R94, R101). The limit stands in the image, so none
is shown while no image is in force (log 35). -/
def Part.pumpReport (p : Part) (i : PumpId) : PumpReport :=
  { state := (p.pumps.get i).state, grants := (p.pumps.get i).grants
    requests := (grantOrder (p.pumps.get i).requests).map fun r => (r.hose, r.priority, p.eligible r)
    limit := p.identity.map fun s => s.limits.get i }

/-- A compartment as STATUS shows it (08 R154). The available stock is the book less the reserve, which stands in the image, so none is
shown while no image is in force (08 R147; log 35). -/
def Part.compReport (p : Part) (c : CompId) : CompReport :=
  { figures := p.comp c, gaugeLitres := (p.comp c).gauge.map fun g => g / 100
    available := (p.compSettings c).map fun st => (p.comp c).book - ((st.reserve * 100 : Nat) : Int) }

/-- Whether STATUS shows a bay: the bay grant table holds one entry per bay that the image configures (09 R162). While no image is in
force the number of bays is not known, and the bays held are shown (log 35). -/
def Part.showsBay (p : Part) (b : BayId) : Bool :=
  match p.identity with
  | some _ => p.hasBay b
  | none => (p.rsc.bays.get b).isSome

/-- The restock side of the role in force (09 R155, R161, R162). -/
def Part.restockReport (p : Part) : RestockReport :=
  if p.presetDepot then .depot p.rsc.queue ((allBays.filter p.showsBay).map fun b => (b, p.rsc.bays.get b))
  else .bowser p.rsc.state p.rsc.grant p.rsc.awaited (p.rsc.repeatTimer.map (secondsLeft (p.rsc.frozenAt.getD p.now)))

def countState (st : SlotState) (slots : List Slot) : Nat := (slots.filter fun s => s.state == st).length

def Part.statusReport (p : Part) : StatusReport :=
  { shift := p.alc.shift, shiftSeconds := p.alc.shiftSeconds, listen := p.alc.listen
    listenLeft := p.alc.listenTimer.map (secondsLeft p.now), pumps := ⟨p.pumpReport .p1, p.pumpReport .p2⟩
    free := countState .free p.tlg.slots, reserved := countState .reserved p.tlg.slots
    opened := countState .opened p.tlg.slots, closed := countState .closed p.tlg.slots
    oldest := nextAbove 0 p.tlg.slots, newest := newest p.tlg.slots, nextSequence := p.tlg.nextSequence
    recordsLost := p.tlg.recordsLost, comps := ⟨p.compReport .a, p.compReport .b⟩, restock := p.restockReport
    load := p.cfl.load, check := p.cfl.check, presence := p.cfl.presence, header := p.cfl.header, station := p.cfl.station
    bootNumber := p.tlg.bootNumber }

/-- STATUS (11 section 11.2). -/
def execStatus (s : State) : Host.Outcome State Fault Refusal :=
  nextPart (fun p => p.request fun p => p.respond (.okStatus p.statusReport)) s

/-! ## ACCOUNTS, PEERS, DIAG, EVENTS -/

def Part.accountReport (p : Part) (a : Nat) : AccountReport :=
  { settings := p.accountSettings a, drawn := p.drawnAccount a, totals := p.totals.getD a ⟨0, 0⟩ }

/-- ACCOUNTS (07 R141). -/
def execAccounts (s : State) : Host.Outcome State Fault Refusal :=
  nextPart (fun p => p.request fun p => p.respond (.okAccounts ((List.range 64).map p.accountReport))) s

/-- A station as PEERS shows it: its entry, and its peer claims' number and total (01 R13, 03 R44). -/
def Part.peerReport (p : Part) (index : Nat) : PeerReport :=
  let claims := p.alc.peerClaims.filter fun c => c.origin == index + 1
  { entry := p.snc.peers.getD index Peer.start, own := p.cfl.station == some (index + 1), claims := claims.length
    reserved := (claims.map (·.reserved)).sum }

/-- PEERS (01 R13, 03 R44). -/
def execPeers (s : State) : Host.Outcome State Fault Refusal :=
  nextPart (fun p => p.request fun p => p.respond (.okPeers ((List.range 14).map p.peerReport))) s

def Hose.diag (u : Hose) : HoseDiag :=
  { badChecks := u.reader.badChecks, readerFault := u.reader.fault, live := u.meter.live, sticky := u.meter.sticky
    errorCount := u.meter.errorCount, totalErrors := u.meter.totalErrors, totalForward := u.meter.totalForward
    totalReverse := u.meter.totalReverse, totalCreep := u.meter.totalCreep, trimFaults := u.valves.trim.faults
    mainFaults := u.valves.main.faults }

def Compartment.diag (c : Compartment) : Nat × Nat × Nat := (c.samples, c.clampedLevels, c.clampedTemps)

def Part.diagReport (p : Part) : DiagReport :=
  { rxGood := p.snc.rxGood, rxBad := p.snc.rxBad, rxForeign := p.snc.rxForeign, rxUnknown := p.snc.rxUnknown
    rxOwn := p.snc.rxOwn, rxRepeat := p.snc.rxRepeat, rxStale := p.snc.rxStale, txSent := p.snc.txSent
    txCollisions := p.snc.txCollisions, txCollided := p.snc.txCollided, txYielded := p.snc.txYielded
    txDropped := p.snc.txDropped, peers := p.snc.peers.map fun e => (e.received, e.lost)
    hoses := p.hoses.map fun _ u => u.diag, primes := ⟨p.pumps.p1.primes, p.pumps.p2.primes⟩, writes := p.tlg.writes
    ckptDropped := p.tlg.ckptDropped, ckptDisplaced := p.tlg.ckptDisplaced, recordsLost := p.tlg.recordsLost
    scanTorn := p.tlg.scanTorn, scanRecovered := p.tlg.scanRecovered, comps := ⟨p.inv.comps.a.diag, p.inv.comps.b.diag⟩
    cnlBad := p.cnl.bad, cnlBusy := p.cnl.busyCount, cnlOverrun := p.cnl.overrun }

/-- DIAG (R183). -/
def execDiag (s : State) : Host.Outcome State Fault Refusal :=
  nextPart (fun p => p.request fun p => p.respond (.okDiag p.diagReport)) s

/-- EVENTS taken (R182): every event and LOST, and the queue is empty from here on. -/
def Part.takeEvents (p : Part) : Part :=
  (p.setCnl { p.cnl with events := [], lost := false }).respond (.okEvents p.cnl.events p.cnl.lost)

/-- EVENTS (R182). -/
def execEvents (s : State) : Host.Outcome State Fault Refusal := nextPart (fun p => p.request Part.takeEvents) s

end Sys2Proof.Machine
end

