-- ==== Sys2Proof/Machine/Identification.lean ====
section
/-! DEFINITION. Machine identification and holds (02): tag reports, tag supervision, keyed entry and hold states. -/

namespace Sys2Proof.Machine

open Sys2Proof

/-- The check of a PRESENT report is valid when the eight bytes of the code and the check byte add to 0 modulo 256, and the code
is not 0 (R22). -/
def goodPresent (code : TagCode) (check : Byte) : Bool :=
  decide (code ≠ 0) &&
    decide (code.extractLsb' 0 8 + code.extractLsb' 8 8 + code.extractLsb' 16 8 + code.extractLsb' 24 8
      + code.extractLsb' 32 8 + code.extractLsb' 40 8 + code.extractLsb' 48 8 + code.extractLsb' 56 8 + check = 0#8)

/-- The grace timer starts while supervision is on, unless it runs already (R31). -/
def Reader.startGrace (now : Nat) (r : Reader) : Reader :=
  if r.supervised.isSome && r.grace.isNone then { r with grace := some (now + sec 3) } else r

/-- The entry of a reader into FAULT (R23, R31). -/
def Part.readerFault (p : Part) (h : HoseId) : Part :=
  (p.modReader h fun r => ({ r with fault := true, run := 0, readTag := none } : Reader).startGrace p.now).event (.readerFault h)

/-- A bad PRESENT (R22, R23): counted; in GOOD it advances the run, and the fifth in a row is an entry into FAULT. -/
def Part.badPresent (p : Part) (h : HoseId) : Part :=
  let r := (p.hose h).reader
  if r.fault then p.modReader h fun r => { r with badChecks := bump max16 r.badChecks }
  else if r.run + 1 = 5 then (p.modReader h fun r => { r with badChecks := bump max16 r.badChecks }).readerFault h
  else p.modReader h fun r => { r with badChecks := bump max16 r.badChecks, run := r.run + 1 }

/-- A good PRESENT taken (R23, R24): the reader is GOOD and the read tag is the code; under supervision the supervised code
cancels the grace timer (R31), and any other code cancels it and stops with TAG_CHANGED (R32); in LIFTED it identifies (R28). -/
def Part.takePresent (p : Part) (h : HoseId) (code : TagCode) : Part :=
  let u := p.hose h
  let q := p.modReader h fun r => { r with fault := false, run := 0, readTag := some code, grace := none }
  match u.reader.supervised with
  | some c => if c = code then q else q.takeCause h .tagChanged
  | none => if u.dsc = .lifted then q.identify h .tag (q.lookupTag code) else q

/-- An ABSENT taken (R23, R24, R31). -/
def Part.takeAbsent (p : Part) (h : HoseId) : Part :=
  p.modReader h fun r => ({ r with fault := false, run := 0, readTag := none } : Reader).startGrace p.now

/-- A report on a tag reader line (R22 to R24, R28, R31, R32). -/
def Part.tagReport (p : Part) (h : HoseId) (report : TagReport) : Part :=
  match report with
  | .present code check => if goodPresent code check then p.takePresent h code else p.badPresent h
  | .malformed => p.badPresent h
  | .absent => p.takeAbsent h
  | .readerFault => if (p.hose h).reader.fault then p else p.readerFault h

/-- TAG_REPORT (R22). Reports before the end of the start sequence are discarded without being counted. -/
def execTagReport (h : HoseId) (report : TagReport) (s : State) : Host.Outcome State Fault Refusal :=
  nextPart (fun p => if p.cfl.stage = .running then settle p (p.tagReport h report) else p) s

/-- TAG_GRACE_EXPIRY (R31): the tag is lost. -/
def execTagGraceExpiry (h : HoseId) (s : State) : Host.Outcome State Fault Refusal :=
  nextPart (fun p =>
    match (p.hose h).reader.grace with
    | some due => settle p (((p.reach due).modReader h fun r => { r with grace := none }).takeCause h .tagLost)
    | none => p) s

/-! ## Keyed entry -/

/-- The checks of KEYED in order (R29). -/
def Part.keyedRefusal (p : Part) (h : HoseId) (number : Nat) : Option Code :=
  if p.cfl.load = .fault then some .configFault
  else if (p.hose h).dsc ≠ .lifted then some .notLifted
  else if (p.hose h).reader.readTag.isSome then some .tagPresent
  else match (p.lookupNumber number).bind fun i => p.machines[i]? with
    | none => some .unknownMachine
    | some m => if m.entry.keyed then none else some .keyedNotAllowed

/-- A KEYED request taken (R29): OK, and the identification handed to the hose. -/
def Part.keyed (p : Part) (h : Field) (machine : Field) : Part :=
  match hoseField h, machine with
  | some h, some number =>
    match p.keyedRefusal h number with
    | some code => p.refuse code
    | none => settle p ((p.respond .ok).identify h .keyed (p.lookupNumber number))
  | _, _ => p.refuse .badValue

/-- KEYED (R29). -/
def execKeyed (h : Field) (machine : Field) (s : State) : Host.Outcome State Fault Refusal :=
  nextPart (fun p => p.request fun p => p.keyed h machine) s

/-! ## Holds -/

/-- A hold that leaves a machine held stops its transactions in AUTHORISING, AWAIT_PUMP or FLOWING (R36), in hose-number order. -/
def Part.holdStops (p : Part) (position : Nat) : Part :=
  allHoses.foldl (fun q h =>
    match (q.hose h).context with
    | some x => if x.position = position ∧ (q.hose h).dsc.fillable = true then q.takeCause h .held else q
    | none => q) p

/-- The next version: 1 after 255 (R34). -/
def nextVersion (v : Nat) : Nat := if v = 255 then 1 else v + 1

/-- A console change of a hold state, with its notice (R34). -/
def Part.setHold (p : Part) (position : Nat) (held : Bool) (reason : Nat) : Part :=
  match p.machines[position]? with
  | none => p
  | some m =>
    let v := nextVersion m.hold.version
    let q := p.modMachine position fun m =>
      { m with hold := { held := held, reason := reason, version := v, author := p.station } }
    let q := q.offer (.hold m.entry.number (flagCode held) reason v) false
    if held then q.holdStops position else q

/-- A HOLD request taken (R34). -/
def Part.holdRequest (p : Part) (machine reason : Field) : Part :=
  match machine, reason with
  | some number, some reason =>
    match p.findMachine number with
    | none => p.refuse .unknownMachine
    | some i => if 15 < reason then p.refuse .badValue else settle p ((p.respond .ok).setHold i true reason)
  | _, _ => p.refuse .badValue

/-- HOLD (R34). -/
def execHold (machine reason : Field) (s : State) : Host.Outcome State Fault Refusal :=
  nextPart (fun p => p.request fun p => p.holdRequest machine reason) s

/-- An UNHOLD request taken (R34). -/
def Part.unholdRequest (p : Part) (machine : Field) : Part :=
  match machine with
  | some number =>
    match p.findMachine number with
    | none => p.refuse .unknownMachine
    | some i => (p.respond .ok).setHold i false 0
  | none => p.refuse .badValue

/-- UNHOLD (R34). -/
def execUnhold (machine : Field) (s : State) : Host.Outcome State Fault Refusal :=
  nextPart (fun p => p.request fun p => p.unholdRequest machine) s

/-- Whether a HOLD notice is applied over a hold state (R35). -/
def holdApplies (hold : Hold) (origin version : Nat) : Bool :=
  if hold.version = 0 ∧ version ≠ 0 then true
  else
    let d := (version + 256 - hold.version) % 256
    (decide (1 ≤ d) && decide (d ≤ 127)) || (d == 0 && decide (hold.author < origin))

/-- A HOLD notice delivered (R35, R36). -/
def Part.takeHold (p : Part) (origin machine held reason version : Nat) : Part :=
  match p.findMachine machine with
  | none => p
  | some i =>
    match p.machines[i]? with
    | none => p
    | some m =>
      if 1 < held ∨ 15 < reason then p
      else if holdApplies m.hold origin version then
        let isHeld := decide (held = 1)
        let q := p.modMachine i fun m =>
          { m with hold := { held := isHeld, reason := reason, version := version, author := origin } }
        let q := if isHeld = m.hold.held ∧ reason = m.hold.reason then q
          else q.event (.holdChanged machine isHeld reason origin)
        if isHeld then q.holdStops i else q
      else p

/-- An origin has restarted: this station takes over the holds it authored, but for the image's own states (R35). -/
def Part.takeOverHolds (p : Part) (origin : Nat) : Part :=
  p.setMachines (p.machines.map fun m =>
      if m.hold.author = origin ∧ m.hold.version ≠ 0 then { m with hold := { m.hold with author := p.station } } else m)

end Sys2Proof.Machine
end

