-- ==== Sys2Proof/Machine/Inventory.lean ====
section
/-! DEFINITION. The inventory unit's sample event (08), the automatic restock trigger it makes (09 R156), and the STOCK timer. -/

namespace Sys2Proof.Machine

open Sys2Proof

/-! ## Readings taken into figures (R142 to R146) -/

def listMax (l : List Nat) : Nat := l.foldl max 0

def listMin (l : List Nat) : Nat :=
  match l with
  | [] => 0
  | x :: rest => rest.foldl min x

/-- The history after a new sample volume (R144). -/
def joinHistory (history : List Nat) (volume : Nat) : List Nat :=
  if 8 ≤ history.length then history.drop (history.length - 7) ++ [volume] else history ++ [volume]

/-- The filtered gauge of a history (R144). -/
def gaugeOf (history : List Nat) : Option Nat := if history = [] then none else some (history.sum / history.length)

/-- The settled flag of a history (R144). -/
def settledOf (st : CompSettings) (history : List Nat) : Bool :=
  decide (history.length = 8) && decide (listMax history - listMin history ≤ st.settleTolerance * 100)

/-- The opening book is set at the first settled sample event (R146). -/
def Compartment.openBook (c : Compartment) : Compartment :=
  if c.openingBook.isNone && c.settled then
    { c with openingBook := c.gauge, book := ((c.gauge.getD 0 : Nat) : Int), receipts := 0, meteredOut := 0 }
  else c

/-- One compartment's readings at a sample event (R142 to R146, and the count of R150). -/
def Compartment.sample (st : CompSettings) (level temp : Int) (c : Compartment) : Compartment :=
  let (l, levelClamped) := clampLevel level
  let (t, tempClamped) := clampTemp temp
  let history := joinHistory c.history (strapVolume st.strapping l)
  Compartment.openBook
    { c with
      history := history, gauge := gaugeOf history, settled := settledOf st history, temperature := some t
      receiptCheck := c.receiptCheck.map (bump 8)
      samples := bump max32 c.samples
      clampedLevels := if levelClamped then bump max16 c.clampedLevels else c.clampedLevels
      clampedTemps := if tempClamped then bump max16 c.clampedTemps else c.clampedTemps }

/-- A temperature added to a fill's sum; at saturation of the count both stop (04 R75). -/
def Meter.addTemperature (t : Int) (m : Meter) : Meter :=
  if m.tempCount < max16 then { m with tempSum := fitSigned32 (m.tempSum + t), tempCount := m.tempCount + 1 } else m

/-- The hand-over of temperatures to the channels whose DSC is in FLOWING (R145, 04 R75). -/
def Part.handTemperatures (p : Part) : Part :=
  allHoses.foldl (fun q h =>
    match (q.hose h).dsc, q.hoseComp h with
    | .flowing, some c => q.modMeter h (Meter.addTemperature ((q.comp c).temperature.getD unknownTemp))
    | _, _ => q) p

/-! ## The low-level test (R151, R152) -/

/-- LOW_STOCK told to the hoses of a compartment, in hose-number order. -/
def Part.stopLow (p : Part) (c : CompId) : Part :=
  allHoses.foldl (fun q h => if q.hoseComp h = some c then q.takeCause h .lowStock else q) p

def Part.lowTest (p : Part) (c : CompId) (st : CompSettings) : Part :=
  match (p.comp c).gauge with
  | none => p
  | some gauge =>
    if (p.comp c).low then
      if st.cutOff * 100 + st.capacity * 5 < gauge then
        (p.modComp c fun k => { k with low := false }).event (.low c false)
      else p
    else if gauge ≤ st.cutOff * 100 then
      ((p.modComp c fun k => { k with low := true }).stopLow c).event (.low c true)
    else p

/-! ## The receipt check and the variance test (R149, R150) -/

/-- No hose on the compartment is in FLOWING or STOPPING (R149). -/
def Part.still (p : Part) (c : CompId) : Bool :=
  allHoses.all fun h =>
    !(p.hoseComp h == some c) || !((p.hose h).dsc == .flowing || (p.hose h).dsc == .stopping)

/-- A VARIANCE record and event (R149): book and gauge in litres, the difference gauge less book. -/
def Part.recordVariance (p : Part) (c : CompId) : Part :=
  let k := p.comp c
  let bookL := litres k.book
  let gaugeL : Int := k.gaugeLitres
  ((p.wholeRecord c (.variance c) (.variance bookL gaugeL (gaugeL - bookL))).event (.variance c (gaugeL - bookL))).modComp c
    fun k => { k with latched := true }

/-- The variance test by state (R149). -/
def Part.varianceTest (p : Part) (c : CompId) (st : CompSettings) (magnitude : Nat) : Part :=
  if (p.comp c).latched then
    if magnitude ≤ st.varianceLimit * 50 then p.modComp c fun k => { k with latched := false } else p
  else if st.varianceLimit * 100 < magnitude then p.recordVariance c
  else p

/-- The receipt check, when it is due, and then the variance test (R149, R150). The latest difference is set by either, also where the
receipt check writes a record and the variance test is not made (log 36). -/
def Part.stockTests (p : Part) (c : CompId) (st : CompSettings) : Part :=
  let k := p.comp c
  if k.openingBook.isSome && k.settled && p.still c then
    let difference : Int := ((k.gauge.getD 0 : Nat) : Int) - k.book
    let p := p.modComp c fun k => { k with difference := some difference }
    if k.receiptCheck = some 8 then
      let p := p.modComp c fun k => { k with receiptCheck := none }
      if st.varianceLimit * 100 < difference.natAbs then p.recordVariance c
      else p.varianceTest c st difference.natAbs
    else p.varianceTest c st difference.natAbs
  else p

/-! ## The automatic trigger (09 R156) -/

/-- A compartment that is low for the trigger: its auto-request is set, its opening book is set and its book is below the restock
level. -/
def wantsRestock (k : Compartment) (st : CompSettings) : Bool :=
  st.autoRequest && k.openingBook.isSome && decide (k.book < ((st.restockLevel * 100 : Nat) : Int))

/-- A compartment whose arming flag is set: its opening book is set and its book is at or above the restock level. -/
def rearms (k : Compartment) (st : CompSettings) : Bool :=
  k.openingBook.isSome && decide (((st.restockLevel * 100 : Nat) : Int) ≤ k.book)

/-- The examination of R156, in the bowser role. -/
def Part.restockTrigger (p : Part) (s : Settings) : Part :=
  if s.identity.role = .bowser then
    let armed : ByComp Bool :=
      ⟨p.rsc.armed.a || rearms p.inv.comps.a s.comps.a, p.rsc.armed.b || rearms p.inv.comps.b s.comps.b⟩
    let low : ByComp Bool := ⟨wantsRestock p.inv.comps.a s.comps.a, wantsRestock p.inv.comps.b s.comps.b⟩
    if p.rsc.state = .normal ∧ ((armed.a && low.a) || (armed.b && low.b)) = true then
      (p.setRsc { p.rsc with armed := ⟨armed.a && !low.a, armed.b && !low.b⟩ }).enterDraining
    else p.setRsc { p.rsc with armed := armed }
  else p

/-! ## The sample event -/

/-- The first part of a sample event (R142): readings, temperatures and the low-level tests, each for A and then B. -/
def Part.takeSample (p : Part) (r : Readings) : Part :=
  match p.cfl.settings with
  | none => p
  | some s =>
    let p := p.modComp .a (Compartment.sample s.comps.a r.levelA r.tempA)
    let p := p.modComp .b (Compartment.sample s.comps.b r.levelB r.tempB)
    (p.handTemperatures.lowTest .a s.comps.a).lowTest .b s.comps.b

/-- The second part (R142): the receipt checks and variance tests, each for A and then B, and then the automatic trigger of the
restock coordinator. The whole records they request join the log's queue after the requests of the hoses (07 R128). -/
def Part.testSample (p : Part) : Part :=
  match p.cfl.settings with
  | none => p
  | some s => ((p.stockTests .a s.comps.a).stockTests .b s.comps.b).restockTrigger s

/-- SAMPLE_EVENT (R142): the sample timer has expired. What the low-level tests do to the hoses is settled before the receipt checks
and variance tests, which find the hoses as they stand then (log 32). -/
def execSampleEvent (r : Readings) (s : State) : Host.Outcome State Fault Refusal :=
  nextPart (fun p =>
    match p.inv.sampleTimer with
    | some due =>
      let q := p.reach due
      finish q (settleHoses q ((q.setInv { q.inv with sampleTimer := some (due + sec 2) }).takeSample r)).testSample
    | none => p) s

/-- STOCK_TIMER_EXPIRY (R153). -/
def execStockTimerExpiry (s : State) : Host.Outcome State Fault Refusal :=
  nextPart (fun p =>
    match p.inv.stockTimer with
    | some due =>
      let q := p.reach due
      (q.setInv { q.inv with stockTimer := some (due + sec 60) }).offerStock
    | none => p) s

end Sys2Proof.Machine
end

