-- ==== Sys2Proof/Machine/Records.lean ====
section
/-! DEFINITION. The log's commands (07): the start and end of a write, the commit completion step, READLOG and RELEASE. -/

namespace Sys2Proof.Machine

open Sys2Proof

/-! ## Commit completion (06 R114) -/

/-- Items 2 and 3 for a record of the current shift: the own column of a DISPENSE record's machine takes the gross (03 R42), and
the account's totals take the standard volume and the amount (07 R141). -/
def Part.countRecord (p : Part) (x : Context) (loadout : Bool) (gross standard amount : Nat) : Part :=
  if x.shift = p.alc.shift then
    let p := if loadout then p
      else p.modMachine x.position fun m => m.setColumn p.station (grow32 (m.column p.station) gross)
    p.setTotals (addTotals p.totals x.account standard amount)
  else p

/-- Item 5: the cut rule for the other hoses, at a DISPENSE record of the current shift. -/
def Part.cutOthers (p : Part) (h : HoseId) (x : Context) (loadout : Bool) : Part :=
  if x.shift = p.alc.shift ∧ loadout = false then p.runCuts (some h) x.machine x.account else p

/-- Item 6 (09 R166): the LOADNOTE of a committed LOADOUT, its event, and the bay entry. -/
def Part.offerLoadnote (p : Part) (x : Context) (gross standard : Nat) : Part :=
  match x.target with
  | none => p
  | some (station, c) =>
    let q := (p.offer (.loadnote station (compCode c) x.grant gross standard) false).event (.loadnoteOffered station c gross)
    match q.bayUnderGrant x with
    | some (b, e) =>
      q.setBay b (some
        (({ e with loaded := e.loaded.set c (e.loaded.get c + gross), noteOffered := true } : BayEntry).loadoutEnded q.now))
    | none => q

/-- Whether the record in a slot is a LOADOUT. -/
def Slot.isLoadout (s : Slot) : Bool :=
  match s.opening.map Opening.fields with
  | some (.fill loadout ..) => loadout
  | _ => false

def Part.closeSlot (p : Part) (i : Nat) : Part := p.modSlot i fun s => { s with state := .closed }

/-- Item 8: the hose leaves COMMITTING when its sequencer is in SHUT; otherwise it stays until the entry into SHUT. -/
def Part.endCommit (p : Part) (h : HoseId) : Part :=
  if (p.hose h).valves.phase = .shut then p.leaveCommitting h else p.modContext h fun c => { c with committed := true }

/-- The commit completion step (R114), in the order of its items. -/
def Part.commit (p : Part) (h : HoseId) (slot : Nat) : Part :=
  let s := p.slot slot
  let p := p.closeSlot slot
  match (p.hose h).context, s.closing.map Closing.fields with
  | some x, some (.fill _ gross standard _ amount _ _) =>
    let p := p.countRecord x s.isLoadout gross standard amount
    let p := p.tallyClaim h x gross
    let p := p.cutOthers h x s.isLoadout
    let p := p.offerLoadnote x gross standard
    let p := p.event (.done h (x.sequence.getD 0))
    p.endCommit h
  | _, _ => p

/-! ## Writes (07 R128) -/

/-- WRITE_START (R128): with no write in progress, the oldest waiting request is taken. -/
def execWriteStart (s : State) : Host.Outcome State Fault Refusal := nextPart Part.takeWrite s

/-- The completion effect of a write (R128). -/
def Part.completed (p : Part) (r : WriteReq) : Part :=
  match r with
  | .opening h i withClosing => if withClosing then p.commit h i else p
  | .closing h i => p.commit h i
  | .whole _ i => p.closeSlot i
  | .checkpoint _ _ _ => p
  | .mark _ => p

/-- A write ends (R128): it is in memory, it is counted, and its effect is taken. -/
def Part.endWrite (p : Part) (r : WriteReq) : Part :=
  let q := p.memoryWrite r
  (q.setTlg { q.tlg with writing := none, writeTimer := none, writes := bump max32 q.tlg.writes }).completed r

/-- WRITE_COMPLETE (R128): the write's effect with all that follows from it, then the next waiting request is taken at the same event
(log 10). -/
def execWriteComplete (s : State) : Host.Outcome State Fault Refusal :=
  nextPart (fun p =>
    match p.tlg.writing, p.tlg.writeTimer with
    | some r, some due =>
      let q := p.reach due
      (settle q (q.endWrite r)).takeWrite
    | _, _ => p) s

/-! ## Console requests -/

/-- The record of a sequence number, with the number of the next in ring order (R138). -/
def Part.readRecord (p : Part) (n : Nat) : Part :=
  match slotOf n p.tlg.slots with
  | none => p.refuse .notFound
  | some i =>
    match (p.slot i).record with
    | none => p.refuse .notFound
    | some o => p.respond (.okRecord (recordBytes (p.slot i).state o (p.slot i).closing) ((nextAbove n p.tlg.slots).getD 0))

def Part.readlog (p : Part) (sequence : Field) : Part :=
  match sequenceField sequence with
  | none => p.refuse .badValue
  | some n =>
    if n = 0 then
      match nextAbove 0 p.tlg.slots with
      | none => p.refuse .notFound
      | some oldest => p.readRecord oldest
    else p.readRecord n

/-- READLOG (R138). -/
def execReadlog (sequence : Field) (s : State) : Host.Outcome State Fault Refusal :=
  nextPart (fun p => p.request fun p => p.readlog sequence) s

/-- A RELEASE taken (R139). -/
def Part.releaseTo (p : Part) (limit : Nat) : Part :=
  let (slots, count, last) := releaseLoop limit p.alc.shift p.holdsSlot p.tlg.slots.length p.tlg.slots 0 0
  let q : Part := p.setTlg { p.tlg with slots := slots }
  (if count = 0 then q else q.queueMark last).respond (.okReleased count)

def Part.releaseRequest (p : Part) (sequence : Field) : Part :=
  match sequenceField sequence with
  | none => p.refuse .badValue
  | some n => p.releaseTo n

/-- RELEASE (R139). -/
def execRelease (sequence : Field) (s : State) : Host.Outcome State Fault Refusal :=
  nextPart (fun p => p.request fun p => p.releaseRequest sequence) s

end Sys2Proof.Machine
end

