-- ==== Sys2Proof/Machine/Restock.lean ====
section
/-! DEFINITION. Restocking and the depot role (09): notices, timers and console requests of the restock coordinator. -/

namespace Sys2Proof.Machine

open Sys2Proof

/-! ## Notices at a bowser -/

/-- A BAYGRANT delivered (R158). In the depot role it is discarded (R168). R158 has columns for the revoke flags 0 and 1: that a notice
with a flag above 1 has no effect in any state, neither granting nor revoking, is the model's choice (log 39). -/
def Part.takeBaygrant (p : Part) (origin station bay grant revoke : Nat) : Part :=
  match p.identity with
  | none => p
  | some i =>
    if i.role ≠ .bowser ∨ origin ≠ i.depotStation ∨ station ≠ p.station ∨ bay < 1 ∨ 2 < bay ∨ grant = 0 then p
    else if revoke = 0 then
      match p.rsc.state with
      | .requested =>
        ((p.setRsc { p.rsc with grant := some (bay, grant), repeatTimer := none }).setRestock .granted).event
          (.grant station bay grant false)
      | .granted =>
        if p.rsc.grant.map (·.2) = some grant then p
        else (p.setRsc { p.rsc with grant := some (bay, grant) }).event (.grant station bay grant false)
      | .normal => p
      | .draining => p
      | .receiving => p
    else if revoke = 1 then
      if p.rsc.state = .granted ∧ p.rsc.grant.map (·.2) = some grant then
        (p.setRsc { p.rsc with grant := none }).enterRequested
      else p
    else p

/-- Whether a LOADNOTE is expected (R159). -/
def Part.expects (p : Part) (grant : Nat) : Bool :=
  (p.rsc.state == .granted || p.rsc.state == .receiving) && p.rsc.grant.map (·.2) == some grant

/-- The restock state after an expected LOADNOTE (R159, item 4): RECEIVING, the compartment no longer awaited; NORMAL when that
empties the awaited set. Two states passed at one event queue one RESTOCK_STATE event (R155). -/
def Part.receiveLoad (p : Part) (c : CompId) : Part :=
  let awaited := p.rsc.awaited.set c false
  let q : Part := p.setRsc { p.rsc with awaited := awaited }
  if p.rsc.awaited.get c = true ∧ awaited.a = false ∧ awaited.b = false then q.returnNormal
  else if p.rsc.state = .granted then q.setRestock .receiving
  else q

/-- A LOADNOTE delivered (R159), in the order of its items. In the depot role it is discarded (R168). -/
def Part.takeLoadnote (p : Part) (origin station compartment grant gross standard : Nat) : Part :=
  match p.identity, compOfCode compartment with
  | some i, some c =>
    if i.role ≠ .bowser ∨ origin ≠ i.depotStation ∨ station ≠ p.station then p
    else
      let expected := p.expects grant
      let q := p.modComp c fun k => k.receive gross
      let q := q.wholeRecord c (.receipt c origin grant) (.receipt gross standard (!expected))
      let q := q.event (.loadnoteTaken c gross expected)
      if expected then q.receiveLoad c else q
  | _, _ => p

/-! ## Notices at a depot -/

/-- A BAYREQ delivered (R161, R164). In the bowser role it is discarded (R168). Of a bay entry it changes the spaces alone, as R161's
table says, although R162 speaks of the urgency as last heard (log 36). -/
def Part.takeBayreq (p : Part) (origin spaceA spaceB urgency cancel : Nat) : Part :=
  if p.role ≠ some .depot ∨ 1 < urgency ∨ 1 < cancel then p
  else if cancel = 1 then p.removeStation origin
  else match p.bayOf origin with
    | some b =>
      match p.rsc.bays.get b with
      | none => p
      | some e =>
        (p.setBay b (some { e with spaces := ⟨spaceA, spaceB⟩ })).offer (.baygrant origin (bayNumber b) e.grant 0) false
    | none =>
      match p.rsc.queue.find? fun e => e.station == origin with
      | some e =>
        p.setRsc { p.rsc with
            queue := insertEntry { e with urgency := urgency, spaces := ⟨spaceA, spaceB⟩ }
              (p.rsc.queue.filter fun e => !(e.station == origin)) }
      | none => (p.insertStation origin urgency ⟨spaceA, spaceB⟩).grantStep 2

/-- A STOCK as the RSC takes it (R164, R168): a depot drops a station that reports NORMAL or DRAINING. -/
def Part.takeStock (p : Part) (origin restockState : Nat) : Part :=
  if p.role = some .depot ∧ (restockState = restockCode .normal ∨ restockState = restockCode .draining) then
    p.removeStation origin
  else p

/-- A station reported silent (01 R14): the depot removes it (R164); a bowser in GRANTED that has lost its depot asks again (R158). -/
def Part.silent (p : Part) (station : Nat) : Part :=
  match p.identity with
  | none => p
  | some i =>
    match i.role with
    | .depot => p.removeStation station
    | .bowser =>
      if p.rsc.state = .granted ∧ station = i.depotStation then
        (p.setRsc { p.rsc with grant := none }).enterRequested
      else p

/-! ## Timers -/

/-- BAYREQ_REPEAT_EXPIRY (R157). In FAULT no timer of the RSC runs (R168). -/
def execBayreqRepeatExpiry (s : State) : Host.Outcome State Fault Refusal :=
  nextPart (fun p =>
    match p.rsc.repeatTimer, p.rsc.frozenAt with
    | some due, none => if p.rsc.state = .requested then (p.reach due).requestBay else p
    | _, _ => p) s

/-- The grant expiry of a bay (R163). -/
def Part.expireGrant (p : Part) (b : BayId) : Part :=
  match p.rsc.bays.get b, p.rsc.frozenAt with
  | some e, none =>
    match e.timer with
    | .expiry due => ((p.reach due).revokeBay b e).grantStep 2
    | .release _ => p
    | .stopped => p
  | _, _ => p

/-- GRANT_EXPIRY (R163). -/
def execGrantExpiry (b : BayId) (s : State) : Host.Outcome State Fault Refusal :=
  nextPart (fun p => p.expireGrant b) s

/-- The release timer of a bay (R163): the bay is freed with no notice, and the grant step runs. -/
def Part.expireRelease (p : Part) (b : BayId) : Part :=
  match p.rsc.bays.get b, p.rsc.frozenAt with
  | some e, none =>
    match e.timer with
    | .release due => ((p.reach due).setBay b none).grantStep 2
    | .expiry _ => p
    | .stopped => p
  | _, _ => p

/-- RELEASE_TIMER_EXPIRY (R163). -/
def execReleaseTimerExpiry (b : BayId) (s : State) : Host.Outcome State Fault Refusal :=
  nextPart (fun p => p.expireRelease b) s

/-! ## Console requests -/

/-- The refusals that RESTOCK, RESTOCK_CANCEL, RESTOCK_DONE and DELIVERY share (R156, R160, R167): CONFIG_FAULT in FAULT,
WRONG_ROLE in the other role. -/
def Part.roleRefusal (p : Part) (wanted : Role) : Option Code :=
  if p.cfl.load = .fault then some .configFault
  else if p.role ≠ some wanted then some .wrongRole
  else none

/-- A RESTOCK request taken (R156). -/
def Part.restock (p : Part) : Part :=
  match p.roleRefusal .bowser with
  | some code => p.refuse code
  | none =>
    if p.rsc.state = .normal then finish p (p.respond .ok).enterDraining else p.refuse .badState

/-- RESTOCK (R156). -/
def execRestock (s : State) : Host.Outcome State Fault Refusal := nextPart (fun p => p.request Part.restock) s

/-- A RESTOCK_CANCEL request taken (R160). -/
def Part.restockCancel (p : Part) : Part :=
  match p.roleRefusal .bowser with
  | some code => p.refuse code
  | none =>
    match p.rsc.state with
    | .draining => finish p (p.respond .ok).returnNormal
    | .requested => finish p (p.respond .ok).returnNormal
    | .granted => finish p (p.respond .ok).returnNormal
    | .normal => p.refuse .badState
    | .receiving => p.refuse .badState

/-- RESTOCK_CANCEL (R160). -/
def execRestockCancel (s : State) : Host.Outcome State Fault Refusal := nextPart (fun p => p.request Part.restockCancel) s

/-- A RESTOCK_DONE request taken (R160). -/
def Part.restockDone (p : Part) : Part :=
  match p.roleRefusal .bowser with
  | some code => p.refuse code
  | none => if p.rsc.state = .receiving then finish p (p.respond .ok).returnNormal else p.refuse .badState

/-- RESTOCK_DONE (R160). -/
def execRestockDone (s : State) : Host.Outcome State Fault Refusal := nextPart (fun p => p.request Part.restockDone) s

/-- A DELIVERY request taken (R167): a field the message lacks or a compartment that is not A or B fails the check of R179
first; then CONFIG_FAULT, WRONG_ROLE, and BAD_VALUE for the gross. -/
def Part.delivery (p : Part) (compartment gross : Field) : Part :=
  match compField compartment, gross with
  | some c, some gross =>
    match p.roleRefusal .depot with
    | some code => p.refuse code
    | none =>
      if gross < 1 ∨ 6000000 < gross then p.refuse .badValue
      else ((p.respond .ok).modComp c fun k => k.receive gross).wholeRecord c (.delivery c) (.delivery gross)
  | _, _ => p.refuse .badValue

/-- DELIVERY (R167). -/
def execDelivery (compartment gross : Field) (s : State) : Host.Outcome State Fault Refusal :=
  nextPart (fun p => p.request fun p => p.delivery compartment gross) s

end Sys2Proof.Machine
end

