-- ==== Sys2Proof/Machine/SiteNet.lean ====
section
/-! DEFINITION. The site-net controller (01): medium access, the receive filter, the peer table, the sweep, and the second tick. -/

namespace Sys2Proof.Machine

open Sys2Proof

def Part.modSnc (p : Part) (f : Snc → Snc) : Part := p.setSnc (f p.snc)

/-! ## Medium access (01 section 1.2) -/

/-- The n-th slot count: 1 to 16 (R5; log 9). -/
def backoffSlots (draw : Nat) : Nat := (Config.backoffDraw draw).toNat + 1

/-- The entry into BACKOFF (R5): a slot count is drawn, and the wait is that many slots of 5 ms. -/
def Part.enterBackoff (p : Part) : Part :=
  (p.setDraws (p.draws + 1)).modSnc fun c =>
    { c with tx := .backoff, idleGap := none, backoff := some (p.now + ms (5 * backoffSlots p.draws)) }

/-- The entry into DEFER (R4): the idle gap starts, or at a busy medium BACKOFF follows at once. -/
def Part.enterDefer (p : Part) (busy : Bool) : Part :=
  let q : Part := p.setPins { p.pins with busy := busy }
  if busy then q.enterBackoff
  else q.modSnc fun c => { c with tx := .defer, idleGap := some (p.now + ms 10), backoff := none }

/-- A frame with its CRC (R1). -/
def sealFrame (site : Nat) (station boot sequence : Nat) (n : Notice) : Frame :=
  let f : Frame :=
    { site := BitVec.ofNat 16 site, origin := BitVec.ofNat 8 station, boot := BitVec.ofNat 8 boot
      sequence := BitVec.ofNat 8 sequence, kind := BitVec.ofNat 8 (kindCode n.kind)
      bodyLength := BitVec.ofNat 8 (bodyLengthOf n.kind), body := n.body, crc := 0#16 }
  { f with crc := crc16 (crcBytes f) }

/-- The frame built for a notice at the moment it is taken (R1). -/
def Part.buildFrame (p : Part) (n : Notice) : Frame :=
  sealFrame ((p.identity.map (·.siteCode)).getD 0) p.station p.tlg.bootNumber p.snc.sequence n

/-- In IDLE with a notice waiting, the oldest is taken (R3). -/
def Part.takeFrame (p : Part) (busy : Bool) : Part :=
  match p.snc.tx, p.snc.queue with
  | .idle, q :: rest =>
    if p.snc.joined then
      (p.modSnc fun c =>
        { c with queue := rest, inHand := some (p.buildFrame q.notice), attempts := 0
                 sequence := (c.sequence + 1) % 256 }).enterDefer busy
    else p
  | _, _ => p

/-- FRAME_TAKEN (R3). -/
def execFrameTaken (busy : Bool) (s : State) : Host.Outcome State Fault Refusal := nextPart (fun p => p.takeFrame busy) s

/-- BUSY_ASSERTED (R4). -/
def execBusyAsserted (s : State) : Host.Outcome State Fault Refusal :=
  nextPart (fun p =>
    let q : Part := p.setPins { p.pins with busy := true }
    if p.snc.tx = .defer ∧ p.snc.idleGap.isSome = true then q.enterBackoff else q) s

/-- IDLE_GAP_EXPIRY (R4): the attempt count advances and the transmission begins. -/
def execIdleGapExpiry (s : State) : Host.Outcome State Fault Refusal :=
  nextPart (fun p =>
    match p.snc.tx, p.snc.idleGap with
    | .defer, some due =>
      (p.reach due).modSnc fun c => { c with tx := .sending, idleGap := none, attempts := bump 4 c.attempts }
    | _, _ => p) s

/-- BACKOFF_EXPIRY (R5). -/
def execBackoffExpiry (busy : Bool) (s : State) : Host.Outcome State Fault Refusal :=
  nextPart (fun p =>
    match p.snc.tx, p.snc.backoff with
    | .backoff, some due => ((p.reach due).modSnc fun c => { c with backoff := none }).enterDefer busy
    | _, _ => p) s

/-- TRANSMISSION_END (R6): the echo window starts. -/
def execTransmissionEnd (s : State) : Host.Outcome State Fault Refusal :=
  nextPart (fun p =>
    if p.snc.tx = .sending then p.modSnc fun c => { c with tx := .awaitEcho, echoWindow := p.after (ms 5) } else p) s

/-- A collision (R7): back to BACKOFF, or after the fourth attempt the frame is dropped. -/
def Part.collision (p : Part) : Part :=
  let q := p.modSnc fun c => { c with txCollisions := bump max16 c.txCollisions, echoWindow := none }
  if p.snc.attempts < 4 then q.enterBackoff
  else q.modSnc fun c => { c with tx := .idle, inHand := none, txCollided := bump max16 c.txCollided }

/-- ECHO_WINDOW_EXPIRY (R7). -/
def execEchoWindowExpiry (s : State) : Host.Outcome State Fault Refusal :=
  nextPart (fun p =>
    match p.snc.tx, p.snc.echoWindow with
    | .awaitEcho, some due => (p.reach due).collision
    | _, _ => p) s

/-! ## The receive filter (01 section 1.3) -/

/-- The frame's fields as the transmit side compares them: the body as long as the frame says. -/
def frameFields (f : Frame) : Frame := { f with body := f.body.take f.bodyLength.toNat }

/-- An own-origin frame (R6, R7, R9). -/
def Part.ownFrame (p : Part) (f : Frame) : Part :=
  if p.snc.tx = .awaitEcho then
    if p.snc.inHand = some (frameFields f) then
      p.modSnc fun c => { c with tx := .idle, inHand := none, echoWindow := none, txSent := bump max16 c.txSent }
    else p.collision
  else p.modSnc fun c => { c with rxOwn := bump max16 c.rxOwn }

/-- Stage 1 of the filter (R8): whether a frame is malformed. -/
def badFrame (f : Frame) : Bool :=
  !(f.crc == crc16 (crcBytes f)) || decide (48 < f.bodyLength.toNat) || decide (f.body.length < f.bodyLength.toNat)

def Part.modPeer (p : Part) (station : Nat) (f : Peer → Peer) : Part :=
  p.modSnc fun c => { c with peers := c.peers.modify (station - 1) f }

def Part.peer (p : Part) (station : Nat) : Peer := p.snc.peers.getD (station - 1) Peer.start

/-- The arrival noted by the origin's entry (R10). -/
def Peer.arrive (e : Peer) : Peer := { e with received := bump max16 e.received, seconds := 0, heard := true }

/-- How a frame's boot number and sequence stand to the origin's entry (R10, R11). -/
inductive Arrival where
  | fresh
  | restarted
  | resynchronised
  | inSequence (lost : Nat)
  | repeated
deriving DecidableEq, Repr

def Peer.arrival (e : Peer) (boot sequence : Nat) : Arrival :=
  match e.boot with
  | none => .fresh
  | some b =>
    if b ≠ boot then .restarted
    else if e.heard then
      match e.lastSequence with
      | none => .resynchronised
      | some last =>
        let d := (sequence + 512 - (last + 1)) % 256
        if d = 255 then .repeated else .inSequence (if d ≤ 127 then d else 0)
    else .resynchronised

/-- The notice handed to its block (R12, R2): CLAIM, DROP, TALLY and SHIFT are compared first (03 R40). -/
def Part.deliver (p : Part) (origin : Nat) (n : Notice) : Part :=
  match n with
  | .claim shift machine number reserved =>
    let (q, current) := p.compareShift shift
    if current then q.takeClaim origin machine number reserved else q
  | .drop shift number =>
    let (q, current) := p.compareShift shift
    if current then q.removeClaim origin number else q
  | .tally shift machine cumulative closing =>
    let (q, current) := p.compareShift shift
    if current then q.takeTally origin machine cumulative closing else q
  | .shift number => (p.compareShift number).1
  | .hold machine held reason version => p.takeHold origin machine held reason version
  | .stock role restockState a b =>
    (p.modPeer origin fun e =>
      { e with role := some role, restockState := some restockState, figures := some (a, b) }).takeStock origin restockState
  | .bayreq spaceA spaceB urgency cancel => p.takeBayreq origin spaceA spaceB urgency cancel
  | .baygrant station bay grant revoke => p.takeBaygrant origin station bay grant revoke
  | .loadnote station compartment grant gross standard => p.takeLoadnote origin station compartment grant gross standard

/-- Stage 8 (R12). -/
def Part.accept (p : Part) (origin : Nat) (n : Notice) : Part :=
  (p.modSnc fun c => { c with rxGood := bump max16 c.rxGood }).deliver origin n

/-- A frame whose origin's boot number has changed (R10, 03 R47, 02 R35). -/
def Part.peerRestarted (p : Part) (origin boot sequence : Nat) : Part :=
  let q := p.modPeer origin fun e =>
    { e with boot := some boot, lastSequence := some sequence, role := none, restockState := none, figures := none }
  (q.setAlc { q.alc with peerClaims := q.alc.peerClaims.filter fun c => !(c.origin == origin) }).takeOverHolds origin

/-- Stages 6 to 8 (R10 to R12). -/
def Part.hear (p : Part) (origin boot sequence : Nat) (n : Notice) : Part :=
  let arrival := (p.peer origin).arrival boot sequence
  let q := p.modPeer origin Peer.arrive
  match arrival with
  | .fresh =>
    (q.modPeer origin fun e => { e with boot := some boot, lastSequence := some sequence }).accept origin n
  | .restarted => (q.peerRestarted origin boot sequence).accept origin n
  | .resynchronised => (q.modPeer origin fun e => { e with lastSequence := some sequence }).accept origin n
  | .inSequence lost =>
    (q.modPeer origin fun e => { e with lastSequence := some sequence, lost := addSat max16 e.lost lost }).accept origin n
  | .repeated => q.modSnc fun c => { c with rxRepeat := bump max16 c.rxRepeat }

/-- The receive filter (R8). -/
def Part.receive (p : Part) (f : Frame) : Part :=
  if badFrame f then p.modSnc fun c => { c with rxBad := bump max16 c.rxBad }
  else if (p.identity.map (·.siteCode)) ≠ some f.site.toNat then p.modSnc fun c => { c with rxForeign := bump max16 c.rxForeign }
  else if f.origin.toNat < 1 ∨ 14 < f.origin.toNat then p.modSnc fun c => { c with rxBad := bump max16 c.rxBad }
  else if f.origin.toNat = p.station then p.ownFrame f
  else match kindOfCode f.kind.toNat with
    | none => p.modSnc fun c => { c with rxUnknown := bump max16 c.rxUnknown }
    | some k =>
      if f.bodyLength.toNat ≠ bodyLengthOf k then p.modSnc fun c => { c with rxBad := bump max16 c.rxBad }
      else p.hear f.origin.toNat f.boot.toNat f.sequence.toNat (noticeOf k f.body)

/-- FRAME_RECEIVED (R8). While the SNC is stopped frames are discarded without being counted (R20, R21). `elapsed` is the time
since the command before (log 2). -/
def execFrameReceived (elapsed : Nat) (f : Frame) (s : State) : Host.Outcome State Fault Refusal :=
  nextPart (fun p =>
    let q := p.reach (p.now + elapsed)
    if q.snc.joined then settle q (q.receive f) else q) s

/-! ## The sweep (01 section 1.6) -/

/-- What a sweep position offers, when it is a candidate (R18). -/
def Part.sweepNotice (p : Part) (position : Nat) : Option Queued :=
  if position < p.machines.length then
    match p.machines[position]? with
    | some m =>
      if m.column p.station = 0 then none
      else some ⟨.tally p.alc.shift m.entry.number (m.column p.station) 0, true⟩
    | none => none
  else
    match p.machines[position - p.machines.length]? with
    | some m =>
      if m.hold.author = p.station ∧ m.hold.version ≠ 0 then
        some ⟨.hold m.entry.number (flagCode m.hold.held) m.hold.reason m.hold.version, false⟩
      else none
    | none => none

/-- The first candidate from the cursor onward, for at most one round (R18). -/
def Part.sweepScan (p : Part) : Nat → Nat → Option (Nat × Queued)
  | 0, _ => none
  | left + 1, position =>
    match p.sweepNotice position with
    | some q => some (position, q)
    | none => p.sweepScan left ((position + 1) % (2 * p.machines.length))

/-- Whether a sweep notice is queued when it is offered (R15, R18). -/
def sweepQueues (queue : List Queued) (q : Queued) : Bool :=
  if q.yielding then decide (queue.length ≤ 8) else !(admission queue false == .dropped)

/-- One sweep (R18). -/
def Part.sweepOnce (p : Part) : Part :=
  match p.sweepScan (2 * p.machines.length) p.snc.cursor with
  | none => p
  | some (position, q) =>
    let at_ : Part := p.modSnc fun c =>
      { c with cursor := if sweepQueues c.queue q then (position + 1) % (2 * p.machines.length) else position }
    if q.yielding && !sweepQueues p.snc.queue q then at_ else at_.offer q.notice q.yielding

/-- SWEEP_TICK (R18, R19). -/
def execSweepTick (s : State) : Host.Outcome State Fault Refusal :=
  nextPart (fun p =>
    match p.snc.sweep with
    | some due => ((p.reach due).modSnc fun c => { c with sweep := some (due + sec 4) }).sweepOnce
    | none => p) s

/-! ## The second tick and silence -/

/-- One second more since a peer that has been heard since start was last heard (R14). -/
def Peer.tick (e : Peer) : Peer := if e.boot.isSome then { e with seconds := bump max16 e.seconds } else e

/-- SECOND_TICK (R14, 03 R37, 06 R104). The silence count does not run while the SNC is stopped (R21). -/
def execSecondTick (s : State) : Host.Outcome State Fault Refusal :=
  nextPart (fun p =>
    let q := p.reach p.nextSecond
    { q with
      nextSecond := p.nextSecond + sec 1
      alc := { q.alc with shiftSeconds := bump max32 q.alc.shiftSeconds }
      hoses := q.hoses.map fun _ u => { u with context := u.context.map fun c => { c with elapsed := c.elapsed + 1 } }
      snc := if q.snc.joined then { q.snc with peers := q.snc.peers.map Peer.tick } else q.snc }) s

/-- PEER_SILENT (R14): the entry becomes not-heard and the RSC is told. -/
def execPeerSilent (station : Nat) (s : State) : Host.Outcome State Fault Refusal :=
  nextPart (fun p =>
    if p.snc.joined && (p.peer station).heard && decide (300 ≤ (p.peer station).seconds) then
      finish p ((p.modPeer station fun e => { e with heard := false }).silent station)
    else p) s

end Sys2Proof.Machine
end

