-- ==== Sys2Proof/Machine/Image.lean ====
section
/-! DEFINITION. The configuration image (10): its header and sections, and the ordered checks of R170. -/

namespace Sys2Proof.Machine

open Sys2Proof

/-! ## Header and directory (10 section 10.6) -/

structure Header where
  marker : Nat
  format : Nat
  length : Nat
  presence : Nat
  crc : Nat
deriving DecidableEq, Repr

def headerOf (b : List Byte) : Header :=
  { marker := fieldAt b 0 2, format := fieldAt b 2 2, length := fieldAt b 4 2, presence := fieldAt b 6 2, crc := fieldAt b 8 4 }

/-- The eleven sections, by their presence bits. -/
def sectionNumbers : List Nat := [0, 1, 2, 3, 4, 5, 6, 7, 8, 9, 10]

def Header.has (h : Header) (i : Nat) : Bool := h.presence.testBit i

/-- A section's directory offset. -/
def offsetOf (b : List Byte) (i : Nat) : Nat := fieldAt b (12 + 2 * i) 2

/-- A section's size; the machines section's follows from its count. -/
def sizeOf_ (b : List Byte) (i : Nat) : Nat :=
  match i with
  | 0 => 9
  | 1 => 19
  | 2 => 19
  | 3 => 19
  | 4 => 19
  | 5 => 145
  | 6 => 145
  | 7 => 144
  | 8 => 16
  | 9 => 320
  | _ => 2 + 19 * fieldAt b (offsetOf b 10) 2

/-- A section's offset and size lie wholly within the length (R170, check 4). -/
def placed (b : List Byte) (h : Header) (i : Nat) : Bool :=
  if h.has i then
    decide (offsetOf b i ≠ 0) && decide (offsetOf b i + 2 ≤ h.length) && decide (offsetOf b i + sizeOf_ b i ≤ h.length)
  else decide (offsetOf b i = 0)

/-- Two sections do not overlap. -/
def apart (b : List Byte) (i j : Nat) : Bool :=
  decide (offsetOf b i + sizeOf_ b i ≤ offsetOf b j) || decide (offsetOf b j + sizeOf_ b j ≤ offsetOf b i)

/-- Check 4 (R170; 10 section 10.6 for the five highest presence bits). -/
def lengthOk (b : List Byte) (h : Header) : Bool :=
  decide (34 ≤ h.length) && decide (h.length ≤ 16384) && decide (h.presence < 2048)
    && sectionNumbers.all (placed b h)
    && sectionNumbers.all fun i => sectionNumbers.all fun j =>
        decide (j ≤ i) || !(h.has i && h.has j) || apart b i j

/-- The image with the four bytes of its CRC field taken as 0 (R170). -/
def withoutCrc (b : List Byte) (length : Nat) : List Byte :=
  b.take 8 ++ [0#8, 0#8, 0#8, 0#8] ++ (b.take length).drop 12

/-! ## Sections: their fields in order, none where one is outside its range (R171) -/

/-- A number within a range. -/
def within (low high n : Nat) : Option Nat := if low ≤ n ∧ n ≤ high then some n else none

/-- A yes-or-no field: 0 or 1. -/
def flagField : Nat → Option Bool
  | 0 => some false
  | 1 => some true
  | _ => none

def roleOfCode : Nat → Option Role
  | 1 => some .bowser
  | 2 => some .depot
  | _ => none

def pumpOfCode : Nat → Option PumpId
  | 1 => some .p1
  | 2 => some .p2
  | _ => none

/-- `count` fields of one width from an offset on. -/
def fieldsAt (b : List Byte) (width : Nat) : Nat → Nat → List Nat
  | 0, _ => []
  | count + 1, offset => fieldAt b offset width :: fieldsAt b width count (offset + width)

def identityAt (b : List Byte) (o : Nat) : Option Identity := do
  let role ← roleOfCode (fieldAt b (o + 2) 1)
  let depot ← within 1 14 (fieldAt b (o + 3) 1)
  let listen ← within 0 600 (fieldAt b (o + 4) 2)
  let bays ← within 1 2 (fieldAt b (o + 6) 1)
  let p1 ← within 1 3 (fieldAt b (o + 7) 1)
  let p2 ← within 1 3 (fieldAt b (o + 8) 1)
  return { siteCode := fieldAt b o 2, role := role, depotStation := depot, listenTime := listen, bays := bays, limits := ⟨p1, p2⟩ }

def hoseAt (b : List Byte) (o : Nat) : Option HoseSettings := do
  let enabled ← flagField (fieldAt b o 1)
  let compartment ← compOfCode (fieldAt b (o + 1) 1)
  let pump ← pumpOfCode (fieldAt b (o + 2) 1)
  let priority ← within 0 7 (fieldAt b (o + 3) 1)
  let swap ← flagField (fieldAt b (o + 4) 1)
  let steps ← within 200 8000 (fieldAt b (o + 5) 2)
  let calibration ← within 9000 11000 (fieldAt b (o + 7) 2)
  let start ← within 0 500 (fieldAt b (o + 9) 2)
  let slowdown ← within 50 2000 (fieldAt b (o + 11) 2)
  let settle ← within 100 2000 (fieldAt b (o + 13) 2)
  let tolerance ← within 10 200 (fieldAt b (o + 15) 1)
  let rated ← within 20 1000 (fieldAt b (o + 16) 2)
  let noFlow ← within 10 120 (fieldAt b (o + 18) 1)
  return { enabled := enabled, compartment := compartment, pump := pump, priority := priority, phaseSwap := swap
           stepsPerLitre := steps, calibration := calibration, startVolume := start, slowdown := slowdown, settleTime := settle
           overrunTolerance := tolerance, ratedFlow := rated, noFlowTime := noFlow }

/-- The points of a strapping table: levels and volumes in turn. -/
def pointsOf : List Nat → List (Nat × Nat)
  | level :: volume :: rest => (level, volume) :: pointsOf rest
  | _ => []

def compAt (b : List Byte) (o : Nat) : Option CompSettings := do
  let grade ← within 1 2 (fieldAt b o 1)
  let capacity ← within 100 60000 (fieldAt b (o + 1) 2)
  let reserve ← within 0 capacity (fieldAt b (o + 3) 2)
  let cutOff ← within 0 capacity (fieldAt b (o + 5) 2)
  let restock ← within 0 capacity (fieldAt b (o + 7) 2)
  let auto ← flagField (fieldAt b (o + 9) 1)
  let variance ← within 10 5000 (fieldAt b (o + 10) 2)
  let tolerance ← within 5 200 (fieldAt b (o + 12) 1)
  let points := pointsOf (fieldsAt b 2 66 (o + 13))
  if points.all fun q => decide (q.1 ≤ 4000) && decide (q.2 ≤ capacity) then
    return { grade := grade, capacity := capacity, reserve := reserve, cutOff := cutOff, restockLevel := restock
             autoRequest := auto, varianceLimit := variance, settleTolerance := tolerance, strapping := points }
  else none

def correctionAt (b : List Byte) (o : Nat) : Option (List Nat) := (fieldsAt b 2 72 o).mapM (within 8000 12000)

def accountAt (b : List Byte) (o : Nat) : Option AccountSettings := do
  let band ← within 0 3 (fieldAt b o 1)
  let ceiling ← within 0 1000000 (fieldAt b (o + 1) 4)
  return { band := band, ceiling := ceiling }

def accountsAt (b : List Byte) : Nat → Nat → Option (List AccountSettings)
  | 0, _ => some []
  | count + 1, o => do
    let a ← accountAt b o
    let rest ← accountsAt b count (o + 5)
    return a :: rest

/-- An inlet part: both fields 0, or a station and a compartment (R171). -/
def inletOf (station compartment : Nat) : Option (Option (Nat × CompId)) :=
  if station = 0 ∧ compartment = 0 then some none
  else do
    let s ← within 1 14 station
    let c ← compOfCode compartment
    return some (s, c)

/-- A machine entry (02 R25). The layout gives no held flag and no reason (log 30). -/
def machineAt (b : List Byte) (o : Nat) : Option MachineEntry := do
  let number ← within 1 65534 (fieldAt b o 2)
  let account ← within 0 63 (fieldAt b (o + 10) 1)
  let grades ← within 1 3 (fieldAt b (o + 11) 1)
  let capacity ← within 1 60000 (fieldAt b (o + 12) 2)
  let allowance ← if fieldAt b (o + 14) 2 = 65535 then some none else (within 0 60000 (fieldAt b (o + 14) 2)).map some
  let keyed ← flagField (fieldAt b (o + 16) 1)
  let inlet ← inletOf (fieldAt b (o + 17) 1) (fieldAt b (o + 18) 1)
  return { number := number, tag := BitVec.ofNat 64 (fieldAt b (o + 2) 8), account := account, grade1 := grades.testBit 0
           grade2 := grades.testBit 1, capacity := capacity, allowance := allowance, keyed := keyed, held := false, reason := 0
           inlet := inlet }

def machinesFrom (b : List Byte) : Nat → Nat → Option (List MachineEntry)
  | 0, _ => some []
  | count + 1, o => do
    let m ← machineAt b o
    let rest ← machinesFrom b count (o + 19)
    return m :: rest

/-- The machines section: a count of 0 to 320, then the entries. -/
def machinesAt (b : List Byte) (o : Nat) : Option (List MachineEntry) := do
  let count ← within 0 320 (fieldAt b o 2)
  machinesFrom b count (o + 2)

/-! ## The whole image -/

/-- A section that may be absent, with its default (R171). -/
def sectionOr {α : Type} (b : List Byte) (h : Header) (i : Nat) (default : α) (read : List Byte → Nat → Option α) : Option α :=
  if h.has i then read b (offsetOf b i) else some default

/-- Check 7 (R170): every field of every present section in its range, and in the bowser role another station as depot. -/
def contentOf (station : Nat) (b : List Byte) (h : Header) : Option (Settings × List MachineEntry) := do
  let identity ← identityAt b (offsetOf b 0)
  let hose := fun (i : Nat) => sectionOr b h i none fun b o => (hoseAt b o).map some
  let h1 ← hose 1
  let h2 ← hose 2
  let h3 ← hose 3
  let h4 ← hose 4
  let a ← compAt b (offsetOf b 5)
  let c ← compAt b (offsetOf b 6)
  let correction ← sectionOr b h 7 (List.replicate 72 10000) correctionAt
  let tariff ← sectionOr b h 8 (List.replicate 8 0) fun b o => some (fieldsAt b 2 8 o)
  let accounts ← sectionOr b h 9 (List.replicate 64 { band := 0, ceiling := 0 }) fun b o => accountsAt b 64 o
  let machines ← sectionOr b h 10 [] machinesAt
  if identity.role = .bowser ∧ identity.depotStation = station then none
  else return ({ identity := identity, hoses := ⟨h1, h2, h3, h4⟩, comps := ⟨a, c⟩, correction := correction, tariff := tariff
                 accounts := accounts }, machines)

/-- Strictly increasing in level and in volume (R170, check 8). -/
def increasing : List (Nat × Nat) → Bool
  | [] => true
  | [_] => true
  | p :: q :: rest => decide (p.1 < q.1) && decide (p.2 < q.2) && increasing (q :: rest)

/-- No value appears twice. -/
def distinct {α : Type} [DecidableEq α] : List α → Bool
  | [] => true
  | x :: rest => !(rest.any fun y => decide (y = x)) && distinct rest

/-- What a load gives: the check result, the header's length and CRC and the presence set when the header was read, and the
settings when the result is GOOD. -/
structure LoadResult where
  check : CheckResult
  header : Option (Nat × BitVec 32)
  presence : Option (BitVec 16)
  content : Option (Settings × List MachineEntry)
deriving DecidableEq, Repr

/-- Checks 2 to 10 on an image wholly read (R170). -/
def checkImage (station : Nat) (b : List Byte) (h : Header) : CheckResult × Option (Settings × List MachineEntry) :=
  if h.marker ≠ 0x6B1D then (.badMarker, none)
  else if h.format ≠ 1 then (.badFormat, none)
  else if !lengthOk b h then (.badLength, none)
  else if (crc32 (withoutCrc b h.length)).toNat ≠ h.crc then (.badCrc, none)
  else if !(h.has 0 && h.has 5 && h.has 6) then (.missingSection, none)
  else match contentOf station b h with
    | none => (.badValue, none)
    | some (s, machines) =>
      if !(increasing s.comps.a.strapping && increasing s.comps.b.strapping) then (.badStrapping, none)
      else if !distinct (machines.map (·.number)) then (.duplicateMachine, none)
      else if !distinct ((machines.map (·.tag)).filter fun t => !(t == 0)) then (.duplicateTag, none)
      else (.good, some (s, machines))

/-- The image load (R170). `store` is what the configuration memory gave within 400 ms; none when it did not answer. -/
def loadImage (station : Nat) (store : Option (List Byte)) : LoadResult :=
  match store with
  | none => { check := .noAnswer, header := none, presence := none, content := none }
  | some b =>
    if b.length < 34 then { check := .noAnswer, header := none, presence := none, content := none }
    else
      let h := headerOf b
      let header := some (h.length, BitVec.ofNat 32 h.crc)
      let presence := some (BitVec.ofNat 16 h.presence)
      if b.length < h.length then { check := .noAnswer, header := header, presence := presence, content := none }
      else
        let (check, content) := checkImage station b h
        { check := check, header := header, presence := presence, content := content }

end Sys2Proof.Machine
end

