-- ==== Sys2Proof/Machine/MeterChannel.lean ====
section
/-! DEFINITION. The meter channels (04): decoding, gross volume, sequence faults, reverse flow, rate, no-flow and creep. -/

namespace Sys2Proof.Machine

open Sys2Proof

/-! ## Decoding (R62, R63) -/

inductive StepClass where
  | forward
  | reverse
  | error
deriving DecidableEq, Repr

/-- The levels as the channel takes them: exchanged when the phase swap flag is set (R63). -/
def swapped (swap a b : Bool) : Bool × Bool := if swap then (b, a) else (a, b)

/-- The class of a change of the pair; none when the pair is the last pair (R62). The forward cycle is 0,0 to 1,0 to 1,1 to 0,1. -/
def classify (lastA lastB a b : Bool) : Option StepClass :=
  if a = lastA ∧ b = lastB then none
  else if a ≠ lastA ∧ b ≠ lastB then some .error
  else if a = !lastB ∧ b = lastA then some .forward
  else some .reverse

/-! ## What one step does to the channel's own values -/

/-- A good step advances the good-step run, and at 64 LIVE is cleared (R67). -/
def Meter.goodStep (m : Meter) : Meter :=
  { m with goodRun := bump 64 m.goodRun, live := if bump 64 m.goodRun = 64 then false else m.live }

/-- A sequence error (R67, R68, R70, R79). The rate run is emptied while the window is OPEN. -/
def Meter.sequenceError (m : Meter) : Meter :=
  { m with
    live := true, goodRun := 0, sticky := true
    errorCount := bump 255 m.errorCount, totalErrors := bump max32 m.totalErrors
    rateStart := if m.window then none else m.rateStart
    rateRun := if m.window then 0 else m.rateRun }

/-- A new held rate and what it does to the overrate timer (R70, R71). -/
def Meter.newRate (now : Nat) (st : HoseSettings) (rate : Nat) (m : Meter) : Meter :=
  { m with
    heldRate := rate
    overrateTimer := if rateThreshold st < rate then some (m.overrateTimer.getD (now + sec 3)) else none }

/-- The rate run at a forward transaction step (R70). -/
def Meter.rateStep (now : Nat) (st : HoseSettings) (m : Meter) : Meter :=
  match m.rateStart with
  | none => { m with rateStart := some now, rateRun := 0 }
  | some start =>
    if m.rateRun + 1 = 16 then
      ({ m with rateStart := some now, rateRun := 0 } : Meter).newRate now st (rateOf st (now - start))
    else { m with rateRun := m.rateRun + 1 }

/-- A forward transaction step, up to the net count (R65, R69, R70, R72). -/
def Meter.forwardStep (now : Nat) (st : HoseSettings) (m : Meter) : Meter :=
  let m := m.rateStep now st
  { m with
    netSteps := fitSigned32 (m.netSteps + 1), deficit := m.deficit - 1, rateTimer := some (now + sec 1)
    noFlow := m.noFlow.map fun _ => now + sec st.noFlowTime, totalForward := bump max32 m.totalForward }

/-- A reverse transaction step, up to the net count (R65, R69, R70). -/
def Meter.reverseStep (m : Meter) : Meter :=
  { m with
    netSteps := fitSigned32 (m.netSteps - 1), deficit := m.deficit + 1, rateStart := none, rateRun := 0
    totalReverse := bump max32 m.totalReverse }

/-- A creep step (R73, R79). -/
def Meter.creepStep (cls : StepClass) (m : Meter) : Meter :=
  { m with
    creep := bump max32 m.creep, totalCreep := bump max32 m.totalCreep
    totalForward := if cls = .forward then bump max32 m.totalForward else m.totalForward
    totalReverse := if cls = .reverse then bump max32 m.totalReverse else m.totalReverse }

/-! ## What a step does beyond the channel -/

/-- A meter fault told to the DSC: taken in FLOWING and STOPPING alone (R68, R69). -/
def Part.meterFault (p : Part) (h : HoseId) : Part :=
  match (p.hose h).dsc with
  | .flowing => p.takeCause h .meterFault
  | .stopping => p.takeCause h .meterFault
  | _ => p

/-- A checkpoint boundary newly reached (R66). The checkpoint it calls for joins the log's queue at the end of the event, among the
requests of the other hoses (07 R128): `Part.joinRequest`. -/
def Part.reachBoundary (p : Part) (h : HoseId) : Part :=
  p.modMeter h fun m => if m.gross % 1000 = 0 ∧ m.boundary < m.gross then { m with boundary := m.gross } else m

/-- The hand-over of a gross change (R66): the DSC's metered volume, the book, the checkpoint boundary, then the sequencer's load
points (05 R91) and moves (05 R84, R85). -/
def Part.handOver (p : Part) (h : HoseId) (st : HoseSettings) (gross : Nat) : Part :=
  let delta : Int := (gross : Int) - (p.hose h).meter.gross
  let p := p.modMeter h fun m => { m with gross := gross }
  let p := p.modContext h fun c => { c with metered := gross }
  let p := (p.meterOut h delta).reachBoundary h
  let p := p.modValves h fun v => (v.loadAtHundred gross).loadIfDue st gross
  p.moveValves h

/-- The gross volume computed after a transaction step, handed over when it has changed (R65, R66). -/
def Part.regross (p : Part) (h : HoseId) (st : HoseSettings) : Part :=
  let gross := grossOf st (p.hose h).meter.netSteps
  if gross = (p.hose h).meter.gross then p else p.handOver h st gross

/-- The reverse limit, tested at a reverse step (R69). -/
def Part.reverseTest (p : Part) (h : HoseId) (st : HoseSettings) : Part :=
  let u := p.hose h
  if 50 < stepVolume st u.meter.deficit ∧ u.meter.reverseReported = false ∧ (u.dsc = .flowing ∨ u.dsc = .stopping) then
    (p.modMeter h fun m => { m with reverseReported := true }).meterFault h
  else p

/-- A good step: a transaction step in the window, a creep step out of it (R64, R73). -/
def Part.goodStep (p : Part) (h : HoseId) (st : HoseSettings) (cls : StepClass) : Part :=
  let p := p.modMeter h Meter.goodStep
  if (p.hose h).meter.window then
    match cls with
    | .forward => (p.modMeter h (Meter.forwardStep p.now st)).regross h st
    | _ => ((p.modMeter h Meter.reverseStep).regross h st).reverseTest h st
  else
    let p := p.modMeter h (Meter.creepStep cls)
    let volume := stepVolume st (p.hose h).meter.creep
    if 20 ≤ volume ∧ (p.hose h).meter.creepSent = false then
      (p.event (.creep h volume)).modMeter h fun m => { m with creepSent := true, creepMark := true }
    else p

/-- A sequence error (R67, R68): the error that brings the count to 8 is a meter fault. -/
def Part.errorStep (p : Part) (h : HoseId) : Part :=
  let before := (p.hose h).meter.errorCount
  let p := p.modMeter h Meter.sequenceError
  if before = 7 then p.meterFault h else p

/-- A change of level on a phase line as a decoding channel takes it (R62). -/
def Part.decode (p : Part) (h : HoseId) (st : HoseSettings) (levelA levelB : Bool) : Part :=
  let (a, b) := swapped st.phaseSwap levelA levelB
  let m := (p.hose h).meter
  let q := p.modMeter h fun m => { m with lastA := a, lastB := b }
  match classify m.lastA m.lastB a b with
  | none => p
  | some .error => q.errorStep h
  | some .forward => q.goodStep h st .forward
  | some .reverse => q.goodStep h st .reverse

/-- PHASE_CHANGE (R61, R62): the levels of both lines after the change. A channel without settings does not decode. -/
def execPhaseChange (h : HoseId) (levelA levelB : Bool) (elapsed : Nat) (s : State) : Host.Outcome State Fault Refusal :=
  nextPart (fun p =>
    let q := (p.reach (p.now + elapsed)).modPins h fun k => { k with phaseA := levelA, phaseB := levelB }
    match q.hoseSettings h with
    | none => q
    | some st => settle q (q.decode h st levelA levelB)) s

/-! ## Timers -/

/-- RATE_TIMEOUT (R70, R71): no forward transaction step for 1 s. -/
def execRateTimeout (h : HoseId) (s : State) : Host.Outcome State Fault Refusal :=
  nextPart (fun p =>
    match (p.hose h).meter.rateTimer with
    | some due =>
      (p.reach due).modMeter h fun m =>
        { m with rateTimer := none, heldRate := 0, rateStart := none, rateRun := 0, overrateTimer := none }
    | none => p) s

/-- OVERRATE_EXPIRY (R71). -/
def execOverrateExpiry (h : HoseId) (s : State) : Host.Outcome State Fault Refusal :=
  nextPart (fun p =>
    match (p.hose h).meter.overrateTimer with
    | some due =>
      let q := (p.reach due).modMeter h fun m => { m with overrateTimer := none, overrate := true }
      if (p.hose h).meter.overrate then q else q.event (.overrate h (p.hose h).meter.heldRate)
    | none => p) s

/-- NO_FLOW_EXPIRY (R72). -/
def execNoFlowExpiry (h : HoseId) (s : State) : Host.Outcome State Fault Refusal :=
  nextPart (fun p =>
    match (p.hose h).meter.noFlow with
    | some due => settle p (((p.reach due).modMeter h fun m => { m with noFlow := none }).takeCause h .noFlow)
    | none => p) s

end Sys2Proof.Machine
end

