-- ==== Sys2Proof/Machine/StartScan.lean ====
section
/-! DEFINITION. The start scan of the transaction log (07 section 7.4), and what a failing supply leaves of its writes. -/

namespace Sys2Proof.Machine

open Sys2Proof

/-! ## The boot counter (R134) -/

/-- Whether x is newer than y by serial comparison. -/
def newerBoot (x y : Nat) : Bool :=
  let d := (x + 256 - y % 256) % 256
  decide (1 ≤ d) && decide (d ≤ 127)

/-- The value read, and whether the advanced value is written over the second copy. -/
def bootRead (first second : Area Nat) : Nat × Bool :=
  match first.value?, second.value? with
  | some x, some y =>
    if newerBoot x y then (x, true)
    else if newerBoot y x then (y, false)
    else if x < y then (y, false)
    else (x, true)
  | some x, none => (x, true)
  | none, some y => (y, false)
  | none, none => (0, true)

/-! ## Classing the slots (R135, R136) -/

/-- The closing part in memory that belongs to an opening part (R125). -/
def Slot.belonging (s : Slot) (o : Opening) : Option Closing :=
  match s.nvClosing with
  | .valid k => if k.sequence = o.sequence then some k else none
  | .blank => none
  | .bad => none

/-- The closing part the scan writes for a DISPENSE or LOADOUT found open (R136). -/
def recoveredClosing (settings : Option Settings) (checkpoints : Quad (Area (Nat × Nat))) (o : Opening) (hose : HoseId)
    (account grade preset : Nat) : Closing :=
  let gross := match (checkpoints.get hose).value? with
    | some (sequence, gross) => if sequence = o.sequence then gross else 0
    | none => 0
  let standard := standardOf settings grade gross unknownTemp
  { sequence := o.sequence, endTime := o.startTime
    fields := .fill preset gross standard unknownTemp (amountOf settings grade account standard) .powerLoss { estimated := true } }

/-- How the scan classes a slot (R135): FREE, FREE and counted as torn, CLOSED, or closed by the scan. -/
inductive SlotClass where
  | free
  | torn
  | closed (o : Opening) (k : Closing)
  | recovered (o : Opening) (k : Closing)
deriving DecidableEq, Repr

def classifySlot (settings : Option Settings) (checkpoints : Quad (Area (Nat × Nat))) (mark : Nat) (s : Slot) : SlotClass :=
  match s.nvOpening with
  | .blank => .free
  | .bad => .torn
  | .valid o =>
    if o.sequence ≤ mark then .free
    else match s.belonging o with
      | some k => .closed o k
      | none =>
        match o.fields with
        | .fill _ hose _ account grade _ _ preset _ => .recovered o (recoveredClosing settings checkpoints o hose account grade preset)
        | _ => .torn

/-- The slot in the log's state after the scan. -/
def SlotClass.slot (c : SlotClass) (s : Slot) : Slot :=
  match c with
  | .free => { s with state := .free, opening := none, closing := none }
  | .torn => { s with state := .free, opening := none, closing := none }
  | .closed o k => { s with state := .closed, opening := some o, closing := some k }
  | .recovered o k => { s with state := .closed, opening := some o, closing := some k }

def SlotClass.isTorn : SlotClass → Bool
  | .torn => true
  | _ => false

def SlotClass.isRecovered : SlotClass → Bool
  | .recovered _ _ => true
  | _ => false

/-- The scan's closing writes, slot by slot from a number on. -/
def closingWrites : Nat → List SlotClass → List ScanWrite
  | _, [] => []
  | i, .recovered _ k :: rest => .recovered i k :: closingWrites (i + 1) rest
  | i, _ :: rest => closingWrites (i + 1) rest

/-! ## What the scan sets (R137) -/

/-- The valid opening parts in memory, released records included. -/
def readOpenings (slots : List Slot) : List Opening := slots.filterMap fun s => s.nvOpening.value?

/-- The highest shift read, or 1. -/
def scanShift (slots : List Slot) : Nat := ((readOpenings slots).map (·.shift)).foldl max 1

/-- The highest sequence number read, or 0. -/
def scanSequence (slots : List Slot) : Nat := ((readOpenings slots).map (·.sequence)).foldl max 0

/-- A CLOSED DISPENSE record of a shift: its machine and gross. -/
def Slot.dispensed (shift : Nat) (s : Slot) : Option (Nat × Nat) :=
  if s.state = .closed then
    match s.opening, s.closing.map Closing.fields with
    | some o, some (.fill _ gross _ _ _ _ _) =>
      match o.fields with
      | .fill false _ machine _ _ _ _ _ _ => if o.shift = shift then some (machine, gross) else none
      | _ => none
    | _, _ => none
  else none

/-- The own-column entry of a machine number, from the CLOSED DISPENSE records of a shift (R137, 03 R41, R42). -/
def ownFromLog (slots : List Slot) (shift machine : Nat) : Nat :=
  slots.foldl (fun n s => match s.dispensed shift with
    | some (m, gross) => if m = machine then grow32 n gross else n
    | none => n) 0

/-- The account totals from the CLOSED DISPENSE and LOADOUT records of a shift (R137). -/
def totalsFromLog (slots : List Slot) (shift : Nat) : List Totals :=
  slots.foldl (fun totals s =>
    if s.state = .closed then
      match s.opening, s.closing.map Closing.fields with
      | some o, some (.fill _ _ standard _ amount _ _) =>
        match o.fields with
        | .fill _ _ _ account _ _ _ _ _ => if o.shift = shift then addTotals totals account standard amount else totals
        | _ => totals
      | _, _ => totals
    else totals) (List.replicate 64 ⟨0, 0⟩)

/-- A row of the draw table new to the table: peer columns at 0, the own column from the log (03 R41). -/
def newRow (slots : List Slot) (shift station : Nat) (e : MachineEntry) : List Nat :=
  (List.replicate 14 0).set (station - 1) (ownFromLog slots shift e.number)

/-- A machine-table place built from an entry: the image's hold state (02 R33) and its row. -/
def machineRow (station : Nat) (drawn : List Nat) (e : MachineEntry) : MachineRow :=
  { entry := e, hold := { held := e.held, reason := e.reason, version := 0, author := station }, drawn := drawn }

/-- The start scan (R134 to R137): its figures stand from here on, and its writes wait in `scanWrites` (log 19). -/
def Part.startScan (p : Part) (entries : List MachineEntry) : Part :=
  let (value, second) := bootRead p.tlg.bootFirst p.tlg.bootSecond
  let boot := (value + 1) % 256
  let mark := (p.tlg.markArea.value?).getD 0
  let classes := p.tlg.slots.map (classifySlot p.cfl.settings p.tlg.checkpoints mark)
  let slots := List.zipWith SlotClass.slot classes p.tlg.slots
  let shift := scanShift p.tlg.slots
  { p with
    tlg := { p.tlg with
      slots := slots, bootNumber := boot, nextSequence := max (scanSequence p.tlg.slots) mark + 1
      scanWrites := .boot second boot :: closingWrites 0 classes
      scanTorn := (classes.filter SlotClass.isTorn).length
      scanRecovered := (classes.filter SlotClass.isRecovered).length }
    alc := { p.alc with shift := shift }
    machines := entries.map fun e => machineRow p.station (newRow slots shift p.station e) e
    totals := totalsFromLog slots shift }

/-! ## The scan's writes -/

/-- A scan write ends: its area holds what was written. -/
def Tlg.scanWrite (t : Tlg) (w : ScanWrite) : Tlg :=
  match w with
  | .boot false v => { t with bootFirst := .valid v }
  | .boot true v => { t with bootSecond := .valid v }
  | .recovered i k => { t with slots := t.slots.modify i fun s => { s with nvClosing := .valid k } }

/-- A scan write is cut by the failing supply: its area reads as bad. -/
def Tlg.scanTornWrite (t : Tlg) (w : ScanWrite) : Tlg :=
  match w with
  | .boot false _ => { t with bootFirst := .bad }
  | .boot true _ => { t with bootSecond := .bad }
  | .recovered i _ => { t with slots := t.slots.modify i fun s => { s with nvClosing := .bad } }

def Tlg.scanWritesTo (t : Tlg) (writes : List ScanWrite) : Tlg := writes.foldl Tlg.scanWrite t

/-- The nonvolatile memory that a power loss or a RESET leaves: the write in progress is complete or torn (10 R174), and of the
scan's writes `scanDone` are done and the next is complete or torn (R134, R136). -/
def Part.powerCut (p : Part) (scanDone : Nat) (fate : WriteFate) : Part :=
  let q := match p.tlg.writing with
    | none => p
    | some r =>
      match fate with
      | .complete => p.memoryWrite r
      | .torn whole => p.memoryTorn r whole
  let done := q.tlg.scanWritesTo (q.tlg.scanWrites.take scanDone)
  let t := match q.tlg.scanWrites.drop scanDone with
    | [] => done
    | w :: _ =>
      match fate with
      | .complete => done.scanWrite w
      | .torn _ => done.scanTornWrite w
  q.setTlg t

/-- The log after its nonvolatile memory alone: every slot FREE until the scan classes it, every queue empty. -/
def Tlg.restarted (t : Tlg) : Tlg :=
  { Tlg.start with
    slots := t.slots.map fun s => { s with state := .free, opening := none, closing := none }
    bootFirst := t.bootFirst, bootSecond := t.bootSecond, markArea := t.markArea, checkpoints := t.checkpoints }

end Sys2Proof.Machine
end

