-- ==== Sys2Proof/Machine/ValvesAndPumps.lean ====
section
/-! DEFINITION. The commands of the valve sequencers and the pump arbiter (05): switches, settle and overrun timers, pump timers,
the emergency input and the power-fail warning. -/

namespace Sys2Proof.Machine

open Sys2Proof

/-! ## Valve switches (05 section 5.1) -/

/-- A switch report taken (R81): the valve is supervised afresh, and a report of CLOSED under a CLOSED command clears the latch. -/
def Valve.report (now : Nat) (settle : Option Nat) (command position : Position) (v : Valve) : Valve :=
  ({ v with
      switch := position
      latch := if position = .closed ∧ command = .closed then false else v.latch } : Valve).supervise now settle command

/-- A change of a valve's switch as the sequencer takes it (R81, R84, R87). -/
def Part.takeSwitch (p : Part) (h : HoseId) (v : ValveId) (position : Position) : Part :=
  let q := p.modValves h fun s =>
    s.setValve v ((s.valve v).report p.now ((p.hoseSettings h).map (·.settleTime)) (commandOf v s.phase) position)
  (q.moveValves h).shutTest h

def HosePins.setSwitch (k : HosePins) (v : ValveId) (position : Position) : HosePins :=
  match v with
  | .trim => { k with trim := position }
  | .main => { k with main := position }

/-- SWITCH_CHANGE (R80, R81): taken from the end of the image-load step of the start sequence. -/
def execSwitchChange (h : HoseId) (v : ValveId) (position : Position) (s : State) : Host.Outcome State Fault Refusal :=
  nextPart (fun p =>
    let q := p.modPins h fun k => k.setSwitch v position
    if q.cfl.stage = .imageLoad ∨ ((q.hose h).valves.valve v).switch = position then q
    else settle q (q.takeSwitch h v position)) s

/-- A position fault (R81, R82): counted; a close fault sets the latch, shuts the hose and releases its grant at once; the DSC
takes VALVE_FAULT. -/
def Part.positionFault (p : Part) (h : HoseId) (v : ValveId) : Part :=
  let command := commandOf v (p.hose h).valves.phase
  let q := p.modValves h fun s =>
    let x := s.valve v
    s.setValve v { x with settle := none, faults := bump max16 x.faults, latch := x.latch || command == .closed }
  let q := if command = .closed then (q.beginShutting h).dropGrant h else q
  (q.takeCause h .valveFault).shutTest h

/-- SETTLE_EXPIRY (R81, R82, R87). -/
def execSettleExpiry (h : HoseId) (v : ValveId) (s : State) : Host.Outcome State Fault Refusal :=
  nextPart (fun p =>
    match ((p.hose h).valves.valve v).settle with
    | some due =>
      let q := p.reach due
      settle q (q.positionFault h v)
    | none => p) s

/-- OVERRUN_WINDOW_EXPIRY (R88). -/
def execOverrunWindowExpiry (h : HoseId) (s : State) : Host.Outcome State Fault Refusal :=
  nextPart (fun p =>
    match (p.hose h).valves.overrun with
    | some due => (p.reach due).endOverrun h
    | none => p) s

/-! ## Pump timers (05 section 5.5) -/

/-- The prime timer has expired (R93, R96): flow starts for each granted hose, or the pump runs down. -/
def Part.primed (p : Part) (i : PumpId) : Part :=
  if (p.pumps.get i).grants = [] then
    p.modPump i fun m => { m with state := .rundown, prime := none, rundown := p.after (sec 5) }
  else
    (p.modPump i fun m => { m with state := .running, prime := none }).startFlows (p.pumps.get i).grants

/-- PRIME_EXPIRY (R93). -/
def execPrimeExpiry (i : PumpId) (s : State) : Host.Outcome State Fault Refusal :=
  nextPart (fun p =>
    match (p.pumps.get i).state, (p.pumps.get i).prime with
    | .priming, some due =>
      let q := p.reach due
      settle q (q.primed i)
    | _, _ => p) s

/-- RUNDOWN_EXPIRY (R93). -/
def execRundownExpiry (i : PumpId) (s : State) : Host.Outcome State Fault Refusal :=
  nextPart (fun p =>
    match (p.pumps.get i).state, (p.pumps.get i).rundown with
    | .rundown, some due => (p.reach due).modPump i fun m => { m with state := .stopped, rundown := none }
    | _, _ => p) s

/-- PUMP_WAIT_EXPIRY (R97). -/
def execPumpWaitExpiry (h : HoseId) (s : State) : Host.Outcome State Fault Refusal :=
  nextPart (fun p =>
    match (p.hose h).pumpWait with
    | some due =>
      let q := p.reach due
      settle q ((q.modHose h fun u => { u with pumpWait := none }).takeCause h .pumpWait)
    | none => p) s

/-! ## Emergency and power-fail (05 section 5.7) -/

/-- A pump stopped by force: its grants and requests are given up, its timers cancelled (R98). -/
def Pump.halt (m : Pump) : Pump := { m with state := .stopped, grants := [], requests := [], prime := none, rundown := none }

/-- What the valves and pumps do at the assertion of either input (R98, R99). -/
def Part.shutDown (p : Part) : Part :=
  let q := allHoses.foldl (fun p h => p.beginShutting h) p
  q.setPumps ⟨q.pumps.p1.halt, q.pumps.p2.halt⟩

/-- EMERGENCY_ASSERTED (R98, 06 R118). An input already asserted is not asserted again (log 18). -/
def execEmergencyAsserted (s : State) : Host.Outcome State Fault Refusal :=
  nextPart (fun p =>
    if p.pins.emergency then p
    else
      let q := (p.setPins { p.pins with emergency := true }).shutDown
      settle p (allHoses.foldl (fun q h => q.takeCause h .emergency) q)) s

/-- EMERGENCY_DEASSERTED (R98): the arbitration runs. -/
def execEmergencyDeasserted (s : State) : Host.Outcome State Fault Refusal :=
  nextPart (fun p => settle p (p.setPins { p.pins with emergency := false })) s

/-- The waiting checkpoints and the waiting release mark leave the write queue (07 R133). -/
def WriteReq.kept (r : WriteReq) : Bool :=
  match r with
  | .checkpoint .. => false
  | .mark _ => false
  | .opening .. => true
  | .closing .. => true
  | .whole .. => true

/-- The commit queued at the warning for a hose that was flowing or stopping (06 R119, 05 R88). -/
def Part.commitEarly (p : Part) (h : HoseId) : Part :=
  let p := p.modContext h fun c => { c with powerFail := true }
  ((p.endOverrun h).shutTest h)

/-- What a DSC does at the power-fail warning (06 R119). -/
def Part.powerFailHose (p : Part) (h : HoseId) : Part :=
  match (p.hose h).dsc with
  | .authorising => p.takeCause h .emergency
  | .awaitPump => p.takeCause h .emergency
  | .flowing =>
    (((p.modContext h fun c => { c with cause := some .emergency }).event (.stopped h .emergency)).commitEarly h)
  | .stopping => p.commitEarly h
  | .idle => p
  | .lifted => p
  | .committing => p
  | .done => p

/-- POWER_FAIL_WARNING (R99, 06 R119, 07 R133). -/
def execPowerFailWarning (s : State) : Host.Outcome State Fault Refusal :=
  nextPart (fun p =>
    if p.pins.powerFail then p
    else
      let q := (p.setPins { p.pins with powerFail := true }).setTlg { p.tlg with queue := p.tlg.queue.filter WriteReq.kept }
      settle p (allHoses.foldl (fun q h => q.powerFailHose h) q.shutDown)) s

/-- POWER_FAIL_DEASSERTED (R99). -/
def execPowerFailDeasserted (s : State) : Host.Outcome State Fault Refusal :=
  nextPart (fun p => settle p (p.setPins { p.pins with powerFail := false })) s

end Sys2Proof.Machine
end

