-- ==== Sys2Proof/Machine/Startup.lean ====
section
/-! DEFINITION. The start sequence and RELOAD (10): START, IMAGE_LOAD_END, SCAN_WRITES_DONE and the console request RELOAD. -/

namespace Sys2Proof.Machine

open Sys2Proof

/-! ## Step 1 (R169, R173) -/

/-- The station number that the straps give; none for a strap fault (R169). -/
def stationOf (straps : Nat) : Option Nat := if 1 ≤ straps ∧ straps ≤ 14 then some straps else none

/-- The straps read (R169): a strap fault gives the check result BAD_STATION. -/
def Cfl.strapped (straps : Nat) : Cfl :=
  { Cfl.start (stationOf straps) with check := if (stationOf straps).isNone then some .badStation else none }

/-- The part at the start of the start sequence (R173): every block at its start values, the log's nonvolatile memory and the
levels of the pins kept. -/
def Part.started (p : Part) (straps : Nat) : Part :=
  { Part.reset with
    now := p.now, nextSecond := p.nextSecond, draws := p.draws, pins := { p.pins with straps := straps }
    cfl := Cfl.strapped straps, tlg := p.tlg.restarted }

/-- START (R173, R174): power-on or RESET. `scanDone` and `fate` say how far the log's writes had come (log 2). -/
def execStart (straps scanDone : Nat) (fate : WriteFate) (s : State) : Host.Outcome State Fault Refusal :=
  nextPart (fun p => (p.powerCut scanDone fate).started straps) s

/-! ## The end of an image load -/

/-- The load at this station (R169, R170): without a station number the image is not read. -/
def loadFor (station : Option Nat) (store : Option (List Byte)) : LoadResult :=
  match station with
  | none => { check := .badStation, header := none, presence := none, content := none }
  | some n => loadImage n store

/-- The loader after a load (R170): GOOD with the settings in force, or FAULT with none. -/
def Cfl.loaded (c : Cfl) (r : LoadResult) : Cfl :=
  { c with
    load := if r.content.isSome then .good else .fault
    check := some r.check, presence := r.presence.getD c.presence, header := r.header, settings := r.content.map (·.1) }

/-- The phase lines and position switches read by the hoses whose settings are loaded (04 R61, 05 R80, R81, R100). -/
def Part.readLines (p : Part) : Part :=
  p.setHoses (p.hoses.map fun h u =>
      match p.hoseSettings h with
      | none => u
      | some st =>
        let k := p.pins.hoses.get h
        let (a, b) := swapped st.phaseSwap k.phaseA k.phaseB
        { u with
          meter := { u.meter with lastA := a, lastB := b }
          valves := { u.valves with
            trim := u.valves.trim.report p.now (some st.settleTime) (trimCommand u.valves.phase) k.trim
            main := u.valves.main.report p.now (some st.settleTime) (mainCommand u.valves.phase) k.main } })

/-- Settle supervision does not run for a hose whose settings are not loaded (05 R100). -/
def Part.stopSupervision (p : Part) : Part :=
  p.setHoses (p.hoses.map fun h u =>
      match p.hoseSettings h with
      | some _ => u
      | none =>
        { u with valves := { u.valves with trim := { u.valves.trim with settle := none }
                                           main := { u.valves.main with settle := none } } })

/-- Step 2 ends and step 3 begins (R173): the load's outcome, the lines read, the start scan. -/
def Part.startLoaded (p : Part) (store : Option (List Byte)) : Part :=
  let r := loadFor p.cfl.station store
  let q : Part := { p with
    cfl := { p.cfl.loaded r with stage := .scanWrites }
    rsc := { p.rsc with roleInForce := r.content.map (·.1.identity.role) } }
  q.readLines.startScan ((r.content.map (·.2)).getD [])

/-! ### Pieces that start and RELOAD share -/

/-- Inventory sampling begins: the sample timer starts and a sample event is taken at once (08 R142, R154). -/
def Part.beginSampling (p : Part) (r : Readings) : Part :=
  (((p.setInv { p.inv with sampleTimer := p.after (sec 2) })).takeSample r).testSample

/-- LISTEN is entered with a listen time; a time of 0 makes the ALC READY at the same event (03 R52). -/
def Part.enterListen (p : Part) (listenTime : Nat) : Part :=
  p.setAlc { p.alc with
      listen := if listenTime = 0 then .ready else .listen
      listenTimer := if listenTime = 0 then none else p.after (sec listenTime) }

/-- The net is joined (01 R20, R21): the sweep and the STOCK timer start and a STOCK is offered (08 R153). -/
def Part.joinNet (p : Part) : Part :=
  ((p.setSnc
      { p.snc with joined := true, tx := .idle, inHand := none, attempts := 0, idleGap := none, backoff := none
                   echoWindow := none, queue := [], cursor := 0, sweep := p.after (sec 4) }).setInv
    { p.inv with stockTimer := p.after (sec 60) }).offerStock

/-! ### RELOAD ends in GOOD (R176) -/

/-- A timer of the RSC that stood still in FAULT runs on from what it had left (09 R168; log 17). -/
def delayTimer (delay : Nat) (t : Timer) : Timer := t.map fun due => due + delay

def BayTimer.delayed (delay : Nat) : BayTimer → BayTimer
  | .stopped => .stopped
  | .expiry due => .expiry (due + delay)
  | .release due => .release (due + delay)

def BayEntry.thaw (delay : Nat) (e : BayEntry) : BayEntry := { e with timer := e.timer.delayed delay }

def Rsc.thaw (now : Nat) (c : Rsc) : Rsc :=
  match c.frozenAt with
  | none => c
  | some t =>
    { c with
      repeatTimer := delayTimer (now - t) c.repeatTimer
      bays := ⟨c.bays.b1.map (BayEntry.thaw (now - t)), c.bays.b2.map (BayEntry.thaw (now - t))⟩
      frozenAt := none }

/-- The row of a machine number after a good RELOAD: it moves with its number, or is new to the table (03 R41). -/
def Part.movedRow (p : Part) (e : MachineEntry) : List Nat :=
  match p.machines.find? fun m => m.entry.number == e.number with
  | some m => m.drawn
  | none => newRow p.tlg.slots p.alc.shift p.station e

/-- The machine table rebuilt, its hold states afresh from the image and its rows moved (02 R33, 03 R41). -/
def Part.rebuildMachines (p : Part) (entries : List MachineEntry) : Part :=
  p.setMachines (entries.map fun e => machineRow p.station (p.movedRow e) e)

/-- A bay in use that the image no longer gives is revoked as at grant expiry, and the grant step runs after it (09 R163, R168). -/
def Part.trimBay (p : Part) (b : BayId) : Part :=
  match p.rsc.bays.get b with
  | some e => if p.hasBay b then p else (p.revokeBay b e).grantStep 2
  | none => p

/-- The restock coordinator at a good RELOAD (09 R168): another role starts from its start values, with no notice and no event
(log 27); the same role keeps everything but the bays that are gone. -/
def Part.reloadRole (p : Part) (role : Role) : Part :=
  let q : Part := p.setRsc { p.rsc.thaw p.now with roleInForce := some role }
  match p.rsc.roleInForce with
  | some old =>
    if old = role then q
    else
      q.setRsc { q.rsc with
          queue := [], bays := ⟨none, none⟩, state := .normal, grant := none, awaited := ⟨false, false⟩, repeatTimer := none
          armed := ⟨true, true⟩ }
  | none => q

/-- A depot's bays at a good RELOAD: all is kept but the grant of a bay that is gone (09 R168). -/
def Part.reloadBays (p : Part) : Part :=
  if p.role = some .depot then p.trimBay .b2 else p

/-- The sample histories are emptied, and a pending receipt check counts anew (08 R150, R154). -/
def Compartment.emptied (c : Compartment) : Compartment :=
  { c with history := [], gauge := none, settled := false, receiptCheck := c.receiptCheck.map fun _ => 0 }

def Part.emptyHistories (p : Part) : Part :=
  p.setInv { p.inv with comps := ⟨p.inv.comps.a.emptied, p.inv.comps.b.emptied⟩ }

/-- The settings and tables of a good RELOAD put in force (R176), before anything is offered. -/
def Part.putInForce (p : Part) (r : LoadResult) (s : Settings) (entries : List MachineEntry) : Part :=
  let q : Part := { p with
    cfl := p.cfl.loaded r
    alc := { p.alc with peerClaims := [] }
    snc := { p.snc with cursor := 0 } }
  (((q.rebuildMachines entries).readLines.stopSupervision).emptyHistories).reloadRole s.identity.role

/-- A RELOAD that ends in GOOD, one event (R176), in the order of log 16. -/
def Part.reloadGood (p : Part) (r : LoadResult) (s : Settings) (entries : List MachineEntry) (readings : Readings) : Part :=
  let q := p.putInForce r s entries
  let t := ((q.reloadBays).beginSampling readings).enterListen s.identity.listenTime
  let t := if p.snc.joined then t else t.joinNet
  settle q ((t.setCnl { t.cnl with reloading := false }).respond .okLoad)

/-! ### RELOAD ends in FAULT (R177) -/

/-- The site-net controller stopped (01 R21): the frame in hand and the queue are discarded; the peer table, the counters and the
sequence counter are kept. -/
def Snc.halt (c : Snc) : Snc :=
  { c with joined := false, tx := .idle, inHand := none, attempts := 0, idleGap := none, backoff := none, echoWindow := none
           queue := [], sweep := none }

/-- A pump stopped at once with its drive off (05 R100). -/
def Pump.stop (m : Pump) : Pump := { m with state := .stopped, prime := none, rundown := none }

/-- A RELOAD that ends in FAULT, one event (R177). -/
def Part.reloadFault (p : Part) (r : LoadResult) : Part :=
  let q : Part := { p with
    cfl := p.cfl.loaded r
    machines := []
    alc := { p.alc with peerClaims := [] }
    snc := p.snc.halt
    pumps := ⟨p.pumps.p1.stop, p.pumps.p2.stop⟩
    inv := { p.inv with sampleTimer := none, stockTimer := none }
    rsc := { p.rsc with frozenAt := some (p.rsc.frozenAt.getD p.now) }
    cnl := { p.cnl with reloading := false } }
  (q.stopSupervision.emptyHistories).respond (.loadFault r.check)

/-- The end of a RELOAD's load. -/
def Part.reloadEnd (p : Part) (store : Option (List Byte)) (readings : Readings) : Part :=
  let r := loadFor p.cfl.station store
  match r.content with
  | some (s, entries) => p.reloadGood r s entries readings
  | none => p.reloadFault r

/-- IMAGE_LOAD_END (R170, R173, R176, R177): the end of the start's load or of a RELOAD's. -/
def execImageLoadEnd (store : Option (List Byte)) (r : Readings) (s : State) : Host.Outcome State Fault Refusal :=
  nextPart (fun p =>
    if p.cfl.stage = .imageLoad then p.startLoaded store
    else if p.cnl.reloading then p.reloadEnd store r
    else p) s

/-! ## Steps 4 to 6 (R173) -/

/-- A nozzle switch that shows off hook at the end of the start sequence is taken as a lift (06 R102). The read tag is none, so
no identification is made. -/
def Part.readNozzles (p : Part) : Part :=
  p.setHoses (p.hoses.map fun h u =>
      match (p.pins.hoses.get h).nozzle with
      | .offHook => { u with nozzle := .offHook, dsc := .lifted }
      | .onHook => u)

/-- Steps 4 and 5: sampling begins and LISTEN is entered; in FAULT there is no sampling, and LISTEN runs no timer. Step 6: the net
is joined; in FAULT it is not. -/
def Part.intoService (p : Part) (r : Readings) : Part :=
  match p.cfl.settings with
  | some s => ((p.beginSampling r).enterListen s.identity.listenTime).joinNet
  | none => p.setAlc { p.alc with listen := .listen, listenTimer := none }

/-- The end of step 6: no request in progress and no answer waiting (11 R178). -/
def Cnl.cleared (c : Cnl) : Cnl := { c with response := none, reloading := false, busyWaiting := 0 }

def Part.scanEnd (p : Part) (r : Readings) : Part :=
  let q : Part := p.setTlg { p.tlg.scanWritesTo p.tlg.scanWrites with scanWrites := [] }
  let q := (q.intoService r).readNozzles
  (q.setCfl { q.cfl with stage := .running }).setCnl q.cnl.cleared

/-- SCAN_WRITES_DONE (R173): the scan's writes are in memory, and steps 4 to 6 follow. -/
def execScanWritesDone (r : Readings) (s : State) : Host.Outcome State Fault Refusal :=
  nextPart (fun p => if p.cfl.stage = .scanWrites then p.scanEnd r else p) s

/-! ## RELOAD taken (R175) -/

/-- Every hose is IDLE (R175). -/
def Part.allIdle (p : Part) : Bool := allHoses.all fun h => (p.hose h).dsc == .idle

def Part.reloadRequest (p : Part) : Part :=
  if p.allIdle && p.rsc.state == .normal then
    match p.cfl.station with
    | none => p.reloadFault (loadFor none none)
    | some _ => (p.setCfl { p.cfl with load := .loading }).setCnl { p.cnl with reloading := true }
  else p.refuse .busy

/-- RELOAD (R175). -/
def execReload (s : State) : Host.Outcome State Fault Refusal := nextPart (fun p => p.request Part.reloadRequest) s

end Sys2Proof.Machine
end

