-- ==== Sys2Proof/Machine/Dispatch.lean ====
section
/-! DEFINITION. The effect of each command on everything but the queue of commands: one arm per row of spec/opcode_table.json. -/

namespace Sys2Proof.Machine

open Sys2Proof

def exec (i : Instr) (s : State) : Host.Outcome State Fault Refusal :=
  match i with
  | .start straps scanDone fate => Sys2Proof.Machine.execStart straps scanDone fate s
  | .imageLoadEnd store r => Sys2Proof.Machine.execImageLoadEnd store r s
  | .scanWritesDone r => Sys2Proof.Machine.execScanWritesDone r s
  | .secondTick => Sys2Proof.Machine.execSecondTick s
  | .peerSilent station => Sys2Proof.Machine.execPeerSilent station s
  | .frameTaken busy => Sys2Proof.Machine.execFrameTaken busy s
  | .busyAsserted => Sys2Proof.Machine.execBusyAsserted s
  | .idleGapExpiry => Sys2Proof.Machine.execIdleGapExpiry s
  | .backoffExpiry busy => Sys2Proof.Machine.execBackoffExpiry busy s
  | .transmissionEnd => Sys2Proof.Machine.execTransmissionEnd s
  | .echoWindowExpiry => Sys2Proof.Machine.execEchoWindowExpiry s
  | .frameReceived elapsed f => Sys2Proof.Machine.execFrameReceived elapsed f s
  | .sweepTick => Sys2Proof.Machine.execSweepTick s
  | .tagReport h report => Sys2Proof.Machine.execTagReport h report s
  | .tagGraceExpiry h => Sys2Proof.Machine.execTagGraceExpiry h s
  | .peerClaimExpiry origin claim => Sys2Proof.Machine.execPeerClaimExpiry origin claim s
  | .claimRenewalExpiry h => Sys2Proof.Machine.execClaimRenewalExpiry h s
  | .claimHoldOffExpiry h => Sys2Proof.Machine.execClaimHoldOffExpiry h s
  | .listenTimerExpiry => Sys2Proof.Machine.execListenTimerExpiry s
  | .phaseChange h levelA levelB elapsed => Sys2Proof.Machine.execPhaseChange h levelA levelB elapsed s
  | .rateTimeout h => Sys2Proof.Machine.execRateTimeout h s
  | .overrateExpiry h => Sys2Proof.Machine.execOverrateExpiry h s
  | .noFlowExpiry h => Sys2Proof.Machine.execNoFlowExpiry h s
  | .switchChange h v p => Sys2Proof.Machine.execSwitchChange h v p s
  | .settleExpiry h v => Sys2Proof.Machine.execSettleExpiry h v s
  | .overrunWindowExpiry h => Sys2Proof.Machine.execOverrunWindowExpiry h s
  | .primeExpiry p => Sys2Proof.Machine.execPrimeExpiry p s
  | .rundownExpiry p => Sys2Proof.Machine.execRundownExpiry p s
  | .pumpWaitExpiry h => Sys2Proof.Machine.execPumpWaitExpiry h s
  | .emergencyAsserted => Sys2Proof.Machine.execEmergencyAsserted s
  | .emergencyDeasserted => Sys2Proof.Machine.execEmergencyDeasserted s
  | .powerFailWarning => Sys2Proof.Machine.execPowerFailWarning s
  | .powerFailDeasserted => Sys2Proof.Machine.execPowerFailDeasserted s
  | .nozzleLift h => Sys2Proof.Machine.execNozzleLift h s
  | .nozzleHang h => Sys2Proof.Machine.execNozzleHang h s
  | .writeStart => Sys2Proof.Machine.execWriteStart s
  | .writeComplete => Sys2Proof.Machine.execWriteComplete s
  | .sampleEvent r => Sys2Proof.Machine.execSampleEvent r s
  | .stockTimerExpiry => Sys2Proof.Machine.execStockTimerExpiry s
  | .bayreqRepeatExpiry => Sys2Proof.Machine.execBayreqRepeatExpiry s
  | .grantExpiry bay => Sys2Proof.Machine.execGrantExpiry bay s
  | .releaseTimerExpiry bay => Sys2Proof.Machine.execReleaseTimerExpiry bay s
  | .responseSent => Sys2Proof.Machine.execResponseSent s
  | .invalidRequest what => Sys2Proof.Machine.execInvalidRequest what s
  | .status => Sys2Proof.Machine.execStatus s
  | .hose h => Sys2Proof.Machine.execHose h s
  | .preset h volume => Sys2Proof.Machine.execPreset h volume s
  | .stop h => Sys2Proof.Machine.execStop h s
  | .keyed h machine => Sys2Proof.Machine.execKeyed h machine s
  | .hold machine reason => Sys2Proof.Machine.execHold machine reason s
  | .unhold machine => Sys2Proof.Machine.execUnhold machine s
  | .shift => Sys2Proof.Machine.execShift s
  | .restock => Sys2Proof.Machine.execRestock s
  | .restockCancel => Sys2Proof.Machine.execRestockCancel s
  | .restockDone => Sys2Proof.Machine.execRestockDone s
  | .delivery compartment gross => Sys2Proof.Machine.execDelivery compartment gross s
  | .readlog sequence => Sys2Proof.Machine.execReadlog sequence s
  | .release sequence => Sys2Proof.Machine.execRelease sequence s
  | .accounts => Sys2Proof.Machine.execAccounts s
  | .peers => Sys2Proof.Machine.execPeers s
  | .diag => Sys2Proof.Machine.execDiag s
  | .events => Sys2Proof.Machine.execEvents s
  | .reload => Sys2Proof.Machine.execReload s

end Sys2Proof.Machine
end

