-- ==== Sys2Proof/Safety.lean ====
section
/-! DEFINITION. What the statements say of a part: bounded, safe while an emergency or a power-fail warning is asserted, and quiet. -/

namespace Sys2Proof.Machine

open Sys2Proof

/-- The capacities of the log (07): at most one request of a kind waits in the write queue (R129, R130, R132, R139), which holds up to 8
(section 7.2), and a record wait list holds up to 4 whole records of its compartment (R132). -/
structure Tlg.Bounded (t : Tlg) : Prop where
  kinds : (t.queue.map WriteReq.kind).Nodup
  queue : t.queue.length ≤ 8
  waits : ∀ c, (t.waitLists.get c).length ≤ 4
  wholes : ∀ c, ∀ r ∈ t.waitLists.get c, r.kind = .whole c

/-- The capacities of the peer claim table (03 R44, R45): up to 4 entries of one origin, which is a station, and up to 56 in all. -/
structure Alc.Bounded (a : Alc) : Prop where
  claims : a.peerClaims.length ≤ 56
  perOrigin : ∀ origin, (a.peerClaims.filter fun c => c.origin == origin).length ≤ 4
  origins : ∀ c ∈ a.peerClaims, 1 ≤ c.origin ∧ c.origin ≤ 14

/-- The stations that hold a bay. -/
def Rsc.holders (r : Rsc) : List Nat := allBays.filterMap fun b => (r.bays.get b).map (·.station)

/-- The stations that wait for a bay or hold one. -/
def Rsc.stations (r : Rsc) : List Nat := r.queue.map (·.station) ++ r.holders

/-- The capacities of the restock coordinator at a station (09 R161, R162): the queue holds up to 13 entries, no station appears twice
across the queue and the bays, and every entry is another station's. -/
structure Rsc.Bounded (own : Nat) (r : Rsc) : Prop where
  queue : r.queue.length ≤ 13
  size : r.stations.length ≤ 13
  once : r.stations.Nodup
  peers : ∀ n ∈ r.stations, 1 ≤ n ∧ n ≤ 14 ∧ n ≠ own

/-- The station number is 1 to 14, and without one there are no settings (10 R169). -/
structure Cfl.Bounded (c : Cfl) : Prop where
  station : ∀ n, c.station = some n → 1 ≤ n ∧ n ≤ 14
  settings : c.settings ≠ none → c.station ≠ none

/-- The capacities of the part: the event queue (11 R181), the BUSY answers waiting (11 R178), the transmit queue (01 R15), the
attempts of a frame (01 section 1.2), the peer table (01 R13), the log's slots (07 R124), the account totals (07 R141), the log's write
queue and wait lists (07 section 7.2), the peer claim table (03 R44), the restock queue and bays (09 R161, R162), and the station number (10 R169). -/
structure Part.Bounded (p : Part) : Prop where
  events : p.cnl.events.length ≤ 16
  busy : p.cnl.busyWaiting ≤ 4
  queue : p.snc.queue.length ≤ 16
  attempts : p.snc.attempts ≤ 4
  peers : p.snc.peers.length = 14
  slots : p.tlg.slots.length = 1024
  totals : p.totals.length = 64
  log : p.tlg.Bounded
  claims : p.alc.Bounded
  restock : p.rsc.Bounded p.station
  station : p.cfl.Bounded

/-- The inputs under which the pumps are arbitrated: neither the emergency input nor the power-fail warning is asserted (05 R95). -/
abbrev Part.inputsClear (p : Part) : Prop := p.pins.emergency = false ∧ p.pins.powerFail = false

/-- While the emergency input or the power-fail warning is asserted no valve is commanded open and no hose holds a pump's grant
(05 R98, R99). -/
def Part.Safe (p : Part) : Prop :=
  ¬ p.inputsClear → (∀ h, (p.hose h).valves.phase.flowing = false) ∧ ∀ i, (p.pumps.get i).grants = []

/-- No pump has anything to arbitrate: no request waits, and a running pump has a grant (05 R93 to R95). -/
structure Part.Quiet (p : Part) : Prop where
  requests : ∀ i, (p.pumps.get i).requests = []
  running : ∀ i, (p.pumps.get i).state = .running → (p.pumps.get i).grants ≠ []

/-- The console line takes a request that arrives now (11 R178, 10 R174): the start sequence is over, no request is in progress
and no BUSY answer waits. -/
structure Part.LineFree (p : Part) : Prop where
  stage : p.cfl.stage = .running
  response : p.cnl.response = none
  reloading : p.cnl.reloading = false
  waiting : p.cnl.busyWaiting = 0

/-- The slots whose records a RELEASE frees (07 R139): every record up to and with the slot's own, in ring order, is CLOSED, at or below
the number given, of a shift other than the current one, and held by no hose (06 R115). -/
def Freed (limit shift : Nat) (held : Nat → Bool) (slots : List Slot) (i : Nat) : Prop :=
  ∃ u o, slots[i]? = some u ∧ u.record = some o ∧ 1 ≤ o.sequence
    ∧ ∀ (j : Nat) (v : Slot) (r : Opening), slots[j]? = some v → v.record = some r → 1 ≤ r.sequence →
      (r.sequence < o.sequence ∨ r.sequence = o.sequence ∧ j ≤ i) →
      v.state = .closed ∧ r.sequence ≤ limit ∧ r.shift ≠ shift ∧ held j = false

/-- The outcome in which the block goes on with a part, and the queue of commands stays as it is. -/
abbrev State.goesTo (s : State) (q : Part) : Host.Outcome State Fault Refusal := .next { s with part := q }

end Sys2Proof.Machine
end

