-- ==== Sys2Proof/Certificates/Slice0/Obligations.lean ====
section
/-! DEFINITION. The statements for the provers, chapter by chapter of the spec. -/

open Sys2Proof Sys2Proof.Machine

/-! ## The step and the queue of commands -/

/-- A step takes the command at the front of the queue and is `exec` of it on the state with the queue's rest; with no command
waiting the block idles (the model's choice, log 1). -/
def Obligations.StepTakesTheFront : Prop :=
  (∀ (c : Instr) (rest : List Instr) (p : Part), step ⟨c :: rest, p⟩ = exec c ⟨rest, p⟩)
    ∧ ∀ p : Part, step ⟨[], p⟩ = .next ⟨[], p⟩

/-- Every command runs in every state, and leaves the queue of commands alone: the manual names no event after which the part
stops. -/
def Obligations.NoCommandStops : Prop :=
  ∀ (c : Instr) (s : State), ∃ q : Part, exec c s = s.goesTo q

/-- The values the chapters give for reset (00, 01 R13, R20, 02 R23, 03 R48, 04 R78, 05 R80, R93, R94, 06 R102, R123, 07
R128, 08 R154, 09 R168, 10 R173, 11 R178, R180, R181), and that the two invariants of the steps, Bounded and Safe, hold
there. -/
def Obligations.ResetValues : Prop :=
  State.reset.pending = [] ∧
  let p := State.reset.part
  (p.cfl.load = .loading ∧ p.cfl.check = none ∧ p.cfl.presence = 0 ∧ p.cfl.settings = none) ∧
  (p.snc.joined = false ∧ p.snc.tx = .idle ∧ p.snc.inHand = none ∧ p.snc.queue = [] ∧ p.snc.sequence = 0 ∧ p.snc.cursor = 0
    ∧ p.snc.peers = List.replicate 14 Peer.start) ∧
  (p.machines = [] ∧ p.alc.peerClaims = [] ∧ p.alc.claimCounter = 0) ∧
  (∀ h, (p.hose h).dsc = .idle ∧ (p.hose h).nozzle = .onHook ∧ (p.hose h).context = none ∧ (p.hose h).summary = none
    ∧ (p.hose h).standing = none ∧ (p.hose h).claim = none ∧ (p.hose h).reader.fault = false ∧ (p.hose h).reader.run = 0
    ∧ (p.hose h).reader.readTag = none ∧ (p.hose h).reader.supervised = none ∧ (p.hose h).meter.window = false
    ∧ (p.hose h).meter.gross = 0 ∧ (p.hose h).meter.creep = 0 ∧ (p.hose h).valves.phase = .shut
    ∧ (p.hose h).valves.active = 0 ∧ (p.hose h).valves.pending = none ∧ (p.hose h).valves.trim.latch = false
    ∧ (p.hose h).valves.main.latch = false) ∧
  (∀ i, (p.pumps.get i).state = .stopped ∧ (p.pumps.get i).grants = [] ∧ (p.pumps.get i).requests = [] ∧ p.pumpDrive i = false) ∧
  (p.tlg.writing = none ∧ p.tlg.queue = [] ∧ p.tlg.slots.length = 1024) ∧
  (∀ c, (p.comp c).history = [] ∧ (p.comp c).gauge = none ∧ (p.comp c).settled = false ∧ (p.comp c).openingBook = none
    ∧ (p.comp c).book = 0 ∧ (p.comp c).latched = false ∧ (p.comp c).low = false) ∧
  (p.rsc.state = .normal ∧ p.rsc.grant = none ∧ p.rsc.queue = [] ∧ p.rsc.bays = ⟨none, none⟩ ∧ p.rsc.grantCounter = 0) ∧
  (p.cnl.response = none ∧ p.cnl.events = [] ∧ p.cnl.lost = false ∧ p.attention = false) ∧
  p.Bounded ∧ p.Safe

/-! ## 01 The site net -/

/-- R3, R4: in IDLE with a notice waiting the oldest is taken; its frame carries the sequence counter's value, the attempt count
is 0, and the transmit side defers for 10 ms, or at a busy medium backs off for 1 to 16 slots of 5 ms (R5). That a frame begins at its site code, without
R1's Sync field, is the model's choice (log 38). -/
def Obligations.FrameTaken : Prop :=
  ∀ (s : State) (n : Queued) (rest : List Queued),
    s.part.snc.joined = true → s.part.snc.tx = .idle → s.part.snc.queue = n :: rest →
    (exec (.frameTaken false) s = s.goesTo
      ((s.part.setPins { s.part.pins with busy := false }).setSnc
        { s.part.snc with
          queue := rest, inHand := some (s.part.buildFrame n.notice), attempts := 0
          sequence := (s.part.snc.sequence + 1) % 256, tx := .defer, idleGap := some (s.part.now + 1000), backoff := none }))
    ∧ (∃ slots, 1 ≤ slots ∧ slots ≤ 16 ∧ exec (.frameTaken true) s = s.goesTo
      (((s.part.setPins { s.part.pins with busy := true }).setDraws (s.part.draws + 1)).setSnc
        { s.part.snc with
          queue := rest, inHand := some (s.part.buildFrame n.notice), attempts := 0
          sequence := (s.part.snc.sequence + 1) % 256, tx := .backoff, idleGap := none
          backoff := some (s.part.now + 500 * slots) }))
    ∧ (s.part.buildFrame n.notice).sequence = BitVec.ofNat 8 s.part.snc.sequence
    ∧ (s.part.buildFrame n.notice).boot = BitVec.ofNat 8 s.part.tlg.bootNumber
    ∧ (s.part.buildFrame n.notice).origin = BitVec.ofNat 8 s.part.station
    ∧ (s.part.buildFrame n.notice).body = n.notice.body
    ∧ (s.part.buildFrame n.notice).crc = crc16 (crcBytes (s.part.buildFrame n.notice))

/-- R4: an assertion of the busy indication while the idle-gap timer runs cancels it and backs off, the attempt count unchanged;
at any other moment only the input's level changes. R4: at the expiry of the idle gap the attempt count advances and the frame
goes out. The time base stands at the expiry (log 2). R5, R4: at the expiry of the backoff the transmit side defers, or at a
busy medium backs off once more; the attempt count and the frame in hand are unchanged. R6: at the end of the transmission the
echo window of 5 ms starts. R7: no echo within the window is a collision: counted; below four attempts the same frame backs off,
after the fourth it is dropped and counted. -/
def Obligations.MediumAccess : Prop :=
  (∀ s : State,
      (s.part.snc.tx = .defer → s.part.snc.idleGap ≠ none →
        ∃ slots, 1 ≤ slots ∧ slots ≤ 16 ∧ exec .busyAsserted s = s.goesTo
          (((s.part.setPins { s.part.pins with busy := true }).setDraws (s.part.draws + 1)).setSnc
            { s.part.snc with tx := .backoff, idleGap := none, backoff := some (s.part.now + 500 * slots) }))
      ∧ (s.part.snc.tx ≠ .defer → exec .busyAsserted s =
          s.goesTo (s.part.setPins { s.part.pins with busy := true })))
  ∧ (∀ (s : State) (due : Nat), s.part.snc.tx = .defer → s.part.snc.idleGap = some due → s.part.snc.attempts < 4 →
      exec .idleGapExpiry s = s.goesTo
        ((s.part.reach due).setSnc
          { s.part.snc with tx := .sending, idleGap := none, attempts := s.part.snc.attempts + 1 }))
  ∧ (∀ (s : State) (due : Nat), s.part.snc.tx = .backoff → s.part.snc.backoff = some due →
      (exec (.backoffExpiry false) s = s.goesTo
        (((s.part.reach due).setPins { s.part.pins with busy := false }).setSnc
          { s.part.snc with tx := .defer, idleGap := some (max s.part.now due + 1000), backoff := none }))
      ∧ ∃ slots, 1 ≤ slots ∧ slots ≤ 16 ∧ exec (.backoffExpiry true) s = s.goesTo
        ((((s.part.reach due).setPins { s.part.pins with busy := true }).setDraws (s.part.draws + 1)).setSnc
          { s.part.snc with
            tx := .backoff, idleGap := none, backoff := some (max s.part.now due + 500 * slots) }))
  ∧ (∀ s : State, s.part.snc.tx = .sending →
      exec .transmissionEnd s = s.goesTo
        (s.part.setSnc { s.part.snc with tx := .awaitEcho, echoWindow := some (s.part.now + 500) }))
  ∧ (∀ (s : State) (due : Nat), s.part.snc.tx = .awaitEcho → s.part.snc.echoWindow = some due →
      (s.part.snc.attempts < 4 → ∃ slots, 1 ≤ slots ∧ slots ≤ 16 ∧ exec .echoWindowExpiry s = s.goesTo
        (((s.part.reach due).setDraws (s.part.draws + 1)).setSnc
          { s.part.snc with
            tx := .backoff, echoWindow := none, idleGap := none, backoff := some (max s.part.now due + 500 * slots)
            txCollisions := min (s.part.snc.txCollisions + 1) 65535 }))
      ∧ (s.part.snc.attempts = 4 → exec .echoWindowExpiry s = s.goesTo
        ((s.part.reach due).setSnc
          { s.part.snc with
            tx := .idle, inHand := none, echoWindow := none
            txCollisions := min (s.part.snc.txCollisions + 1) 65535, txCollided := min (s.part.snc.txCollided + 1) 65535 })))

/-- R6, R7, R9: an own-origin frame. While its echo is awaited, a frame equal to the one in hand in every field makes it sent, and a
frame that differs is a collision: counted, and the same frame backs off or, after the fourth attempt, is dropped. In any other
transmit state the frame is counted by RX_OWN and nothing else happens. -/
def Obligations.OwnFrames : Prop :=
  ∀ (s : State) (elapsed : Nat) (f : Frame) (i : Identity), s.part.snc.joined = true → s.part.Quiet →
    s.part.identity = some i → badFrame f = false → f.site.toNat = i.siteCode →
    1 ≤ f.origin.toNat → f.origin.toNat ≤ 14 → f.origin.toNat = s.part.station →
    let p := s.part.reach (s.part.now + elapsed)
    (s.part.snc.tx = .awaitEcho → f.body.length = f.bodyLength.toNat →
      (s.part.snc.inHand = some f → exec (.frameReceived elapsed f) s = s.goesTo
        (p.setSnc
          { p.snc with tx := .idle, inHand := none, echoWindow := none, txSent := min (p.snc.txSent + 1) 65535 }))
      ∧ (s.part.snc.inHand ≠ some f → s.part.snc.attempts < 4 →
        ∃ slots, 1 ≤ slots ∧ slots ≤ 16 ∧ exec (.frameReceived elapsed f) s = s.goesTo
          ((p.setDraws (p.draws + 1)).setSnc
            { p.snc with
              tx := .backoff, echoWindow := none, idleGap := none, backoff := some (p.now + 500 * slots)
              txCollisions := min (p.snc.txCollisions + 1) 65535 }))
      ∧ (s.part.snc.inHand ≠ some f → s.part.snc.attempts = 4 → exec (.frameReceived elapsed f) s = s.goesTo
        (p.setSnc
          { p.snc with
            tx := .idle, inHand := none, echoWindow := none, txCollisions := min (p.snc.txCollisions + 1) 65535
            txCollided := min (p.snc.txCollided + 1) 65535 })))
    ∧ (s.part.snc.tx ≠ .awaitEcho → exec (.frameReceived elapsed f) s = s.goesTo
        (p.setSnc { p.snc with rxOwn := min (p.snc.rxOwn + 1) 65535 }))

/-- R8, stages 1, 2, 3 and 5: a frame that does not pass is discarded and counted, and nothing else happens. R20, R21: while the
SNC is stopped a received frame is discarded uncounted, and an offered notice is discarded uncounted. -/
def Obligations.FramesDiscarded : Prop :=
  (∀ (s : State) (elapsed : Nat) (f : Frame) (i : Identity), s.part.snc.joined = true → s.part.Quiet → s.part.identity = some i →
      let p := s.part.reach (s.part.now + elapsed)
      let bad := s.goesTo (p.setSnc { p.snc with rxBad := min (p.snc.rxBad + 1) 65535 })
      let malformed := f.crc ≠ crc16 (crcBytes f) ∨ 48 < f.bodyLength.toNat ∨ f.body.length < f.bodyLength.toNat
      (malformed → exec (.frameReceived elapsed f) s = bad)
      ∧ (¬ malformed → f.site.toNat ≠ i.siteCode → exec (.frameReceived elapsed f) s =
          s.goesTo (p.setSnc { p.snc with rxForeign := min (p.snc.rxForeign + 1) 65535 }))
      ∧ (¬ malformed → f.site.toNat = i.siteCode → f.origin.toNat = 0 ∨ 14 < f.origin.toNat →
          exec (.frameReceived elapsed f) s = bad)
      ∧ (¬ malformed → f.site.toNat = i.siteCode → 1 ≤ f.origin.toNat → f.origin.toNat ≤ 14 → f.origin.toNat ≠ s.part.station →
          (f.kind.toNat = 0 ∨ 9 < f.kind.toNat → exec (.frameReceived elapsed f) s =
            s.goesTo (p.setSnc { p.snc with rxUnknown := min (p.snc.rxUnknown + 1) 65535 }))
          ∧ (∀ k, kindOfCode f.kind.toNat = some k → f.bodyLength.toNat ≠ bodyLengthOf k →
              exec (.frameReceived elapsed f) s = bad)))
  ∧ (∀ (s : State), s.part.snc.joined = false →
      (∀ elapsed f, exec (.frameReceived elapsed f) s = s.goesTo (s.part.reach (s.part.now + elapsed)))
      ∧ ∀ n y, s.part.offer n y = s.part)

/-- R11: the sequence check of a heard peer whose boot number agrees: what the difference d does to last sequence, frames
lost and the counters. R10, R11, R12 on the medium, for a SHIFT notice of the own shift from another station, which passes
the filter. From a heard peer of equal boot number the origin's entry notes the arrival and the sequence, RX_GOOD advances,
and nothing else happens; a repeat advances RX_REPEAT instead. On a first hearing the boot number is learnt, and from a
silent peer of equal boot number the sequence is taken as it comes. On a changed boot number the peer has started again: its
role, restock state and figures are unknown, its claims are removed (03 R47), and every hold state of its authorship is taken
over by this station (02 R35). R2, R8, R12: the same for a notice of each of the nine kinds, which is then delivered as the notice
that its body spells; the event then ends as every event of the hoses does. The places of the fields in a body are the model's choice (log 6). -/
def Obligations.NoticeFromAPeer : Prop :=
  (∀ (e : Peer) (boot last sequence : Nat), e.boot = some boot → e.heard = true → e.lastSequence = some last → last < 256 →
      sequence < 256 →
      let d := (sequence + 256 - (last + 1) % 256) % 256
      (d ≤ 127 → e.arrival boot sequence = .inSequence d)
      ∧ (128 ≤ d → d ≤ 254 → e.arrival boot sequence = .inSequence 0)
      ∧ (d = 255 → e.arrival boot sequence = .repeated))
  ∧ (∀ (s : State) (elapsed : Nat) (f : Frame) (i : Identity) (e : Peer) (boot last : Nat), s.part.snc.joined = true → s.part.Quiet →
      s.part.identity = some i → badFrame f = false → f.site.toNat = i.siteCode →
      1 ≤ f.origin.toNat → f.origin.toNat ≤ 14 → f.origin.toNat ≠ s.part.station →
      f.kind.toNat = 5 → f.bodyLength.toNat = 2 → fieldAt f.body 0 2 = s.part.alc.shift →
      s.part.snc.peers[f.origin.toNat - 1]? = some e →
      e.boot = some f.boot.toNat → e.heard = true → e.lastSequence = some last → boot = f.boot.toNat →
      let p := s.part.reach (s.part.now + elapsed)
      let arrived : Peer := { e with received := min (e.received + 1) 65535, seconds := 0 }
      (∀ lost, e.arrival boot f.sequence.toNat = .inSequence lost → exec (.frameReceived elapsed f) s = s.goesTo
        (p.setSnc { p.snc with
          peers := p.snc.peers.set (f.origin.toNat - 1)
            { arrived with lastSequence := some f.sequence.toNat, lost := min (e.lost + lost) 65535 }
          rxGood := min (p.snc.rxGood + 1) 65535 }))
      ∧ (e.arrival boot f.sequence.toNat = .repeated → exec (.frameReceived elapsed f) s = s.goesTo
        (p.setSnc { p.snc with
          peers := p.snc.peers.set (f.origin.toNat - 1) arrived, rxRepeat := min (p.snc.rxRepeat + 1) 65535 })))
  ∧ (∀ (s : State) (elapsed : Nat) (f : Frame) (i : Identity) (e : Peer), s.part.snc.joined = true → s.part.Quiet →
      s.part.identity = some i → badFrame f = false → f.site.toNat = i.siteCode →
      1 ≤ f.origin.toNat → f.origin.toNat ≤ 14 → f.origin.toNat ≠ s.part.station →
      f.kind.toNat = 5 → f.bodyLength.toNat = 2 → fieldAt f.body 0 2 = s.part.alc.shift →
      s.part.snc.peers[f.origin.toNat - 1]? = some e →
      let p := s.part.reach (s.part.now + elapsed)
      let heard : Peer :=
        { e with received := min (e.received + 1) 65535, seconds := 0, heard := true, lastSequence := some f.sequence.toNat }
      let noted := fun (entry : Peer) => p.setSnc
        { p.snc with peers := p.snc.peers.set (f.origin.toNat - 1) entry, rxGood := min (p.snc.rxGood + 1) 65535 }
      (e.boot = none →
        exec (.frameReceived elapsed f) s = s.goesTo (noted { heard with boot := some f.boot.toNat }))
      ∧ (e.boot = some f.boot.toNat → e.heard = false → exec (.frameReceived elapsed f) s = s.goesTo (noted heard))
      ∧ ∀ b, e.boot = some b → b ≠ f.boot.toNat → exec (.frameReceived elapsed f) s = s.goesTo
        (((noted { heard with boot := some f.boot.toNat, role := none, restockState := none, figures := none }).setAlc
          { p.alc with peerClaims := p.alc.peerClaims.filter fun c => !(c.origin == f.origin.toNat) }).setMachines
          (p.machines.map fun m =>
            if m.hold.author = f.origin.toNat ∧ m.hold.version ≠ 0 then
              { m with hold := { m.hold with author := s.part.station } }
            else m)))
  ∧ ∀ (s : State) (elapsed : Nat) (f : Frame) (i : Identity) (e : Peer), s.part.snc.joined = true →
      s.part.identity = some i → badFrame f = false → f.site.toNat = i.siteCode →
      1 ≤ f.origin.toNat → f.origin.toNat ≤ 14 → f.origin.toNat ≠ s.part.station →
      s.part.snc.peers[f.origin.toNat - 1]? = some e →
      let p := s.part.reach (s.part.now + elapsed)
      let origin := f.origin.toNat
      let boot := f.boot.toNat
      let arrived : Peer := { e with received := min (e.received + 1) 65535, seconds := 0, heard := true }
      let sequenced : Peer := { arrived with lastSequence := some f.sequence.toNat }
      let noted := fun (entry : Peer) => p.setSnc
        { p.snc with peers := p.snc.peers.set (origin - 1) entry, rxGood := min (p.snc.rxGood + 1) 65535 }
      let delivers := fun (n : Notice) =>
        let goes := fun (q : Part) => exec (.frameReceived elapsed f) s = s.goesTo (settle p q)
        (∀ lost, e.boot = some boot → e.heard = true → e.arrival boot f.sequence.toNat = .inSequence lost →
          goes ((noted { sequenced with lost := min (e.lost + lost) 65535 }).deliver origin n))
        ∧ (e.boot = some boot → e.heard = true → e.arrival boot f.sequence.toNat = .repeated →
          goes (p.setSnc
            { p.snc with peers := p.snc.peers.set (origin - 1) arrived, rxRepeat := min (p.snc.rxRepeat + 1) 65535 }))
        ∧ (e.boot = some boot → e.heard = false → goes ((noted sequenced).deliver origin n))
        ∧ (e.boot = none → goes ((noted { sequenced with boot := some boot }).deliver origin n))
        ∧ ∀ b, e.boot = some b → b ≠ boot → goes
          ((((noted { sequenced with boot := some boot, role := none, restockState := none, figures := none }).setAlc
            { p.alc with peerClaims := p.alc.peerClaims.filter fun c => !(c.origin == origin) }).setMachines
            (p.machines.map fun m =>
              if m.hold.author = origin ∧ m.hold.version ≠ 0 then
                { m with hold := { m.hold with author := s.part.station } }
              else m)).deliver origin n)
      let kind := f.kind.toNat
      let length := f.bodyLength.toNat
      let field := fieldAt f.body
      let figures := fun (o : Nat) => 
        ({ book := intOfWord32 (field o 4), gauge := field (o + 4) 4, capacity := field (o + 8) 4, settled := field (o + 12) 1 } :
          StockFigures)
      (kind = 1 → length = 10 → delivers (.claim (field 0 2) (field 2 2) (field 4 2) (field 6 4)))
      ∧ (kind = 2 → length = 4 → delivers (.drop (field 0 2) (field 2 2)))
      ∧ (kind = 3 → length = 10 → delivers (.tally (field 0 2) (field 2 2) (field 4 4) (field 8 2)))
      ∧ (kind = 4 → length = 5 → delivers (.hold (field 0 2) (field 2 1) (field 3 1) (field 4 1)))
      ∧ (kind = 5 → length = 2 → delivers (.shift (field 0 2)))
      ∧ (kind = 6 → length = 28 → delivers (.stock (field 0 1) (field 1 1) (figures 2) (figures 15)))
      ∧ (kind = 7 → length = 10 → delivers (.bayreq (field 0 4) (field 4 4) (field 8 1) (field 9 1)))
      ∧ (kind = 8 → length = 5 → delivers (.baygrant (field 0 1) (field 1 1) (field 2 2) (field 4 1)))
      ∧ (kind = 9 → length = 12 → delivers (.loadnote (field 0 1) (field 1 1) (field 2 2) (field 4 4) (field 8 4)))

/-- R15: what becomes of a notice offered to the transmit queue. -/
def Obligations.NoticeOffered : Prop :=
  ∀ (p : Part) (n : Notice) (y : Bool), p.snc.joined = true →
    (p.snc.queue.length < 16 → p.offer n y = p.setSnc { p.snc with queue := p.snc.queue ++ [⟨n, y⟩] })
    ∧ (p.snc.queue.length = 16 → y = true →
        p.offer n y = p.setSnc { p.snc with txYielded := min (p.snc.txYielded + 1) 65535 })
    ∧ (p.snc.queue.length = 16 → y = false → ∀ (front : List Queued) (o : Queued) (back : List Queued),
        p.snc.queue = front ++ o :: back → (∀ q ∈ front, q.yielding = false) → o.yielding = true →
        p.offer n y = p.setSnc { p.snc with
          queue := front ++ back ++ [⟨n, false⟩], txYielded := min (p.snc.txYielded + 1) 65535 })
    ∧ (p.snc.queue.length = 16 → y = false → (∀ q ∈ p.snc.queue, q.yielding = false) →
        p.offer n y = (p.setSnc { p.snc with txDropped := min (p.snc.txDropped + 1) 65535 }).event (.txDropped n.kind))

/-- R16, R17: a CLAIM takes the place of a waiting CLAIM of its number; a closing notice removes every waiting CLAIM of its
number before it is admitted. -/
def Obligations.ClaimsMerge : Prop :=
  ∀ (p : Part) (shift machine number reserved : Nat), p.snc.joined = true →
    (∀ (front : List Queued) (sh m r : Nat) (y : Bool) (back : List Queued),
        p.snc.queue = front ++ ⟨.claim sh m number r, y⟩ :: back → (∀ q ∈ front, isClaimOf number q = false) →
        p.offerClaim shift machine number reserved =
          p.setSnc { p.snc with queue := front ++ ⟨.claim shift machine number reserved, y⟩ :: back })
    ∧ ((∀ q ∈ p.snc.queue, isClaimOf number q = false) →
        p.offerClaim shift machine number reserved = p.offer (.claim shift machine number reserved) false)
    ∧ ∀ n, p.offerClosing number n =
        (p.setSnc { p.snc with queue := p.snc.queue.filter fun q => !isClaimOf number q }).offer n false

/-- R14, 03 R37, 06 R104: the second tick. Every entry heard since start counts one second more while the SNC runs, the
seconds of the shift advance, and so do the elapsed seconds of every transaction. R14: a heard entry that has reached 300
seconds becomes not-heard. A bowser that waits for no bay grant does nothing more; a depot takes the station off its restock
queue (09 R164). 09 R158: a bowser in GRANTED whose depot falls silent gives its grant up, is in REQUESTED and offers a
BAYREQ at once. 09 R164, R162: a depot whose bay holder falls silent frees the bay, and the head of the queue takes it under
the next grant number for 900 s. That the BAYGRANT is offered before its GRANT event is the model's choice (log 14). -/
def Obligations.SecondsAndSilence : Prop :=
  (∀ s : State, ∃ q : Part, exec .secondTick s = s.goesTo q
      ∧ q.alc = { s.part.alc with shiftSeconds := min (s.part.alc.shiftSeconds + 1) 4294967295 }
      ∧ q.nextSecond = s.part.nextSecond + 100000
      ∧ (s.part.snc.joined = false → q.snc = s.part.snc)
      ∧ (s.part.snc.joined = true → ∃ peers, q.snc = { s.part.snc with peers := peers } ∧ peers.length = s.part.snc.peers.length
          ∧ ∀ (k : Nat) (e : Peer), s.part.snc.peers[k]? = some e → peers[k]? = some
              (if e.boot = none then e else { e with seconds := min (e.seconds + 1) 65535 }))
      ∧ (∀ h, q.hose h = { s.part.hose h with
          context := (s.part.hose h).context.map fun x => { x with elapsed := x.elapsed + 1 } })
      ∧ (q.pins, q.cfl, q.machines, q.pumps, q.tlg, q.totals, q.inv, q.rsc, q.cnl)
          = (s.part.pins, s.part.cfl, s.part.machines, s.part.pumps, s.part.tlg, s.part.totals, s.part.inv, s.part.rsc, s.part.cnl))
  ∧ (∀ (s : State) (station : Nat) (e : Peer) (i : Identity), s.part.snc.joined = true → 1 ≤ station →
      s.part.snc.peers[station - 1]? = some e → e.heard = true → 300 ≤ e.seconds → s.part.identity = some i →
      let p := s.part.setSnc { s.part.snc with peers := s.part.snc.peers.set (station - 1) { e with heard := false } }
      (i.role = .bowser → s.part.rsc.state ≠ .granted → exec (.peerSilent station) s = s.goesTo p)
      ∧ (i.role = .depot → s.part.bayOf station = none → exec (.peerSilent station) s = s.goesTo
          (p.setRsc { p.rsc with queue := p.rsc.queue.filter fun r => !(r.station == station) })))
  ∧ (∀ (s : State) (station : Nat) (e : Peer) (i : Identity) (st : Settings), s.part.snc.joined = true → 1 ≤ station →
      s.part.snc.peers[station - 1]? = some e → e.heard = true → 300 ≤ e.seconds → s.part.identity = some i →
      s.part.cfl.settings = some st → i.role = .bowser → station = i.depotStation → s.part.rsc.state = .granted →
      s.part.snc.queue.length < 15 →
      let p := s.part.setSnc { s.part.snc with peers := s.part.snc.peers.set (station - 1) { e with heard := false } }
      let asking := (p.setRsc
        { p.rsc with
          state := .requested, grant := none, repeatTimer := some (s.part.now + 1000000)
          awaited := ⟨decide (0 < spaceOf s.part.inv.comps.a st.comps.a),
            decide (0 < spaceOf s.part.inv.comps.b st.comps.b)⟩ }).event (.restockState .requested)
      exec (.peerSilent station) s = s.goesTo (asking.setSnc
        { p.snc with queue := p.snc.queue ++ [⟨bayreqNotice s.part st false, false⟩, ⟨stockNotice asking st, true⟩] }))
  ∧ ∀ (s : State) (station : Nat) (e : Peer) (i : Identity) (b : BayId), s.part.snc.joined = true → 1 ≤ station →
      s.part.snc.peers[station - 1]? = some e → e.heard = true → 300 ≤ e.seconds → s.part.identity = some i →
      i.role = .depot → s.part.bayOf station = some b →
      let p := s.part.setSnc { s.part.snc with peers := s.part.snc.peers.set (station - 1) { e with heard := false } }
      (s.part.rsc.queue = [] →
        exec (.peerSilent station) s = s.goesTo (p.setRsc { p.rsc with bays := p.rsc.bays.set b none }))
      ∧ ∀ (r : QueueEntry) (rest : List QueueEntry), s.part.rsc.queue = r :: rest → s.part.hasBay b = true →
        (∀ k, k ≠ b → s.part.rsc.bays.get k ≠ none ∨ s.part.hasBay k = false) →
        let n := if s.part.rsc.grantCounter = 65535 then 1 else s.part.rsc.grantCounter + 1
        exec (.peerSilent station) s = s.goesTo (((p.setRsc
          { p.rsc with
            queue := rest, grantCounter := n
            bays := p.rsc.bays.set b (some
              { station := r.station, grant := n, urgency := r.urgency, spaces := r.spaces, loaded := ⟨0, 0⟩, active := 0
                noteOffered := false, timer := .expiry (s.part.now + 90000000) }) }).offer
          (.baygrant r.station (bayNumber b) n 0) false).event (.grant r.station (bayNumber b) n false))

/-- R18: the sweep tick. A round without a candidate offers nothing and leaves the cursor; the tally of the machine under the
cursor is offered as a yielding notice while the queue holds at most 8, and the cursor goes on to the next position. The
first half of the positions are tallies, a candidate where the own column is not 0; the second half are hold states, a
candidate where this station is the author of a version other than 0. A tick passes over the positions that are no candidate.
A hold is offered as a non-yielding notice, which at a full queue takes the place of the oldest yielding one or is dropped; a
notice that is not taken leaves the cursor at its position. -/
def Obligations.SweepTick : Prop :=
  (∀ (s : State) (due : Nat), s.part.snc.sweep = some due → s.part.snc.joined = true →
      let p := (s.part.reach due).setSnc { s.part.snc with sweep := some (due + 400000) }
      ((∀ k, s.part.sweepNotice k = none) → exec .sweepTick s = s.goesTo p)
      ∧ (∀ m, s.part.machines[s.part.snc.cursor]? = some m → m.column s.part.station ≠ 0 →
          (s.part.snc.queue.length ≤ 8 → exec .sweepTick s = s.goesTo
            (p.setSnc { p.snc with
              cursor := (s.part.snc.cursor + 1) % (2 * s.part.machines.length)
              queue := p.snc.queue ++ [⟨.tally s.part.alc.shift m.entry.number (m.column s.part.station) 0, true⟩] }))
          ∧ (8 < s.part.snc.queue.length → exec .sweepTick s = s.goesTo p)))
  ∧ (∀ (p : Part) (i : Nat) (m : MachineRow), p.machines[i]? = some m →
      (p.sweepNotice i = if m.column p.station = 0 then none
        else some ⟨.tally p.alc.shift m.entry.number (m.column p.station) 0, true⟩)
      ∧ (p.sweepNotice (p.machines.length + i) = if m.hold.author = p.station ∧ m.hold.version ≠ 0 then
          some ⟨.hold m.entry.number (if m.hold.held = true then 1 else 0) m.hold.reason m.hold.version, false⟩ else none))
  ∧ ∀ (s : State) (due : Nat) (position : Nat → Nat) (k : Nat) (n : Notice) (y : Bool), s.part.snc.sweep = some due →
    s.part.snc.joined = true → position 0 = s.part.snc.cursor →
    (∀ j, position (j + 1) = (position j + 1) % (2 * s.part.machines.length)) → k < 2 * s.part.machines.length →
    (∀ j, j < k → s.part.sweepNotice (position j) = none) → s.part.sweepNotice (position k) = some ⟨n, y⟩ →
    let p := s.part.reach due
    let swept := fun (cursor : Nat) (queue : List Queued) =>
      p.setSnc { p.snc with sweep := some (due + 400000), cursor := cursor, queue := queue }
    let next := (position k + 1) % (2 * s.part.machines.length)
    (y = true → s.part.snc.queue.length ≤ 8 →
      exec .sweepTick s = s.goesTo (swept next (s.part.snc.queue ++ [⟨n, true⟩])))
    ∧ (y = true → 8 < s.part.snc.queue.length → exec .sweepTick s = s.goesTo (swept (position k) s.part.snc.queue))
    ∧ (y = false → s.part.snc.queue.length < 16 →
      exec .sweepTick s = s.goesTo (swept next (s.part.snc.queue ++ [⟨n, false⟩])))
    ∧ (y = false → 16 ≤ s.part.snc.queue.length → ∀ (front : List Queued) (o : Queued) (back : List Queued),
      s.part.snc.queue = front ++ o :: back → (∀ q ∈ front, q.yielding = false) → o.yielding = true →
      let r := swept next (front ++ back ++ [⟨n, false⟩])
      exec .sweepTick s = s.goesTo (r.setSnc { r.snc with txYielded := min (r.snc.txYielded + 1) 65535 }))
    ∧ (y = false → 16 ≤ s.part.snc.queue.length → (∀ q ∈ s.part.snc.queue, q.yielding = false) →
      let r := swept (position k) s.part.snc.queue
      exec .sweepTick s =
        s.goesTo ((r.setSnc { r.snc with txDropped := min (r.snc.txDropped + 1) 65535 }).event (.txDropped n.kind)))

/-! ## 02 Identification and holds -/

/-- R22, R23, R24: reports on a hose without supervision, in any state but LIFTED. A bad PRESENT is counted and, in GOOD, is
the next of the run, the fifth taking the reader into FAULT; an ABSENT or a good PRESENT returns the reader to GOOD and sets
the read tag. R22: the check of a PRESENT report. R28, R30: a good PRESENT in LIFTED is an identification by tag. A check
that refuses it names the refusal (03 R53), as does a least term below 200 cL (03 R55); otherwise the hose is in AUTHORISING,
the hold-off runs, and supervision is on for the tag's code. -/
def Obligations.TagReports : Prop :=
  (∀ (s : State) (h : HoseId), s.part.cfl.stage = .running → s.part.Quiet →
      (s.part.hose h).reader.supervised = none → (s.part.hose h).dsc ≠ .lifted →
      let r := (s.part.hose h).reader
      let counted := min (r.badChecks + 1) 65535
      (∀ report, (report = .malformed ∨ ∃ code check, report = .present code check ∧ goodPresent code check = false) →
        (r.fault = false → r.run < 4 → exec (.tagReport h report) s = s.goesTo
          (s.part.modReader h fun r => { r with badChecks := counted, run := r.run + 1 }))
        ∧ (r.fault = false → r.run = 4 → exec (.tagReport h report) s = s.goesTo
          ((s.part.modReader h fun r => { r with badChecks := counted, run := 0, fault := true, readTag := none }).event (.readerFault h)))
        ∧ (r.fault = true → exec (.tagReport h report) s = s.goesTo (s.part.modReader h fun r => { r with badChecks := counted })))
      ∧ (exec (.tagReport h .absent) s = s.goesTo
          (s.part.modReader h fun r => { r with fault := false, run := 0, readTag := none }))
      ∧ (∀ code check, goodPresent code check = true → exec (.tagReport h (.present code check)) s = s.goesTo
          (s.part.modReader h fun r => { r with fault := false, run := 0, readTag := some code, grace := none }))
      ∧ (r.fault = false → exec (.tagReport h .readerFault) s = s.goesTo
          ((s.part.modReader h fun r => { r with fault := true, run := 0, readTag := none }).event (.readerFault h)))
      ∧ (r.fault = true → exec (.tagReport h .readerFault) s = s.goesTo s.part))
  ∧ (∀ (code : TagCode) (check : Byte), goodPresent code check = true ↔
      code ≠ 0 ∧ ((List.range 8).map (fun i => (code.extractLsb' (8 * i) 8).toNat)).sum + check.toNat ≡ 0 [MOD 256])
  ∧ (∀ (s : State) (h : HoseId) (code : TagCode) (check : Byte), s.part.cfl.stage = .running → s.part.Quiet →
      (s.part.hose h).reader.supervised = none → (s.part.hose h).dsc = .lifted → goodPresent code check = true →
      let found := s.part.lookupTag code
      let read := s.part.modReader h fun r => { r with fault := false, run := 0, readTag := some code, grace := none }
      (∀ c, s.part.refusalOf h .tag found = some c →
        exec (.tagReport h (.present code check)) s = s.goesTo (read.event (.refused h c)))
      ∧ ∀ (i slot : Nat) (st : HoseSettings) (m : MachineRow), found = some i → s.part.machines[i]? = some m →
        s.part.hoseSettings h = some st → s.part.reservable = some slot → s.part.refusalOf h .tag found = none →
        let t := (s.part.terms h st m).least
        (t < 200 → exec (.tagReport h (.present code check)) s =
          s.goesTo (read.event (.refused h (s.part.terms h st m).refusal)))
        ∧ (200 ≤ t → s.part.needsClaim m.entry = true → m.entry.inlet = none → ∃ q : Part,
          exec (.tagReport h (.present code check)) s = s.goesTo q
          ∧ (q.hose h).dsc = .authorising ∧ (q.hose h).holdOff = some (s.part.now + 200000)
          ∧ (q.hose h).valves.active = t.toNat
          ∧ (q.hose h).reader = { (s.part.hose h).reader with
              fault := false, run := 0, readTag := some code, supervised := some code, grace := none }
          ∧ (∃ x, (q.hose h).context = some x ∧ x.position = i ∧ x.machine = m.entry.number ∧ x.method = .tag
              ∧ x.preset = t.toNat ∧ x.slot = slot ∧ x.claim = q.alc.claimCounter)
          ∧ (∀ k, k ≠ h → q.hose k = s.part.hose k)))

/-- R31, R32: supervision on. An ABSENT starts the grace timer of 3 s unless it runs already; the supervised code cancels it;
a READER_FAULT starts it likewise. A good PRESENT of another code cancels it and is TAG_CHANGED: the end cause of a flowing
hose, the TAG flag of a stopping one, and a stop before flow of one that authorises or waits for its pump (06 R109, R113). -/
def Obligations.TagSupervision : Prop :=
  (∀ (s : State) (h : HoseId) (c : TagCode), s.part.cfl.stage = .running → s.part.Quiet →
      (s.part.hose h).reader.supervised = some c →
      ((s.part.hose h).reader.grace = none → exec (.tagReport h .absent) s = s.goesTo
        (s.part.modReader h fun r => { r with fault := false, run := 0, readTag := none, grace := some (s.part.now + 300000) }))
      ∧ (∀ due, (s.part.hose h).reader.grace = some due → exec (.tagReport h .absent) s = s.goesTo
        (s.part.modReader h fun r => { r with fault := false, run := 0, readTag := none }))
      ∧ ∀ check, goodPresent c check = true → exec (.tagReport h (.present c check)) s = s.goesTo
        (s.part.modReader h fun r => { r with fault := false, run := 0, readTag := some c, grace := none }))
  ∧ (∀ (s : State) (h : HoseId) (c : TagCode), s.part.cfl.stage = .running → s.part.Quiet →
      (s.part.hose h).reader.supervised = some c → (s.part.hose h).reader.fault = false →
      exec (.tagReport h .readerFault) s = s.goesTo ((s.part.modReader h fun r =>
        { r with
          fault := true, run := 0, readTag := none, grace := some (r.grace.getD (s.part.now + 300000)) }).event (.readerFault h)))
  ∧ ∀ (s : State) (h : HoseId) (c code : TagCode) (check : Byte) (x : Context), s.part.cfl.stage = .running → s.part.Quiet →
    (s.part.hose h).reader.supervised = some c → code ≠ c → goodPresent code check = true →
    (s.part.hose h).context = some x →
    let read : Reader := { (s.part.hose h).reader with fault := false, run := 0, readTag := some code, grace := none }
    ((s.part.hose h).dsc = .stopping →
      exec (.tagReport h (.present code check)) s = s.goesTo (s.part.modHose h fun u =>
        { u with reader := read, context := some { x with faults := { x.faults with tag := true } } }))
    ∧ ((s.part.hose h).dsc = .flowing → (s.part.hose h).valves.phase.flowing = true →
      (s.part.hose h).valves.trim.switch = .opened → (s.part.hose h).valves.trim.latch = false →
      ∃ q : Part, exec (.tagReport h (.present code check)) s = s.goesTo q
        ∧ (q.hose h).dsc = .stopping ∧ (q.hose h).context = some { x with cause := some .tagChanged }
        ∧ (q.hose h).valves.phase = .shutting ∧ (q.hose h).meter.noFlow = none ∧ (q.hose h).reader = read
        ∧ q.cnl.events = (s.part.cnl.offer (.stopped h .tagChanged)).events
        ∧ (∀ k, k ≠ h → q.hose k = s.part.hose k))
    ∧ ((s.part.hose h).dsc = .authorising ∨ (s.part.hose h).dsc = .awaitPump →
      ∃ q : Part, exec (.tagReport h (.present code check)) s = s.goesTo q
        ∧ (q.hose h).dsc = restState (s.part.hose h).nozzle ∧ (q.hose h).context = none ∧ (q.hose h).claim = none
        ∧ (q.hose h).reader = { read with supervised := none }
        ∧ (q.hose h).summary = some { sequence := none, cause := some .tagChanged, faults := x.faults }
        ∧ (∀ k, k ≠ h → q.hose k = s.part.hose k))

/-- R34: HOLD and UNHOLD of a machine that no transaction is on. The hold state takes a new version under the own station's
authorship, and a HOLD notice is offered. R34: HOLD and UNHOLD of a machine number that no entry has. R36: a HOLD of a
machine on which transactions are under way stops them with HELD, in flow or before it, and leaves those that are stopping or
committing; an UNHOLD stops none. -/
def Obligations.HoldRequests : Prop :=
  (∀ (s : State) (i number : Nat) (m : MachineRow), s.part.LineFree → s.part.Quiet →
      s.part.findMachine number = some i → s.part.machines[i]? = some m →
      (∀ h x, (s.part.hose h).context = some x → x.position ≠ i) →
      let version := if m.hold.version = 255 then 1 else m.hold.version + 1
      (∀ reason, reason ≤ 15 → exec (.hold (some number) (some reason)) s = s.goesTo
        (((s.part.respond .ok).setMachines (s.part.machines.set i
          { m with hold := { held := true, reason := reason, version := version, author := s.part.station } })).offer
          (.hold m.entry.number 1 reason version) false))
      ∧ (exec (.unhold (some number)) s = s.goesTo
        (((s.part.respond .ok).setMachines (s.part.machines.set i
          { m with hold := { held := false, reason := 0, version := version, author := s.part.station } })).offer
          (.hold m.entry.number 0 0 version) false))
      ∧ ∀ reason, 15 < reason → exec (.hold (some number) (some reason)) s = s.goesTo (s.part.refuse .badValue))
  ∧ (∀ (s : State) (number reason : Nat), s.part.LineFree → s.part.findMachine number = none →
      exec (.hold (some number) (some reason)) s = s.goesTo (s.part.refuse .unknownMachine)
      ∧ exec (.unhold (some number)) s = s.goesTo (s.part.refuse .unknownMachine))
  ∧ (∀ (s : State) (i number : Nat) (m : MachineRow), s.part.LineFree → s.part.findMachine number = some i →
      s.part.machines[i]? = some m →
      let version := if m.hold.version = 255 then 1 else m.hold.version + 1
      (exec (.unhold (some number)) s = s.goesTo
        (((s.part.respond .ok).setMachines (s.part.machines.set i
          { m with hold := { held := false, reason := 0, version := version, author := s.part.station } })).offer
          (.hold m.entry.number 0 0 version) false))
      ∧ ∀ reason, reason ≤ 15 → ∃ q : Part, exec (.hold (some number) (some reason)) s = s.goesTo q
        ∧ q.machines = s.part.machines.set i
            { m with hold := { held := true, reason := reason, version := version, author := s.part.station } }
        ∧ ∀ h x, (s.part.hose h).context = some x →
          (x.position = i → (s.part.hose h).dsc = .flowing →
            (q.hose h).dsc = .stopping ∧ (q.hose h).context = some { x with cause := some .held })
          ∧ (x.position = i → (s.part.hose h).dsc = .authorising ∨ (s.part.hose h).dsc = .awaitPump →
            (q.hose h).dsc = restState (s.part.hose h).nozzle ∧ (q.hose h).context = none ∧ (q.hose h).claim = none
            ∧ (q.hose h).summary = some { sequence := none, cause := some .held, faults := x.faults })
          ∧ ((s.part.hose h).dsc = .stopping ∨ (s.part.hose h).dsc = .committing → q.hose h = s.part.hose h))

/-- R35: which HOLD notices are applied over a hold state. R35: an applied HOLD notice on a machine that no transaction is
on: the entry takes the notice's fields and its origin as author, and an event is queued where the held flag or the reason
changed. A notice that is not applied changes nothing. R36: an applied notice that sets held stops the machine's transactions
with HELD, in flow or before it, and leaves every other hose; one that clears held leaves all. 01 R12: a HOLD that passes the
receive filter is delivered so; it carries no shift to compare. -/
def Obligations.HoldNotices : Prop :=
  (∀ (hold : Hold) (origin version : Nat), hold.version < 256 → version < 256 →
      let d := (version + 256 - hold.version) % 256
      (holdApplies hold origin version = true ↔
        (hold.version = 0 ∧ version ≠ 0) ∨ (1 ≤ d ∧ d ≤ 127) ∨ (d = 0 ∧ hold.author < origin)))
  ∧ (∀ (p : Part) (origin i number held reason version : Nat) (m : MachineRow),
      p.findMachine number = some i → p.machines[i]? = some m → (∀ h x, (p.hose h).context = some x → x.position ≠ i) →
      let q := p.setMachines (p.machines.set i
        { m with hold := { held := decide (held = 1), reason := reason, version := version, author := origin } })
      (held ≤ 1 → reason ≤ 15 → holdApplies m.hold origin version = true →
        (m.hold.held = decide (held = 1) ∧ m.hold.reason = reason → p.takeHold origin number held reason version = q)
        ∧ (¬ (m.hold.held = decide (held = 1) ∧ m.hold.reason = reason) →
            p.takeHold origin number held reason version = q.event (.holdChanged number (decide (held = 1)) reason origin)))
      ∧ (1 < held ∨ 15 < reason ∨ holdApplies m.hold origin version = false →
          p.takeHold origin number held reason version = p))
  ∧ (∀ (p : Part) (origin i number reason version : Nat) (m : MachineRow), p.findMachine number = some i →
      p.machines[i]? = some m → reason ≤ 15 → holdApplies m.hold origin version = true →
      let q := p.takeHold origin number 1 reason version
      q.machines = p.machines.set i
        { m with hold := { held := true, reason := reason, version := version, author := origin } }
      ∧ ∀ h x, (p.hose h).context = some x →
        (x.position = i → (p.hose h).dsc = .flowing →
          (q.hose h).dsc = .stopping ∧ (q.hose h).context = some { x with cause := some .held })
        ∧ (x.position = i → (p.hose h).dsc = .authorising ∨ (p.hose h).dsc = .awaitPump →
          (q.hose h).dsc = restState (p.hose h).nozzle ∧ (q.hose h).context = none ∧ (q.hose h).claim = none
          ∧ (q.hose h).summary = some { sequence := none, cause := some .held, faults := x.faults })
        ∧ (x.position ≠ i ∨ (p.hose h).dsc = .stopping ∨ (p.hose h).dsc = .committing → q.hose h = p.hose h))
  ∧ (∀ (p : Part) (origin i number version : Nat) (m : MachineRow), p.findMachine number = some i → p.machines[i]? = some m →
      ∀ reason, reason ≤ 15 → holdApplies m.hold origin version = true →
      (p.takeHold origin number 0 reason version).hoses = p.hoses)
  ∧ ∀ (p : Part) (origin machine held reason version : Nat),
    p.deliver origin (.hold machine held reason version) = p.takeHold origin machine held reason version

/-- R29: the checks of KEYED, in order. -/
def Obligations.KeyedRefusals : Prop :=
  ∀ (s : State) (h : HoseId) (field number : Nat), s.part.LineFree → hoseField (some field) = some h →
    let code := if s.part.cfl.load = .fault then some Code.configFault
      else if (s.part.hose h).dsc ≠ .lifted then some .notLifted
      else if (s.part.hose h).reader.readTag ≠ none then some .tagPresent
      else match (s.part.lookupNumber number).bind fun i => s.part.machines[i]? with
        | none => some .unknownMachine
        | some m => if m.entry.keyed = false then some .keyedNotAllowed else none
    ∀ c, code = some c → exec (.keyed (some field) (some number)) s = s.goesTo (s.part.refuse c)

/-! ## 03 Allotments -/

/-- R53: the checks of an identification, in order; the first that fails gives the code. -/
def Obligations.AuthorisationChecks : Prop :=
  ∀ (p : Part) (h : HoseId) (method : EntryMethod) (found : Option Nat) (st : HoseSettings),
    p.hoseSettings h = some st →
    p.refusalOf h method found =
      (if p.cfl.load ≠ .good then some .configFault
      else if st.enabled = false then some .hoseDisabled
      else if p.pins.emergency = true then some .emergency
      else if p.rsc.state ≠ .normal then some .restockLock
      else if p.alc.listen = .listen then some .settling
      else match found.bind fun i => p.machines[i]? with
        | none => some (if method = .tag then .unknownTag else .unknownMachine)
        | some m =>
          if m.hold.held = true then some .held
          else if m.entry.permits (((p.compSettings st.compartment).map (·.grade)).getD 0) = false then some .wrongGrade
          else if p.role = some .depot ∧ (m.entry.inlet.bind fun t => p.bayOf t.1) = none then some .noGrant
          else if (p.comp st.compartment).openingBook = none ∨ (p.comp st.compartment).low = true then some .noStock
          else if p.reservable = none then some .logFull
          else none)

/-- R55: a least term below 200 cL refuses the identification, and the term that gave it names the refusal; that a requested term which
ties with the account or the stock term answers NO_ALLOTMENT is the model's reading (log 37). R54: the value of
each term. The requested term is the standing preset, or the machine's tank capacity; at a depot, for a bowser with a bay
entry, the space it has told less what it has been loaded, or the room by its figures (09 R165). The machine and the account
term take from the allowance what is drawn, every peer claim on it and every active own claim on it of the other hoses; a
machine with an inlet has no machine term. The stock term takes from the book the reserve and what the other hoses on the
compartment have still to meter. -/
def Obligations.LeastTermNamesTheRefusal : Prop :=
  (∀ t : Terms,
      t.least ≤ t.requested ∧ t.least ≤ t.stock ∧ (∀ x, t.machine = some x → t.least ≤ x) ∧ (∀ x, t.account = some x → t.least ≤ x)
      ∧ (t.least = t.requested ∨ t.least = t.stock ∨ t.machine = some t.least ∨ t.account = some t.least)
      ∧ t.refusal = if t.machine = some t.least ∨ t.requested = t.least then .noAllotment
          else if t.account = some t.least then .accountCeiling else .noStock)
  ∧ (∀ (p : Part) (h : HoseId) (st : HoseSettings) (m : MachineRow),
    let t := p.terms h st m
    let active : HoseId → (OwnClaim → Bool) → Nat := fun k pick =>
      match (p.hose k).claim with
      | some c => if c.status = .active ∧ pick c = true then (p.hose k).valves.active else 0
      | none => 0
    let others : (HoseId → Nat) → Nat := fun f => ((allHoses.filter fun k => decide (k ≠ h)).map f).sum
    let peers : (PeerClaim → Bool) → Nat := fun pick => ((p.alc.peerClaims.filter pick).map (·.reserved)).sum
    (p.role ≠ some .depot → t.requested = (((p.hose h).standing.getD (m.entry.capacity * 100) : Nat) : Int))
    ∧ (∀ (station : Nat) (c : CompId) (b : BayId) (e : BayEntry), p.role = some .depot → m.entry.inlet = some (station, c) →
        p.bayOf station = some b → p.rsc.bays.get b = some e →
        (0 < e.spaces.get c → t.requested = max 0 ((e.spaces.get c * 100 : Int) - e.loaded.get c))
        ∧ (e.spaces.get c = 0 → ∀ a, (p.snc.peers[station - 1]?).bind (·.figures) = some a →
            let f := if c = .a then a.1 else a.2
            t.requested = max 0 (((f.capacity : Int) - f.gauge) * 100))
        ∧ (e.spaces.get c = 0 → (p.snc.peers[station - 1]?).bind (·.figures) = none → t.requested = 0))
    ∧ (m.entry.inlet ≠ none ∨ m.entry.allowance = none → t.machine = none)
    ∧ (∀ allowance, m.entry.inlet = none → m.entry.allowance = some allowance → t.machine = some
        ((allowance * 100 : Int) - m.drawn.sum - peers (fun c => decide (c.machine = m.entry.number))
          - others fun k => active k fun c => decide (c.machine = m.entry.number)))
    ∧ (p.ceiling m.entry.account = 0 → t.account = none)
    ∧ (p.ceiling m.entry.account ≠ 0 → t.account = some
        ((p.ceiling m.entry.account * 100 : Int)
          - ((p.machines.filter fun r => decide (r.entry.account = m.entry.account)).map fun r => r.drawn.sum).sum
          - peers (fun c => decide (c.account = m.entry.account))
          - others fun k => active k fun c => decide (c.account = m.entry.account)))
    ∧ t.stock = (p.comp st.compartment).book - ((((p.compSettings st.compartment).map (·.reserve)).getD 0 * 100 : Nat) : Int)
        - others fun k => match (p.hose k).context with
          | some x =>
            if ((p.hose k).dsc = .authorising ∨ (p.hose k).dsc = .awaitPump ∨ (p.hose k).dsc = .flowing)
                ∧ x.compartment = st.compartment
            then (p.hose k).valves.active - x.metered else 0
          | none => 0)

/-- R55, R56 at a KEYED request that calls for a claim: from 200 cL on, the slot is reserved, the claim issued and the
hold-off of 2 s started, the preset loaded, and the hose is in AUTHORISING; below 200 cL it stays in LIFTED and a REFUSED
event is queued. Either way the response is OK (R29). 09 R163, R165: a loadout at a depot records the target station and the
grant number of its bay, advances the bay's active count and stops its timer; another entry touches no bay. R51: an
authorisation that calls for no claim asks for its pump at once (05 R93 to R97), under claim number 0. -/
def Obligations.KeyedIdentification : Prop :=
  (∀ (s : State) (h : HoseId) (field number i slot : Nat) (st : HoseSettings) (m : MachineRow), s.part.LineFree → s.part.Quiet →
      hoseField (some field) = some h → s.part.keyedRefusal h number = none → s.part.hoseSettings h = some st →
      s.part.lookupNumber number = some i → s.part.machines[i]? = some m → s.part.reservable = some slot →
      s.part.refusalOf h .keyed (some i) = none →
      let t := (s.part.terms h st m).least
      (t < 200 → exec (.keyed (some field) (some number)) s = s.goesTo
        ((s.part.respond .ok).event (.refused h (s.part.terms h st m).refusal)))
      ∧ (200 ≤ t → s.part.needsClaim m.entry = true → m.entry.inlet = none → ∃ q : Part,
        exec (.keyed (some field) (some number)) s = s.goesTo q
        ∧ q.cnl.response = some .ok
        ∧ (q.hose h).dsc = .authorising ∧ (q.hose h).holdOff = some (s.part.now + 200000)
        ∧ (q.hose h).valves.active = t.toNat ∧ (q.hose h).valves.pending = none ∧ (q.hose h).standing = none
        ∧ (∃ x, (q.hose h).context = some x ∧ x.position = i ∧ x.machine = m.entry.number ∧ x.account = m.entry.account
            ∧ x.method = .keyed ∧ x.preset = t.toNat ∧ x.claim = q.alc.claimCounter ∧ x.shift = s.part.alc.shift ∧ x.slot = slot
            ∧ x.compartment = st.compartment ∧ x.sequence = none ∧ x.metered = 0 ∧ x.cause = none)
        ∧ (q.hose h).claim = some
            { number := q.alc.claimCounter, machine := m.entry.number, account := m.entry.account, status := .active
              renewal := some (s.part.now + 3000000) }
        ∧ (∀ k, k ≠ h → q.hose k = s.part.hose k)
        ∧ q.pumps = s.part.pumps ∧ q.machines = s.part.machines ∧ q.inv = s.part.inv ∧ q.totals = s.part.totals
        ∧ q.cfl = s.part.cfl ∧ q.pins = s.part.pins
        ∧ q.tlg = { s.part.tlg with slots := s.part.tlg.slots.modify slot fun u =>
            { u with state := .reserved, opening := none, closing := none } }))
  ∧ ∀ (s : State) (h : HoseId) (field number i slot : Nat) (st : HoseSettings) (m : MachineRow), s.part.LineFree → s.part.Quiet →
    hoseField (some field) = some h → s.part.keyedRefusal h number = none → s.part.hoseSettings h = some st →
    s.part.lookupNumber number = some i → s.part.machines[i]? = some m → s.part.reservable = some slot →
    s.part.refusalOf h .keyed (some i) = none →
    let t := (s.part.terms h st m).least
    let loading := fun (q : Part) (x : Context) =>
      (m.entry.inlet = none → x.target = none ∧ x.grant = 0 ∧ q.rsc = s.part.rsc)
      ∧ ∀ station c b e, s.part.role = some .depot → m.entry.inlet = some (station, c) → s.part.bayOf station = some b →
          s.part.rsc.bays.get b = some e → x.target = some (station, c) ∧ x.grant = e.grant ∧ q.rsc =
            { s.part.rsc with bays := s.part.rsc.bays.set b (some { e with active := e.active + 1, timer := .stopped }) }
    (200 ≤ t → s.part.needsClaim m.entry = true → ∃ (q : Part) (x : Context),
      exec (.keyed (some field) (some number)) s = s.goesTo q
      ∧ q.cnl.response = some .ok ∧ (q.hose h).dsc = .authorising ∧ (q.hose h).valves.active = t.toNat
      ∧ (q.hose h).context = some x ∧ x.preset = t.toNat ∧ x.claim = q.alc.claimCounter ∧ loading q x
      ∧ (∀ k, k ≠ h → q.hose k = s.part.hose k))
    ∧ (200 ≤ t → s.part.needsClaim m.entry = false → s.part.inputsClear → (s.part.hose h).valves.trim.latch = false →
        (s.part.hose h).valves.main.latch = false → (s.part.pumps.get st.pump).state = .stopped →
        (s.part.pumps.get st.pump).grants = [] → 1 ≤ s.part.limit st.pump → ∃ (q : Part) (x : Context),
      exec (.keyed (some field) (some number)) s = s.goesTo q
      ∧ q.cnl.response = some .ok ∧ (q.hose h).dsc = .awaitPump ∧ (q.hose h).pumpWait = some (s.part.now + 18000000)
      ∧ (q.hose h).valves.active = t.toNat ∧ (q.hose h).claim = (s.part.hose h).claim ∧ q.alc = s.part.alc
      ∧ (q.hose h).context = some x ∧ x.preset = t.toNat ∧ x.claim = 0 ∧ loading q x
      ∧ q.pumps = s.part.pumps.set st.pump
          { s.part.pumps.get st.pump with
            state := .priming, grants := [h], prime := some (s.part.now + 200000)
            primes := min ((s.part.pumps.get st.pump).primes + 1) 65535 }
      ∧ (∀ k, k ≠ h → q.hose k = s.part.hose k))

/-- R48: the number of a new claim: one more than the last issued, from 65535 to 1, passing over numbers still held; of at
most four numbers held, the number reached is none, and so it is the number of no own claim. R46: at the end of its life a
peer claim entry is removed, and nothing else happens but the time base standing at the expiry (log 2). R49: the renewal of
an own claim: its CLAIM is offered again with the active preset as its reserved volume, and the timer restarts at 30 s. R52:
at the end of the listen period the controller is READY. -/
def Obligations.ClaimTimers : Prop :=
  (∀ (n : Nat) (held : List Nat), n ≤ 65535 →
      let next := if n = 65535 then 1 else n + 1
      (next ∉ held → nextClaim held 5 n = next)
      ∧ (next ∈ held → nextClaim held 5 n = nextClaim held 4 next)
      ∧ 1 ≤ nextClaim held 5 n ∧ nextClaim held 5 n ≤ 65535)
  ∧ (∀ (s : State) (c : PeerClaim),
      s.part.alc.peerClaims.find? (fun d => d.origin == c.origin && d.number == c.number) = some c →
      exec (.peerClaimExpiry c.origin c.number) s = s.goesTo
        ((s.part.reach c.life).setAlc { s.part.alc with
          peerClaims := s.part.alc.peerClaims.filter fun d => !(d.origin == c.origin && d.number == c.number) }))
  ∧ (∀ (s : State) (h : HoseId) (c : OwnClaim) (due : Nat),
      (s.part.hose h).claim = some c → c.status = .active → c.renewal = some due →
      exec (.claimRenewalExpiry h) s = s.goesTo
        (((s.part.reach due).setHose h { s.part.hose h with claim := some { c with renewal := some (due + 3000000) } }).offerClaim
          s.part.alc.shift c.machine c.number (s.part.hose h).valves.active))
  ∧ (∀ (s : State) (due : Nat), s.part.alc.listenTimer = some due →
      exec .listenTimerExpiry s = s.goesTo
        ((s.part.reach due).setAlc { s.part.alc with listen := .ready, listenTimer := none }))
  ∧ (∀ (n : Nat) (held : List Nat), held.length ≤ 4 → nextClaim held 5 n ∉ held)
  ∧ (∀ (p : Part) (h : HoseId) (c : OwnClaim), (p.hose h).claim = some c →
      nextClaim p.ownNumbers 5 p.alc.claimCounter ≠ c.number)

/-- R51, 05 R93, R95 to R97: at the end of the hold-off the hose asks for its pump. A stopped pump primes for 2 s and grants at
once; the hose waits for at most 180 s. R95: the arbitration grants the eligible request of highest priority level and, among equal
levels, of earliest order (R94), and none while the grant set is full or no request is eligible. R96: of the requests that wait at
a release it grants that one, by a pump wait stop in PRIMING, where the hose holds the grant in AWAIT_PUMP, or at the end of a flow
on a RUNNING pump, where its flow starts at the grant. -/
def Obligations.HoldOffExpires : Prop :=
  (∀ (s : State) (h : HoseId) (due : Nat) (st : HoseSettings), s.part.Quiet → s.part.inputsClear →
    (s.part.hose h).dsc = .authorising → (s.part.hose h).holdOff = some due → s.part.hoseSettings h = some st →
    (s.part.hose h).valves.trim.latch = false → (s.part.hose h).valves.main.latch = false →
    (s.part.pumps.get st.pump).state = .stopped → (s.part.pumps.get st.pump).grants = [] → 1 ≤ s.part.limit st.pump →
    let now := max s.part.now due
    exec (.claimHoldOffExpiry h) s = s.goesTo
      ((((s.part.reach due).setHose h
        { s.part.hose h with dsc := .awaitPump, holdOff := none, pumpWait := some (now + 18000000) }).setRequestOrder
        ((s.part.requestOrder + 1) % 4294967296)).setPumps (s.part.pumps.set st.pump
          { s.part.pumps.get st.pump with
            state := .priming, grants := [h], prime := some (now + 200000)
            primes := min ((s.part.pumps.get st.pump).primes + 1) 65535 })))
  ∧ (∀ (p : Part) (i : PumpId),
    ((p.limit i ≤ (p.pumps.get i).grants.length ∨ ∀ t ∈ (p.pumps.get i).requests, p.eligible t = false) → p.nextGrantee i = none)
    ∧ ∀ r, r ∈ (p.pumps.get i).requests → p.eligible r = true → (p.pumps.get i).grants.length < p.limit i →
      (∀ t ∈ (p.pumps.get i).requests, t.order < 4294967296) →
      (∀ t ∈ (p.pumps.get i).requests, p.eligible t = true → t ≠ r → t.priority < r.priority ∨ t.priority = r.priority
        ∧ 1 ≤ (t.order + 4294967296 - r.order) % 4294967296 ∧ (t.order + 4294967296 - r.order) % 4294967296 ≤ 2147483647) →
      p.nextGrantee i = some r)
  ∧ ∀ (s : State) (h : HoseId) (i : PumpId) (x : Context) (r : Request) (fore back : List HoseId), s.part.inputsClear →
    (∀ j, j ≠ i → (s.part.pumps.get j).requests = [] ∧ ((s.part.pumps.get j).state = .running → (s.part.pumps.get j).grants ≠ [])) →
    (∀ j, j ≠ i → h ∉ (s.part.pumps.get j).grants) →
    (s.part.pumps.get i).grants = fore ++ h :: back → h ∉ fore ++ back → (s.part.pumps.get i).grants.length = s.part.limit i →
    (∀ t ∈ (s.part.pumps.get i).requests, t.hose ≠ h ∧ t.order < 4294967296) →
    (s.part.hose h).context = some x → 
    r ∈ (s.part.pumps.get i).requests → s.part.eligible r = true →
    (∀ t ∈ (s.part.pumps.get i).requests, s.part.eligible t = true → t ≠ r → t.priority < r.priority ∨ t.priority = r.priority
        ∧ 1 ≤ (t.order + 4294967296 - r.order) % 4294967296 ∧ (t.order + 4294967296 - r.order) % 4294967296 ≤ 2147483647) →
    let rest := (s.part.pumps.get i).requests.filter fun t => !(t.hose == r.hose)
    (∀ due, (s.part.pumps.get i).state = .priming → (s.part.hose h).dsc = .awaitPump → (s.part.hose h).pumpWait = some due →
      ∃ q : Part, exec (.pumpWaitExpiry h) s = s.goesTo q
        ∧ q.pumps = s.part.pumps.set i { s.part.pumps.get i with grants := fore ++ back ++ [r.hose], requests := rest }
        ∧ (q.hose h).summary = some { sequence := none, cause := some .pumpWait, faults := x.faults }
        ∧ ∀ k, k ≠ h → q.hose k = s.part.hose k)
    ∧ (∀ (v : ValveId) (st : HoseSettings) (y : Context), (s.part.pumps.get i).state = .running → s.part.cfl.stage ≠ .imageLoad →
      (s.part.hose h).dsc = .stopping → (s.part.hose h).valves.phase = .shutting → ((s.part.hose h).valves.valve v).switch = .opened →
      (∀ w, w ≠ v → ((s.part.hose h).valves.valve w).switch = .closed) →
      s.part.hoseSettings r.hose = some st → (s.part.hose r.hose).dsc = .awaitPump → (s.part.hose r.hose).context = some y →
      (s.part.hose r.hose).valves.phase = .shut → (s.part.hose r.hose).valves.pending = none →
      0 < (s.part.hose r.hose).valves.active → (s.part.hose r.hose).valves.trim.switch = .closed →
      ∃ q : Part, exec (.switchChange h v .closed) s = s.goesTo q
        ∧ q.pumps = s.part.pumps.set i { s.part.pumps.get i with grants := fore ++ back ++ [r.hose], requests := rest }
        ∧ (q.hose h).valves.phase = .shut
        ∧ (q.hose r.hose).dsc = .flowing ∧ (q.hose r.hose).valves.phase = .trim ∧ (q.hose r.hose).meter.window = true
        ∧ (q.hose r.hose).pumpWait = none
        ∧ ∀ k, k ≠ h → k ≠ r.hose → q.hose k = s.part.hose k)

/-- R38, R39: a SHIFT request adopts the next shift: every figure of the shift starts anew, own claims become OLD-SHIFT, and a
SHIFT notice is offered. It is refused in FAULT, and at the last shift number. R39: the adoption of a shift. R40: a notice that
carries a shift is stale, of the own shift, or makes the station adopt its shift. -/
def Obligations.Shifts : Prop :=
  (∀ s : State, s.part.LineFree →
      (s.part.cfl.load = .fault → exec .shift s = s.goesTo (s.part.refuse .configFault))
      ∧ (s.part.cfl.load ≠ .fault → s.part.alc.shift = 65535 → exec .shift s = s.goesTo (s.part.refuse .limit))
      ∧ (s.part.cfl.load ≠ .fault → s.part.alc.shift < 65535 → exec .shift s = s.goesTo
          (((s.part.adopt (s.part.alc.shift + 1)).offer (.shift (s.part.alc.shift + 1)) false).respond
            (.okShift (s.part.alc.shift + 1)))))
  ∧ (∀ (p : Part) (n : Nat),
      (p.adopt n).alc = { p.alc with shift := n, shiftSeconds := 0, peerClaims := [] }
      ∧ (∀ m ∈ (p.adopt n).machines, m.total = 0) ∧ (p.adopt n).machines.map (·.entry) = p.machines.map (·.entry)
      ∧ (p.adopt n).machines.map (·.hold) = p.machines.map (·.hold)
      ∧ (∀ t ∈ (p.adopt n).totals, t = ⟨0, 0⟩) ∧ (p.adopt n).totals.length = p.totals.length
      ∧ (∀ h, (p.adopt n).hose h = { p.hose h with
          claim := (p.hose h).claim.map fun c => { c with status := .oldShift, renewal := none } })
      ∧ (p.adopt n).snc = { p.snc with cursor := 0 }
      ∧ (p.adopt n).cnl = p.cnl.offer (.shiftAdopted n)
      ∧ ((p.adopt n).inv, (p.adopt n).tlg, (p.adopt n).pumps, (p.adopt n).rsc, (p.adopt n).cfl, (p.adopt n).pins)
          = (p.inv, p.tlg, p.pumps, p.rsc, p.cfl, p.pins))
  ∧ (∀ (p : Part) (n : Nat),
      (n < p.alc.shift → p.compareShift n = (p.setSnc { p.snc with rxStale := min (p.snc.rxStale + 1) 65535 }, false))
      ∧ (n = p.alc.shift → p.compareShift n = (p, true))
      ∧ (p.alc.shift < n → p.compareShift n = (p.adopt n, true)))

/-- R43: a TALLY of the current shift, where no own transaction is under way. The origin's column takes the greater value,
and the claim it closes is removed; a TALLY for an unknown machine has no effect. R45: a CLAIM of the current shift, where no
own transaction is under way. A claim not held yet is placed with a life of 120 s while its origin holds fewer than four; a
claim held is renewed in place; claim number 0 and an unknown machine have no effect. With own transactions under way, a
TALLY that raises the column and a CLAIM of a lower-numbered station run the cut rule (R57); a CLAIM beyond four takes the
place of its origin's entry nearest the end of its life. R47: a DROP of the current shift removes the claim. 01 R12, R40: a
delivered CLAIM, TALLY or DROP of the current shift acts so, one of a later shift acts after the adoption of that shift, and one
of an older shift is stale. -/
def Obligations.PeerNotices : Prop :=
  (∀ (p : Part) (origin number cumulative closing : Nat), 1 ≤ origin →
      (p.findMachine number = none → p.takeTally origin number cumulative closing = p)
      ∧ ∀ (i : Nat) (m : MachineRow), p.findMachine number = some i → p.machines[i]? = some m →
        (∀ h, (p.hose h).context = none) → m.drawn.length = 14 → origin ≤ 14 →
        (p.takeTally origin number cumulative closing).machines =
            p.machines.set i { m with drawn := m.drawn.set (origin - 1) (max (m.column origin) cumulative) }
        ∧ (p.takeTally origin number cumulative closing).alc = { p.alc with
            peerClaims := if closing = 0 then p.alc.peerClaims
              else p.alc.peerClaims.filter fun c => !(c.origin == origin && c.number == closing) }
        ∧ (p.takeTally origin number cumulative closing).hoses = p.hoses)
  ∧ (∀ (p : Part) (origin machine number reserved : Nat),
      (p.findMachine machine = none ∨ number = 0 → p.takeClaim origin machine number reserved = p)
      ∧ ∀ (i : Nat) (m : MachineRow), p.findMachine machine = some i → p.machines[i]? = some m → number ≠ 0 →
        (∀ h, (p.hose h).context = none) →
        (p.alc.peerClaims.any (fun c => c.origin == origin && c.number == number) = false →
          (p.alc.peerClaims.filter fun c => c.origin == origin).length < 4 →
          p.takeClaim origin machine number reserved = p.setAlc { p.alc with
            peerClaims := p.alc.peerClaims ++
              [{ origin := origin, number := number, machine := machine, account := m.entry.account, reserved := reserved
                 life := p.now + 12000000, placed := p.alc.placed }]
            placed := p.alc.placed + 1 })
        ∧ (p.alc.peerClaims.any (fun c => c.origin == origin && c.number == number) = true →
          p.takeClaim origin machine number reserved = p.setAlc { p.alc with
            peerClaims := p.alc.peerClaims.map fun c =>
              if c.origin = origin ∧ c.number = number then
                { c with machine := machine, account := m.entry.account, reserved := reserved, life := p.now + 12000000 }
              else c }))
  ∧ (∀ (p : Part) (origin i number cumulative closing : Nat) (m : MachineRow), 1 ≤ origin → origin ≤ 14 →
      m.drawn.length = 14 → p.findMachine number = some i → p.machines[i]? = some m →
      let told := (p.setMachines (p.machines.set i
        { m with drawn := m.drawn.set (origin - 1) (max (m.column origin) cumulative) })).setAlc
        { p.alc with
          peerClaims := if closing = 0 then p.alc.peerClaims
            else p.alc.peerClaims.filter fun c => !(c.origin == origin && c.number == closing) }
      (cumulative ≤ m.column origin → p.takeTally origin number cumulative closing = told)
      ∧ (m.column origin < cumulative →
        p.takeTally origin number cumulative closing = told.runCuts none number m.entry.account))
  ∧ (∀ (p : Part) (origin i machine number reserved : Nat) (m : MachineRow), p.findMachine machine = some i →
      p.machines[i]? = some m → number ≠ 0 →
      let taken := fun (claims : List PeerClaim) (placed : Nat) =>
        let q := p.setAlc { p.alc with peerClaims := claims, placed := placed }
        if origin < p.station then q.runCuts none machine m.entry.account else q
      let entry : PeerClaim :=
        { origin := origin, number := number, machine := machine, account := m.entry.account, reserved := reserved
          life := p.now + 12000000, placed := p.alc.placed }
      ((∃ c ∈ p.alc.peerClaims, c.origin = origin ∧ c.number = number) →
        p.takeClaim origin machine number reserved = taken
          (p.alc.peerClaims.map fun c =>
            if c.origin = origin ∧ c.number = number then { entry with placed := c.placed } else c) p.alc.placed)
      ∧ ((∀ c ∈ p.alc.peerClaims, ¬ (c.origin = origin ∧ c.number = number)) →
        ((p.alc.peerClaims.filter fun c => c.origin == origin).length < 4 →
          p.takeClaim origin machine number reserved = taken (p.alc.peerClaims ++ [entry]) (p.alc.placed + 1))
        ∧ ∀ w ∈ p.alc.peerClaims, 4 ≤ (p.alc.peerClaims.filter fun c => c.origin == origin).length → w.origin = origin →
          (∀ c ∈ p.alc.peerClaims, c.origin = origin → c ≠ w → w.life < c.life ∨ w.life = c.life ∧ w.placed < c.placed) →
          p.takeClaim origin machine number reserved = taken (p.alc.peerClaims.erase w ++ [entry]) (p.alc.placed + 1)))
  ∧ (∀ (p : Part) (origin shift number : Nat),
    (shift = p.alc.shift → p.deliver origin (.drop shift number) = p.setAlc
      { p.alc with peerClaims := p.alc.peerClaims.filter fun c => !(c.origin == origin && c.number == number) })
    ∧ (shift < p.alc.shift → p.deliver origin (.drop shift number) =
      p.setSnc { p.snc with rxStale := min (p.snc.rxStale + 1) 65535 }))
  ∧ ∀ (p : Part) (origin shift : Nat),
    (shift = p.alc.shift →
      (∀ machine number reserved,
        p.deliver origin (.claim shift machine number reserved) = p.takeClaim origin machine number reserved)
      ∧ ∀ machine cumulative closing,
        p.deliver origin (.tally shift machine cumulative closing) = p.takeTally origin machine cumulative closing)
    ∧ (p.alc.shift < shift →
      (∀ machine number reserved,
        p.deliver origin (.claim shift machine number reserved) = (p.adopt shift).takeClaim origin machine number reserved)
      ∧ (∀ machine cumulative closing,
        p.deliver origin (.tally shift machine cumulative closing) = (p.adopt shift).takeTally origin machine cumulative closing)
      ∧ ∀ number, p.deliver origin (.drop shift number) = p.adopt shift)
    ∧ (shift < p.alc.shift → ∀ n : Notice,
      (∃ machine number reserved, n = .claim shift machine number reserved)
        ∨ (∃ machine cumulative closing, n = .tally shift machine cumulative closing) →
      p.deliver origin n = p.setSnc { p.snc with rxStale := min (p.snc.rxStale + 1) 65535 })

/-- R59: the cut rule on one transaction. R57: its limit, the lesser of the machine limit and the account limit, each the
allowance less what is drawn, the claims of lower-numbered stations and the active own claims of lower-numbered hoses. R58:
the transactions it runs for, and the commits that run it for the other hoses. That the commit of a LOADOUT and the commit of a
record of an older shift run no cut is the model's reading of R58 and of the last sentence of 06 R114 (log 25). -/
def Obligations.CutRule : Prop :=
  (∀ (p : Part) (h : HoseId) (x : Context) (limit : Int),
      (((p.hose h).valves.active : Int) ≤ limit → p.cutTo h x limit = p)
      ∧ (limit < (p.hose h).valves.active → (x.metered : Int) < limit → p.cutTo h x limit = (p.writePending h limit.toNat).1)
      ∧ (limit < (p.hose h).valves.active → limit ≤ x.metered → p.cutTo h x limit = p.takeCause h .claimCut))
  ∧ (∀ (p : Part) (h : HoseId) (x : Context),
    let active : (OwnClaim → Bool) → Nat := fun pick =>
      ((allHoses.filter fun k => decide (hoseNumber k < hoseNumber h)).map fun k => match (p.hose k).claim with
        | some c => if c.status = .active ∧ pick c = true then (p.hose k).valves.active else 0
        | none => 0).sum
    let peers : (PeerClaim → Bool) → Nat := fun pick =>
      ((p.alc.peerClaims.filter fun c => decide (c.origin < p.station) && pick c).map (·.reserved)).sum
    (∀ (m : MachineRow) (allowance : Nat), p.machines[x.position]? = some m → m.entry.inlet = none →
        m.entry.allowance = some allowance → p.machineLimit h x = some
          ((allowance * 100 : Int) - m.drawn.sum - peers (fun c => decide (c.machine = x.machine))
            - active fun c => decide (c.machine = x.machine)))
    ∧ (∀ m, p.machines[x.position]? = some m → m.entry.inlet ≠ none ∨ m.entry.allowance = none → p.machineLimit h x = none)
    ∧ (p.ceiling x.account ≠ 0 → p.accountLimit h x = some
        ((p.ceiling x.account * 100 : Int)
          - ((p.machines.filter fun r => decide (r.entry.account = x.account)).map fun r => r.drawn.sum).sum
          - peers (fun c => decide (c.account = x.account)) - active fun c => decide (c.account = x.account)))
    ∧ (p.ceiling x.account = 0 → p.accountLimit h x = none)
    ∧ (∀ l, p.machineLimit h x = some l → p.accountLimit h x = none → p.cutLimit h x = some l)
    ∧ (∀ l, p.machineLimit h x = none → p.accountLimit h x = some l → p.cutLimit h x = some l)
    ∧ (∀ l k, p.machineLimit h x = some l → p.accountLimit h x = some k → p.cutLimit h x = some (min l k))
    ∧ (p.machineLimit h x = none → p.accountLimit h x = none → p.cutLimit h x = none)
    ∧ ∀ machine account : Nat, p.cutRuns machine account h x = true ↔
        ((p.hose h).dsc = .authorising ∨ (p.hose h).dsc = .awaitPump ∨ (p.hose h).dsc = .flowing)
        ∧ x.shift = p.alc.shift ∧ (∀ c, (p.hose h).claim = some c → c.status = .active)
        ∧ (x.machine = machine ∨ x.account = account ∧ p.ceiling x.account ≠ 0))
  ∧ ∀ (p : Part) (machine account : Nat) (except : Option HoseId),
    ((∀ h x, some h ≠ except → (p.hose h).context = some x → p.cutRuns machine account h x = true → p.cutLimit h x = none) →
      p.runCuts except machine account = p)
    ∧ (∀ (h : HoseId) (x : Context) (limit : Int), some h ≠ except → (p.hose h).context = some x →
      p.cutRuns machine account h x = true → p.cutLimit h x = some limit →
      (∀ k y, k ≠ h → some k ≠ except → (p.hose k).context = some y → p.cutRuns machine account k y = false) →
      p.runCuts except machine account = p.cutTo h x limit)
    ∧ ∀ (h : HoseId) (x : Context),
      (x.shift = p.alc.shift → p.cutOthers h x false = p.runCuts (some h) x.machine x.account)
      ∧ p.cutOthers h x true = p ∧ (x.shift ≠ p.alc.shift → p.cutOthers h x false = p)

/-! ## 04 Meter channels -/

/-- R62: the class of a change of the pair of levels, line A first. R65, R76, R77: the gross volume of a signed step count, the
band of a temperature, and the standard volume. -/
def Obligations.MeterArithmetic : Prop :=
  ((∀ a b : Bool, classify a b a b = none)
      ∧ classify false false true false = some .forward ∧ classify true false true true = some .forward
      ∧ classify true true false true = some .forward ∧ classify false true false false = some .forward
      ∧ classify false false false true = some .reverse ∧ classify false true true true = some .reverse
      ∧ classify true true true false = some .reverse ∧ classify true false false false = some .reverse
      ∧ ∀ a b : Bool, classify a b (!a) (!b) = some .error)
  ∧ (∀ (st : HoseSettings) (net : Int) (settings : Option Settings) (grade gross : Nat) (t : Int),
      (net < 0 → grossOf st net = 0)
      ∧ (∀ n : Nat, net = n → grossOf st net = n * 100 * st.calibration / (st.stepsPerLitre * 10000))
      ∧ (t < -200 → bandOf t = 0) ∧ (500 ≤ t → bandOf t = 35)
      ∧ (∀ k : Nat, k ≤ 35 → -200 + 20 * (k : Int) ≤ t → t < -180 + 20 * (k : Int) → bandOf t = k)
      ∧ standardOf settings grade gross t = (gross * factorOf settings grade t + 5000) / 10000)

/-- R62, R63, R67, R73, R79: a good step on a channel whose window is CLOSED is a creep step. The levels become the last pair,
the good-step run and the creep counter advance, and a creep volume that reaches 20 cL is told once. -/
def Obligations.CreepSteps : Prop :=
  ∀ (s : State) (h : HoseId) (a b : Bool) (elapsed : Nat) (st : HoseSettings), s.part.Quiet →
    s.part.hoseSettings h = some st → st.phaseSwap = false → (s.part.hose h).meter.window = false →
    let m := (s.part.hose h).meter
    let forward := classify m.lastA m.lastB a b = some .forward
    let reverse := classify m.lastA m.lastB a b = some .reverse
    forward ∨ reverse → m.goodRun < 63 →
    let p := (s.part.reach (s.part.now + elapsed)).modPins h fun k => { k with phaseA := a, phaseB := b }
    let volume := min (m.creep + 1) 4294967295 * 100 * st.calibration / (st.stepsPerLitre * 10000)
    let after : Meter := { m with
      lastA := a, lastB := b, goodRun := m.goodRun + 1, creep := min (m.creep + 1) 4294967295
      totalCreep := min (m.totalCreep + 1) 4294967295
      totalForward := if forward then min (m.totalForward + 1) 4294967295 else m.totalForward
      totalReverse := if reverse then min (m.totalReverse + 1) 4294967295 else m.totalReverse }
    (volume < 20 ∨ m.creepSent = true → exec (.phaseChange h a b elapsed) s = s.goesTo (p.modMeter h fun _ => after))
    ∧ (20 ≤ volume → m.creepSent = false → exec (.phaseChange h a b elapsed) s = s.goesTo
        ((p.event (.creep h volume)).modMeter h fun _ => { after with creepSent := true, creepMark := true }))

/-- R64 to R66, 06 R108, 08 R147: a forward step of a flowing hose, far from its marks. The net count advances; the gross
follows it and is handed to the transaction, which counts it as metered, and to the book of the hose's compartment, which
loses it. At a gross that is no multiple of 1000 cL the log is unchanged. At a multiple of 1000 cL above the highest boundary
reported, the boundary is noted and a checkpoint is queued, in the place of the hose's waiting one, or dropped and counted at
a full queue and under a power-fail warning (07 R128, R130); at or below it nothing is queued. 05 R85: a step that brings the
gross to the active preset shuts the valves, and the hose stops with PRESET. -/
def Obligations.ForwardStep : Prop :=
  (∀ (s : State) (h : HoseId) (a b : Bool) (elapsed : Nat) (st : HoseSettings) (net : Nat), s.part.Quiet →
      s.part.hoseSettings h = some st → st.phaseSwap = false → (s.part.hose h).meter.window = true →
      classify (s.part.hose h).meter.lastA (s.part.hose h).meter.lastB a b = some .forward →
      (s.part.hose h).meter.netSteps = net → net < 2147483647 → (s.part.hose h).valves.phase = .full →
      (s.part.hose h).valves.pending = none →
      let gross := (net + 1) * 100 * st.calibration / (st.stepsPerLitre * 10000)
      gross + st.slowdown < (s.part.hose h).valves.active → (s.part.hose h).meter.gross ≠ gross →
      ∃ q : Part, exec (.phaseChange h a b elapsed) s = s.goesTo q
        ∧ (q.hose h).meter.netSteps = (net : Int) + 1 ∧ (q.hose h).meter.gross = gross
        ∧ (q.hose h).meter.lastA = a ∧ (q.hose h).meter.lastB = b
        ∧ (q.hose h).context = (s.part.hose h).context.map (fun x => { x with metered := gross })
        ∧ (q.hose h).valves = (s.part.hose h).valves ∧ (q.hose h).dsc = (s.part.hose h).dsc
        ∧ q.inv = (s.part.meterOut h ((gross : Int) - (s.part.hose h).meter.gross)).inv
        ∧ (gross % 1000 ≠ 0 → q.tlg = s.part.tlg)
        ∧ (∀ k, k ≠ h → q.hose k = s.part.hose k)
        ∧ (q.machines, q.alc, q.snc, q.rsc, q.totals, q.cfl, q.cnl, q.pumps)
            = (s.part.machines, s.part.alc, s.part.snc, s.part.rsc, s.part.totals, s.part.cfl, s.part.cnl, s.part.pumps))
  ∧ (∀ (s : State) (h : HoseId) (a b : Bool) (elapsed : Nat) (st : HoseSettings) (net n : Nat) (x : Context), s.part.Quiet →
      s.part.hoseSettings h = some st → st.phaseSwap = false → (s.part.hose h).meter.window = true →
      classify (s.part.hose h).meter.lastA (s.part.hose h).meter.lastB a b = some .forward →
      (s.part.hose h).meter.netSteps = net → net < 2147483647 → (s.part.hose h).valves.phase = .full →
      (s.part.hose h).valves.pending = none → (s.part.hose h).context = some x → x.sequence = some n →
      let gross := (net + 1) * 100 * st.calibration / (st.stepsPerLitre * 10000)
      gross + st.slowdown < (s.part.hose h).valves.active → (s.part.hose h).meter.gross ≠ gross → gross % 1000 = 0 →
      let t := s.part.tlg
      let dropped : Tlg := { t with ckptDropped := min (t.ckptDropped + 1) 65535 }
      ∃ q : Part, exec (.phaseChange h a b elapsed) s = s.goesTo q
        ∧ (gross ≤ (s.part.hose h).meter.boundary →
          q.tlg = t ∧ (q.hose h).meter.boundary = (s.part.hose h).meter.boundary)
        ∧ ((s.part.hose h).meter.boundary < gross → (q.hose h).meter.boundary = gross
          ∧ (s.part.pins.powerFail = true → q.tlg = dropped)
          ∧ (s.part.pins.powerFail = false →
            (∀ (front : List WriteReq) (m g : Nat) (back : List WriteReq), t.queue = front ++ .checkpoint h m g :: back →
              (∀ r ∈ front, r.kind ≠ .checkpoint h) →
              q.tlg = { t with queue := front ++ .checkpoint h n gross :: back })
            ∧ ((∀ r ∈ t.queue, r.kind ≠ .checkpoint h) →
              (t.queue.length < 8 → q.tlg = { t with queue := t.queue ++ [.checkpoint h n gross] })
              ∧ (8 ≤ t.queue.length → q.tlg = dropped)))))
  ∧ ∀ (s : State) (h : HoseId) (a b : Bool) (elapsed : Nat) (st : HoseSettings) (net : Nat) (x : Context), s.part.Quiet →
    s.part.hoseSettings h = some st → st.phaseSwap = false → (s.part.hose h).meter.window = true →
    classify (s.part.hose h).meter.lastA (s.part.hose h).meter.lastB a b = some .forward →
    (s.part.hose h).meter.netSteps = net → net < 2147483647 → (s.part.hose h).valves.phase.flowing = true →
    (s.part.hose h).valves.pending = none → (s.part.hose h).dsc = .flowing → (s.part.hose h).context = some x →
    (s.part.hose h).valves.trim.switch = .opened → (s.part.hose h).valves.trim.latch = false →
    let gross := (net + 1) * 100 * st.calibration / (st.stepsPerLitre * 10000)
    (s.part.hose h).valves.active ≤ gross → (s.part.hose h).meter.gross ≠ gross →
    ∃ q : Part, exec (.phaseChange h a b elapsed) s = s.goesTo q
      ∧ (q.hose h).meter.gross = gross ∧ (q.hose h).meter.noFlow = none
      ∧ (q.hose h).dsc = .stopping ∧ (q.hose h).context = some { x with metered := gross, cause := some .preset }
      ∧ (q.hose h).valves.phase = .shutting ∧ (q.hose h).valves.active = (s.part.hose h).valves.active
      ∧ q.cnl.events = (s.part.cnl.offer (.stopped h .preset)).events
      ∧ q.inv = (s.part.meterOut h ((gross : Int) - (s.part.hose h).meter.gross)).inv
      ∧ (∀ k, k ≠ h → q.hose k = s.part.hose k)

/-- R67, R68: a change of both levels at once is a sequence error: LIVE and STICKY are set, the good-step run is lost and the
error counts advance. Below the eighth of a window no fault is told; the eighth is METER_FAULT, the end cause of a flowing
hose, the METER flag of a stopping one, and no report in any other state. R65, R69: a reverse transaction step lowers the net
count, recomputes the gross and its hand-overs, advances the deficit and empties the rate run; beyond a reverse volume of 50
cL it is METER_FAULT, once a transaction. R63: with the phase swap flag set, the two levels are exchanged and the step is
decoded as without it. -/
def Obligations.SequenceErrors : Prop :=
  (∀ (s : State) (h : HoseId) (a b : Bool) (elapsed : Nat) (st : HoseSettings), s.part.Quiet →
      s.part.hoseSettings h = some st → st.phaseSwap = false → (s.part.hose h).meter.lastA ≠ a →
      (s.part.hose h).meter.lastB ≠ b → (s.part.hose h).meter.errorCount ≠ 7 →
      let m := (s.part.hose h).meter
      exec (.phaseChange h a b elapsed) s = s.goesTo
        (((s.part.reach (s.part.now + elapsed)).modPins h fun k => { k with phaseA := a, phaseB := b }).modMeter h fun _ =>
          { m with
            lastA := a, lastB := b, live := true, goodRun := 0, sticky := true, errorCount := min (m.errorCount + 1) 255
            totalErrors := min (m.totalErrors + 1) 4294967295
            rateStart := if m.window then none else m.rateStart, rateRun := if m.window then 0 else m.rateRun }))
  ∧ (∀ (s : State) (h : HoseId) (a b : Bool) (elapsed : Nat) (st : HoseSettings), s.part.Quiet →
      s.part.hoseSettings h = some st → st.phaseSwap = false → (s.part.hose h).meter.lastA ≠ a →
      (s.part.hose h).meter.lastB ≠ b → (s.part.hose h).meter.errorCount = 7 →
      let m := (s.part.hose h).meter
      let eighth : Meter :=
        { m with
          lastA := a, lastB := b, live := true, goodRun := 0, sticky := true, errorCount := 8
          totalErrors := min (m.totalErrors + 1) 4294967295
          rateStart := if m.window then none else m.rateStart, rateRun := if m.window then 0 else m.rateRun }
      ∃ q : Part, exec (.phaseChange h a b elapsed) s = s.goesTo q
        ∧ ((s.part.hose h).dsc = .flowing → (s.part.hose h).valves.phase.flowing = true →
          (s.part.hose h).valves.trim.switch = .opened → (s.part.hose h).valves.trim.latch = false →
          (∀ k, k ≠ h → q.hose k = s.part.hose k) ∧ (q.hose h).meter = { eighth with noFlow := none } ∧ (q.hose h).dsc = .stopping
            ∧ (q.hose h).context = (s.part.hose h).context.map (fun x => { x with cause := some .meterFault })
            ∧ (q.hose h).valves.phase = .shutting ∧ q.cnl.events = (s.part.cnl.offer (.stopped h .meterFault)).events)
        ∧ ((s.part.hose h).dsc = .stopping →
          q.hose h = { s.part.hose h with
              meter := eighth
              context := (s.part.hose h).context.map fun x => { x with faults := { x.faults with meter := true } } }
            ∧ (∀ k, k ≠ h → q.hose k = s.part.hose k) ∧ q.cnl = s.part.cnl)
        ∧ ((s.part.hose h).dsc ≠ .flowing → (s.part.hose h).dsc ≠ .stopping →
          q.hose h = { s.part.hose h with meter := eighth } ∧ (∀ k, k ≠ h → q.hose k = s.part.hose k) ∧ q.cnl = s.part.cnl))
  ∧ (∀ (s : State) (h : HoseId) (a b : Bool) (elapsed : Nat) (st : HoseSettings) (x : Context), s.part.Quiet →
      s.part.hoseSettings h = some st → st.phaseSwap = false → (s.part.hose h).meter.window = true →
      classify (s.part.hose h).meter.lastA (s.part.hose h).meter.lastB a b = some .reverse →
      -2147483648 < (s.part.hose h).meter.netSteps → (s.part.hose h).meter.netSteps ≤ 2147483647 →
      (s.part.hose h).valves.pending = none → (s.part.hose h).context = some x →
      ∀ gross : Nat,
      let m := (s.part.hose h).meter
      let volume := fun steps : Nat => steps * 100 * st.calibration / (st.stepsPerLitre * 10000)
      gross = volume (m.netSteps - 1).toNat →
      let limit := 50 < volume (m.deficit + 1) ∧ m.reverseReported = false
      let metered : Context := if gross = m.gross then x else { x with metered := gross }
      ∃ q : Part, exec (.phaseChange h a b elapsed) s = s.goesTo q
        ∧ ((s.part.hose h).dsc = .flowing → (s.part.hose h).valves.phase = .full →
            gross + st.slowdown < (s.part.hose h).valves.active → (s.part.hose h).valves.trim.switch = .opened →
            (s.part.hose h).valves.trim.latch = false →
          (q.hose h).meter.netSteps = m.netSteps - 1 ∧ (q.hose h).meter.gross = gross
            ∧ (q.hose h).meter.deficit = m.deficit + 1 ∧ (q.hose h).meter.rateStart = none
            ∧ (gross ≠ m.gross → q.inv = (s.part.meterOut h ((gross : Int) - m.gross)).inv)
            ∧ (gross = m.gross → q.inv = s.part.inv)
            ∧ (¬ limit → (q.hose h).dsc = .flowing ∧ (q.hose h).context = some metered ∧ (q.hose h).valves = (s.part.hose h).valves
                ∧ (q.hose h).meter.reverseReported = m.reverseReported ∧ q.cnl = s.part.cnl)
            ∧ (limit → (q.hose h).dsc = .stopping ∧ (q.hose h).context = some { metered with cause := some .meterFault }
                ∧ (q.hose h).valves.phase = .shutting ∧ (q.hose h).meter.noFlow = none
                ∧ (q.hose h).meter.reverseReported = true ∧ q.cnl.events = (s.part.cnl.offer (.stopped h .meterFault)).events))
        ∧ ((s.part.hose h).dsc = .stopping → (s.part.hose h).valves.phase.flowing = false →
          (q.hose h).meter.netSteps = m.netSteps - 1 ∧ (q.hose h).meter.gross = gross
            ∧ (q.hose h).meter.deficit = m.deficit + 1 ∧ (q.hose h).dsc = .stopping
            ∧ (q.hose h).valves = (s.part.hose h).valves ∧ q.cnl = s.part.cnl
            ∧ (¬ limit → (q.hose h).context = some metered ∧ (q.hose h).meter.reverseReported = m.reverseReported)
            ∧ (limit → (q.hose h).context = some { metered with faults := { x.faults with meter := true } }
                ∧ (q.hose h).meter.reverseReported = true)))
  ∧ ∀ (s : State) (h : HoseId) (a b : Bool) (elapsed : Nat) (st : HoseSettings), s.part.hoseSettings h = some st →
    st.phaseSwap = true →
    let p := (s.part.reach (s.part.now + elapsed)).modPins h fun k => { k with phaseA := a, phaseB := b }
    exec (.phaseChange h a b elapsed) s = s.goesTo (settle p (p.decode h { st with phaseSwap := false } b a))

/-- R70, R71: no forward step for 1 s ends the rate run and the held rate, and the overrate timer with them; the over-rate held
for 3 s sets the overrate flag and is told once. -/
def Obligations.RateTimers : Prop :=
  ∀ (s : State) (h : HoseId) (due : Nat),
    ((s.part.hose h).meter.rateTimer = some due → exec (.rateTimeout h) s = s.goesTo
      ((s.part.reach due).modMeter h fun m =>
        { m with rateTimer := none, heldRate := 0, rateStart := none, rateRun := 0, overrateTimer := none }))
    ∧ ((s.part.hose h).meter.overrateTimer = some due → (s.part.hose h).meter.overrate = false →
      exec (.overrateExpiry h) s = s.goesTo
        (((s.part.reach due).modMeter h fun m => { m with overrateTimer := none, overrate := true }).event
          (.overrate h (s.part.hose h).meter.heldRate)))
    ∧ ((s.part.hose h).meter.overrateTimer = some due → (s.part.hose h).meter.overrate = true →
      exec (.overrateExpiry h) s = s.goesTo
        ((s.part.reach due).modMeter h fun m => { m with overrateTimer := none, overrate := true }))

/-! ## 05 and 06 The dispense transaction -/

/-- R109 to R111, R86: the first cause taken by a flowing hose whose valves are both open or opening. The hose is in STOPPING
with that end cause, a STOPPED event is queued, both valves are commanded CLOSED and the no-flow timer stops (04 R72). The
causes: the no-flow timer, a lost tag, a hang and a console STOP. -/
def Obligations.FirstCauseInFlow : Prop :=
  ∀ (s : State) (h : HoseId) (x : Context) (st : HoseSettings), s.part.Quiet → s.part.cfl.stage = .running →
    (s.part.hose h).dsc = .flowing → (s.part.hose h).context = some x → s.part.hoseSettings h = some st →
    (s.part.hose h).valves.phase.flowing = true →
    (s.part.hose h).valves.trim.switch = .opened → (s.part.hose h).valves.trim.latch = false →
    let stopped := fun (c : Instr) (cause : Cause) => ∃ q : Part, exec c s = s.goesTo q
      ∧ (q.hose h).dsc = .stopping ∧ (q.hose h).context = some { x with cause := some cause }
      ∧ (q.hose h).valves.phase = .shutting ∧ (q.hose h).meter.noFlow = none
      ∧ q.cnl.events = (s.part.cnl.offer (.stopped h cause)).events
      ∧ (∀ k, k ≠ h → q.hose k = s.part.hose k)
      ∧ (q.pumps, q.tlg, q.inv, q.alc, q.machines, q.totals, q.rsc, q.snc, q.cfl)
          = (s.part.pumps, s.part.tlg, s.part.inv, s.part.alc, s.part.machines, s.part.totals, s.part.rsc, s.part.snc, s.part.cfl)
    ((s.part.hose h).meter.noFlow ≠ none → stopped (.noFlowExpiry h) .noFlow)
    ∧ ((s.part.hose h).reader.grace ≠ none → stopped (.tagGraceExpiry h) .tagLost)
    ∧ ((s.part.hose h).nozzle = .offHook → stopped (.nozzleHang h) .hung)
    ∧ (∀ field, s.part.LineFree → hoseField (some field) = some h → stopped (.stop (some field)) .operator)

/-- R113, R97: a stop before flow at the end of the pump wait. The transaction ends with no volume and no record: no
context, claim or supervision, the slot (held by no other hose, R115) FREE, the request and any grant gone, the hose in LIFTED. -/
def Obligations.PumpWaitEnds : Prop :=
  ∀ (s : State) (h : HoseId) (x : Context) (due : Nat),
    (s.part.hose h).dsc = .awaitPump → (s.part.hose h).context = some x → (s.part.hose h).pumpWait = some due →
    (s.part.hose h).nozzle = .offHook →
    ∃ q : Part, exec (.pumpWaitExpiry h) s = s.goesTo q
      ∧ (q.hose h).dsc = .lifted ∧ (q.hose h).context = none ∧ (q.hose h).pumpWait = none ∧ (q.hose h).holdOff = none
      ∧ (q.hose h).claim = none ∧ (q.hose h).valves.pending = none ∧ (q.hose h).reader.supervised = none
      ∧ (q.hose h).reader.grace = none
      ∧ (q.hose h).summary = some { sequence := none, cause := some .pumpWait, faults := x.faults }
      ∧ (∀ i, h ∉ (q.pumps.get i).grants ∧ ∀ r ∈ (q.pumps.get i).requests, r.hose ≠ h)
      ∧ (x.slot < s.part.tlg.slots.length → (∀ k y, k ≠ h → (s.part.hose k).context = some y → y.slot ≠ x.slot) →
          (q.slot x.slot).state = .free)

/-- R103: a lift in IDLE with no tag read enters LIFTED; in STOPPING and COMMITTING only the nozzle position changes. 02 R28,
R30: a lift in IDLE with a tag read is an identification by tag, refused by name or authorised, and supervision is on for the
tag's code. R103, 04 R73, 11 R180: a hang in LIFTED or DONE enters IDLE, where no table position is kept (02 R27), one in
STOPPING leaves the state; both clear the
creep counter and the standing preset. R117: STOP on a hose that has no transaction, and on one that is stopping already. -/
def Obligations.NozzleChanges : Prop :=
  (∀ (s : State) (h : HoseId), s.part.cfl.stage = .running → s.part.Quiet → (s.part.hose h).nozzle = .onHook →
      let p := s.part.modPins h fun k => { k with nozzle := .offHook }
      ((s.part.hose h).dsc = .idle → (s.part.hose h).reader.readTag = none → exec (.nozzleLift h) s = s.goesTo
        (p.modHose h fun u => { u with nozzle := .offHook, dsc := .lifted }))
      ∧ ((s.part.hose h).dsc ≠ .idle → exec (.nozzleLift h) s = s.goesTo (p.modHose h fun u => { u with nozzle := .offHook })))
  ∧ (∀ (s : State) (h : HoseId), s.part.cfl.stage = .running → s.part.Quiet → (s.part.hose h).nozzle = .offHook →
      s.part.rsc.state ≠ .draining →
      let hung := fun (u : Hose) =>
        ({ u with nozzle := .onHook, standing := none, meter := { u.meter with creep := 0, creepSent := false } } : Hose)
      let p := s.part.modPins h fun k => { k with nozzle := .onHook }
      ((s.part.hose h).dsc = .lifted ∨ (s.part.hose h).dsc = .done → exec (.nozzleHang h) s = s.goesTo
        (p.modHose h fun u => { hung u with dsc := .idle, kept := none, valves := { u.valves with pending := none } }))
      ∧ ((s.part.hose h).dsc = .stopping → exec (.nozzleHang h) s = s.goesTo
          (p.modHose h hung)))
  ∧ (∀ (s : State) (h : HoseId) (field : Nat), s.part.LineFree → hoseField (some field) = some h →
      ((s.part.hose h).dsc = .idle ∨ (s.part.hose h).dsc = .lifted ∨ (s.part.hose h).dsc = .done →
        exec (.stop (some field)) s = s.goesTo (s.part.refuse .notActive))
      ∧ ((s.part.hose h).dsc = .stopping ∨ (s.part.hose h).dsc = .committing →
        exec (.stop (some field)) s = s.goesTo (s.part.respond .ok)))
  ∧ (∀ (s : State) (h : HoseId) (code : TagCode), s.part.cfl.stage = .running → s.part.Quiet →
      (s.part.hose h).nozzle = .onHook → (s.part.hose h).dsc = .idle → (s.part.hose h).reader.readTag = some code →
      let found := s.part.lookupTag code
      let lifted := (s.part.modPins h fun k => { k with nozzle := .offHook }).modHose h fun u =>
        { u with nozzle := .offHook, dsc := .lifted }
      (∀ c, s.part.refusalOf h .tag found = some c → exec (.nozzleLift h) s = s.goesTo (lifted.event (.refused h c)))
      ∧ ∀ (i slot : Nat) (st : HoseSettings) (m : MachineRow), found = some i → s.part.machines[i]? = some m →
        s.part.hoseSettings h = some st → s.part.reservable = some slot → s.part.refusalOf h .tag found = none →
        let t := (s.part.terms h st m).least
        (t < 200 → exec (.nozzleLift h) s = s.goesTo (lifted.event (.refused h (s.part.terms h st m).refusal)))
        ∧ (200 ≤ t → s.part.needsClaim m.entry = true → m.entry.inlet = none → ∃ q : Part,
          exec (.nozzleLift h) s = s.goesTo q
          ∧ (q.hose h).nozzle = .offHook ∧ (q.hose h).dsc = .authorising ∧ (q.hose h).holdOff = some (s.part.now + 200000)
          ∧ (q.hose h).valves.active = t.toNat
          ∧ (q.hose h).reader = { (s.part.hose h).reader with supervised := some code, grace := none }
          ∧ (∃ x, (q.hose h).context = some x ∧ x.position = i ∧ x.machine = m.entry.number ∧ x.method = .tag
              ∧ x.preset = t.toNat ∧ x.slot = slot ∧ x.claim = q.alc.claimCounter)
          ∧ (∀ k, k ≠ h → q.hose k = s.part.hose k)))

/-- R80: the commands by phase. R81: a change of a switch on a hose in SHUT, whose valves are commanded CLOSED. OPEN starts the
settle timer at the hose's settle time unless it runs; CLOSED cancels it and clears the latch. R81, R82: a close fault on a hose
without a transaction is counted and latched, and told to no transaction. -/
def Obligations.ValveSupervision : Prop :=
  ((∀ ph, commandOf .trim ph = .opened ↔ ph = .trim ∨ ph = .full ∨ ph = .taper)
      ∧ (∀ ph, commandOf .main ph = .opened ↔ ph = .full)
      ∧ ∀ ph, commandOf .main ph = .opened → commandOf .trim ph = .opened)
  ∧ (∀ (s : State) (h : HoseId) (v : ValveId) (st : HoseSettings), s.part.cfl.stage ≠ .imageLoad → s.part.Quiet →
      s.part.hoseSettings h = some st → (s.part.hose h).valves.phase = .shut →
      let x := (s.part.hose h).valves.valve v
      (x.switch = .closed → exec (.switchChange h v .opened) s = s.goesTo
        ((s.part.modPins h fun k => k.setSwitch v .opened).modValves h fun q => q.setValve v
          { x with switch := .opened, settle := some (x.settle.getD (s.part.now + 100 * st.settleTime)) }))
      ∧ (x.switch = .opened → exec (.switchChange h v .closed) s = s.goesTo
        ((s.part.modPins h fun k => k.setSwitch v .closed).modValves h fun q => q.setValve v
          { x with switch := .closed, settle := none, latch := false })))
  ∧ (∀ (s : State) (h : HoseId) (v : ValveId) (due : Nat), s.part.Quiet → (s.part.hose h).valves.phase = .shut →
      (s.part.hose h).dsc = .idle ∨ (s.part.hose h).dsc = .lifted ∨ (s.part.hose h).dsc = .done →
      (∀ i, h ∉ (s.part.pumps.get i).grants) →
      ((s.part.hose h).valves.valve v).settle = some due →
      exec (.settleExpiry h v) s = s.goesTo
        ((s.part.reach due).modValves h fun q => q.setValve v
          { (s.part.hose h).valves.valve v with
            settle := none, latch := true, faults := min (((s.part.hose h).valves.valve v).faults + 1) 65535 }))

/-- R84: the trim valve's confirmation at or above the start volume moves the phase on: to FULL below the active preset less the
slowdown volume, which commands the main valve OPEN, and to TAPER from there on. -/
def Obligations.TrimConfirmed : Prop :=
  ∀ (s : State) (h : HoseId) (st : HoseSettings), s.part.cfl.stage ≠ .imageLoad → s.part.Quiet →
    s.part.hoseSettings h = some st → (s.part.hose h).valves.phase = .trim → (s.part.hose h).valves.trim.switch = .closed →
    (s.part.hose h).valves.pending = none → st.startVolume ≤ (s.part.hose h).meter.gross →
    (s.part.hose h).meter.gross < (s.part.hose h).valves.active →
    ∃ q : Part, exec (.switchChange h .trim .opened) s = s.goesTo q
      ∧ (q.hose h).valves.trim = { (s.part.hose h).valves.trim with switch := .opened, settle := none }
      ∧ ((s.part.hose h).meter.gross + st.slowdown < (s.part.hose h).valves.active → (q.hose h).valves.phase = .full)
      ∧ ((s.part.hose h).valves.active ≤ (s.part.hose h).meter.gross + st.slowdown → (q.hose h).valves.phase = .taper)
      ∧ (q.hose h).dsc = (s.part.hose h).dsc ∧ (q.hose h).context = (s.part.hose h).context
      ∧ (∀ k, k ≠ h → q.hose k = s.part.hose k)
      ∧ (q.pumps, q.tlg, q.inv, q.alc, q.machines, q.totals, q.rsc, q.snc, q.cfl, q.cnl)
          = (s.part.pumps, s.part.tlg, s.part.inv, s.part.alc, s.part.machines, s.part.totals, s.part.rsc, s.part.snc, s.part.cfl,
            s.part.cnl)

/-- R87: the switch that is the last to show CLOSED in SHUTTING, be it the trim's or the main's, with the other valve CLOSED or latched,
takes the sequencer into SHUT: supervision ends, the grant is released and the overrun window of 2 s starts. Where a power-fail
warning was taken no window starts, and a hose in COMMITTING whose commit is complete leaves it (06 R114, R119; 02 R27). R82: a close
fault on a valve, with the other CLOSED or latched, counts, latches, adds its flag and takes the sequencer into SHUT just so. That a
hose in DONE keeps its table position beside a cleared context is the model's choice, where R27 keeps the position in the context until
IDLE or LIFTED and R104 and R114 clear the context on leaving COMMITTING (log 36). -/
def Obligations.ValvesShut : Prop :=
  (∀ (s : State) (h : HoseId) (v : ValveId) (x : Context) (st : HoseSettings), s.part.cfl.stage ≠ .imageLoad →
    s.part.hoseSettings h = some st → (s.part.hose h).context = some x →
    (s.part.hose h).valves.phase = .shutting → ((s.part.hose h).valves.valve v).switch = .opened →
    (∀ w, w ≠ v → ((s.part.hose h).valves.valve w).switch = .closed ∨ ((s.part.hose h).valves.valve w).latch = true) →
    s.part.Quiet →
    ∃ q : Part, exec (.switchChange h v .closed) s = s.goesTo q
      ∧ (q.hose h).valves.phase = .shut ∧ ((q.hose h).valves.valve v).switch = .closed
      ∧ (q.hose h).reader.supervised = none ∧ (q.hose h).reader.grace = none ∧ (∀ i, h ∉ (q.pumps.get i).grants)
      ∧ (∀ k, k ≠ h → q.hose k = s.part.hose k)
      ∧ ((s.part.hose h).dsc = .stopping → x.powerFail = false →
        (q.hose h).valves.overrun = some (s.part.now + 200000) ∧ (q.hose h).dsc = .stopping ∧ (q.hose h).context = some x)
      ∧ ((s.part.hose h).dsc = .committing → x.powerFail = true →
        (q.hose h).valves.overrun = (s.part.hose h).valves.overrun
        ∧ (x.committed = false → (q.hose h).dsc = .committing ∧ (q.hose h).context = some x)
        ∧ (x.committed = true → (q.hose h).context = none
          ∧ (q.hose h).summary = some { sequence := x.sequence, cause := x.cause, faults := x.faults }
          ∧ ((s.part.hose h).nozzle = .offHook → (q.hose h).dsc = .done ∧ (q.hose h).kept = some x.position)
          ∧ ((s.part.hose h).nozzle = .onHook → (q.hose h).dsc = .idle ∧ (q.hose h).kept = none))))
  ∧ ∀ (s : State) (h : HoseId) (v : ValveId) (x : Context) (due : Nat), s.part.Quiet →
    (s.part.hose h).dsc = .stopping → (s.part.hose h).context = some x → x.powerFail = false →
    (s.part.hose h).valves.phase = .shutting → ((s.part.hose h).valves.valve v).settle = some due →
    (∀ w, w ≠ v → ((s.part.hose h).valves.valve w).switch = .closed ∨ ((s.part.hose h).valves.valve w).latch = true) →
    ∃ q : Part, exec (.settleExpiry h v) s = s.goesTo q
      ∧ (q.hose h).valves.phase = .shut ∧ (q.hose h).valves.overrun = some (max s.part.now due + 200000)
      ∧ ((q.hose h).valves.valve v).latch = true
      ∧ ((q.hose h).valves.valve v).faults = min (((s.part.hose h).valves.valve v).faults + 1) 65535
      ∧ (q.hose h).reader.supervised = none ∧ (q.hose h).reader.grace = none ∧ (∀ i, h ∉ (q.pumps.get i).grants)
      ∧ (q.hose h).dsc = .stopping ∧ (q.hose h).context = some { x with faults := { x.faults with valve := true } }
      ∧ ∀ k, k ≠ h → q.hose k = s.part.hose k

/-- R88, R89, 06 R112: the end of the overrun window. The metering window closes, the hose is in COMMITTING, the slot's closing
part is fixed with the gross, the final active preset, the end cause and the fault set, and it is queued. 04 R75, R77: its mean
temperature is the sum over the count, or with no sample the latest temperature of the compartment, 20.0 degrees where none is
known, and its standard volume is the gross by the grade's factor at that mean. 07 R140: its amount is the standard volume by the
tariff's price for the grade and the account's band. -/
def Obligations.OverrunWindowEnds : Prop :=
  ∀ (s : State) (h : HoseId) (x : Context) (st : HoseSettings) (due : Nat), s.part.hoseSettings h = some st →
    (s.part.hose h).context = some x → (s.part.hose h).valves.overrun = some due → x.slot < s.part.tlg.slots.length →
    ∃ q : Part, ∃ k : Closing, exec (.overrunWindowExpiry h) s = s.goesTo q
      ∧ (q.hose h).dsc = .committing ∧ (q.hose h).meter.window = false ∧ (q.hose h).meter.creepMark = false
      ∧ (q.hose h).valves = { (s.part.hose h).valves with overrun := none }
      ∧ (q.slot x.slot).closing = some k ∧ k.endTime = x.startTime.getD 0 + (x.elapsed - x.elapsedAtFlow)
      ∧ (let m := (s.part.hose h).meter
         let temp := if m.tempCount = 0 then (s.part.comp x.compartment).temperature.getD 200 else m.tempSum.tdiv m.tempCount
         let standard := (m.gross * factorOf s.part.cfl.settings x.grade temp + 5000) / 10000
         let price := priceOf s.part.cfl.settings x.grade x.account
         k.fields = .fill (s.part.hose h).valves.active m.gross standard temp (min ((standard * price + 50) / 100) 4294967295)
           (x.cause.getD .preset)
           { x.faults with
             meter := x.faults.meter || m.sticky, overrate := x.faults.overrate || m.overrate
             overrun := x.faults.overrun || decide ((s.part.hose h).valves.active + st.overrunTolerance < m.gross)
             creep := x.faults.creep || m.creepMark }
         ∧ ∀ (set : Settings) (a : AccountSettings), s.part.cfl.settings = some set → set.accounts[x.account]? = some a →
             price = set.tariff.getD ((x.grade - 1) * 4 + a.band) 0)
      ∧ (q.tlg.queue.any (fun r => decide (r = .closing h x.slot)) ∨ ∃ i, .opening h i true ∈ q.tlg.queue)
      ∧ (∀ j, j ≠ h → q.hose j = s.part.hose j)
      ∧ (q.pumps, q.inv, q.alc, q.machines, q.totals, q.rsc, q.snc, q.cfl, q.cnl, q.pins)
          = (s.part.pumps, s.part.inv, s.part.alc, s.part.machines, s.part.totals, s.part.rsc, s.part.snc, s.part.cfl, s.part.cnl,
            s.part.pins)

/-- R93, R96, R83, 06 R107: the prime expires. Without a grant the pump runs down for 5 s; with a grant it runs, and the flow
of the granted hose starts: TRIM, the metering window open, the slot OPEN under the next sequence number. R93: a pump that
has run down stops; the drive of a pump is on in PRIMING, RUNNING and RUNDOWN and off in STOPPED. -/
def Obligations.PumpTimers : Prop :=
  (∀ (s : State) (i : PumpId) (due : Nat), s.part.Quiet → (s.part.pumps.get i).state = .priming →
      (s.part.pumps.get i).prime = some due →
      ((s.part.pumps.get i).grants = [] → exec (.primeExpiry i) s = s.goesTo
        ((s.part.reach due).modPump i fun m =>
          { m with state := .rundown, prime := none, rundown := some (max s.part.now due + 500000) }))
      ∧ ∀ (h : HoseId) (st : HoseSettings) (x : Context), (s.part.pumps.get i).grants = [h] → (s.part.hose h).dsc = .awaitPump →
        s.part.hoseSettings h = some st → (s.part.hose h).context = some x → (s.part.hose h).valves.phase = .shut →
        (s.part.hose h).valves.pending = none → 0 < (s.part.hose h).valves.active →
        (s.part.hose h).valves.trim.switch = .closed → (s.part.hose h).valves.trim.settle = none →
        x.slot < s.part.tlg.slots.length →
        ∃ q : Part, exec (.primeExpiry i) s = s.goesTo q
          ∧ (q.pumps.get i).state = .running ∧ (q.pumps.get i).grants = [h]
          ∧ (q.hose h).dsc = .flowing ∧ (q.hose h).valves.phase = .trim ∧ (q.hose h).pumpWait = none
          ∧ (q.hose h).valves.trim.settle = some (max s.part.now due + 100 * st.settleTime)
          ∧ (q.hose h).meter.window = true ∧ (q.hose h).meter.gross = 0 ∧ (q.hose h).meter.netSteps = 0
          ∧ (q.hose h).meter.noFlow = some (max s.part.now due + 100000 * st.noFlowTime)
          ∧ (q.hose h).context = some
              { x with
                sequence := some s.part.tlg.nextSequence, startTime := some (x.authTime + x.elapsed), elapsedAtFlow := x.elapsed }
          ∧ (q.slot x.slot).state = .opened ∧ q.tlg.nextSequence = s.part.tlg.nextSequence + 1)
  ∧ (∀ (s : State) (i : PumpId) (due : Nat), (s.part.pumps.get i).state = .rundown → (s.part.pumps.get i).rundown = some due →
      exec (.rundownExpiry i) s = s.goesTo ((s.part.reach due).modPump i fun m => { m with state := .stopped, rundown := none }))
  ∧ ∀ (p : Part) (i : PumpId), p.pumpDrive i = true ↔
      (p.pumps.get i).state = .priming ∨ (p.pumps.get i).state = .running ∨ (p.pumps.get i).state = .rundown

/-- R98, 06 R118: the emergency input. No valve stays commanded open, the pumps stop with no grant and no request, transactions
before flow are undone, and flowing hoses take EMERGENCY as their end cause. R98, R99: the deassertion of either input, with
nothing to arbitrate, changes the input alone. -/
def Obligations.EmergencyInput : Prop :=
  (∀ s : State, s.part.pins.emergency = false → ∃ q : Part, exec .emergencyAsserted s = s.goesTo q
      ∧ q.pins = { s.part.pins with emergency := true }
      ∧ (∀ i, (q.pumps.get i).state = .stopped ∧ (q.pumps.get i).grants = [] ∧ (q.pumps.get i).requests = []
          ∧ (q.pumps.get i).prime = none ∧ (q.pumps.get i).rundown = none)
      ∧ (∀ h, (q.hose h).valves.phase.flowing = false)
      ∧ (∀ h x, (s.part.hose h).context = some x → (s.part.hose h).dsc = .authorising ∨ (s.part.hose h).dsc = .awaitPump →
          (q.hose h).context = none ∧ (q.hose h).dsc = restState (s.part.hose h).nozzle
            ∧ (q.hose h).summary = some { sequence := none, cause := some .emergency, faults := x.faults })
      ∧ (∀ h x, (s.part.hose h).context = some x → (s.part.hose h).dsc = .flowing →
          (q.hose h).dsc = .stopping ∧ (q.hose h).context = some { x with cause := some .emergency }))
  ∧ (∀ s : State, s.part.Quiet →
      exec .emergencyDeasserted s = s.goesTo (s.part.setPins { s.part.pins with emergency := false })
      ∧ exec .powerFailDeasserted s = s.goesTo (s.part.setPins { s.part.pins with powerFail := false }))

/-- R99, 06 R119, 07 R133: the power-fail warning. Valves and pumps act as at an emergency, waiting checkpoints and the waiting
release mark leave the write queue, a hose that was flowing and has not queued its commit goes to COMMITTING with EMERGENCY as its
end cause, and a transaction before flow is undone. -/
def Obligations.PowerFailWarning : Prop :=
  ∀ s : State, s.part.pins.powerFail = false → ∃ q : Part, exec .powerFailWarning s = s.goesTo q
    ∧ q.pins = { s.part.pins with powerFail := true }
    ∧ (∀ i, (q.pumps.get i).state = .stopped ∧ (q.pumps.get i).grants = [] ∧ (q.pumps.get i).requests = [])
    ∧ (∀ h, (q.hose h).valves.phase.flowing = false)
    ∧ (∀ r ∈ q.tlg.queue, WriteReq.kept r = true) ∧ q.tlg.writing = s.part.tlg.writing
    ∧ (∀ h x, (s.part.hose h).context = some x → (s.part.hose h).dsc = .flowing → x.committed = false →
        (q.hose h).dsc = .committing ∧ ∃ y, (q.hose h).context = some y ∧ y.cause = some .emergency ∧ y.powerFail = true)
    ∧ (∀ h x, (s.part.hose h).context = some x → (s.part.hose h).dsc = .authorising ∨ (s.part.hose h).dsc = .awaitPump →
        (q.hose h).context = none ∧ (q.hose h).dsc = restState (s.part.hose h).nozzle)

/-! ## 07 The transaction log -/

/-- R128, R132: WRITE_START takes the oldest waiting request as the write in progress, for 8 ms; a whole record's taking moves the
oldest of its compartment's wait list into the queue. WRITE_COMPLETE puts the write in memory, counts it, and takes the next. -/
def Obligations.Writes : Prop :=
  (∀ s : State,
    (s.part.tlg.writing ≠ none ∨ s.part.tlg.queue = [] → exec .writeStart s = s.goesTo s.part)
    ∧ (∀ r rest, s.part.tlg.writing = none → s.part.tlg.queue = r :: rest → (∀ c i, r ≠ .whole c i) →
        exec .writeStart s = s.goesTo
          (s.part.setTlg { s.part.tlg with writing := some r, queue := rest, writeTimer := some (s.part.now + 800) }))
    ∧ (∀ c i rest, s.part.tlg.writing = none → s.part.tlg.queue = .whole c i :: rest →
        (s.part.tlg.waitLists.get c = [] → exec .writeStart s = s.goesTo
          (s.part.setTlg
            { s.part.tlg with writing := some (.whole c i), queue := rest, writeTimer := some (s.part.now + 800) }))
        ∧ (∀ w ws, s.part.tlg.waitLists.get c = w :: ws → rest.length < 8 → exec .writeStart s = s.goesTo
          (s.part.setTlg
            { s.part.tlg with
              writing := some (.whole c i), queue := rest ++ [w], writeTimer := some (s.part.now + 800)
              waitLists := s.part.tlg.waitLists.set c ws }))))
  ∧ (∀ (s : State) (r : WriteReq) (due : Nat), s.part.Quiet → s.part.tlg.writing = some r → s.part.tlg.writeTimer = some due →
    s.part.tlg.queue = [] →
    let ended : Tlg :=
      { s.part.tlg with writing := none, writeTimer := none, writes := min (s.part.tlg.writes + 1) 4294967295 }
    (∀ h n g, r = .checkpoint h n g → exec .writeComplete s = s.goesTo
      ((s.part.reach due).setTlg { ended with checkpoints := s.part.tlg.checkpoints.set h (.valid (n, g)) }))
    ∧ (∀ n, r = .mark n → exec .writeComplete s = s.goesTo
      ((s.part.reach due).setTlg { ended with markArea := .valid n }))
    ∧ (∀ h i u o, r = .opening h i false → s.part.tlg.slots[i]? = some u → u.opening = some o →
      exec .writeComplete s = s.goesTo
        ((s.part.reach due).setTlg { ended with slots := s.part.tlg.slots.set i { u with nvOpening := .valid o } }))
    ∧ (∀ c i u o k, r = .whole c i → s.part.tlg.slots[i]? = some u → u.opening = some o → u.closing = some k →
      exec .writeComplete s = s.goesTo
        ((s.part.reach due).setTlg
          { ended with
            slots := s.part.tlg.slots.set i { u with state := .closed, nvOpening := .valid o, nvClosing := .valid k } })))
  ∧ ∀ (s : State) (h : HoseId) (n g due : Nat) (r : WriteReq) (rest : List WriteReq), s.part.Quiet →
    s.part.tlg.writing = some (.checkpoint h n g) → s.part.tlg.writeTimer = some due → s.part.tlg.queue = r :: rest →
    (∀ c i, r ≠ .whole c i) →
    exec .writeComplete s = s.goesTo
      ((s.part.reach due).setTlg
        { s.part.tlg with
          writing := some r, queue := rest, writeTimer := some (max s.part.now due + 800)
          writes := min (s.part.tlg.writes + 1) 4294967295
          checkpoints := s.part.tlg.checkpoints.set h (.valid (n, g)) })

/-- 06 R114: the commit completion step. Where no other hose has a transaction and no claim is held, the exact state: the
slot CLOSED, the own column and the account's totals increased by a DISPENSE record of the current shift, a DONE event, the
hose in DONE or IDLE by its nozzle. An own claim is closed, with its closing TALLY carrying the own column after the addition
(03 R50). 09 R166: a LOADOUT counts in the account's totals alone; its LOADNOTE is offered with the volumes of the record,
its event is queued, and the bay still held under its grant takes the gross as loaded and loses one active loadout, at the
last of them starting its release timer of 120 s (09 R163). That in DONE the table position is kept beside the
cleared context is the model's choice (02 R27; log 36). That the LOADNOTE is offered before its event is the model's choice (log 14). -/
def Obligations.CommitCompletion : Prop :=
  (∀ (s : State) (h : HoseId) (i : Nat) (x : Context) (u : Slot) (k : Closing) (final gross standard amount due : Nat)
      (temperature : Int) (cause : Cause) (faults : FaultSet),
    s.part.Quiet → s.part.tlg.writing = some (.closing h i) → s.part.tlg.writeTimer = some due → s.part.tlg.queue = [] →
    s.part.tlg.slots[i]? = some u → u.closing = some k → k.fields = .fill final gross standard temperature amount cause faults →
    (s.part.hose h).context = some x → (s.part.hose h).claim = none → (∀ j, j ≠ h → (s.part.hose j).context = none) →
    x.target = none → s.part.rsc.state ≠ .draining → (s.part.hose h).valves.phase = .shut →
    let p := (s.part.reach due).setTlg
      { s.part.tlg with
        slots := s.part.tlg.slots.set i { u with state := .closed, nvClosing := .valid k }
        writing := none, writeTimer := none, writes := min (s.part.tlg.writes + 1) 4294967295 }
    let left := fun (v : Hose) =>
      ({ v with
          context := none, summary := some { sequence := x.sequence, cause := x.cause, faults := x.faults }
          kept := if v.nozzle = .onHook then none else some x.position
          dsc := if v.nozzle = .onHook then .idle else .done
          valves := { v.valves with pending := if v.nozzle = .onHook then none else v.valves.pending } } : Hose)
    (∀ m, x.shift = s.part.alc.shift → u.isLoadout = false → s.part.machines[x.position]? = some m →
      m.column s.part.station + gross ≤ 4294967295 →
      exec .writeComplete s = s.goesTo
        ((((p.setMachines (s.part.machines.set x.position
          (m.setColumn s.part.station (m.column s.part.station + gross)))).setTotals
            (addTotals s.part.totals x.account standard amount)).event (.done h (x.sequence.getD 0))).modHose h left))
    ∧ (x.shift ≠ s.part.alc.shift → exec .writeComplete s = s.goesTo
        ((p.event (.done h (x.sequence.getD 0))).modHose h left)))
  ∧ (∀ (s : State) (h : HoseId) (i : Nat) (x : Context) (c : OwnClaim) (m : MachineRow) (u : Slot) (k : Closing)
      (final gross standard amount due : Nat) (temperature : Int) (cause : Cause) (faults : FaultSet),
    s.part.tlg.writing = some (.closing h i) → s.part.tlg.writeTimer = some due → s.part.tlg.slots[i]? = some u →
    u.closing = some k → u.isLoadout = false → k.fields = .fill final gross standard temperature amount cause faults →
    (s.part.hose h).dsc = .committing → (s.part.hose h).context = some x → x.shift = s.part.alc.shift →
    (s.part.hose h).claim = some c → c.status = .active → s.part.machines[x.position]? = some m → m.drawn.length = 14 →
    1 ≤ s.part.station → s.part.station ≤ 14 → m.column s.part.station + gross ≤ 4294967295 →
    s.part.snc.joined = true → s.part.snc.queue.length < 16 →
    (∀ j y, j ≠ h → (s.part.hose j).context = some y → y.slot ≠ i) →
    ∃ q : Part, exec .writeComplete s = s.goesTo q
      ∧ (q.hose h).claim = none ∧ (q.slot i).state = .closed ∧ (q.slot i).nvClosing = .valid k
      ∧ ⟨.tally s.part.alc.shift c.machine (m.column s.part.station + gross) c.number, false⟩ ∈ q.snc.queue
      ∧ (∀ j n, q.machines[j]? = some n → ∃ o, s.part.machines[j]? = some o ∧ n.entry = o.entry ∧ n.hold = o.hold
          ∧ (j ≠ x.position → n.drawn = o.drawn))
      ∧ q.totals = addTotals s.part.totals x.account standard amount
      ∧ (q.inv, q.pins, q.cfl) = (s.part.inv, s.part.pins, s.part.cfl))
  ∧ ∀ (s : State) (h : HoseId) (i : Nat) (x : Context) (u : Slot) (k : Closing) (station : Nat) (c : CompId)
      (final gross standard amount due : Nat) (temperature : Int) (cause : Cause) (faults : FaultSet),
    s.part.Quiet → s.part.tlg.writing = some (.closing h i) → s.part.tlg.writeTimer = some due → s.part.tlg.queue = [] →
    s.part.tlg.slots[i]? = some u → u.isLoadout = true → u.closing = some k →
    k.fields = .fill final gross standard temperature amount cause faults → (s.part.hose h).context = some x →
    (s.part.hose h).claim = none → x.target = some (station, c) → s.part.rsc.state ≠ .draining →
    (s.part.hose h).valves.phase = .shut →
    let p := (s.part.reach due).setTlg
      { s.part.tlg with
        slots := s.part.tlg.slots.set i { u with state := .closed, nvClosing := .valid k }
        writing := none, writeTimer := none, writes := min (s.part.tlg.writes + 1) 4294967295 }
    let counted := p.setTotals
      (if x.shift = s.part.alc.shift then addTotals s.part.totals x.account standard amount else s.part.totals)
    let told := (counted.offer (.loadnote station (compCode c) x.grant gross standard) false).event
      (.loadnoteOffered station c gross)
    let left := fun (q : Part) => (q.event (.done h (x.sequence.getD 0))).modHose h fun v =>
      { v with
        context := none, summary := some { sequence := x.sequence, cause := x.cause, faults := x.faults }
        kept := if v.nozzle = .onHook then none else some x.position
        dsc := if v.nozzle = .onHook then .idle else .done
        valves := { v.valves with pending := if v.nozzle = .onHook then none else v.valves.pending } }
    (∀ b e, s.part.bayOf station = some b → s.part.rsc.bays.get b = some e → e.grant = x.grant →
      exec .writeComplete s = s.goesTo (left (told.setRsc { told.rsc with bays := told.rsc.bays.set b (some
        { e with
          loaded := e.loaded.set c (e.loaded.get c + gross), noteOffered := true, active := e.active - 1
          timer := if e.active - 1 = 0 then .release (max s.part.now due + 12000000) else e.timer }) })))
    ∧ (s.part.bayOf station = none ∨ (∃ b e, s.part.bayOf station = some b ∧ s.part.rsc.bays.get b = some e ∧ e.grant ≠ x.grant) →
      exec .writeComplete s = s.goesTo (left told))

/-- R138, R139: READLOG answers the record that holds the number, or with number 0 the oldest, with the number of the next in ring
order, and changes nothing. RELEASE frees exactly the records from the oldest on, in ring order, that are CLOSED, at or below the
number, not of the current shift and held by no hose (06 R115), and answers their count. Where it frees any, the last one's number
is queued as the release mark, in the place of one still waiting (at a full queue, in the place of the oldest checkpoint, R131), unless the power-fail
warning is asserted; where it frees none it changes nothing. That the slot of a hose which still waits in COMMITTING is not
yet a record that a RELEASE frees is the model's reading (log 36). -/
def Obligations.ReadAndRelease : Prop :=
  (∀ s : State, s.part.LineFree →
    (∀ n, n ≤ 4294967295 → 1 ≤ n → (∀ u ∈ s.part.tlg.slots, ∀ o, u.record = some o → o.sequence ≠ n) →
      exec (.readlog (some n)) s = s.goesTo (s.part.refuse .notFound))
    ∧ ((∀ u ∈ s.part.tlg.slots, ∀ o, u.record = some o → o.sequence = 0) →
      exec (.readlog (some 0)) s = s.goesTo (s.part.refuse .notFound))
    ∧ ∀ (n j : Nat) (u : Slot) (o : Opening), 1 ≤ n → s.part.tlg.slots[j]? = some u → u.record = some o → o.sequence = n →
        (∀ (l : Nat) (v : Slot) (r : Opening), l < j → s.part.tlg.slots[l]? = some v → v.record = some r → r.sequence ≠ n) →
        ∃ m : Nat,
          let answer := s.goesTo (s.part.respond (.okRecord (recordBytes u.state o u.closing) m))
          (n ≤ 4294967295 → exec (.readlog (some n)) s = answer)
          ∧ ((∀ v ∈ s.part.tlg.slots, ∀ r, v.record = some r → 1 ≤ r.sequence → n ≤ r.sequence) →
              exec (.readlog (some 0)) s = answer)
          ∧ (m = 0 → ∀ v ∈ s.part.tlg.slots, ∀ r, v.record = some r → r.sequence ≤ n)
          ∧ (m ≠ 0 → n < m ∧ (∃ v ∈ s.part.tlg.slots, ∃ r, v.record = some r ∧ r.sequence = m)
              ∧ ∀ v ∈ s.part.tlg.slots, ∀ r, v.record = some r → n < r.sequence → m ≤ r.sequence))
  ∧ ∀ (s : State) (limit : Nat), s.part.LineFree → limit ≤ 4294967295 →
    ∃ (q : Part) (freed : List Nat), exec (.release (some limit)) s = s.goesTo q
      ∧ q.cnl.response = some (.okReleased freed.length)
      ∧ freed.Nodup ∧ (∀ i, i ∈ freed ↔ Freed limit s.part.alc.shift s.part.holdsSlot s.part.tlg.slots i)
      ∧ (∀ i, s.part.holdsSlot i = true ↔ ∃ h x, (s.part.hose h).context = some x ∧ x.slot = i)
      ∧ q.tlg.slots.length = s.part.tlg.slots.length
      ∧ (∀ (i : Nat) (u : Slot), s.part.tlg.slots[i]? = some u → q.tlg.slots[i]? = some
          (if i ∈ freed then { u with state := .free, opening := none, closing := none } else u))
      ∧ (freed = [] → q = s.part.respond (.okReleased 0))
      ∧ (freed ≠ [] → s.part.pins.powerFail = true → q.tlg = { s.part.tlg with slots := q.tlg.slots })
      ∧ (∀ (i : Nat) (u : Slot) (o : Opening), i ∈ freed → s.part.tlg.slots[i]? = some u → u.record = some o →
          (∀ (j : Nat) (v : Slot) (r : Opening), j ∈ freed → s.part.tlg.slots[j]? = some v → v.record = some r →
            r.sequence ≤ o.sequence) →
          s.part.pins.powerFail = false →
          (∀ (front : List WriteReq) (n : Nat) (back : List WriteReq), s.part.tlg.queue = front ++ .mark n :: back →
            (∀ r ∈ front, r.kind ≠ .mark) →
            q.tlg = { s.part.tlg with slots := q.tlg.slots, queue := front ++ .mark o.sequence :: back })
          ∧ ((∀ r ∈ s.part.tlg.queue, r.kind ≠ .mark) →
            (s.part.tlg.queue.length < 8 →
              q.tlg = { s.part.tlg with slots := q.tlg.slots, queue := s.part.tlg.queue ++ [.mark o.sequence] })
            ∧ (∀ (front : List WriteReq) (r : WriteReq) (back : List WriteReq), s.part.tlg.queue.length = 8 →
              s.part.tlg.queue = front ++ r :: back → r.isCheckpoint = true → (∀ a ∈ front, a.isCheckpoint = false) →
              q.tlg = { s.part.tlg with
                slots := q.tlg.slots, queue := front ++ back ++ [.mark o.sequence]
                ckptDisplaced := min (s.part.tlg.ckptDisplaced + 1) 65535 })))
      ∧ (q.hoses, q.pumps, q.machines, q.totals, q.inv, q.rsc, q.alc, q.snc, q.pins, q.cfl)
          = (s.part.hoses, s.part.pumps, s.part.machines, s.part.totals, s.part.inv, s.part.rsc, s.part.alc, s.part.snc,
            s.part.pins, s.part.cfl)

/-! ## 08 The inventory -/

/-- R142 to R146, R151, R152: a sample event. Each reading is taken into its range and through the strapping table, the histories,
gauges, settled flags, temperatures and low-level states follow, and the opening book is set at the first settled sample. At the
entry into LOW every hose of the compartment with a transaction takes LOW_STOCK under its first-cause rule (06 R109 to R113), and
a LOW event is queued at the entry and at the leaving. 09 R156: the automatic trigger arms, fires once in NORMAL and disarms the low
compartments; the bowser is then in REQUESTED where every hose is IDLE or LIFTED (09 R157), and in DRAINING otherwise. That a flag is
armed whether or not its compartment's auto-request is yes, where a low compartment needs it, and the order of the tests, are the
model's choice (log 32). -/
def Obligations.SampleEvents : Prop :=
  (∀ (s : State) (r : Readings) (st : Settings) (due : Nat), s.part.inv.sampleTimer = some due → s.part.cfl.settings = some st →
    ∃ q : Part, exec (.sampleEvent r) s = s.goesTo q
      ∧ q.inv.sampleTimer = some (due + 200000) ∧ q.inv.stockTimer = s.part.inv.stockTimer
      ∧ (q.machines, q.totals, q.pins, q.cfl) = (s.part.machines, s.part.totals, s.part.pins, s.part.cfl)
      ∧ ∀ c : CompId,
        let k := s.part.comp c
        let cs := st.comps.get c
        let history := (k.history ++ [strapVolume cs.strapping (max 0 (min 4000 (levelOf r c))).toNat]).drop
          (k.history.length + 1 - 8)
        let gauge := history.sum / history.length
        (q.comp c).history = history ∧ (q.comp c).gauge = some gauge
        ∧ (q.comp c).temperature = some (max (-400) (min 850 (tempOf r c)))
        ∧ (q.comp c).samples = min (k.samples + 1) 4294967295
        ∧ ((q.comp c).settled = true ↔ history.length = 8 ∧ ∀ x ∈ history, ∀ y ∈ history, x ≤ y + cs.settleTolerance * 100)
        ∧ (k.openingBook ≠ none → (q.comp c).openingBook = k.openingBook ∧ (q.comp c).book = k.book)
        ∧ (k.openingBook = none → (q.comp c).settled = false → (q.comp c).openingBook = none)
        ∧ (k.openingBook = none → (q.comp c).settled = true → (q.comp c).openingBook = some gauge ∧ (q.comp c).book = gauge
            ∧ (q.comp c).receipts = 0 ∧ (q.comp c).meteredOut = 0)
        ∧ (k.low = false → (q.comp c).low = decide (gauge ≤ cs.cutOff * 100))
        ∧ (k.low = true → (q.comp c).low = decide (gauge ≤ cs.cutOff * 100 + cs.capacity * 5)))
  ∧ (∀ (s : State) (r : Readings) (st : Settings) (due : Nat), s.part.inv.sampleTimer = some due → s.part.cfl.settings = some st →
    ∃ q : Part, exec (.sampleEvent r) s = s.goesTo q
      ∧ (∀ (c : CompId) (h : HoseId) (x : Context), s.part.hoseComp h = some c → (s.part.hose h).context = some x →
          let k := s.part.comp c
          let u := s.part.hose h
          let history := (k.history ++ [strapVolume (st.comps.get c).strapping (max 0 (min 4000 (levelOf r c))).toNat]).drop
            (k.history.length + 1 - 8)
          let gauge := history.sum / history.length
          (k.low = false → gauge ≤ (st.comps.get c).cutOff * 100 →
            (u.dsc = .flowing → (q.hose h).dsc = .stopping ∧ (q.hose h).context = some { x with cause := some .lowStock }
              ∧ (u.valves.phase.flowing = true → u.valves.trim.switch = .opened → u.valves.trim.latch = false →
                (q.hose h).valves.phase = .shutting))
            ∧ (u.dsc = .authorising ∨ u.dsc = .awaitPump → (q.hose h).context = none ∧ (q.hose h).claim = none
              ∧ (q.hose h).summary = some { sequence := none, cause := some .lowStock, faults := x.faults }
              ∧ (u.nozzle = .onHook → (q.hose h).dsc = .idle) ∧ (u.nozzle = .offHook → (q.hose h).dsc = .lifted))
            ∧ (u.dsc = .stopping ∨ u.dsc = .committing → (q.hose h).dsc = u.dsc ∧ (q.hose h).context = some x))
          ∧ (k.low = true ∨ (st.comps.get c).cutOff * 100 < gauge → u.dsc ≠ .awaitPump →
            (q.hose h).dsc = u.dsc ∧ (q.hose h).context = some x))
      ∧ (let level := fun c => (((st.comps.get c).restockLevel * 100 : Nat) : Int)
         let armed := fun c => s.part.rsc.armed.get c = true ∨ (q.comp c).openingBook ≠ none ∧ level c ≤ (q.comp c).book
         let low := fun c => (st.comps.get c).autoRequest = true ∧ (q.comp c).openingBook ≠ none ∧ (q.comp c).book < level c
         let fires := s.part.rsc.state = .normal ∧ ∃ c, armed c ∧ low c
         (st.identity.role = .depot → q.rsc.armed = s.part.rsc.armed)
         ∧ (st.identity.role = .bowser →
           (fires → (∀ c, q.rsc.armed.get c = true ↔ armed c ∧ ¬ low c)
             ∧ ((∀ h, (q.hose h).dsc = .idle ∨ (q.hose h).dsc = .lifted) → q.rsc.state = .requested
               ∧ q.rsc.repeatTimer = some (max s.part.now due + 1000000))
             ∧ (∀ h, (q.hose h).dsc ≠ .idle → (q.hose h).dsc ≠ .lifted → q.rsc.state = .draining))
           ∧ (¬ fires → (∀ c, q.rsc.armed.get c = true ↔ armed c) ∧ (s.part.rsc.state = .normal → q.rsc.state = .normal)))))
  ∧ ∀ (p : Part) (c : CompId) (cs : CompSettings),
    ((p.comp c).gauge = none → p.lowTest c cs = p)
    ∧ ∀ g, (p.comp c).gauge = some g →
      ((p.comp c).low = false → g ≤ cs.cutOff * 100 →
        p.lowTest c cs = ((p.modComp c fun k => { k with low := true }).stopLow c).event (.low c true)
        ∧ ((∀ h, p.hoseComp h = some c → (p.hose h).dsc = .idle ∨ (p.hose h).dsc = .lifted ∨ (p.hose h).dsc = .done) →
          p.lowTest c cs = (p.modComp c fun k => { k with low := true }).event (.low c true)))
      ∧ ((p.comp c).low = false → cs.cutOff * 100 < g → p.lowTest c cs = p)
      ∧ ((p.comp c).low = true → g ≤ cs.cutOff * 100 + cs.capacity * 5 → p.lowTest c cs = p)
      ∧ ((p.comp c).low = true → cs.cutOff * 100 + cs.capacity * 5 < g →
        p.lowTest c cs = (p.modComp c fun k => { k with low := false }).event (.low c false))

/-- R149, R150, R153: the variance test with its latch, the receipt check at a count of 8, and the STOCK of the timer's expiry.
That a receipt check which writes a record sets the latest difference is the model's reading (log 36). -/
def Obligations.VarianceAndStock : Prop :=
  (∀ (p : Part) (c : CompId) (st : CompSettings),
    let k := p.comp c
    let difference : Int := ((k.gauge.getD 0 : Nat) : Int) - k.book
    let found := fun (k : Compartment) => { k with difference := some difference }
    let ready := k.openingBook ≠ none ∧ k.settled = true
      ∧ ∀ h, p.hoseComp h = some c → (p.hose h).dsc ≠ .flowing ∧ (p.hose h).dsc ≠ .stopping
    (¬ ready → p.stockTests c st = p)
    ∧ (ready → k.receiptCheck ≠ some 8 → k.latched = false → difference.natAbs ≤ st.varianceLimit * 100 →
        p.stockTests c st = p.modComp c found)
    ∧ (ready → k.receiptCheck ≠ some 8 → k.latched = true →
        p.stockTests c st = p.modComp c fun k => { found k with
          latched := decide (st.varianceLimit * 50 < difference.natAbs) })
    ∧ (ready → k.receiptCheck = some 8 → k.latched = false → difference.natAbs ≤ st.varianceLimit * 100 →
        p.stockTests c st = p.modComp c fun k => { found k with receiptCheck := none })
    ∧ (ready → st.varianceLimit * 100 < difference.natAbs → k.latched = false ∨ k.receiptCheck = some 8 →
        let q := p.stockTests c st
        q.comp c = { found k with
            latched := true, receiptCheck := if k.receiptCheck = some 8 then none else k.receiptCheck }
          ∧ q.cnl = p.cnl.offer (.variance c ((((k.gauge.getD 0) / 100 : Nat) : Int) - k.book.tdiv 100))
          ∧ (q.hoses, q.pumps, q.snc, q.alc, q.machines, q.rsc) = (p.hoses, p.pumps, p.snc, p.alc, p.machines, p.rsc)))
  ∧ (∀ (k : Compartment) (st : CompSettings), stockFigures k st =
      { book := if k.openingBook = none then 0 else k.book.tdiv 100, gauge := (k.gauge.getD 0) / 100, capacity := st.capacity
        settled := if k.settled = true then 1 else 0 })
  ∧ ∀ (s : State) (st : Settings) (due : Nat), s.part.inv.stockTimer = some due → s.part.cfl.settings = some st →
    exec .stockTimerExpiry s = s.goesTo
      (((s.part.reach due).setInv { s.part.inv with stockTimer := some (due + 6000000) }).offer (stockNotice s.part st) true)

/-! ## 09 Restocking -/

/-- R156, R157, R160: RESTOCK, RESTOCK_CANCEL and RESTOCK_DONE by role and restock state, each change with its event and its
STOCK (R155), the return to NORMAL with its cancel BAYREQ. That a BAYREQ is offered after its RESTOCK_STATE event is the
model's choice (log 14), which shows in the order of RESTOCK_STATE and TX_DROPPED at a full queue. -/
def Obligations.RestockRequests : Prop :=
  ∀ s : State, s.part.LineFree →
    let returned := fun (st : Settings) =>
      (((((s.part.respond .ok).setRsc
        { s.part.rsc with
          state := .normal, repeatTimer := none, grant := none, awaited := ⟨false, false⟩ }).event (.restockState .normal)).offer
        (bayreqNotice s.part st true) false).offerStock)
    (s.part.cfl.load = .fault → ∀ c ∈ [Instr.restock, .restockCancel, .restockDone],
      exec c s = s.goesTo (s.part.refuse .configFault))
    ∧ (s.part.cfl.load ≠ .fault → s.part.role ≠ some .bowser → ∀ c ∈ [Instr.restock, .restockCancel, .restockDone],
      exec c s = s.goesTo (s.part.refuse .wrongRole))
    ∧ (∀ st, s.part.cfl.load ≠ .fault → s.part.cfl.settings = some st → st.identity.role = .bowser →
      (s.part.rsc.state ≠ .normal → exec .restock s = s.goesTo (s.part.refuse .badState))
      ∧ (s.part.rsc.state = .normal → (∃ h, (s.part.hose h).dsc ≠ .idle ∧ (s.part.hose h).dsc ≠ .lifted) →
        exec .restock s = s.goesTo
          ((((s.part.respond .ok).setRsc { s.part.rsc with state := .draining }).event (.restockState .draining)).offerStock))
      ∧ (s.part.rsc.state = .normal → (∀ h, (s.part.hose h).dsc = .idle ∨ (s.part.hose h).dsc = .lifted) →
        exec .restock s = s.goesTo
          (((((s.part.respond .ok).setRsc
            { s.part.rsc with
              state := .requested, repeatTimer := some (s.part.now + 1000000)
              awaited := ⟨decide (0 < spaceOf s.part.inv.comps.a st.comps.a),
                decide (0 < spaceOf s.part.inv.comps.b st.comps.b)⟩ }).event (.restockState .requested)).offer
            (bayreqNotice s.part st false) false).offerStock))
      ∧ (s.part.rsc.state = .draining ∨ s.part.rsc.state = .requested ∨ s.part.rsc.state = .granted →
        exec .restockCancel s = s.goesTo (returned st) ∧ exec .restockDone s = s.goesTo (s.part.refuse .badState))
      ∧ (s.part.rsc.state = .receiving →
        exec .restockCancel s = s.goesTo (s.part.refuse .badState) ∧ exec .restockDone s = s.goesTo (returned st))
      ∧ (s.part.rsc.state = .normal →
        exec .restockCancel s = s.goesTo (s.part.refuse .badState) ∧ exec .restockDone s = s.goesTo (s.part.refuse .badState)))

/-- R157, R163: the RSC's timers. The BAYREQ is offered again every 10 s in REQUESTED. At a grant's expiry the grant is
revoked and the station waits again, and the head of the queue takes the bay under the next grant number for 900 s (R162). A
released bay with nobody waiting is free. That the station waits again under the arrival counter's value after its advance is
the model's reading (log 20). -/
def Obligations.BayTimers : Prop :=
  (∀ (s : State) (st : Settings) (due : Nat), s.part.rsc.repeatTimer = some due → s.part.rsc.frozenAt = none →
    s.part.rsc.state = .requested → s.part.cfl.settings = some st →
    exec .bayreqRepeatExpiry s = s.goesTo
      (((s.part.reach due).setRsc
        { s.part.rsc with
          repeatTimer := some (max s.part.now due + 1000000)
          awaited := ⟨decide (0 < spaceOf s.part.inv.comps.a st.comps.a),
            decide (0 < spaceOf s.part.inv.comps.b st.comps.b)⟩ }).offer (bayreqNotice s.part st false) false))
  ∧ (∀ (s : State) (b : BayId) (e : BayEntry) (due : Nat) (r : QueueEntry) (rest : List QueueEntry),
    s.part.rsc.bays.get b = some e → e.timer = .expiry due → s.part.rsc.frozenAt = none → s.part.rsc.queue = r :: rest →
    e.urgency ≤ r.urgency → r.arrival ≤ s.part.rsc.arrival → s.part.hasBay b = true →
    (∀ b', b' ≠ b → s.part.rsc.bays.get b' ≠ none ∨ s.part.hasBay b' = false) →
    ∃ q : Part, exec (.grantExpiry b) s = s.goesTo q
      ∧ q.rsc.bays.get b = some
          { station := r.station, grant := nextGrant s.part.rsc.grantCounter, urgency := r.urgency, spaces := r.spaces
            loaded := ⟨0, 0⟩, active := 0, noteOffered := false, timer := .expiry (max s.part.now due + 90000000) }
      ∧ (∀ b', b' ≠ b → q.rsc.bays.get b' = s.part.rsc.bays.get b')
      ∧ q.rsc.grantCounter = nextGrant s.part.rsc.grantCounter
      ∧ { station := e.station, urgency := e.urgency, arrival := s.part.rsc.arrival + 1, spaces := e.spaces } ∈ q.rsc.queue
      ∧ q.rsc.queue.length = s.part.rsc.queue.length
      ∧ (s.part.snc.joined = true → s.part.snc.queue.length < 15 → q.snc.queue = s.part.snc.queue ++
          [⟨.baygrant e.station (bayNumber b) e.grant 1, false⟩,
            ⟨.baygrant r.station (bayNumber b) (nextGrant s.part.rsc.grantCounter) 0, false⟩])
      ∧ (q.hoses, q.pumps, q.machines, q.totals, q.inv, q.tlg, q.alc, q.pins, q.cfl)
          = (s.part.hoses, s.part.pumps, s.part.machines, s.part.totals, s.part.inv, s.part.tlg, s.part.alc, s.part.pins,
            s.part.cfl))
  ∧ ∀ (s : State) (b : BayId) (e : BayEntry) (due : Nat), s.part.rsc.bays.get b = some e → e.timer = .release due →
    s.part.rsc.frozenAt = none → s.part.rsc.queue = [] →
    exec (.releaseTimerExpiry b) s = s.goesTo
      ((s.part.reach due).setRsc { s.part.rsc with bays := s.part.rsc.bays.set b none })

/-- R158, R159, R161, R164: what the RSC does with a BAYGRANT, a LOADNOTE, a BAYREQ and a STOCK of its role; and nothing with
those of the other role or of another origin or station (R155, R168): a BAYGRANT or a LOADNOTE at a depot, a BAYREQ or a STOCK at a
bowser. R158: another grant in GRANTED is taken, and a revoke of another grant is not. R159, R160: a
load that empties the awaited set brings the bowser back to NORMAL, with a cancel BAYREQ. R161: the BAYREQ of a waiting
station updates its entry, which keeps its arrival order and takes its place by urgency and arrival. Four points are the
model's: the RESTOCK_STATE event stands before the GRANT event of one BAYGRANT and before a BAYREQ's offer (log 14), a new
entry's arrival order is the counter's value after its advance (log 20), a bay entry keeps its urgency at a repeated
BAYREQ (log 36), and a BAYGRANT whose revoke flag is above 1 has no effect (log 39). 01 R12, R13: a STOCK sets the role, the restock
state and the figures of its origin's peer entry and then reaches the RSC, and the three other kinds reach it alone. R162: where
nobody waits, a station that asks while a bay is free is granted it at once for 900 s. R164: a cancel or a STOCK frees its bay. -/
def Obligations.RestockNotices : Prop :=
  (∀ (p : Part) (i : Identity) (origin station bay grant revoke : Nat), p.identity = some i →
    (i.role = .depot ∨ origin ≠ i.depotStation ∨ station ≠ p.station ∨ bay = 0 ∨ 2 < bay ∨ grant = 0 →
      p.takeBaygrant origin station bay grant revoke = p)
    ∧ (i.role = .bowser → origin = i.depotStation → station = p.station → 1 ≤ bay → bay ≤ 2 → 1 ≤ grant →
      (p.rsc.state = .requested → revoke = 0 → p.takeBaygrant origin station bay grant revoke =
        ((p.setRsc { p.rsc with grant := some (bay, grant), repeatTimer := none, state := .granted }).event
          (.restockState .granted)).event (.grant station bay grant false))
      ∧ (p.rsc.state = .granted → p.rsc.grant.map (·.2) = some grant → revoke = 0 →
        p.takeBaygrant origin station bay grant revoke = p)
      ∧ (p.rsc.state = .granted → p.rsc.grant.map (·.2) = some grant → revoke = 1 →
        (p.takeBaygrant origin station bay grant revoke).rsc.state = .requested
          ∧ (p.takeBaygrant origin station bay grant revoke).rsc.grant = none
          ∧ (p.takeBaygrant origin station bay grant revoke).rsc.repeatTimer = some (p.now + 1000000))
      ∧ (p.rsc.state = .normal ∨ p.rsc.state = .draining ∨ p.rsc.state = .receiving →
        p.takeBaygrant origin station bay grant revoke = p)))
  ∧ (∀ (p : Part) (i : Identity) (origin station compartment grant gross standard : Nat) (c : CompId), p.identity = some i →
    compOfCode compartment = some c → i.role = .bowser → origin = i.depotStation → station = p.station →
    let booked := fun (unexpected : Bool) =>
      ((p.modComp c fun k => k.receive gross).wholeRecord c (.receipt c origin grant) (.receipt gross standard unexpected)).event
        (.loadnoteTaken c gross (!unexpected))
    (p.rsc.state = .normal ∨ p.rsc.state = .draining ∨ p.rsc.state = .requested ∨ p.rsc.grant.map (·.2) ≠ some grant →
      p.takeLoadnote origin station compartment grant gross standard = booked true)
    ∧ (p.rsc.state = .granted → p.rsc.grant.map (·.2) = some grant → p.rsc.awaited = ⟨true, true⟩ →
      p.takeLoadnote origin station compartment grant gross standard =
        ((booked false).setRsc { p.rsc with awaited := p.rsc.awaited.set c false, state := .receiving }).event
          (.restockState .receiving)))
  ∧ (∀ (p : Part) (origin spaceA spaceB urgency : Nat),
    (p.role ≠ some .depot → ∀ cancel, p.takeBayreq origin spaceA spaceB urgency cancel = p)
    ∧ (p.role = some .depot → urgency ≤ 1 → p.bayOf origin = none →
      (∀ e ∈ p.rsc.queue, e.station ≠ origin) → p.freeBay = none →
      p.takeBayreq origin spaceA spaceB urgency 0 = p.setRsc { p.rsc with
        arrival := p.rsc.arrival + 1
        queue := insertEntry { station := origin, urgency := urgency, arrival := p.rsc.arrival + 1, spaces := ⟨spaceA, spaceB⟩ }
          p.rsc.queue })
    ∧ (p.role = some .depot → urgency ≤ 1 → ∀ b e, p.bayOf origin = some b → p.rsc.bays.get b = some e →
      p.takeBayreq origin spaceA spaceB urgency 0 =
        (p.setRsc { p.rsc with bays := p.rsc.bays.set b (some { e with spaces := ⟨spaceA, spaceB⟩ }) }).offer
          (.baygrant origin (bayNumber b) e.grant 0) false)
    ∧ (p.role = some .depot → p.bayOf origin = none →
      let removed := p.setRsc { p.rsc with queue := p.rsc.queue.filter fun e => !(e.station == origin) }
      (∀ u, u ≤ 1 → p.takeBayreq origin spaceA spaceB u 1 = removed)
      ∧ p.takeStock origin (restockCode .normal) = removed ∧ p.takeStock origin (restockCode .draining) = removed))
  ∧ (∀ (p : Part) (i : Identity) (bay grant : Nat), p.identity = some i → i.role = .bowser → 1 ≤ bay → bay ≤ 2 → 1 ≤ grant →
    (p.rsc.state = .granted → p.rsc.grant.map (·.2) ≠ some grant →
      p.takeBaygrant i.depotStation p.station bay grant 0 =
        (p.setRsc { p.rsc with grant := some (bay, grant) }).event (.grant p.station bay grant false)
      ∧ p.takeBaygrant i.depotStation p.station bay grant 1 = p)
    ∧ (p.rsc.state = .requested → p.takeBaygrant i.depotStation p.station bay grant 1 = p))
  ∧ (∀ (p : Part) (i : Identity) (st : Settings) (compartment grant gross standard : Nat) (c : CompId), p.identity = some i →
    p.cfl.settings = some st → compOfCode compartment = some c → i.role = .bowser →
    p.rsc.state = .granted ∨ p.rsc.state = .receiving → p.rsc.grant.map (·.2) = some grant →
    let booked := ((p.modComp c fun k => k.receive gross).wholeRecord c (.receipt c i.depotStation grant)
      (.receipt gross standard false)).event (.loadnoteTaken c gross true)
    (p.rsc.awaited.get c = true → (∀ k, k ≠ c → p.rsc.awaited.get k = false) →
      p.takeLoadnote i.depotStation p.station compartment grant gross standard =
        ((booked.setRsc
          { p.rsc with state := .normal, repeatTimer := none, grant := none, awaited := ⟨false, false⟩ }).event
            (.restockState .normal)).offer (bayreqNotice booked st true) false)
    ∧ (p.rsc.state = .receiving → p.rsc.awaited.get c = false ∨ (∃ k, k ≠ c ∧ p.rsc.awaited.get k = true) →
      p.takeLoadnote i.depotStation p.station compartment grant gross standard =
        booked.setRsc { p.rsc with awaited := p.rsc.awaited.set c false }))
  ∧ (∀ (p : Part) (origin spaceA spaceB urgency : Nat) (front : List QueueEntry) (e : QueueEntry) (back : List QueueEntry),
    p.role = some .depot → urgency ≤ 1 → p.bayOf origin = none → p.rsc.queue = front ++ e :: back → e.station = origin →
    (∀ q ∈ front ++ back, q.station ≠ origin) →
    p.takeBayreq origin spaceA spaceB urgency 0 = p.setRsc
      { p.rsc with queue := insertEntry { e with urgency := urgency, spaces := ⟨spaceA, spaceB⟩ } (front ++ back) })
  ∧ (∀ (e : QueueEntry) (front back : List QueueEntry),
    (∀ q ∈ front, e.urgency < q.urgency ∨ q.urgency = e.urgency ∧ q.arrival ≤ e.arrival) →
    (∀ q ∈ back, q.urgency < e.urgency ∨ q.urgency = e.urgency ∧ e.arrival < q.arrival) →
    insertEntry e (front ++ back) = front ++ e :: back)
  ∧ (∀ (p : Part) (origin station compartment grant gross standard : Nat),
    (∀ i, p.identity = some i →
      i.role = .depot ∨ origin ≠ i.depotStation ∨ station ≠ p.station ∨ compartment ≠ 1 ∧ compartment ≠ 2 →
      p.takeLoadnote origin station compartment grant gross standard = p)
    ∧ ∀ code, p.role ≠ some .depot ∨ code ≠ restockCode .normal ∧ code ≠ restockCode .draining → p.takeStock origin code = p)
  ∧ (∀ (p : Part) (i : Identity) (compartment grant gross standard : Nat) (c : CompId), p.identity = some i →
    compOfCode compartment = some c → i.role = .bowser → p.rsc.state = .granted → p.rsc.grant.map (·.2) = some grant →
    p.rsc.awaited.get c = false ∨ (∃ k, k ≠ c ∧ p.rsc.awaited.get k = true) →
    p.takeLoadnote i.depotStation p.station compartment grant gross standard =
      ((((p.modComp c fun k => k.receive gross).wholeRecord c (.receipt c i.depotStation grant) (.receipt gross standard false)).event
        (.loadnoteTaken c gross true)).setRsc { p.rsc with awaited := p.rsc.awaited.set c false, state := .receiving }).event
        (.restockState .receiving))
  ∧ (∀ (p : Part) (origin : Nat),
    (∀ spaceA spaceB urgency cancel,
      p.deliver origin (.bayreq spaceA spaceB urgency cancel) = p.takeBayreq origin spaceA spaceB urgency cancel)
    ∧ (∀ station bay grant revoke,
      p.deliver origin (.baygrant station bay grant revoke) = p.takeBaygrant origin station bay grant revoke)
    ∧ (∀ station compartment grant gross standard, p.deliver origin (.loadnote station compartment grant gross standard) =
      p.takeLoadnote origin station compartment grant gross standard)
    ∧ ∀ (role code : Nat) (a b : StockFigures) (e : Peer), p.snc.peers[origin - 1]? = some e →
      p.deliver origin (.stock role code a b) =
        (p.setSnc { p.snc with
          peers := p.snc.peers.set (origin - 1)
            { e with role := some role, restockState := some code, figures := some (a, b) } }).takeStock origin code)
  ∧ (∀ (p : Part) (origin spaceA spaceB urgency : Nat) (b : BayId), p.role = some .depot → p.rsc.queue = [] →
    (urgency ≤ 1 → p.bayOf origin = none → p.freeBay = some b →
      let n := nextGrant p.rsc.grantCounter
      let e : BayEntry :=
        { station := origin, grant := n, urgency := urgency, spaces := ⟨spaceA, spaceB⟩, loaded := ⟨0, 0⟩, active := 0
          noteOffered := false, timer := .expiry (p.now + 90000000) }
      p.takeBayreq origin spaceA spaceB urgency 0 =
        ((p.setRsc { p.rsc with arrival := p.rsc.arrival + 1, grantCounter := n, bays := p.rsc.bays.set b (some e) }).offer
          (.baygrant origin (bayNumber b) n 0) false).event (.grant origin (bayNumber b) n false))
    ∧ (p.bayOf origin = some b →
      let freed := p.setRsc { p.rsc with bays := p.rsc.bays.set b none }
      (urgency ≤ 1 → p.takeBayreq origin spaceA spaceB urgency 1 = freed)
      ∧ p.takeStock origin (restockCode .normal) = freed ∧ p.takeStock origin (restockCode .draining) = freed))

/-- R167, 08 R148, 07 R132: DELIVERY. The checks in order; then the receipt is booked and a whole DELIVERY record is requested: it
takes the lowest FREE slot and the next sequence number and joins the write queue, or is counted as lost. -/
def Obligations.Deliveries : Prop :=
  (∀ (s : State) (compartment gross : Nat), s.part.LineFree →
    let booked := fun (c : CompId) =>
      ((s.part.respond .ok).modComp c fun k => k.receive gross).wholeRecord c (.delivery c) (.delivery gross)
    (compartment = 0 ∨ 2 < compartment → exec (.delivery (some compartment) (some gross)) s = s.goesTo (s.part.refuse .badValue))
    ∧ (∀ c, compOfCode compartment = some c →
      (s.part.cfl.load = .fault →
        exec (.delivery (some compartment) (some gross)) s = s.goesTo (s.part.refuse .configFault))
      ∧ (s.part.cfl.load ≠ .fault → s.part.role ≠ some .depot →
        exec (.delivery (some compartment) (some gross)) s = s.goesTo (s.part.refuse .wrongRole))
      ∧ (s.part.cfl.load ≠ .fault → s.part.role = some .depot → gross = 0 ∨ 6000000 < gross →
        exec (.delivery (some compartment) (some gross)) s = s.goesTo (s.part.refuse .badValue))
      ∧ (s.part.cfl.load ≠ .fault → s.part.role = some .depot → 1 ≤ gross → gross ≤ 6000000 →
        exec (.delivery (some compartment) (some gross)) s = s.goesTo (booked c))))
  ∧ (∀ (k : Compartment) (gross : Nat),
    (k.openingBook = none → k.receive gross = k)
    ∧ (k.openingBook ≠ none → -2147483648 ≤ k.receipts + gross → k.receipts + gross ≤ 2147483647 →
      -2147483648 ≤ k.book + gross → k.book + gross ≤ 2147483647 →
      k.receive gross = { k with receipts := k.receipts + gross, book := k.book + gross, receiptCheck := some 0 }))
  ∧ ∀ (p : Part) (c : CompId) (o : OpeningFields) (k : ClosingFields),
    let lost := p.setTlg { p.tlg with recordsLost := min (p.tlg.recordsLost + 1) 65535 }
    ((∀ u ∈ p.tlg.slots, u.state ≠ .free) ∨ 4294966271 < p.tlg.nextSequence → p.wholeRecord c o k = lost)
    ∧ (4 ≤ (p.tlg.waitLists.get c).length → p.wholeRecord c o k = lost)
    ∧ ∀ (i : Nat) (u : Slot), p.tlg.nextSequence ≤ 4294966271 → p.tlg.slots[i]? = some u → u.state = .free →
      (∀ (j : Nat) (v : Slot), j < i → p.tlg.slots[j]? = some v → v.state ≠ .free) → (p.tlg.waitLists.get c).length < 4 →
      let given : Tlg :=
        { p.tlg with
          nextSequence := p.tlg.nextSequence + 1
          slots := p.tlg.slots.set i
            { u with
              state := .opened
              opening := some
                { sequence := p.tlg.nextSequence, shift := p.alc.shift, startTime := p.alc.shiftSeconds, fields := o }
              closing := some { sequence := p.tlg.nextSequence, endTime := p.alc.shiftSeconds, fields := k } } }
      (p.tlg.queue.length < 8 → (∀ r ∈ p.tlg.queue, ∀ j, r ≠ .whole c j) →
        p.wholeRecord c o k = p.setTlg { given with queue := p.tlg.queue ++ [.whole c i] })
      ∧ ((∃ j, .whole c j ∈ p.tlg.queue) →
        p.wholeRecord c o k = p.setTlg { given with
          waitLists := p.tlg.waitLists.set c (p.tlg.waitLists.get c ++ [.whole c i]) })

/-! ## 10 Start and reload -/

/-- R169, R173, R174: START. Every block takes its start values, the straps give the station number or a strap fault, the pins'
levels and the log's memory stay; a log write in progress is complete or torn (`fate`, log 2). That the account
totals start at 0 is the model's choice (log 4). -/
def Obligations.StartCommand : Prop :=
  ∀ (s : State) (straps scanDone : Nat) (fate : WriteFate), ∃ q : Part, exec (.start straps scanDone fate) s = s.goesTo q
    ∧ q.cfl.stage = .imageLoad ∧ q.cfl.load = .loading ∧ q.cfl.presence = 0 ∧ q.cfl.settings = none
    ∧ q.cfl.station = (if 1 ≤ straps ∧ straps ≤ 14 then some straps else none)
    ∧ q.cfl.check = (if 1 ≤ straps ∧ straps ≤ 14 then none else some .badStation)
    ∧ q.pins = { s.part.pins with straps := straps } ∧ q.now = s.part.now
    ∧ (q.hoses, q.pumps, q.machines, q.totals, q.inv, q.rsc, q.cnl, q.snc, q.alc, q.requestOrder)
        = (State.reset.part.hoses, State.reset.part.pumps, State.reset.part.machines, State.reset.part.totals,
          State.reset.part.inv, State.reset.part.rsc, State.reset.part.cnl, State.reset.part.snc, State.reset.part.alc,
          State.reset.part.requestOrder)
    ∧ (q.tlg.writing, q.tlg.queue, q.tlg.waitLists, q.tlg.writes) = (none, [], ⟨[], []⟩, 0)
    ∧ q.tlg.slots.length = s.part.tlg.slots.length ∧ (∀ u ∈ q.tlg.slots, u.state = .free)
    ∧ (s.part.tlg.writing = none → s.part.tlg.scanWrites = [] →
        (q.tlg.slots.map fun u => (u.nvOpening, u.nvClosing)) = (s.part.tlg.slots.map fun u => (u.nvOpening, u.nvClosing))
        ∧ (q.tlg.bootFirst, q.tlg.bootSecond, q.tlg.markArea, q.tlg.checkpoints)
            = (s.part.tlg.bootFirst, s.part.tlg.bootSecond, s.part.tlg.markArea, s.part.tlg.checkpoints))
    ∧ (∀ h i k, s.part.tlg.writing = some (.closing h i) → s.part.tlg.scanWrites = [] → i < s.part.tlg.slots.length →
        (s.part.slot i).closing = some k →
        (fate = .complete → (q.slot i).nvClosing = .valid k) ∧ (∀ w, fate = .torn w → (q.slot i).nvClosing = .bad))

/-- R173, 07 R134 to R137: the end of the image load at start, GOOD or FAULT, and with it the start scan: the boot number, the class
of every slot, the next sequence number, which follows the greatest read and the mark, the shift, which is the highest read or 1,
the own column and the account totals, built from the CLOSED records of that shift; and the writes that wait: the advanced boot number
over the copy not read (R134), and the closing part of each record found open (R136), whose standard volume is at 20.0 degrees (04 R77)
and whose amount is priced under R140. That the scan's figures stand at
IMAGE_LOAD_END, before its writes, and that the header is none and the presence kept where no header was read, is the model's choice
(log 19), not a rule of the spec. -/
def Obligations.StartLoad : Prop :=
  (∀ (s : State) (store : Option (List Byte)) (r : Readings), s.part.cfl.stage = .imageLoad → s.part.cfl.station = none →
    ∃ q : Part, exec (.imageLoadEnd store r) s = s.goesTo q ∧ q.cfl.load = .fault ∧ q.cfl.check = some .badStation
      ∧ q.cfl.settings = none ∧ q.cfl.stage = .scanWrites)
  ∧ ∀ (s : State) (store : Option (List Byte)) (r : Readings) (n : Nat), s.part.cfl.stage = .imageLoad →
    s.part.cfl.station = some n →
    let res := loadImage n store
    let mark := s.part.tlg.markArea.value?.getD 0
    ∃ q : Part, exec (.imageLoadEnd store r) s = s.goesTo q
      ∧ q.cfl = { s.part.cfl with
          stage := .scanWrites, load := if res.check = .good then .good else .fault, check := some res.check
          presence := res.presence.getD s.part.cfl.presence, header := res.header, settings := res.content.map (·.1) }
      ∧ q.machines.map (·.entry) = (res.content.map (·.2)).getD []
      ∧ (∀ m ∈ q.machines, m.hold = { held := m.entry.held, reason := m.entry.reason, version := 0, author := n })
      ∧ (q.snc, q.cnl, q.inv, q.pins, q.pumps) = (s.part.snc, s.part.cnl, s.part.inv, s.part.pins, s.part.pumps)
      ∧ (s.part.tlg.bootFirst.value? = none → s.part.tlg.bootSecond.value? = none → q.tlg.bootNumber = 1)
      ∧ (∀ x, s.part.tlg.bootFirst.value? = some x → s.part.tlg.bootSecond.value? = none →
          q.tlg.bootNumber = (x + 1) % 256)
      ∧ (∀ x, s.part.tlg.bootFirst.value? = none → s.part.tlg.bootSecond.value? = some x →
          q.tlg.bootNumber = (x + 1) % 256)
      ∧ (∀ x y, s.part.tlg.bootFirst.value? = some x → s.part.tlg.bootSecond.value? = some y → x < 256 → y < 256 →
          (1 ≤ (x + 256 - y) % 256 → (x + 256 - y) % 256 ≤ 127 → q.tlg.bootNumber = (x + 1) % 256)
          ∧ (1 ≤ (y + 256 - x) % 256 → (y + 256 - x) % 256 ≤ 127 → q.tlg.bootNumber = (y + 1) % 256)
          ∧ (x = y ∨ (x + 256 - y) % 256 = 128 → q.tlg.bootNumber = (max x y + 1) % 256))
      ∧ (∀ (i : Nat) (u : Slot), s.part.tlg.slots[i]? = some u →
          (u.nvOpening = .blank ∨ u.nvOpening = .bad → (q.slot i).state = .free)
          ∧ ∀ o, u.nvOpening = .valid o →
            (o.sequence ≤ mark → (q.slot i).state = .free)
            ∧ (mark < o.sequence → ∀ k, u.nvClosing = .valid k → k.sequence = o.sequence →
                (q.slot i).state = .closed ∧ (q.slot i).opening = some o ∧ (q.slot i).closing = some k)
            ∧ (mark < o.sequence → (∀ k, u.nvClosing = .valid k → k.sequence ≠ o.sequence) →
                ((∀ l h a b g m cl pr t, o.fields ≠ .fill l h a b g m cl pr t) → (q.slot i).state = .free)
                ∧ ∀ l h machine account grade method claim preset target,
                  o.fields = .fill l h machine account grade method claim preset target →
                  (q.slot i).state = .closed ∧ (q.slot i).opening = some o
                  ∧ ∃ gross standard amount,
                    (q.slot i).closing = some
                      { sequence := o.sequence, endTime := o.startTime
                        fields := .fill preset gross standard 200 amount .powerLoss { estimated := true } }
                    ∧ (∀ g, s.part.tlg.checkpoints.get h = .valid (o.sequence, g) → gross = g)
                    ∧ ((∀ g, s.part.tlg.checkpoints.get h ≠ .valid (o.sequence, g)) → gross = 0)
                    ∧ (q.cfl.settings = none → standard = (gross * 10000 + 5000) / 10000 ∧ amount = 0)
                    ∧ ∀ st, q.cfl.settings = some st →
                      (∀ factor, st.correction[(grade - 1) * 36 + 20]? = some factor →
                        standard = (gross * factor + 5000) / 10000)
                      ∧ ∀ a price, st.accounts[account]? = some a → st.tariff[(grade - 1) * 4 + a.band]? = some price →
                        amount = min ((standard * price + 50) / 100) 4294967295))
      ∧ mark < q.tlg.nextSequence
      ∧ (∀ u ∈ s.part.tlg.slots, ∀ o, u.nvOpening = .valid o → o.sequence < q.tlg.nextSequence ∧ o.shift ≤ q.alc.shift)
      ∧ ((∀ u ∈ s.part.tlg.slots, ∀ o, u.nvOpening ≠ .valid o) → q.tlg.nextSequence = mark + 1 ∧ q.alc.shift = 1)
      ∧ (let read := s.part.tlg.slots.filterMap fun u => u.nvOpening.value?
         let filled : Slot → Option (Bool × Nat × Nat × Nat × Nat × Nat) := fun u =>
           match u.state, u.opening, u.closing.map Closing.fields with
           | .closed, some ⟨_, shift, _, .fill loadout _ machine account _ _ _ _ _⟩, some (.fill _ gross standard _ amount _ _) =>
             if shift = q.alc.shift then some (loadout, machine, account, gross, standard, amount) else none
           | _, _, _ => none
         let own := fun number => (q.tlg.slots.map fun u => match filled u with
           | some (false, machine, _, gross, _, _) => if machine = number then gross else 0
           | _ => 0).sum
         q.tlg.nextSequence = (read.map (·.sequence)).foldl max mark + 1
         ∧ q.alc.shift = (read.map (·.shift)).foldl max 1
         ∧ (∀ m ∈ q.machines, own m.entry.number ≤ 4294967295 →
             m.drawn = (List.replicate 14 0).set (n - 1) (own m.entry.number))
         ∧ ∀ account, account < 64 → q.totals[account]? = some
             { volume := min ((q.tlg.slots.map fun u => match filled u with
                 | some (_, _, a, _, standard, _) => if a = account then standard else 0
                 | none => 0).sum) 4294967295
               amount := min ((q.tlg.slots.map fun u => match filled u with
                 | some (_, _, a, _, _, amount) => if a = account then amount else 0
                 | none => 0).sum) 4294967295 })
      ∧ (∃ second closings, q.tlg.scanWrites = .boot second q.tlg.bootNumber :: closings
          ∧ (∀ x, s.part.tlg.bootFirst.value? = some x → s.part.tlg.bootSecond.value? = none → second = true)
          ∧ (∀ x, s.part.tlg.bootFirst.value? = none → s.part.tlg.bootSecond.value? = some x → second = false)
          ∧ (s.part.tlg.bootFirst.value? = none → s.part.tlg.bootSecond.value? = none → second = true)
          ∧ (∀ x y, s.part.tlg.bootFirst.value? = some x → s.part.tlg.bootSecond.value? = some y → x < 256 → y < 256 →
              (1 ≤ (x + 256 - y) % 256 → (x + 256 - y) % 256 ≤ 127 → second = true)
              ∧ (1 ≤ (y + 256 - x) % 256 → (y + 256 - x) % 256 ≤ 127 → second = false)
              ∧ (x = y ∨ (x + 256 - y) % 256 = 128 → second = decide (y ≤ x)))
          ∧ (∀ w ∈ closings, ∃ i k, w = .recovered i k)
          ∧ ∀ i k, .recovered i k ∈ closings ↔ ∃ u o, s.part.tlg.slots[i]? = some u ∧ u.nvOpening = .valid o ∧ mark < o.sequence
              ∧ (∀ k', u.nvClosing = .valid k' → k'.sequence ≠ o.sequence)
              ∧ (∃ l h m a g e c p t, o.fields = .fill l h m a g e c p t) ∧ (q.slot i).closing = some k)

/-- R173: the end of the start sequence. The scan's writes are in memory: the boot number in its copy (07 R134) and the closing parts of
the recovered records in their slots (07 R136), and no other area is touched. In FAULT the ALC stays in LISTEN with no timer and the
net is not joined; with settings the
inventory begins sampling, the listen time runs and the net is joined with a STOCK (01 R20, 03 R52, 08 R153). Nozzles off hook are
lifts (06 R102), and the console line is free (11 R178). -/
def Obligations.ScanWritesDone : Prop :=
  ∀ (s : State) (r : Readings), s.part.cfl.stage = .scanWrites → ∃ q : Part, exec (.scanWritesDone r) s = s.goesTo q
    ∧ q.cfl = { s.part.cfl with stage := .running } ∧ q.tlg.scanWrites = []
    ∧ q.cnl.response = none ∧ q.cnl.reloading = false ∧ q.cnl.busyWaiting = 0
    ∧ (s.part.cfl.settings = none → q.snc = s.part.snc ∧ q.inv = s.part.inv
        ∧ q.alc = { s.part.alc with listen := .listen, listenTimer := none })
    ∧ (∀ st, s.part.cfl.settings = some st →
        q.snc.joined = true ∧ q.snc.tx = .idle ∧ q.snc.inHand = none ∧ q.snc.cursor = 0
        ∧ q.snc.sweep = some (s.part.now + 400000) ∧ (∃ n, q.snc.queue = [⟨n, true⟩] ∧ n.kind = .stock)
        ∧ q.inv.sampleTimer = some (s.part.now + 200000) ∧ q.inv.stockTimer = some (s.part.now + 6000000)
        ∧ q.alc.listen = (if st.identity.listenTime = 0 then .ready else .listen)
        ∧ q.alc.listenTimer = (if st.identity.listenTime = 0 then none
            else some (s.part.now + 100000 * st.identity.listenTime)))
    ∧ (∀ h, (s.part.pins.hoses.get h).nozzle = .offHook → (q.hose h).nozzle = .offHook ∧ (q.hose h).dsc = .lifted)
    ∧ (q.machines, q.totals, q.pins) = (s.part.machines, s.part.totals, s.part.pins)
    ∧ (∀ second v closings, s.part.tlg.scanWrites = .boot second v :: closings → (∀ w ∈ closings, ∃ i k, w = .recovered i k) →
        q.tlg.bootFirst = (if second = true then s.part.tlg.bootFirst else .valid v)
        ∧ q.tlg.bootSecond = (if second = true then .valid v else s.part.tlg.bootSecond)
        ∧ ∀ i u, s.part.tlg.slots[i]? = some u → (q.slot i).nvOpening = u.nvOpening
          ∧ (∀ k, .recovered i k ∈ closings → (∀ k', .recovered i k' ∈ closings → k' = k) → (q.slot i).nvClosing = .valid k)
          ∧ ((∀ k, .recovered i k ∉ closings) → (q.slot i).nvClosing = u.nvClosing))
    ∧ q.tlg.bootNumber = s.part.tlg.bootNumber
    ∧ (q.tlg.markArea, q.tlg.checkpoints) = (s.part.tlg.markArea, s.part.tlg.checkpoints)

/-- R170: the checks of a load in order; the first that fails gives the check result, and the content is put in force only when all
pass. -/
def Obligations.LoadChecks : Prop :=
  (∀ station, (loadImage station none).check = .noAnswer ∧ (loadImage station none).content = none)
  ∧ (∀ station store, (loadImage station store).content ≠ none ↔ (loadImage station store).check = .good)
  ∧ ∀ (station : Nat) (b : List Byte),
    let h := headerOf b
    let check := (loadImage station (some b)).check
    (b.length < 34 ∨ b.length < h.length → check = .noAnswer)
    ∧ (34 ≤ b.length → h.length ≤ b.length →
      (h.marker ≠ 0x6B1D → check = .badMarker)
      ∧ (h.marker = 0x6B1D → h.format ≠ 1 → check = .badFormat)
      ∧ (h.marker = 0x6B1D → h.format = 1 →
        (h.length < 34 ∨ 16384 < h.length ∨ 2048 ≤ h.presence → check = .badLength)
        ∧ (lengthOk b h = false → check = .badLength)
        ∧ (lengthOk b h = true →
          ((crc32 (withoutCrc b h.length)).toNat ≠ h.crc → check = .badCrc)
          ∧ ((crc32 (withoutCrc b h.length)).toNat = h.crc →
            (h.has 0 = false ∨ h.has 5 = false ∨ h.has 6 = false → check = .missingSection)
            ∧ (h.has 0 = true → h.has 5 = true → h.has 6 = true →
              (contentOf station b h = none → check = .badValue)
              ∧ ∀ st machines, contentOf station b h = some (st, machines) →
                let rising := fun (l : List (Nat × Nat)) => l.Pairwise fun p q => p.1 < q.1 ∧ p.2 < q.2
                let numbers := (machines.map (·.number)).Nodup
                let tags := ((machines.map (·.tag)).filter fun t => !(t == 0)).Nodup
                (st.identity.role = .bowser → st.identity.depotStation ≠ station)
                ∧ (¬ (rising st.comps.a.strapping ∧ rising st.comps.b.strapping) → check = .badStrapping)
                ∧ (rising st.comps.a.strapping → rising st.comps.b.strapping →
                  (¬ numbers → check = .duplicateMachine)
                  ∧ (numbers → ¬ tags → check = .duplicateTag)
                  ∧ (numbers → tags → loadImage station (some b) =
                      { check := .good, header := some (h.length, BitVec.ofNat 32 h.crc)
                        presence := some (BitVec.ofNat 16 h.presence), content := some (st, machines) })))))))

/-- R175 to R177: RELOAD. Refused with BUSY unless every hose is IDLE and the restock state NORMAL; taken, it loads; a load
that ends in FAULT stops the net, the pumps and the sampling and discards settings and machine table; one that ends in GOOD
puts the image in force, each row of the draw table following its machine number. 09 R168: with no transaction on any hose, a depot
that stays a depot keeps its queue, bays, timers and counters, but for the grant of a bay that is gone, which is revoked; a bowser
that stays a bowser keeps its side where the sample event of the load triggers nothing (09 R156); a change of role empties the
queue, frees the bays and starts the bowser side anew. Four points are the model's: that this BUSY leaves CNL_BUSY unchanged
(log 15), that the listen timer runs on in FAULT (log 17), that the counters are kept at a change of role (log 27), and that a
revoked station waits under the arrival counter's value after its advance (log 20). -/
def Obligations.Reload : Prop :=
  (∀ s : State, s.part.LineFree →
    ((∃ h, (s.part.hose h).dsc ≠ .idle) ∨ s.part.rsc.state ≠ .normal → exec .reload s = s.goesTo (s.part.refuse .busy))
    ∧ ((∀ h, (s.part.hose h).dsc = .idle) → s.part.rsc.state = .normal →
      (∀ n, s.part.cfl.station = some n → exec .reload s = s.goesTo
        ((s.part.setCfl { s.part.cfl with load := .loading }).setCnl { s.part.cnl with reloading := true }))
      ∧ (s.part.cfl.station = none → ∃ q : Part, exec .reload s = s.goesTo q ∧ q.cfl.load = .fault
        ∧ q.cfl.check = some .badStation ∧ q.cnl.response = some (.loadFault .badStation))))
  ∧ (∀ (s : State) (store : Option (List Byte)) (r : Readings) (n : Nat), s.part.cfl.stage = .running →
    s.part.cnl.reloading = true → s.part.cfl.station = some n →
    let res := loadImage n store
    (res.check ≠ .good → ∃ q : Part, exec (.imageLoadEnd store r) s = s.goesTo q
      ∧ q.cnl.response = some (.loadFault res.check) ∧ q.cnl.reloading = false
      ∧ q.cfl.load = .fault ∧ q.cfl.check = some res.check ∧ q.cfl.settings = none
      ∧ q.machines = [] ∧ q.alc = { s.part.alc with peerClaims := [] }
      ∧ q.snc.joined = false ∧ q.snc.queue = [] ∧ q.snc.tx = .idle ∧ q.snc.inHand = none ∧ q.snc.sweep = none
      ∧ q.snc.peers = s.part.snc.peers ∧ q.snc.sequence = s.part.snc.sequence
      ∧ (∀ i, (q.pumps.get i).state = .stopped)
      ∧ q.inv.sampleTimer = none ∧ q.inv.stockTimer = none
      ∧ (∀ c, (q.comp c).history = [] ∧ (q.comp c).gauge = none ∧ (q.comp c).settled = false
          ∧ (q.comp c).openingBook = (s.part.comp c).openingBook ∧ (q.comp c).book = (s.part.comp c).book)
      ∧ (q.tlg, q.totals, q.pins) = (s.part.tlg, s.part.totals, s.part.pins))
    ∧ ∀ st entries, res.content = some (st, entries) → ∃ q : Part, exec (.imageLoadEnd store r) s = s.goesTo q
      ∧ q.cnl.response = some .okLoad ∧ q.cnl.reloading = false
      ∧ q.cfl.load = .good ∧ q.cfl.check = some .good ∧ q.cfl.settings = some st
      ∧ q.machines.map (·.entry) = entries
      ∧ (∀ m ∈ q.machines, m.hold = { held := m.entry.held, reason := m.entry.reason, version := 0, author := n }
          ∧ ∀ o, s.part.machines.find? (fun o => o.entry.number == m.entry.number) = some o → m.drawn = o.drawn)
      ∧ q.alc.peerClaims = [] ∧ q.alc.shift = s.part.alc.shift
      ∧ q.alc.listen = (if st.identity.listenTime = 0 then .ready else .listen)
      ∧ q.alc.listenTimer = (if st.identity.listenTime = 0 then none else some (s.part.now + 100000 * st.identity.listenTime))
      ∧ q.snc.joined = true ∧ q.snc.cursor = 0 ∧ q.snc.peers = s.part.snc.peers
      ∧ q.inv.sampleTimer = some (s.part.now + 200000)
      ∧ (∀ c, (q.comp c).openingBook = (s.part.comp c).openingBook ∧ (q.comp c).book = (s.part.comp c).book)
      ∧ q.totals = s.part.totals)
  ∧ ∀ (s : State) (store : Option (List Byte)) (r : Readings) (n : Nat) (st : Settings) (entries : List MachineEntry),
    s.part.cfl.stage = .running → s.part.cnl.reloading = true → s.part.cfl.station = some n →
    (loadImage n store).content = some (st, entries) → s.part.Quiet →
    (∀ h, (s.part.hose h).dsc = .idle ∨ (s.part.hose h).dsc = .lifted) → s.part.rsc.frozenAt = none →
    let c := s.part.rsc
    ∃ q : Part, exec (.imageLoadEnd store r) s = s.goesTo q
      ∧ (st.identity.role = .depot → c.roleInForce = some .depot →
        (c.bays.b2 = none ∨ 2 ≤ st.identity.bays → q.rsc = c)
        ∧ ∀ e w, c.bays = ⟨some w, some e⟩ → st.identity.bays = 1 → q.rsc = { c with
            arrival := c.arrival + 1, bays := ⟨some w, none⟩
            queue := insertEntry { station := e.station, urgency := e.urgency, arrival := c.arrival + 1, spaces := e.spaces } c.queue })
      ∧ (st.identity.role = .depot → c.roleInForce = some .bowser → q.rsc = { c with
          roleInForce := some .depot, state := .normal, grant := none, awaited := ⟨false, false⟩, repeatTimer := none
          armed := ⟨true, true⟩, queue := [], bays := ⟨none, none⟩ })
      ∧ (st.identity.role = .bowser → c.roleInForce = some .depot → q.rsc.queue = [] ∧ q.rsc.bays = ⟨none, none⟩
        ∧ q.rsc.grant = none ∧ (q.rsc.state = .normal ∨ q.rsc.state = .requested))
      ∧ (st.identity.role = .bowser → c.roleInForce = some .bowser →
        (∀ k, (s.part.comp k).openingBook = none ∨ c.armed.get k = true ∧ ((st.comps.get k).autoRequest = false
          ∨ (((st.comps.get k).restockLevel * 100 : Nat) : Int) ≤ (s.part.comp k).book)) → q.rsc = c)

/-! ## 11 The console line -/

/-- R178, R179: the line. A request that arrives while it is busy is not acted on: a BUSY answer waits, or with four waiting
it is discarded; that the limit of four holds in the start sequence too is the model's reading (log 28). A response sent
frees the line, then the BUSY answers one by one; that an answer counts among the four until it has been sent is the model's choice
(log 37). What is no request, and a request without its fields, is refused; that a
request without a field is refused like one with a field out of range, and the order of the checks, are the model's reading
(log 15). -/
def Obligations.ConsoleLine : Prop :=
  (∀ (s : State) (m1 m2 : Field) (what : BadMessage),
    s.part.cfl.stage ≠ .running ∨ s.part.cnl.response ≠ none ∨ s.part.cnl.reloading = true ∨ 0 < s.part.cnl.busyWaiting →
    ∀ c ∈ [Instr.status, .hose m1, .preset m1 m2, .stop m1, .keyed m1 m2, .hold m1 m2, .unhold m1, .shift, .restock,
        .restockCancel, .restockDone, .delivery m1 m2, .readlog m1, .release m1, .accounts, .peers, .diag, .events, .reload,
        .invalidRequest what],
      (s.part.cnl.busyWaiting < 4 → exec c s = s.goesTo (s.part.setCnl
        { s.part.cnl with
          busyWaiting := s.part.cnl.busyWaiting + 1, busyCount := min (s.part.cnl.busyCount + 1) 65535 }))
      ∧ (4 ≤ s.part.cnl.busyWaiting → exec c s = s.goesTo (s.part.setCnl
        { s.part.cnl with overrun := min (s.part.cnl.overrun + 1) 65535 })))
  ∧ (∀ s : State,
    (∀ a, s.part.cnl.response = some a → exec .responseSent s = s.goesTo (s.part.setCnl { s.part.cnl with response := none }))
    ∧ (∀ n, s.part.cnl.response = none → s.part.cnl.reloading = false → s.part.cnl.busyWaiting = n + 1 →
      exec .responseSent s = s.goesTo (s.part.setCnl { s.part.cnl with busyWaiting := n })))
  ∧ ∀ s : State, s.part.LineFree →
    exec (.invalidRequest .badFrame) s = s.goesTo (s.part.setCnl
      { s.part.cnl with bad := min (s.part.cnl.bad + 1) 65535, response := some (.refused .badFrame) })
    ∧ exec (.invalidRequest .unknownKind) s = s.goesTo (s.part.refuse .badRequest)
    ∧ (∀ f : Field, f = none ∨ f = some 0 ∨ (∃ n, 4 < n ∧ f = some n) →
      ∀ g : Field, ∀ c ∈ [Instr.hose f, .stop f, .preset f g, .keyed f g], exec c s = s.goesTo (s.part.refuse .badValue))
    ∧ (∀ f : Field, ∀ c ∈ [Instr.preset f none, .keyed f none, .hold f none, .hold none f, .unhold none, .delivery f none,
        .delivery none f, .readlog none, .release none], exec c s = s.goesTo (s.part.refuse .badValue))
    ∧ ∀ n, 4294967295 < n → exec (.readlog (some n)) s = s.goesTo (s.part.refuse .badValue)
      ∧ exec (.release (some n)) s = s.goesTo (s.part.refuse .badValue)

/-- R180, 05 R90: PRESET by hose state. -/
def Obligations.Presets : Prop :=
  ∀ (s : State) (h : HoseId) (field volume : Nat), s.part.LineFree → hoseField (some field) = some h →
    (((s.part.hose h).dsc = .idle ∨ (s.part.hose h).dsc = .lifted ∨ (s.part.hose h).dsc = .done) →
      (s.part.role = some .depot → exec (.preset (some field) (some volume)) s = s.goesTo (s.part.refuse .wrongRole))
      ∧ (s.part.role = some .bowser →
        (volume = 0 → exec (.preset (some field) (some volume)) s = s.goesTo
          ((s.part.respond .ok).modHose h fun u => { u with standing := none }))
        ∧ (200 ≤ volume → volume ≤ 6000000 → exec (.preset (some field) (some volume)) s = s.goesTo
          ((s.part.respond .ok).modHose h fun u => { u with standing := some volume }))
        ∧ (1 ≤ volume ∧ volume < 200 ∨ 6000000 < volume → exec (.preset (some field) (some volume)) s = s.goesTo
          (s.part.refuse .badValue))))
    ∧ ((s.part.hose h).dsc = .stopping ∨ (s.part.hose h).dsc = .committing →
      exec (.preset (some field) (some volume)) s = s.goesTo (s.part.refuse .badState))
    ∧ (((s.part.hose h).dsc = .authorising ∨ (s.part.hose h).dsc = .awaitPump ∨ (s.part.hose h).dsc = .flowing) →
      (6000000 < volume → exec (.preset (some field) (some volume)) s = s.goesTo (s.part.refuse .badValue))
      ∧ (volume ≤ 6000000 →
        (s.part.hose h).valves.active ≤ volume ∨ (∃ v, (s.part.hose h).valves.pending = some v ∧ v ≤ volume) →
        exec (.preset (some field) (some volume)) s = s.goesTo (s.part.refuse .notLower)))
    ∧ (∀ st, (s.part.hose h).dsc = .authorising → s.part.Quiet → s.part.hoseSettings h = some st →
      (s.part.hose h).valves.phase = .shut → volume ≤ 6000000 → volume < (s.part.hose h).valves.active →
      (∀ v, (s.part.hose h).valves.pending = some v → volume < v) →
      exec (.preset (some field) (some volume)) s = s.goesTo
        ((s.part.respond .ok).modValves h fun v => { v with pending := some volume }))

/-- R178, R182, R183, 06 R123, 05 R101, 04 R79, 07 R124, R141, 01 R13, 03 R44, 08 R154, 09 R155, R161, R162: the requests that only read.
The response is the report of the moment, whose figures stand below for HOSE, DIAG, ACCOUNTS, PEERS and STATUS, and no other value changes;
EVENTS takes every event and LOST, and the attention output is deasserted. An event offered afterwards joins the emptied queue and
asserts the output again; an EVENTS refused with BUSY leaves the queue and LOST as they are. What the reports show
of figures that need an image, while none is in force, is the model's choice (log 35), and so is the rounding of a timer's seconds left
(log 9). -/
def Obligations.ReadOnlyRequests : Prop :=
  (∀ s : State, s.part.LineFree →
    exec .status s = s.goesTo (s.part.setCnl { s.part.cnl with response := some (.okStatus s.part.statusReport) })
    ∧ exec .diag s = s.goesTo (s.part.setCnl { s.part.cnl with response := some (.okDiag s.part.diagReport) })
    ∧ exec .accounts s = s.goesTo (s.part.setCnl
        { s.part.cnl with response := some (.okAccounts ((List.range 64).map s.part.accountReport)) })
    ∧ exec .peers s = s.goesTo (s.part.setCnl
        { s.part.cnl with response := some (.okPeers ((List.range 14).map s.part.peerReport)) })
    ∧ (∀ field h, hoseField (some field) = some h → exec (.hose (some field)) s = s.goesTo
        (s.part.setCnl { s.part.cnl with response := some (.okHose (s.part.hoseReport h)) }))
    ∧ (let taken := s.part.setCnl
        { s.part.cnl with response := some (.okEvents s.part.cnl.events s.part.cnl.lost), events := [], lost := false }
      exec .events s = s.goesTo taken ∧ taken.attention = false
        ∧ ∀ e, (taken.event e).cnl.events = [e] ∧ (taken.event e).cnl.lost = false ∧ (taken.event e).attention = true
          ∧ (taken.event e).cnl.response = taken.cnl.response))
  ∧ (∀ s : State, s.part.cfl.stage ≠ .running ∨ s.part.cnl.response ≠ none ∨ s.part.cnl.reloading = true ∨ 0 < s.part.cnl.busyWaiting →
    ∃ q : Part, exec .events s = s.goesTo q ∧ q.cnl.events = s.part.cnl.events ∧ q.cnl.lost = s.part.cnl.lost
      ∧ q.attention = s.part.attention)
  ∧ (∀ (p : Part) (h : HoseId),
    let u := p.hose h
    let m := u.meter
    let valve := fun (v : Valve) (phases : List Phase) =>
      ({ command := if u.valves.phase ∈ phases then .opened else .closed, switch := v.switch, latch := v.latch } : ValveReport)
    p.hoseReport h =
      { dsc := u.dsc, nozzle := u.nozzle, tagPresent := decide (u.reader.readTag ≠ none)
        context := u.context.map fun x =>
          { machine := x.machine, account := x.account, method := x.method, preset := x.preset, claim := x.claim
            claimStatus := u.claim.map (·.status), shift := x.shift, sequence := x.sequence, metered := x.metered
            cause := x.cause, faults := x.faults
            drawn := ((p.machines.find? fun r => r.entry.number == x.machine).map fun r => r.drawn.sum).getD 0
            hold := p.machines[x.position]?.map (·.hold) }
        summary := if u.context = none then u.summary else none
        standing := u.standing, phase := u.valves.phase
        trim := valve u.valves.trim [.trim, .full, .taper], main := valve u.valves.main [.full]
        active := u.valves.active, pending := u.valves.pending, pumpWaitLeft := u.pumpWait.map (secondsLeft p.now)
        window := m.window, gross := m.gross, heldRate := m.heldRate, live := m.live, sticky := m.sticky
        errorCount := m.errorCount
        reverseVolume := (p.hoseSettings h).map fun st => m.deficit * 100 * st.calibration / (st.stepsPerLitre * 10000)
        creepVolume := (p.hoseSettings h).map fun st => m.creep * 100 * st.calibration / (st.stepsPerLitre * 10000)
        creepMark := m.creepMark })
  ∧ (∀ p : Part,
    p.diagReport =
      { rxGood := p.snc.rxGood, rxBad := p.snc.rxBad, rxForeign := p.snc.rxForeign, rxUnknown := p.snc.rxUnknown
        rxOwn := p.snc.rxOwn, rxRepeat := p.snc.rxRepeat, rxStale := p.snc.rxStale, txSent := p.snc.txSent
        txCollisions := p.snc.txCollisions, txCollided := p.snc.txCollided, txYielded := p.snc.txYielded
        txDropped := p.snc.txDropped, peers := p.snc.peers.map fun e => (e.received, e.lost)
        hoses := p.hoses.map fun _ u =>
          { badChecks := u.reader.badChecks, readerFault := u.reader.fault, live := u.meter.live, sticky := u.meter.sticky
            errorCount := u.meter.errorCount, totalErrors := u.meter.totalErrors, totalForward := u.meter.totalForward
            totalReverse := u.meter.totalReverse, totalCreep := u.meter.totalCreep, trimFaults := u.valves.trim.faults
            mainFaults := u.valves.main.faults }
        primes := ⟨(p.pumps.get .p1).primes, (p.pumps.get .p2).primes⟩, writes := p.tlg.writes
        ckptDropped := p.tlg.ckptDropped, ckptDisplaced := p.tlg.ckptDisplaced, recordsLost := p.tlg.recordsLost
        scanTorn := p.tlg.scanTorn, scanRecovered := p.tlg.scanRecovered
        comps := ⟨((p.comp .a).samples, (p.comp .a).clampedLevels, (p.comp .a).clampedTemps),
          ((p.comp .b).samples, (p.comp .b).clampedLevels, (p.comp .b).clampedTemps)⟩
        cnlBad := p.cnl.bad, cnlBusy := p.cnl.busyCount, cnlOverrun := p.cnl.overrun }
    ∧ (∀ a, p.accountReport a =
      { settings := p.cfl.settings.bind fun st => st.accounts[a]?
        drawn := ((p.machines.filter fun r => r.entry.account == a).map fun r => r.drawn.sum).sum
        totals := p.totals[a]?.getD ⟨0, 0⟩ })
    ∧ (∀ i, p.peerReport i =
      { entry := p.snc.peers[i]?.getD Peer.start, own := decide (p.cfl.station = some (i + 1))
        claims := (p.alc.peerClaims.filter fun c => c.origin == i + 1).length
        reserved := ((p.alc.peerClaims.filter fun c => c.origin == i + 1).map (·.reserved)).sum }))
  ∧ (∀ p : Part,
    let r := p.statusReport
    let count := fun st => (p.tlg.slots.filter fun u => u.state == st).length
    (r.shift, r.shiftSeconds, r.listen, r.listenLeft) =
        (p.alc.shift, p.alc.shiftSeconds, p.alc.listen, p.alc.listenTimer.map (secondsLeft p.now))
    ∧ (∀ i, (r.pumps.get i).state = (p.pumps.get i).state ∧ (r.pumps.get i).grants = (p.pumps.get i).grants
      ∧ (r.pumps.get i).limit = p.cfl.settings.map (fun st => st.identity.limits.get i)
      ∧ (∃ l : List Request, l.Perm (p.pumps.get i).requests
        ∧ (r.pumps.get i).requests = l.map (fun t => (t.hose, t.priority,
            !((p.hose t.hose).valves.trim.latch || (p.hose t.hose).valves.main.latch)))
        ∧ ∀ base, (∀ t ∈ (p.pumps.get i).requests, t.order < 4294967296 ∧ (t.order + 4294967296 - base) % 4294967296 ≤ 2147483647) →
          base < 4294967296 → l.Pairwise fun t t' => t'.priority < t.priority ∨ t'.priority = t.priority
            ∧ (t.order + 4294967296 - base) % 4294967296 ≤ (t'.order + 4294967296 - base) % 4294967296))
    ∧ (r.free, r.reserved, r.opened, r.closed) = (count .free, count .reserved, count .opened, count .closed)
    ∧ (∀ n, r.oldest = some n → (∃ u ∈ p.tlg.slots, u.record.map (·.sequence) = some n)
      ∧ ∀ u ∈ p.tlg.slots, ∀ o, u.record = some o → 0 < o.sequence → n ≤ o.sequence)
    ∧ (∀ n, r.newest = some n → (∃ u ∈ p.tlg.slots, u.record.map (·.sequence) = some n)
      ∧ ∀ u ∈ p.tlg.slots, ∀ o, u.record = some o → o.sequence ≤ n)
    ∧ ((∃ u ∈ p.tlg.slots, ∃ o, u.record = some o ∧ 0 < o.sequence) → r.oldest ≠ none ∧ r.newest ≠ none)
    ∧ (r.nextSequence, r.recordsLost, r.bootNumber) = (p.tlg.nextSequence, p.tlg.recordsLost, p.tlg.bootNumber)
    ∧ (∀ c, r.comps.get c =
      { figures := p.comp c, gaugeLitres := (p.comp c).gauge.map (· / 100)
        available := p.cfl.settings.map fun st => (p.comp c).book - (((st.comps.get c).reserve * 100 : Nat) : Int) })
    ∧ (p.role = some .bowser → r.restock =
      .bowser p.rsc.state p.rsc.grant p.rsc.awaited (p.rsc.repeatTimer.map (secondsLeft (p.rsc.frozenAt.getD p.now))))
    ∧ (∀ st, p.cfl.settings = some st → st.identity.role = .depot → r.restock =
      .depot p.rsc.queue (([.b1, .b2].filter fun b => decide (bayNumber b ≤ st.identity.bays)).map fun b => (b, p.rsc.bays.get b)))
    ∧ (r.load, r.check, r.presence, r.header, r.station) =
        (p.cfl.load, p.cfl.check, p.cfl.presence, p.cfl.header, p.cfl.station))
  ∧ ∀ now due, secondsLeft now due = (due - now) / 100000
      ∨ (due - now) % 100000 ≠ 0 ∧ secondsLeft now due = (due - now) / 100000 + 1

/-! ## Frames and invariants -/

/-- The frame of the commands that act on a hose or a pump: in every state they leave the machine table, the draw table, the
account totals, the inventory, the shift, the peer table, the log's memory and the settings alone; on the net they touch the
queue and its two counters, on the console line the event queue, LOST and the response, in the ALC the claim counter. -/
def Obligations.HoseEventFrame : Prop :=
  ∀ s : State,
    let kept := fun (c : Instr) (pins : Pins) => ∃ q : Part, exec c s = s.goesTo q
      ∧ q.pins = pins
      ∧ (q.cfl, q.machines, q.totals, q.inv, q.nextSecond, q.draws)
          = (s.part.cfl, s.part.machines, s.part.totals, s.part.inv, s.part.nextSecond, s.part.draws)
      ∧ q.alc = { s.part.alc with claimCounter := q.alc.claimCounter }
      ∧ q.snc = { s.part.snc with queue := q.snc.queue, txYielded := q.snc.txYielded, txDropped := q.snc.txDropped }
      ∧ q.cnl = { s.part.cnl with events := q.cnl.events, lost := q.cnl.lost, response := q.cnl.response }
      ∧ (q.tlg.slots.map fun u => (u.nvOpening, u.nvClosing)) = (s.part.tlg.slots.map fun u => (u.nvOpening, u.nvClosing))
      ∧ (q.tlg.bootFirst, q.tlg.bootSecond, q.tlg.bootNumber, q.tlg.markArea, q.tlg.checkpoints, q.tlg.writing,
            q.tlg.writeTimer, q.tlg.writes)
          = (s.part.tlg.bootFirst, s.part.tlg.bootSecond, s.part.tlg.bootNumber, s.part.tlg.markArea, s.part.tlg.checkpoints,
            s.part.tlg.writing, s.part.tlg.writeTimer, s.part.tlg.writes)
      ∧ (q.rsc.roleInForce, q.rsc.frozenAt) = (s.part.rsc.roleInForce, s.part.rsc.frozenAt)
    (∀ h : HoseId, ∀ c ∈ [Instr.tagGraceExpiry h, .claimHoldOffExpiry h, .rateTimeout h, .overrateExpiry h, .noFlowExpiry h,
        .settleExpiry h .trim, .settleExpiry h .main, .overrunWindowExpiry h, .pumpWaitExpiry h], kept c s.part.pins)
    ∧ (∀ (h : HoseId) (report : TagReport), kept (.tagReport h report) s.part.pins)
    ∧ (∀ i : PumpId, kept (.primeExpiry i) s.part.pins ∧ kept (.rundownExpiry i) s.part.pins)
    ∧ (∀ h : HoseId, kept (.nozzleLift h) (s.part.modPins h fun k => { k with nozzle := .offHook }).pins
        ∧ kept (.nozzleHang h) (s.part.modPins h fun k => { k with nozzle := .onHook }).pins)
    ∧ (∀ (h : HoseId) (v : ValveId) (position : Position),
        kept (.switchChange h v position) (s.part.modPins h fun k => k.setSwitch v position).pins)
    ∧ (s.part.LineFree → ∀ f g : Field, kept (.stop f) s.part.pins ∧ kept (.keyed f g) s.part.pins)

/-- Every step keeps the capacities of the part: the event queue at 16 (11 R181), the BUSY answers at four (11 R178), the
transmit queue at 16 (01 R15), the attempts at four (01 section 1.2), the write queue at 8 with at most one request of a kind
(07 R129 to R132), the record wait lists at 4 (07 R132), the peer claim table at 4 of an origin and 56 in all (03 R44), the
restock queue at 13 with no station twice across queue and bays (09 R161, R162), the station number within 1 to 14 (10 R169),
and the fixed sizes of its tables. -/
def Obligations.StepKeepsBounded : Prop :=
  ∀ s s' : State, s.part.Bounded → step s = .next s' → s'.part.Bounded

/-- Every step keeps the safety rule of 05 R98 and R99: while the emergency input or the power-fail warning is asserted no valve is
commanded open and no pump grant is held. -/
def Obligations.StepKeepsSafe : Prop :=
  ∀ s s' : State, s.part.Safe → step s = .next s' → s'.part.Safe
end

