-- ==== Sys2Proof/Laws/State.lean ====
section
/-! SUPPORT. One lemma per field per update of the part, each true by rfl, so that no later proof unfolds a record update. -/

namespace Sys2Proof.Machine

open Sys2Proof

/-! ## Containers -/

@[simp] theorem Quad.get_set_same {α : Type} (q : Quad α) (i : HoseId) (x : α) : (q.set i x).get i = x := by cases i <;> rfl

theorem Quad.get_set_ne {α : Type} (q : Quad α) {i j : HoseId} (x : α) (hij : j ≠ i) : (q.set i x).get j = q.get j := by
  cases i <;> cases j <;> first | rfl | exact absurd rfl hij

@[simp] theorem ByComp.get_set_same {α : Type} (q : ByComp α) (i : CompId) (x : α) : (q.set i x).get i = x := by cases i <;> rfl

theorem ByComp.get_set_ne {α : Type} (q : ByComp α) {i j : CompId} (x : α) (hij : j ≠ i) : (q.set i x).get j = q.get j := by
  cases i <;> cases j <;> first | rfl | exact absurd rfl hij

@[simp] theorem ByPump.get_set_same {α : Type} (q : ByPump α) (i : PumpId) (x : α) : (q.set i x).get i = x := by cases i <;> rfl

theorem ByPump.get_set_ne {α : Type} (q : ByPump α) {i j : PumpId} (x : α) (hij : j ≠ i) : (q.set i x).get j = q.get j := by
  cases i <;> cases j <;> first | rfl | exact absurd rfl hij

@[simp] theorem ByBay.get_set_same {α : Type} (q : ByBay α) (i : BayId) (x : α) : (q.set i x).get i = x := by cases i <;> rfl

theorem ByBay.get_set_ne {α : Type} (q : ByBay α) {i j : BayId} (x : α) (hij : j ≠ i) : (q.set i x).get j = q.get j := by
  cases i <;> cases j <;> first | rfl | exact absurd rfl hij

@[simp] theorem Quad.get_map {α β : Type} (f : HoseId → α → β) (q : Quad α) (h : HoseId) : (q.map f).get h = f h (q.get h) := by
  cases h <;> rfl

@[simp] theorem Quad.get_replicate {α : Type} (x : α) (h : HoseId) : (Quad.replicate x).get h = x := by cases h <;> rfl

theorem mem_allHoses (h : HoseId) : h ∈ allHoses := by cases h <;> decide

/-! ## Hoses -/

@[simp] theorem Part.hose_setHose_same (p : Part) (h : HoseId) (u : Hose) : (p.setHose h u).hose h = u := by
  cases h <;> rfl

theorem Part.hose_setHose_ne (p : Part) {h k : HoseId} (u : Hose) (hk : k ≠ h) : (p.setHose h u).hose k = p.hose k := by
  cases h <;> cases k <;> first | rfl | exact absurd rfl hk

@[simp] theorem Part.hose_modHose_same (p : Part) (h : HoseId) (f : Hose → Hose) : (p.modHose h f).hose h = f (p.hose h) := by
  cases h <;> rfl

theorem Part.hose_modHose_ne (p : Part) {h k : HoseId} (f : Hose → Hose) (hk : k ≠ h) : (p.modHose h f).hose k = p.hose k := by
  cases h <;> cases k <;> first | rfl | exact absurd rfl hk

@[simp] theorem Part.hose_modReader_same (p : Part) (h : HoseId) (f : Reader → Reader) :
    (p.modReader h f).hose h = { p.hose h with reader := f (p.hose h).reader } := by cases h <;> rfl

theorem Part.hose_modReader_ne (p : Part) {h k : HoseId} (f : Reader → Reader) (hk : k ≠ h) : (p.modReader h f).hose k = p.hose k :=
  Part.hose_modHose_ne p _ hk

@[simp] theorem Part.hose_modMeter_same (p : Part) (h : HoseId) (f : Meter → Meter) :
    (p.modMeter h f).hose h = { p.hose h with meter := f (p.hose h).meter } := by cases h <;> rfl

theorem Part.hose_modMeter_ne (p : Part) {h k : HoseId} (f : Meter → Meter) (hk : k ≠ h) : (p.modMeter h f).hose k = p.hose k :=
  Part.hose_modHose_ne p _ hk

@[simp] theorem Part.hose_modValves_same (p : Part) (h : HoseId) (f : Vsq → Vsq) :
    (p.modValves h f).hose h = { p.hose h with valves := f (p.hose h).valves } := by cases h <;> rfl

theorem Part.hose_modValves_ne (p : Part) {h k : HoseId} (f : Vsq → Vsq) (hk : k ≠ h) : (p.modValves h f).hose k = p.hose k :=
  Part.hose_modHose_ne p _ hk

@[simp] theorem Part.hose_modContext_same (p : Part) (h : HoseId) (f : Context → Context) :
    (p.modContext h f).hose h = { p.hose h with context := (p.hose h).context.map f } := by cases h <;> rfl

theorem Part.hose_modContext_ne (p : Part) {h k : HoseId} (f : Context → Context) (hk : k ≠ h) :
    (p.modContext h f).hose k = p.hose k := Part.hose_modHose_ne p _ hk

@[simp] theorem Part.hose_setSnc (p : Part) (x : Snc) (k : HoseId) : (p.setSnc x).hose k = p.hose k := rfl

@[simp] theorem Part.hose_setAlc (p : Part) (x : Alc) (k : HoseId) : (p.setAlc x).hose k = p.hose k := rfl

@[simp] theorem Part.hose_setTlg (p : Part) (x : Tlg) (k : HoseId) : (p.setTlg x).hose k = p.hose k := rfl

@[simp] theorem Part.hose_setTotals (p : Part) (x : List Totals) (k : HoseId) : (p.setTotals x).hose k = p.hose k := rfl

@[simp] theorem Part.hose_setInv (p : Part) (x : Inv) (k : HoseId) : (p.setInv x).hose k = p.hose k := rfl

@[simp] theorem Part.hose_setRsc (p : Part) (x : Rsc) (k : HoseId) : (p.setRsc x).hose k = p.hose k := rfl

@[simp] theorem Part.hose_setCnl (p : Part) (x : Cnl) (k : HoseId) : (p.setCnl x).hose k = p.hose k := rfl

@[simp] theorem Part.hose_setMachines (p : Part) (x : List MachineRow) (k : HoseId) : (p.setMachines x).hose k = p.hose k := rfl

@[simp] theorem Part.hose_setCfl (p : Part) (x : Cfl) (k : HoseId) : (p.setCfl x).hose k = p.hose k := rfl

@[simp] theorem Part.hose_setPins (p : Part) (x : Pins) (k : HoseId) : (p.setPins x).hose k = p.hose k := rfl

@[simp] theorem Part.hose_setRequestOrder (p : Part) (x : Nat) (k : HoseId) : (p.setRequestOrder x).hose k = p.hose k := rfl

@[simp] theorem Part.hose_setPumps (p : Part) (x : ByPump Pump) (k : HoseId) : (p.setPumps x).hose k = p.hose k := rfl

@[simp] theorem Part.hose_setDraws (p : Part) (x : Nat) (k : HoseId) : (p.setDraws x).hose k = p.hose k := rfl

@[simp] theorem Part.hose_modPump (p : Part) (i : PumpId) (f : Pump → Pump) (k : HoseId) : (p.modPump i f).hose k = p.hose k := rfl

@[simp] theorem Part.hose_dropGrant (p : Part) (h : HoseId) (k : HoseId) : (p.dropGrant h).hose k = p.hose k := rfl

@[simp] theorem Part.hose_withdraw (p : Part) (h : HoseId) (k : HoseId) : (p.withdraw h).hose k = p.hose k := rfl

@[simp] theorem Part.hose_modComp (p : Part) (c : CompId) (f : Compartment → Compartment) (k : HoseId) : (p.modComp c f).hose k = p.hose k := rfl

@[simp] theorem Part.hose_modPins (p : Part) (h : HoseId) (f : HosePins → HosePins) (k : HoseId) : (p.modPins h f).hose k = p.hose k := rfl

@[simp] theorem Part.hose_modSnc (p : Part) (f : Snc → Snc) (k : HoseId) : (p.modSnc f).hose k = p.hose k := rfl

@[simp] theorem Part.hose_modPeer (p : Part) (n : Nat) (f : Peer → Peer) (k : HoseId) : (p.modPeer n f).hose k = p.hose k := rfl

@[simp] theorem Part.hose_modMachine (p : Part) (n : Nat) (f : MachineRow → MachineRow) (k : HoseId) : (p.modMachine n f).hose k = p.hose k := rfl

@[simp] theorem Part.hose_modSlot (p : Part) (n : Nat) (f : Slot → Slot) (k : HoseId) : (p.modSlot n f).hose k = p.hose k := rfl

@[simp] theorem Part.hose_returnSlot (p : Part) (n : Nat) (k : HoseId) : (p.returnSlot n).hose k = p.hose k := rfl

@[simp] theorem Part.hose_closeSlot (p : Part) (n : Nat) (k : HoseId) : (p.closeSlot n).hose k = p.hose k := rfl

@[simp] theorem Part.hose_takeSequence (p : Part) (k : HoseId) : (p.takeSequence).hose k = p.hose k := rfl

@[simp] theorem Part.hose_joinWrite (p : Part) (r : WriteReq) (k : HoseId) : (p.joinWrite r).hose k = p.hose k := rfl

@[simp] theorem Part.hose_setBay (p : Part) (b : BayId) (e : Option BayEntry) (k : HoseId) : (p.setBay b e).hose k = p.hose k := rfl

@[simp] theorem Part.hose_event (p : Part) (e : Event) (k : HoseId) : (p.event e).hose k = p.hose k := rfl

@[simp] theorem Part.hose_respond (p : Part) (r : Response) (k : HoseId) : (p.respond r).hose k = p.hose k := rfl

@[simp] theorem Part.hose_refuse (p : Part) (c : Code) (k : HoseId) : (p.refuse c).hose k = p.hose k := rfl

@[simp] theorem Part.hose_reach (p : Part) (n : Nat) (k : HoseId) : (p.reach n).hose k = p.hose k := rfl

/-! ## setSnc -/

@[simp] theorem Part.now_setSnc (p : Part) (x : Snc) : (p.setSnc x).now = p.now := rfl
@[simp] theorem Part.nextSecond_setSnc (p : Part) (x : Snc) : (p.setSnc x).nextSecond = p.nextSecond := rfl
@[simp] theorem Part.draws_setSnc (p : Part) (x : Snc) : (p.setSnc x).draws = p.draws := rfl
@[simp] theorem Part.pins_setSnc (p : Part) (x : Snc) : (p.setSnc x).pins = p.pins := rfl
@[simp] theorem Part.cfl_setSnc (p : Part) (x : Snc) : (p.setSnc x).cfl = p.cfl := rfl
@[simp] theorem Part.machines_setSnc (p : Part) (x : Snc) : (p.setSnc x).machines = p.machines := rfl
@[simp] theorem Part.alc_setSnc (p : Part) (x : Snc) : (p.setSnc x).alc = p.alc := rfl
@[simp] theorem Part.hoses_setSnc (p : Part) (x : Snc) : (p.setSnc x).hoses = p.hoses := rfl
@[simp] theorem Part.pumps_setSnc (p : Part) (x : Snc) : (p.setSnc x).pumps = p.pumps := rfl
@[simp] theorem Part.requestOrder_setSnc (p : Part) (x : Snc) : (p.setSnc x).requestOrder = p.requestOrder := rfl
@[simp] theorem Part.tlg_setSnc (p : Part) (x : Snc) : (p.setSnc x).tlg = p.tlg := rfl
@[simp] theorem Part.totals_setSnc (p : Part) (x : Snc) : (p.setSnc x).totals = p.totals := rfl
@[simp] theorem Part.inv_setSnc (p : Part) (x : Snc) : (p.setSnc x).inv = p.inv := rfl
@[simp] theorem Part.rsc_setSnc (p : Part) (x : Snc) : (p.setSnc x).rsc = p.rsc := rfl
@[simp] theorem Part.cnl_setSnc (p : Part) (x : Snc) : (p.setSnc x).cnl = p.cnl := rfl
@[simp] theorem Part.snc_setSnc (p : Part) (x : Snc) : (p.setSnc x).snc = x := rfl

/-! ## setAlc -/

@[simp] theorem Part.now_setAlc (p : Part) (x : Alc) : (p.setAlc x).now = p.now := rfl
@[simp] theorem Part.nextSecond_setAlc (p : Part) (x : Alc) : (p.setAlc x).nextSecond = p.nextSecond := rfl
@[simp] theorem Part.draws_setAlc (p : Part) (x : Alc) : (p.setAlc x).draws = p.draws := rfl
@[simp] theorem Part.pins_setAlc (p : Part) (x : Alc) : (p.setAlc x).pins = p.pins := rfl
@[simp] theorem Part.cfl_setAlc (p : Part) (x : Alc) : (p.setAlc x).cfl = p.cfl := rfl
@[simp] theorem Part.snc_setAlc (p : Part) (x : Alc) : (p.setAlc x).snc = p.snc := rfl
@[simp] theorem Part.machines_setAlc (p : Part) (x : Alc) : (p.setAlc x).machines = p.machines := rfl
@[simp] theorem Part.hoses_setAlc (p : Part) (x : Alc) : (p.setAlc x).hoses = p.hoses := rfl
@[simp] theorem Part.pumps_setAlc (p : Part) (x : Alc) : (p.setAlc x).pumps = p.pumps := rfl
@[simp] theorem Part.requestOrder_setAlc (p : Part) (x : Alc) : (p.setAlc x).requestOrder = p.requestOrder := rfl
@[simp] theorem Part.tlg_setAlc (p : Part) (x : Alc) : (p.setAlc x).tlg = p.tlg := rfl
@[simp] theorem Part.totals_setAlc (p : Part) (x : Alc) : (p.setAlc x).totals = p.totals := rfl
@[simp] theorem Part.inv_setAlc (p : Part) (x : Alc) : (p.setAlc x).inv = p.inv := rfl
@[simp] theorem Part.rsc_setAlc (p : Part) (x : Alc) : (p.setAlc x).rsc = p.rsc := rfl
@[simp] theorem Part.cnl_setAlc (p : Part) (x : Alc) : (p.setAlc x).cnl = p.cnl := rfl
@[simp] theorem Part.alc_setAlc (p : Part) (x : Alc) : (p.setAlc x).alc = x := rfl

/-! ## setTlg -/

@[simp] theorem Part.now_setTlg (p : Part) (x : Tlg) : (p.setTlg x).now = p.now := rfl
@[simp] theorem Part.nextSecond_setTlg (p : Part) (x : Tlg) : (p.setTlg x).nextSecond = p.nextSecond := rfl
@[simp] theorem Part.draws_setTlg (p : Part) (x : Tlg) : (p.setTlg x).draws = p.draws := rfl
@[simp] theorem Part.pins_setTlg (p : Part) (x : Tlg) : (p.setTlg x).pins = p.pins := rfl
@[simp] theorem Part.cfl_setTlg (p : Part) (x : Tlg) : (p.setTlg x).cfl = p.cfl := rfl
@[simp] theorem Part.snc_setTlg (p : Part) (x : Tlg) : (p.setTlg x).snc = p.snc := rfl
@[simp] theorem Part.machines_setTlg (p : Part) (x : Tlg) : (p.setTlg x).machines = p.machines := rfl
@[simp] theorem Part.alc_setTlg (p : Part) (x : Tlg) : (p.setTlg x).alc = p.alc := rfl
@[simp] theorem Part.hoses_setTlg (p : Part) (x : Tlg) : (p.setTlg x).hoses = p.hoses := rfl
@[simp] theorem Part.pumps_setTlg (p : Part) (x : Tlg) : (p.setTlg x).pumps = p.pumps := rfl
@[simp] theorem Part.requestOrder_setTlg (p : Part) (x : Tlg) : (p.setTlg x).requestOrder = p.requestOrder := rfl
@[simp] theorem Part.totals_setTlg (p : Part) (x : Tlg) : (p.setTlg x).totals = p.totals := rfl
@[simp] theorem Part.inv_setTlg (p : Part) (x : Tlg) : (p.setTlg x).inv = p.inv := rfl
@[simp] theorem Part.rsc_setTlg (p : Part) (x : Tlg) : (p.setTlg x).rsc = p.rsc := rfl
@[simp] theorem Part.cnl_setTlg (p : Part) (x : Tlg) : (p.setTlg x).cnl = p.cnl := rfl
@[simp] theorem Part.tlg_setTlg (p : Part) (x : Tlg) : (p.setTlg x).tlg = x := rfl

/-! ## setTotals -/

@[simp] theorem Part.now_setTotals (p : Part) (x : List Totals) : (p.setTotals x).now = p.now := rfl
@[simp] theorem Part.nextSecond_setTotals (p : Part) (x : List Totals) : (p.setTotals x).nextSecond = p.nextSecond := rfl
@[simp] theorem Part.draws_setTotals (p : Part) (x : List Totals) : (p.setTotals x).draws = p.draws := rfl
@[simp] theorem Part.pins_setTotals (p : Part) (x : List Totals) : (p.setTotals x).pins = p.pins := rfl
@[simp] theorem Part.cfl_setTotals (p : Part) (x : List Totals) : (p.setTotals x).cfl = p.cfl := rfl
@[simp] theorem Part.snc_setTotals (p : Part) (x : List Totals) : (p.setTotals x).snc = p.snc := rfl
@[simp] theorem Part.machines_setTotals (p : Part) (x : List Totals) : (p.setTotals x).machines = p.machines := rfl
@[simp] theorem Part.alc_setTotals (p : Part) (x : List Totals) : (p.setTotals x).alc = p.alc := rfl
@[simp] theorem Part.hoses_setTotals (p : Part) (x : List Totals) : (p.setTotals x).hoses = p.hoses := rfl
@[simp] theorem Part.pumps_setTotals (p : Part) (x : List Totals) : (p.setTotals x).pumps = p.pumps := rfl
@[simp] theorem Part.requestOrder_setTotals (p : Part) (x : List Totals) : (p.setTotals x).requestOrder = p.requestOrder := rfl
@[simp] theorem Part.tlg_setTotals (p : Part) (x : List Totals) : (p.setTotals x).tlg = p.tlg := rfl
@[simp] theorem Part.inv_setTotals (p : Part) (x : List Totals) : (p.setTotals x).inv = p.inv := rfl
@[simp] theorem Part.rsc_setTotals (p : Part) (x : List Totals) : (p.setTotals x).rsc = p.rsc := rfl
@[simp] theorem Part.cnl_setTotals (p : Part) (x : List Totals) : (p.setTotals x).cnl = p.cnl := rfl
@[simp] theorem Part.totals_setTotals (p : Part) (x : List Totals) : (p.setTotals x).totals = x := rfl

/-! ## setInv -/

@[simp] theorem Part.now_setInv (p : Part) (x : Inv) : (p.setInv x).now = p.now := rfl
@[simp] theorem Part.nextSecond_setInv (p : Part) (x : Inv) : (p.setInv x).nextSecond = p.nextSecond := rfl
@[simp] theorem Part.draws_setInv (p : Part) (x : Inv) : (p.setInv x).draws = p.draws := rfl
@[simp] theorem Part.pins_setInv (p : Part) (x : Inv) : (p.setInv x).pins = p.pins := rfl
@[simp] theorem Part.cfl_setInv (p : Part) (x : Inv) : (p.setInv x).cfl = p.cfl := rfl
@[simp] theorem Part.snc_setInv (p : Part) (x : Inv) : (p.setInv x).snc = p.snc := rfl
@[simp] theorem Part.machines_setInv (p : Part) (x : Inv) : (p.setInv x).machines = p.machines := rfl
@[simp] theorem Part.alc_setInv (p : Part) (x : Inv) : (p.setInv x).alc = p.alc := rfl
@[simp] theorem Part.hoses_setInv (p : Part) (x : Inv) : (p.setInv x).hoses = p.hoses := rfl
@[simp] theorem Part.pumps_setInv (p : Part) (x : Inv) : (p.setInv x).pumps = p.pumps := rfl
@[simp] theorem Part.requestOrder_setInv (p : Part) (x : Inv) : (p.setInv x).requestOrder = p.requestOrder := rfl
@[simp] theorem Part.tlg_setInv (p : Part) (x : Inv) : (p.setInv x).tlg = p.tlg := rfl
@[simp] theorem Part.totals_setInv (p : Part) (x : Inv) : (p.setInv x).totals = p.totals := rfl
@[simp] theorem Part.rsc_setInv (p : Part) (x : Inv) : (p.setInv x).rsc = p.rsc := rfl
@[simp] theorem Part.cnl_setInv (p : Part) (x : Inv) : (p.setInv x).cnl = p.cnl := rfl
@[simp] theorem Part.inv_setInv (p : Part) (x : Inv) : (p.setInv x).inv = x := rfl

/-! ## setRsc -/

@[simp] theorem Part.now_setRsc (p : Part) (x : Rsc) : (p.setRsc x).now = p.now := rfl
@[simp] theorem Part.nextSecond_setRsc (p : Part) (x : Rsc) : (p.setRsc x).nextSecond = p.nextSecond := rfl
@[simp] theorem Part.draws_setRsc (p : Part) (x : Rsc) : (p.setRsc x).draws = p.draws := rfl
@[simp] theorem Part.pins_setRsc (p : Part) (x : Rsc) : (p.setRsc x).pins = p.pins := rfl
@[simp] theorem Part.cfl_setRsc (p : Part) (x : Rsc) : (p.setRsc x).cfl = p.cfl := rfl
@[simp] theorem Part.snc_setRsc (p : Part) (x : Rsc) : (p.setRsc x).snc = p.snc := rfl
@[simp] theorem Part.machines_setRsc (p : Part) (x : Rsc) : (p.setRsc x).machines = p.machines := rfl
@[simp] theorem Part.alc_setRsc (p : Part) (x : Rsc) : (p.setRsc x).alc = p.alc := rfl
@[simp] theorem Part.hoses_setRsc (p : Part) (x : Rsc) : (p.setRsc x).hoses = p.hoses := rfl
@[simp] theorem Part.pumps_setRsc (p : Part) (x : Rsc) : (p.setRsc x).pumps = p.pumps := rfl
@[simp] theorem Part.requestOrder_setRsc (p : Part) (x : Rsc) : (p.setRsc x).requestOrder = p.requestOrder := rfl
@[simp] theorem Part.tlg_setRsc (p : Part) (x : Rsc) : (p.setRsc x).tlg = p.tlg := rfl
@[simp] theorem Part.totals_setRsc (p : Part) (x : Rsc) : (p.setRsc x).totals = p.totals := rfl
@[simp] theorem Part.inv_setRsc (p : Part) (x : Rsc) : (p.setRsc x).inv = p.inv := rfl
@[simp] theorem Part.cnl_setRsc (p : Part) (x : Rsc) : (p.setRsc x).cnl = p.cnl := rfl
@[simp] theorem Part.rsc_setRsc (p : Part) (x : Rsc) : (p.setRsc x).rsc = x := rfl

/-! ## setCnl -/

@[simp] theorem Part.now_setCnl (p : Part) (x : Cnl) : (p.setCnl x).now = p.now := rfl
@[simp] theorem Part.nextSecond_setCnl (p : Part) (x : Cnl) : (p.setCnl x).nextSecond = p.nextSecond := rfl
@[simp] theorem Part.draws_setCnl (p : Part) (x : Cnl) : (p.setCnl x).draws = p.draws := rfl
@[simp] theorem Part.pins_setCnl (p : Part) (x : Cnl) : (p.setCnl x).pins = p.pins := rfl
@[simp] theorem Part.cfl_setCnl (p : Part) (x : Cnl) : (p.setCnl x).cfl = p.cfl := rfl
@[simp] theorem Part.snc_setCnl (p : Part) (x : Cnl) : (p.setCnl x).snc = p.snc := rfl
@[simp] theorem Part.machines_setCnl (p : Part) (x : Cnl) : (p.setCnl x).machines = p.machines := rfl
@[simp] theorem Part.alc_setCnl (p : Part) (x : Cnl) : (p.setCnl x).alc = p.alc := rfl
@[simp] theorem Part.hoses_setCnl (p : Part) (x : Cnl) : (p.setCnl x).hoses = p.hoses := rfl
@[simp] theorem Part.pumps_setCnl (p : Part) (x : Cnl) : (p.setCnl x).pumps = p.pumps := rfl
@[simp] theorem Part.requestOrder_setCnl (p : Part) (x : Cnl) : (p.setCnl x).requestOrder = p.requestOrder := rfl
@[simp] theorem Part.tlg_setCnl (p : Part) (x : Cnl) : (p.setCnl x).tlg = p.tlg := rfl
@[simp] theorem Part.totals_setCnl (p : Part) (x : Cnl) : (p.setCnl x).totals = p.totals := rfl
@[simp] theorem Part.inv_setCnl (p : Part) (x : Cnl) : (p.setCnl x).inv = p.inv := rfl
@[simp] theorem Part.rsc_setCnl (p : Part) (x : Cnl) : (p.setCnl x).rsc = p.rsc := rfl
@[simp] theorem Part.cnl_setCnl (p : Part) (x : Cnl) : (p.setCnl x).cnl = x := rfl

/-! ## setMachines -/

@[simp] theorem Part.now_setMachines (p : Part) (x : List MachineRow) : (p.setMachines x).now = p.now := rfl
@[simp] theorem Part.nextSecond_setMachines (p : Part) (x : List MachineRow) : (p.setMachines x).nextSecond = p.nextSecond := rfl
@[simp] theorem Part.draws_setMachines (p : Part) (x : List MachineRow) : (p.setMachines x).draws = p.draws := rfl
@[simp] theorem Part.pins_setMachines (p : Part) (x : List MachineRow) : (p.setMachines x).pins = p.pins := rfl
@[simp] theorem Part.cfl_setMachines (p : Part) (x : List MachineRow) : (p.setMachines x).cfl = p.cfl := rfl
@[simp] theorem Part.snc_setMachines (p : Part) (x : List MachineRow) : (p.setMachines x).snc = p.snc := rfl
@[simp] theorem Part.alc_setMachines (p : Part) (x : List MachineRow) : (p.setMachines x).alc = p.alc := rfl
@[simp] theorem Part.hoses_setMachines (p : Part) (x : List MachineRow) : (p.setMachines x).hoses = p.hoses := rfl
@[simp] theorem Part.pumps_setMachines (p : Part) (x : List MachineRow) : (p.setMachines x).pumps = p.pumps := rfl
@[simp] theorem Part.requestOrder_setMachines (p : Part) (x : List MachineRow) : (p.setMachines x).requestOrder = p.requestOrder := rfl
@[simp] theorem Part.tlg_setMachines (p : Part) (x : List MachineRow) : (p.setMachines x).tlg = p.tlg := rfl
@[simp] theorem Part.totals_setMachines (p : Part) (x : List MachineRow) : (p.setMachines x).totals = p.totals := rfl
@[simp] theorem Part.inv_setMachines (p : Part) (x : List MachineRow) : (p.setMachines x).inv = p.inv := rfl
@[simp] theorem Part.rsc_setMachines (p : Part) (x : List MachineRow) : (p.setMachines x).rsc = p.rsc := rfl
@[simp] theorem Part.cnl_setMachines (p : Part) (x : List MachineRow) : (p.setMachines x).cnl = p.cnl := rfl
@[simp] theorem Part.machines_setMachines (p : Part) (x : List MachineRow) : (p.setMachines x).machines = x := rfl

/-! ## setCfl -/

@[simp] theorem Part.now_setCfl (p : Part) (x : Cfl) : (p.setCfl x).now = p.now := rfl
@[simp] theorem Part.nextSecond_setCfl (p : Part) (x : Cfl) : (p.setCfl x).nextSecond = p.nextSecond := rfl
@[simp] theorem Part.draws_setCfl (p : Part) (x : Cfl) : (p.setCfl x).draws = p.draws := rfl
@[simp] theorem Part.pins_setCfl (p : Part) (x : Cfl) : (p.setCfl x).pins = p.pins := rfl
@[simp] theorem Part.snc_setCfl (p : Part) (x : Cfl) : (p.setCfl x).snc = p.snc := rfl
@[simp] theorem Part.machines_setCfl (p : Part) (x : Cfl) : (p.setCfl x).machines = p.machines := rfl
@[simp] theorem Part.alc_setCfl (p : Part) (x : Cfl) : (p.setCfl x).alc = p.alc := rfl
@[simp] theorem Part.hoses_setCfl (p : Part) (x : Cfl) : (p.setCfl x).hoses = p.hoses := rfl
@[simp] theorem Part.pumps_setCfl (p : Part) (x : Cfl) : (p.setCfl x).pumps = p.pumps := rfl
@[simp] theorem Part.requestOrder_setCfl (p : Part) (x : Cfl) : (p.setCfl x).requestOrder = p.requestOrder := rfl
@[simp] theorem Part.tlg_setCfl (p : Part) (x : Cfl) : (p.setCfl x).tlg = p.tlg := rfl
@[simp] theorem Part.totals_setCfl (p : Part) (x : Cfl) : (p.setCfl x).totals = p.totals := rfl
@[simp] theorem Part.inv_setCfl (p : Part) (x : Cfl) : (p.setCfl x).inv = p.inv := rfl
@[simp] theorem Part.rsc_setCfl (p : Part) (x : Cfl) : (p.setCfl x).rsc = p.rsc := rfl
@[simp] theorem Part.cnl_setCfl (p : Part) (x : Cfl) : (p.setCfl x).cnl = p.cnl := rfl
@[simp] theorem Part.cfl_setCfl (p : Part) (x : Cfl) : (p.setCfl x).cfl = x := rfl

/-! ## setPins -/

@[simp] theorem Part.now_setPins (p : Part) (x : Pins) : (p.setPins x).now = p.now := rfl
@[simp] theorem Part.nextSecond_setPins (p : Part) (x : Pins) : (p.setPins x).nextSecond = p.nextSecond := rfl
@[simp] theorem Part.draws_setPins (p : Part) (x : Pins) : (p.setPins x).draws = p.draws := rfl
@[simp] theorem Part.cfl_setPins (p : Part) (x : Pins) : (p.setPins x).cfl = p.cfl := rfl
@[simp] theorem Part.snc_setPins (p : Part) (x : Pins) : (p.setPins x).snc = p.snc := rfl
@[simp] theorem Part.machines_setPins (p : Part) (x : Pins) : (p.setPins x).machines = p.machines := rfl
@[simp] theorem Part.alc_setPins (p : Part) (x : Pins) : (p.setPins x).alc = p.alc := rfl
@[simp] theorem Part.hoses_setPins (p : Part) (x : Pins) : (p.setPins x).hoses = p.hoses := rfl
@[simp] theorem Part.pumps_setPins (p : Part) (x : Pins) : (p.setPins x).pumps = p.pumps := rfl
@[simp] theorem Part.requestOrder_setPins (p : Part) (x : Pins) : (p.setPins x).requestOrder = p.requestOrder := rfl
@[simp] theorem Part.tlg_setPins (p : Part) (x : Pins) : (p.setPins x).tlg = p.tlg := rfl
@[simp] theorem Part.totals_setPins (p : Part) (x : Pins) : (p.setPins x).totals = p.totals := rfl
@[simp] theorem Part.inv_setPins (p : Part) (x : Pins) : (p.setPins x).inv = p.inv := rfl
@[simp] theorem Part.rsc_setPins (p : Part) (x : Pins) : (p.setPins x).rsc = p.rsc := rfl
@[simp] theorem Part.cnl_setPins (p : Part) (x : Pins) : (p.setPins x).cnl = p.cnl := rfl
@[simp] theorem Part.pins_setPins (p : Part) (x : Pins) : (p.setPins x).pins = x := rfl

/-! ## setRequestOrder -/

@[simp] theorem Part.now_setRequestOrder (p : Part) (x : Nat) : (p.setRequestOrder x).now = p.now := rfl
@[simp] theorem Part.nextSecond_setRequestOrder (p : Part) (x : Nat) : (p.setRequestOrder x).nextSecond = p.nextSecond := rfl
@[simp] theorem Part.draws_setRequestOrder (p : Part) (x : Nat) : (p.setRequestOrder x).draws = p.draws := rfl
@[simp] theorem Part.pins_setRequestOrder (p : Part) (x : Nat) : (p.setRequestOrder x).pins = p.pins := rfl
@[simp] theorem Part.cfl_setRequestOrder (p : Part) (x : Nat) : (p.setRequestOrder x).cfl = p.cfl := rfl
@[simp] theorem Part.snc_setRequestOrder (p : Part) (x : Nat) : (p.setRequestOrder x).snc = p.snc := rfl
@[simp] theorem Part.machines_setRequestOrder (p : Part) (x : Nat) : (p.setRequestOrder x).machines = p.machines := rfl
@[simp] theorem Part.alc_setRequestOrder (p : Part) (x : Nat) : (p.setRequestOrder x).alc = p.alc := rfl
@[simp] theorem Part.hoses_setRequestOrder (p : Part) (x : Nat) : (p.setRequestOrder x).hoses = p.hoses := rfl
@[simp] theorem Part.pumps_setRequestOrder (p : Part) (x : Nat) : (p.setRequestOrder x).pumps = p.pumps := rfl
@[simp] theorem Part.tlg_setRequestOrder (p : Part) (x : Nat) : (p.setRequestOrder x).tlg = p.tlg := rfl
@[simp] theorem Part.totals_setRequestOrder (p : Part) (x : Nat) : (p.setRequestOrder x).totals = p.totals := rfl
@[simp] theorem Part.inv_setRequestOrder (p : Part) (x : Nat) : (p.setRequestOrder x).inv = p.inv := rfl
@[simp] theorem Part.rsc_setRequestOrder (p : Part) (x : Nat) : (p.setRequestOrder x).rsc = p.rsc := rfl
@[simp] theorem Part.cnl_setRequestOrder (p : Part) (x : Nat) : (p.setRequestOrder x).cnl = p.cnl := rfl
@[simp] theorem Part.requestOrder_setRequestOrder (p : Part) (x : Nat) : (p.setRequestOrder x).requestOrder = x := rfl

/-! ## setHoses -/

@[simp] theorem Part.now_setHoses (p : Part) (x : Quad Hose) : (p.setHoses x).now = p.now := rfl
@[simp] theorem Part.nextSecond_setHoses (p : Part) (x : Quad Hose) : (p.setHoses x).nextSecond = p.nextSecond := rfl
@[simp] theorem Part.draws_setHoses (p : Part) (x : Quad Hose) : (p.setHoses x).draws = p.draws := rfl
@[simp] theorem Part.pins_setHoses (p : Part) (x : Quad Hose) : (p.setHoses x).pins = p.pins := rfl
@[simp] theorem Part.cfl_setHoses (p : Part) (x : Quad Hose) : (p.setHoses x).cfl = p.cfl := rfl
@[simp] theorem Part.snc_setHoses (p : Part) (x : Quad Hose) : (p.setHoses x).snc = p.snc := rfl
@[simp] theorem Part.machines_setHoses (p : Part) (x : Quad Hose) : (p.setHoses x).machines = p.machines := rfl
@[simp] theorem Part.alc_setHoses (p : Part) (x : Quad Hose) : (p.setHoses x).alc = p.alc := rfl
@[simp] theorem Part.pumps_setHoses (p : Part) (x : Quad Hose) : (p.setHoses x).pumps = p.pumps := rfl
@[simp] theorem Part.requestOrder_setHoses (p : Part) (x : Quad Hose) : (p.setHoses x).requestOrder = p.requestOrder := rfl
@[simp] theorem Part.tlg_setHoses (p : Part) (x : Quad Hose) : (p.setHoses x).tlg = p.tlg := rfl
@[simp] theorem Part.totals_setHoses (p : Part) (x : Quad Hose) : (p.setHoses x).totals = p.totals := rfl
@[simp] theorem Part.inv_setHoses (p : Part) (x : Quad Hose) : (p.setHoses x).inv = p.inv := rfl
@[simp] theorem Part.rsc_setHoses (p : Part) (x : Quad Hose) : (p.setHoses x).rsc = p.rsc := rfl
@[simp] theorem Part.cnl_setHoses (p : Part) (x : Quad Hose) : (p.setHoses x).cnl = p.cnl := rfl
@[simp] theorem Part.hoses_setHoses (p : Part) (x : Quad Hose) : (p.setHoses x).hoses = x := rfl

/-! ## setPumps -/

@[simp] theorem Part.now_setPumps (p : Part) (x : ByPump Pump) : (p.setPumps x).now = p.now := rfl
@[simp] theorem Part.nextSecond_setPumps (p : Part) (x : ByPump Pump) : (p.setPumps x).nextSecond = p.nextSecond := rfl
@[simp] theorem Part.draws_setPumps (p : Part) (x : ByPump Pump) : (p.setPumps x).draws = p.draws := rfl
@[simp] theorem Part.pins_setPumps (p : Part) (x : ByPump Pump) : (p.setPumps x).pins = p.pins := rfl
@[simp] theorem Part.cfl_setPumps (p : Part) (x : ByPump Pump) : (p.setPumps x).cfl = p.cfl := rfl
@[simp] theorem Part.snc_setPumps (p : Part) (x : ByPump Pump) : (p.setPumps x).snc = p.snc := rfl
@[simp] theorem Part.machines_setPumps (p : Part) (x : ByPump Pump) : (p.setPumps x).machines = p.machines := rfl
@[simp] theorem Part.alc_setPumps (p : Part) (x : ByPump Pump) : (p.setPumps x).alc = p.alc := rfl
@[simp] theorem Part.hoses_setPumps (p : Part) (x : ByPump Pump) : (p.setPumps x).hoses = p.hoses := rfl
@[simp] theorem Part.requestOrder_setPumps (p : Part) (x : ByPump Pump) : (p.setPumps x).requestOrder = p.requestOrder := rfl
@[simp] theorem Part.tlg_setPumps (p : Part) (x : ByPump Pump) : (p.setPumps x).tlg = p.tlg := rfl
@[simp] theorem Part.totals_setPumps (p : Part) (x : ByPump Pump) : (p.setPumps x).totals = p.totals := rfl
@[simp] theorem Part.inv_setPumps (p : Part) (x : ByPump Pump) : (p.setPumps x).inv = p.inv := rfl
@[simp] theorem Part.rsc_setPumps (p : Part) (x : ByPump Pump) : (p.setPumps x).rsc = p.rsc := rfl
@[simp] theorem Part.cnl_setPumps (p : Part) (x : ByPump Pump) : (p.setPumps x).cnl = p.cnl := rfl
@[simp] theorem Part.pumps_setPumps (p : Part) (x : ByPump Pump) : (p.setPumps x).pumps = x := rfl

/-! ## setDraws -/

@[simp] theorem Part.now_setDraws (p : Part) (x : Nat) : (p.setDraws x).now = p.now := rfl
@[simp] theorem Part.nextSecond_setDraws (p : Part) (x : Nat) : (p.setDraws x).nextSecond = p.nextSecond := rfl
@[simp] theorem Part.pins_setDraws (p : Part) (x : Nat) : (p.setDraws x).pins = p.pins := rfl
@[simp] theorem Part.cfl_setDraws (p : Part) (x : Nat) : (p.setDraws x).cfl = p.cfl := rfl
@[simp] theorem Part.snc_setDraws (p : Part) (x : Nat) : (p.setDraws x).snc = p.snc := rfl
@[simp] theorem Part.machines_setDraws (p : Part) (x : Nat) : (p.setDraws x).machines = p.machines := rfl
@[simp] theorem Part.alc_setDraws (p : Part) (x : Nat) : (p.setDraws x).alc = p.alc := rfl
@[simp] theorem Part.hoses_setDraws (p : Part) (x : Nat) : (p.setDraws x).hoses = p.hoses := rfl
@[simp] theorem Part.pumps_setDraws (p : Part) (x : Nat) : (p.setDraws x).pumps = p.pumps := rfl
@[simp] theorem Part.requestOrder_setDraws (p : Part) (x : Nat) : (p.setDraws x).requestOrder = p.requestOrder := rfl
@[simp] theorem Part.tlg_setDraws (p : Part) (x : Nat) : (p.setDraws x).tlg = p.tlg := rfl
@[simp] theorem Part.totals_setDraws (p : Part) (x : Nat) : (p.setDraws x).totals = p.totals := rfl
@[simp] theorem Part.inv_setDraws (p : Part) (x : Nat) : (p.setDraws x).inv = p.inv := rfl
@[simp] theorem Part.rsc_setDraws (p : Part) (x : Nat) : (p.setDraws x).rsc = p.rsc := rfl
@[simp] theorem Part.cnl_setDraws (p : Part) (x : Nat) : (p.setDraws x).cnl = p.cnl := rfl
@[simp] theorem Part.draws_setDraws (p : Part) (x : Nat) : (p.setDraws x).draws = x := rfl

/-! ## setHose -/

@[simp] theorem Part.now_setHose (p : Part) (h : HoseId) (u : Hose) : (p.setHose h u).now = p.now := rfl
@[simp] theorem Part.nextSecond_setHose (p : Part) (h : HoseId) (u : Hose) : (p.setHose h u).nextSecond = p.nextSecond := rfl
@[simp] theorem Part.draws_setHose (p : Part) (h : HoseId) (u : Hose) : (p.setHose h u).draws = p.draws := rfl
@[simp] theorem Part.pins_setHose (p : Part) (h : HoseId) (u : Hose) : (p.setHose h u).pins = p.pins := rfl
@[simp] theorem Part.cfl_setHose (p : Part) (h : HoseId) (u : Hose) : (p.setHose h u).cfl = p.cfl := rfl
@[simp] theorem Part.snc_setHose (p : Part) (h : HoseId) (u : Hose) : (p.setHose h u).snc = p.snc := rfl
@[simp] theorem Part.machines_setHose (p : Part) (h : HoseId) (u : Hose) : (p.setHose h u).machines = p.machines := rfl
@[simp] theorem Part.alc_setHose (p : Part) (h : HoseId) (u : Hose) : (p.setHose h u).alc = p.alc := rfl
@[simp] theorem Part.pumps_setHose (p : Part) (h : HoseId) (u : Hose) : (p.setHose h u).pumps = p.pumps := rfl
@[simp] theorem Part.requestOrder_setHose (p : Part) (h : HoseId) (u : Hose) : (p.setHose h u).requestOrder = p.requestOrder := rfl
@[simp] theorem Part.tlg_setHose (p : Part) (h : HoseId) (u : Hose) : (p.setHose h u).tlg = p.tlg := rfl
@[simp] theorem Part.totals_setHose (p : Part) (h : HoseId) (u : Hose) : (p.setHose h u).totals = p.totals := rfl
@[simp] theorem Part.inv_setHose (p : Part) (h : HoseId) (u : Hose) : (p.setHose h u).inv = p.inv := rfl
@[simp] theorem Part.rsc_setHose (p : Part) (h : HoseId) (u : Hose) : (p.setHose h u).rsc = p.rsc := rfl
@[simp] theorem Part.cnl_setHose (p : Part) (h : HoseId) (u : Hose) : (p.setHose h u).cnl = p.cnl := rfl

/-! ## modHose -/

@[simp] theorem Part.now_modHose (p : Part) (h : HoseId) (f : Hose → Hose) : (p.modHose h f).now = p.now := rfl
@[simp] theorem Part.nextSecond_modHose (p : Part) (h : HoseId) (f : Hose → Hose) : (p.modHose h f).nextSecond = p.nextSecond := rfl
@[simp] theorem Part.draws_modHose (p : Part) (h : HoseId) (f : Hose → Hose) : (p.modHose h f).draws = p.draws := rfl
@[simp] theorem Part.pins_modHose (p : Part) (h : HoseId) (f : Hose → Hose) : (p.modHose h f).pins = p.pins := rfl
@[simp] theorem Part.cfl_modHose (p : Part) (h : HoseId) (f : Hose → Hose) : (p.modHose h f).cfl = p.cfl := rfl
@[simp] theorem Part.snc_modHose (p : Part) (h : HoseId) (f : Hose → Hose) : (p.modHose h f).snc = p.snc := rfl
@[simp] theorem Part.machines_modHose (p : Part) (h : HoseId) (f : Hose → Hose) : (p.modHose h f).machines = p.machines := rfl
@[simp] theorem Part.alc_modHose (p : Part) (h : HoseId) (f : Hose → Hose) : (p.modHose h f).alc = p.alc := rfl
@[simp] theorem Part.pumps_modHose (p : Part) (h : HoseId) (f : Hose → Hose) : (p.modHose h f).pumps = p.pumps := rfl
@[simp] theorem Part.requestOrder_modHose (p : Part) (h : HoseId) (f : Hose → Hose) : (p.modHose h f).requestOrder = p.requestOrder := rfl
@[simp] theorem Part.tlg_modHose (p : Part) (h : HoseId) (f : Hose → Hose) : (p.modHose h f).tlg = p.tlg := rfl
@[simp] theorem Part.totals_modHose (p : Part) (h : HoseId) (f : Hose → Hose) : (p.modHose h f).totals = p.totals := rfl
@[simp] theorem Part.inv_modHose (p : Part) (h : HoseId) (f : Hose → Hose) : (p.modHose h f).inv = p.inv := rfl
@[simp] theorem Part.rsc_modHose (p : Part) (h : HoseId) (f : Hose → Hose) : (p.modHose h f).rsc = p.rsc := rfl
@[simp] theorem Part.cnl_modHose (p : Part) (h : HoseId) (f : Hose → Hose) : (p.modHose h f).cnl = p.cnl := rfl

/-! ## modReader -/

@[simp] theorem Part.now_modReader (p : Part) (h : HoseId) (f : Reader → Reader) : (p.modReader h f).now = p.now := rfl
@[simp] theorem Part.nextSecond_modReader (p : Part) (h : HoseId) (f : Reader → Reader) : (p.modReader h f).nextSecond = p.nextSecond := rfl
@[simp] theorem Part.draws_modReader (p : Part) (h : HoseId) (f : Reader → Reader) : (p.modReader h f).draws = p.draws := rfl
@[simp] theorem Part.pins_modReader (p : Part) (h : HoseId) (f : Reader → Reader) : (p.modReader h f).pins = p.pins := rfl
@[simp] theorem Part.cfl_modReader (p : Part) (h : HoseId) (f : Reader → Reader) : (p.modReader h f).cfl = p.cfl := rfl
@[simp] theorem Part.snc_modReader (p : Part) (h : HoseId) (f : Reader → Reader) : (p.modReader h f).snc = p.snc := rfl
@[simp] theorem Part.machines_modReader (p : Part) (h : HoseId) (f : Reader → Reader) : (p.modReader h f).machines = p.machines := rfl
@[simp] theorem Part.alc_modReader (p : Part) (h : HoseId) (f : Reader → Reader) : (p.modReader h f).alc = p.alc := rfl
@[simp] theorem Part.pumps_modReader (p : Part) (h : HoseId) (f : Reader → Reader) : (p.modReader h f).pumps = p.pumps := rfl
@[simp] theorem Part.requestOrder_modReader (p : Part) (h : HoseId) (f : Reader → Reader) : (p.modReader h f).requestOrder = p.requestOrder := rfl
@[simp] theorem Part.tlg_modReader (p : Part) (h : HoseId) (f : Reader → Reader) : (p.modReader h f).tlg = p.tlg := rfl
@[simp] theorem Part.totals_modReader (p : Part) (h : HoseId) (f : Reader → Reader) : (p.modReader h f).totals = p.totals := rfl
@[simp] theorem Part.inv_modReader (p : Part) (h : HoseId) (f : Reader → Reader) : (p.modReader h f).inv = p.inv := rfl
@[simp] theorem Part.rsc_modReader (p : Part) (h : HoseId) (f : Reader → Reader) : (p.modReader h f).rsc = p.rsc := rfl
@[simp] theorem Part.cnl_modReader (p : Part) (h : HoseId) (f : Reader → Reader) : (p.modReader h f).cnl = p.cnl := rfl

/-! ## modMeter -/

@[simp] theorem Part.now_modMeter (p : Part) (h : HoseId) (f : Meter → Meter) : (p.modMeter h f).now = p.now := rfl
@[simp] theorem Part.nextSecond_modMeter (p : Part) (h : HoseId) (f : Meter → Meter) : (p.modMeter h f).nextSecond = p.nextSecond := rfl
@[simp] theorem Part.draws_modMeter (p : Part) (h : HoseId) (f : Meter → Meter) : (p.modMeter h f).draws = p.draws := rfl
@[simp] theorem Part.pins_modMeter (p : Part) (h : HoseId) (f : Meter → Meter) : (p.modMeter h f).pins = p.pins := rfl
@[simp] theorem Part.cfl_modMeter (p : Part) (h : HoseId) (f : Meter → Meter) : (p.modMeter h f).cfl = p.cfl := rfl
@[simp] theorem Part.snc_modMeter (p : Part) (h : HoseId) (f : Meter → Meter) : (p.modMeter h f).snc = p.snc := rfl
@[simp] theorem Part.machines_modMeter (p : Part) (h : HoseId) (f : Meter → Meter) : (p.modMeter h f).machines = p.machines := rfl
@[simp] theorem Part.alc_modMeter (p : Part) (h : HoseId) (f : Meter → Meter) : (p.modMeter h f).alc = p.alc := rfl
@[simp] theorem Part.pumps_modMeter (p : Part) (h : HoseId) (f : Meter → Meter) : (p.modMeter h f).pumps = p.pumps := rfl
@[simp] theorem Part.requestOrder_modMeter (p : Part) (h : HoseId) (f : Meter → Meter) : (p.modMeter h f).requestOrder = p.requestOrder := rfl
@[simp] theorem Part.tlg_modMeter (p : Part) (h : HoseId) (f : Meter → Meter) : (p.modMeter h f).tlg = p.tlg := rfl
@[simp] theorem Part.totals_modMeter (p : Part) (h : HoseId) (f : Meter → Meter) : (p.modMeter h f).totals = p.totals := rfl
@[simp] theorem Part.inv_modMeter (p : Part) (h : HoseId) (f : Meter → Meter) : (p.modMeter h f).inv = p.inv := rfl
@[simp] theorem Part.rsc_modMeter (p : Part) (h : HoseId) (f : Meter → Meter) : (p.modMeter h f).rsc = p.rsc := rfl
@[simp] theorem Part.cnl_modMeter (p : Part) (h : HoseId) (f : Meter → Meter) : (p.modMeter h f).cnl = p.cnl := rfl

/-! ## modValves -/

@[simp] theorem Part.now_modValves (p : Part) (h : HoseId) (f : Vsq → Vsq) : (p.modValves h f).now = p.now := rfl
@[simp] theorem Part.nextSecond_modValves (p : Part) (h : HoseId) (f : Vsq → Vsq) : (p.modValves h f).nextSecond = p.nextSecond := rfl
@[simp] theorem Part.draws_modValves (p : Part) (h : HoseId) (f : Vsq → Vsq) : (p.modValves h f).draws = p.draws := rfl
@[simp] theorem Part.pins_modValves (p : Part) (h : HoseId) (f : Vsq → Vsq) : (p.modValves h f).pins = p.pins := rfl
@[simp] theorem Part.cfl_modValves (p : Part) (h : HoseId) (f : Vsq → Vsq) : (p.modValves h f).cfl = p.cfl := rfl
@[simp] theorem Part.snc_modValves (p : Part) (h : HoseId) (f : Vsq → Vsq) : (p.modValves h f).snc = p.snc := rfl
@[simp] theorem Part.machines_modValves (p : Part) (h : HoseId) (f : Vsq → Vsq) : (p.modValves h f).machines = p.machines := rfl
@[simp] theorem Part.alc_modValves (p : Part) (h : HoseId) (f : Vsq → Vsq) : (p.modValves h f).alc = p.alc := rfl
@[simp] theorem Part.pumps_modValves (p : Part) (h : HoseId) (f : Vsq → Vsq) : (p.modValves h f).pumps = p.pumps := rfl
@[simp] theorem Part.requestOrder_modValves (p : Part) (h : HoseId) (f : Vsq → Vsq) : (p.modValves h f).requestOrder = p.requestOrder := rfl
@[simp] theorem Part.tlg_modValves (p : Part) (h : HoseId) (f : Vsq → Vsq) : (p.modValves h f).tlg = p.tlg := rfl
@[simp] theorem Part.totals_modValves (p : Part) (h : HoseId) (f : Vsq → Vsq) : (p.modValves h f).totals = p.totals := rfl
@[simp] theorem Part.inv_modValves (p : Part) (h : HoseId) (f : Vsq → Vsq) : (p.modValves h f).inv = p.inv := rfl
@[simp] theorem Part.rsc_modValves (p : Part) (h : HoseId) (f : Vsq → Vsq) : (p.modValves h f).rsc = p.rsc := rfl
@[simp] theorem Part.cnl_modValves (p : Part) (h : HoseId) (f : Vsq → Vsq) : (p.modValves h f).cnl = p.cnl := rfl

/-! ## modContext -/

@[simp] theorem Part.now_modContext (p : Part) (h : HoseId) (f : Context → Context) : (p.modContext h f).now = p.now := rfl
@[simp] theorem Part.nextSecond_modContext (p : Part) (h : HoseId) (f : Context → Context) : (p.modContext h f).nextSecond = p.nextSecond := rfl
@[simp] theorem Part.draws_modContext (p : Part) (h : HoseId) (f : Context → Context) : (p.modContext h f).draws = p.draws := rfl
@[simp] theorem Part.pins_modContext (p : Part) (h : HoseId) (f : Context → Context) : (p.modContext h f).pins = p.pins := rfl
@[simp] theorem Part.cfl_modContext (p : Part) (h : HoseId) (f : Context → Context) : (p.modContext h f).cfl = p.cfl := rfl
@[simp] theorem Part.snc_modContext (p : Part) (h : HoseId) (f : Context → Context) : (p.modContext h f).snc = p.snc := rfl
@[simp] theorem Part.machines_modContext (p : Part) (h : HoseId) (f : Context → Context) : (p.modContext h f).machines = p.machines := rfl
@[simp] theorem Part.alc_modContext (p : Part) (h : HoseId) (f : Context → Context) : (p.modContext h f).alc = p.alc := rfl
@[simp] theorem Part.pumps_modContext (p : Part) (h : HoseId) (f : Context → Context) : (p.modContext h f).pumps = p.pumps := rfl
@[simp] theorem Part.requestOrder_modContext (p : Part) (h : HoseId) (f : Context → Context) : (p.modContext h f).requestOrder = p.requestOrder := rfl
@[simp] theorem Part.tlg_modContext (p : Part) (h : HoseId) (f : Context → Context) : (p.modContext h f).tlg = p.tlg := rfl
@[simp] theorem Part.totals_modContext (p : Part) (h : HoseId) (f : Context → Context) : (p.modContext h f).totals = p.totals := rfl
@[simp] theorem Part.inv_modContext (p : Part) (h : HoseId) (f : Context → Context) : (p.modContext h f).inv = p.inv := rfl
@[simp] theorem Part.rsc_modContext (p : Part) (h : HoseId) (f : Context → Context) : (p.modContext h f).rsc = p.rsc := rfl
@[simp] theorem Part.cnl_modContext (p : Part) (h : HoseId) (f : Context → Context) : (p.modContext h f).cnl = p.cnl := rfl

/-! ## addFaults -/

@[simp] theorem Part.now_addFaults (p : Part) (h : HoseId) (f : FaultSet) : (p.addFaults h f).now = p.now := rfl
@[simp] theorem Part.nextSecond_addFaults (p : Part) (h : HoseId) (f : FaultSet) : (p.addFaults h f).nextSecond = p.nextSecond := rfl
@[simp] theorem Part.draws_addFaults (p : Part) (h : HoseId) (f : FaultSet) : (p.addFaults h f).draws = p.draws := rfl
@[simp] theorem Part.pins_addFaults (p : Part) (h : HoseId) (f : FaultSet) : (p.addFaults h f).pins = p.pins := rfl
@[simp] theorem Part.cfl_addFaults (p : Part) (h : HoseId) (f : FaultSet) : (p.addFaults h f).cfl = p.cfl := rfl
@[simp] theorem Part.snc_addFaults (p : Part) (h : HoseId) (f : FaultSet) : (p.addFaults h f).snc = p.snc := rfl
@[simp] theorem Part.machines_addFaults (p : Part) (h : HoseId) (f : FaultSet) : (p.addFaults h f).machines = p.machines := rfl
@[simp] theorem Part.alc_addFaults (p : Part) (h : HoseId) (f : FaultSet) : (p.addFaults h f).alc = p.alc := rfl
@[simp] theorem Part.pumps_addFaults (p : Part) (h : HoseId) (f : FaultSet) : (p.addFaults h f).pumps = p.pumps := rfl
@[simp] theorem Part.requestOrder_addFaults (p : Part) (h : HoseId) (f : FaultSet) : (p.addFaults h f).requestOrder = p.requestOrder := rfl
@[simp] theorem Part.tlg_addFaults (p : Part) (h : HoseId) (f : FaultSet) : (p.addFaults h f).tlg = p.tlg := rfl
@[simp] theorem Part.totals_addFaults (p : Part) (h : HoseId) (f : FaultSet) : (p.addFaults h f).totals = p.totals := rfl
@[simp] theorem Part.inv_addFaults (p : Part) (h : HoseId) (f : FaultSet) : (p.addFaults h f).inv = p.inv := rfl
@[simp] theorem Part.rsc_addFaults (p : Part) (h : HoseId) (f : FaultSet) : (p.addFaults h f).rsc = p.rsc := rfl
@[simp] theorem Part.cnl_addFaults (p : Part) (h : HoseId) (f : FaultSet) : (p.addFaults h f).cnl = p.cnl := rfl

/-! ## superviseOff -/

@[simp] theorem Part.now_superviseOff (p : Part) (h : HoseId) : (p.superviseOff h).now = p.now := rfl
@[simp] theorem Part.nextSecond_superviseOff (p : Part) (h : HoseId) : (p.superviseOff h).nextSecond = p.nextSecond := rfl
@[simp] theorem Part.draws_superviseOff (p : Part) (h : HoseId) : (p.superviseOff h).draws = p.draws := rfl
@[simp] theorem Part.pins_superviseOff (p : Part) (h : HoseId) : (p.superviseOff h).pins = p.pins := rfl
@[simp] theorem Part.cfl_superviseOff (p : Part) (h : HoseId) : (p.superviseOff h).cfl = p.cfl := rfl
@[simp] theorem Part.snc_superviseOff (p : Part) (h : HoseId) : (p.superviseOff h).snc = p.snc := rfl
@[simp] theorem Part.machines_superviseOff (p : Part) (h : HoseId) : (p.superviseOff h).machines = p.machines := rfl
@[simp] theorem Part.alc_superviseOff (p : Part) (h : HoseId) : (p.superviseOff h).alc = p.alc := rfl
@[simp] theorem Part.pumps_superviseOff (p : Part) (h : HoseId) : (p.superviseOff h).pumps = p.pumps := rfl
@[simp] theorem Part.requestOrder_superviseOff (p : Part) (h : HoseId) : (p.superviseOff h).requestOrder = p.requestOrder := rfl
@[simp] theorem Part.tlg_superviseOff (p : Part) (h : HoseId) : (p.superviseOff h).tlg = p.tlg := rfl
@[simp] theorem Part.totals_superviseOff (p : Part) (h : HoseId) : (p.superviseOff h).totals = p.totals := rfl
@[simp] theorem Part.inv_superviseOff (p : Part) (h : HoseId) : (p.superviseOff h).inv = p.inv := rfl
@[simp] theorem Part.rsc_superviseOff (p : Part) (h : HoseId) : (p.superviseOff h).rsc = p.rsc := rfl
@[simp] theorem Part.cnl_superviseOff (p : Part) (h : HoseId) : (p.superviseOff h).cnl = p.cnl := rfl

/-! ## modPump -/

@[simp] theorem Part.now_modPump (p : Part) (i : PumpId) (f : Pump → Pump) : (p.modPump i f).now = p.now := rfl
@[simp] theorem Part.nextSecond_modPump (p : Part) (i : PumpId) (f : Pump → Pump) : (p.modPump i f).nextSecond = p.nextSecond := rfl
@[simp] theorem Part.draws_modPump (p : Part) (i : PumpId) (f : Pump → Pump) : (p.modPump i f).draws = p.draws := rfl
@[simp] theorem Part.pins_modPump (p : Part) (i : PumpId) (f : Pump → Pump) : (p.modPump i f).pins = p.pins := rfl
@[simp] theorem Part.cfl_modPump (p : Part) (i : PumpId) (f : Pump → Pump) : (p.modPump i f).cfl = p.cfl := rfl
@[simp] theorem Part.snc_modPump (p : Part) (i : PumpId) (f : Pump → Pump) : (p.modPump i f).snc = p.snc := rfl
@[simp] theorem Part.machines_modPump (p : Part) (i : PumpId) (f : Pump → Pump) : (p.modPump i f).machines = p.machines := rfl
@[simp] theorem Part.alc_modPump (p : Part) (i : PumpId) (f : Pump → Pump) : (p.modPump i f).alc = p.alc := rfl
@[simp] theorem Part.hoses_modPump (p : Part) (i : PumpId) (f : Pump → Pump) : (p.modPump i f).hoses = p.hoses := rfl
@[simp] theorem Part.requestOrder_modPump (p : Part) (i : PumpId) (f : Pump → Pump) : (p.modPump i f).requestOrder = p.requestOrder := rfl
@[simp] theorem Part.tlg_modPump (p : Part) (i : PumpId) (f : Pump → Pump) : (p.modPump i f).tlg = p.tlg := rfl
@[simp] theorem Part.totals_modPump (p : Part) (i : PumpId) (f : Pump → Pump) : (p.modPump i f).totals = p.totals := rfl
@[simp] theorem Part.inv_modPump (p : Part) (i : PumpId) (f : Pump → Pump) : (p.modPump i f).inv = p.inv := rfl
@[simp] theorem Part.rsc_modPump (p : Part) (i : PumpId) (f : Pump → Pump) : (p.modPump i f).rsc = p.rsc := rfl
@[simp] theorem Part.cnl_modPump (p : Part) (i : PumpId) (f : Pump → Pump) : (p.modPump i f).cnl = p.cnl := rfl

/-! ## dropGrant -/

@[simp] theorem Part.now_dropGrant (p : Part) (h : HoseId) : (p.dropGrant h).now = p.now := rfl
@[simp] theorem Part.nextSecond_dropGrant (p : Part) (h : HoseId) : (p.dropGrant h).nextSecond = p.nextSecond := rfl
@[simp] theorem Part.draws_dropGrant (p : Part) (h : HoseId) : (p.dropGrant h).draws = p.draws := rfl
@[simp] theorem Part.pins_dropGrant (p : Part) (h : HoseId) : (p.dropGrant h).pins = p.pins := rfl
@[simp] theorem Part.cfl_dropGrant (p : Part) (h : HoseId) : (p.dropGrant h).cfl = p.cfl := rfl
@[simp] theorem Part.snc_dropGrant (p : Part) (h : HoseId) : (p.dropGrant h).snc = p.snc := rfl
@[simp] theorem Part.machines_dropGrant (p : Part) (h : HoseId) : (p.dropGrant h).machines = p.machines := rfl
@[simp] theorem Part.alc_dropGrant (p : Part) (h : HoseId) : (p.dropGrant h).alc = p.alc := rfl
@[simp] theorem Part.hoses_dropGrant (p : Part) (h : HoseId) : (p.dropGrant h).hoses = p.hoses := rfl
@[simp] theorem Part.requestOrder_dropGrant (p : Part) (h : HoseId) : (p.dropGrant h).requestOrder = p.requestOrder := rfl
@[simp] theorem Part.tlg_dropGrant (p : Part) (h : HoseId) : (p.dropGrant h).tlg = p.tlg := rfl
@[simp] theorem Part.totals_dropGrant (p : Part) (h : HoseId) : (p.dropGrant h).totals = p.totals := rfl
@[simp] theorem Part.inv_dropGrant (p : Part) (h : HoseId) : (p.dropGrant h).inv = p.inv := rfl
@[simp] theorem Part.rsc_dropGrant (p : Part) (h : HoseId) : (p.dropGrant h).rsc = p.rsc := rfl
@[simp] theorem Part.cnl_dropGrant (p : Part) (h : HoseId) : (p.dropGrant h).cnl = p.cnl := rfl

/-! ## withdraw -/

@[simp] theorem Part.now_withdraw (p : Part) (h : HoseId) : (p.withdraw h).now = p.now := rfl
@[simp] theorem Part.nextSecond_withdraw (p : Part) (h : HoseId) : (p.withdraw h).nextSecond = p.nextSecond := rfl
@[simp] theorem Part.draws_withdraw (p : Part) (h : HoseId) : (p.withdraw h).draws = p.draws := rfl
@[simp] theorem Part.pins_withdraw (p : Part) (h : HoseId) : (p.withdraw h).pins = p.pins := rfl
@[simp] theorem Part.cfl_withdraw (p : Part) (h : HoseId) : (p.withdraw h).cfl = p.cfl := rfl
@[simp] theorem Part.snc_withdraw (p : Part) (h : HoseId) : (p.withdraw h).snc = p.snc := rfl
@[simp] theorem Part.machines_withdraw (p : Part) (h : HoseId) : (p.withdraw h).machines = p.machines := rfl
@[simp] theorem Part.alc_withdraw (p : Part) (h : HoseId) : (p.withdraw h).alc = p.alc := rfl
@[simp] theorem Part.hoses_withdraw (p : Part) (h : HoseId) : (p.withdraw h).hoses = p.hoses := rfl
@[simp] theorem Part.requestOrder_withdraw (p : Part) (h : HoseId) : (p.withdraw h).requestOrder = p.requestOrder := rfl
@[simp] theorem Part.tlg_withdraw (p : Part) (h : HoseId) : (p.withdraw h).tlg = p.tlg := rfl
@[simp] theorem Part.totals_withdraw (p : Part) (h : HoseId) : (p.withdraw h).totals = p.totals := rfl
@[simp] theorem Part.inv_withdraw (p : Part) (h : HoseId) : (p.withdraw h).inv = p.inv := rfl
@[simp] theorem Part.rsc_withdraw (p : Part) (h : HoseId) : (p.withdraw h).rsc = p.rsc := rfl
@[simp] theorem Part.cnl_withdraw (p : Part) (h : HoseId) : (p.withdraw h).cnl = p.cnl := rfl

/-! ## modComp -/

@[simp] theorem Part.now_modComp (p : Part) (c : CompId) (f : Compartment → Compartment) : (p.modComp c f).now = p.now := rfl
@[simp] theorem Part.nextSecond_modComp (p : Part) (c : CompId) (f : Compartment → Compartment) : (p.modComp c f).nextSecond = p.nextSecond := rfl
@[simp] theorem Part.draws_modComp (p : Part) (c : CompId) (f : Compartment → Compartment) : (p.modComp c f).draws = p.draws := rfl
@[simp] theorem Part.pins_modComp (p : Part) (c : CompId) (f : Compartment → Compartment) : (p.modComp c f).pins = p.pins := rfl
@[simp] theorem Part.cfl_modComp (p : Part) (c : CompId) (f : Compartment → Compartment) : (p.modComp c f).cfl = p.cfl := rfl
@[simp] theorem Part.snc_modComp (p : Part) (c : CompId) (f : Compartment → Compartment) : (p.modComp c f).snc = p.snc := rfl
@[simp] theorem Part.machines_modComp (p : Part) (c : CompId) (f : Compartment → Compartment) : (p.modComp c f).machines = p.machines := rfl
@[simp] theorem Part.alc_modComp (p : Part) (c : CompId) (f : Compartment → Compartment) : (p.modComp c f).alc = p.alc := rfl
@[simp] theorem Part.hoses_modComp (p : Part) (c : CompId) (f : Compartment → Compartment) : (p.modComp c f).hoses = p.hoses := rfl
@[simp] theorem Part.pumps_modComp (p : Part) (c : CompId) (f : Compartment → Compartment) : (p.modComp c f).pumps = p.pumps := rfl
@[simp] theorem Part.requestOrder_modComp (p : Part) (c : CompId) (f : Compartment → Compartment) : (p.modComp c f).requestOrder = p.requestOrder := rfl
@[simp] theorem Part.tlg_modComp (p : Part) (c : CompId) (f : Compartment → Compartment) : (p.modComp c f).tlg = p.tlg := rfl
@[simp] theorem Part.totals_modComp (p : Part) (c : CompId) (f : Compartment → Compartment) : (p.modComp c f).totals = p.totals := rfl
@[simp] theorem Part.rsc_modComp (p : Part) (c : CompId) (f : Compartment → Compartment) : (p.modComp c f).rsc = p.rsc := rfl
@[simp] theorem Part.cnl_modComp (p : Part) (c : CompId) (f : Compartment → Compartment) : (p.modComp c f).cnl = p.cnl := rfl

/-! ## modPins -/

@[simp] theorem Part.now_modPins (p : Part) (h : HoseId) (f : HosePins → HosePins) : (p.modPins h f).now = p.now := rfl
@[simp] theorem Part.nextSecond_modPins (p : Part) (h : HoseId) (f : HosePins → HosePins) : (p.modPins h f).nextSecond = p.nextSecond := rfl
@[simp] theorem Part.draws_modPins (p : Part) (h : HoseId) (f : HosePins → HosePins) : (p.modPins h f).draws = p.draws := rfl
@[simp] theorem Part.cfl_modPins (p : Part) (h : HoseId) (f : HosePins → HosePins) : (p.modPins h f).cfl = p.cfl := rfl
@[simp] theorem Part.snc_modPins (p : Part) (h : HoseId) (f : HosePins → HosePins) : (p.modPins h f).snc = p.snc := rfl
@[simp] theorem Part.machines_modPins (p : Part) (h : HoseId) (f : HosePins → HosePins) : (p.modPins h f).machines = p.machines := rfl
@[simp] theorem Part.alc_modPins (p : Part) (h : HoseId) (f : HosePins → HosePins) : (p.modPins h f).alc = p.alc := rfl
@[simp] theorem Part.hoses_modPins (p : Part) (h : HoseId) (f : HosePins → HosePins) : (p.modPins h f).hoses = p.hoses := rfl
@[simp] theorem Part.pumps_modPins (p : Part) (h : HoseId) (f : HosePins → HosePins) : (p.modPins h f).pumps = p.pumps := rfl
@[simp] theorem Part.requestOrder_modPins (p : Part) (h : HoseId) (f : HosePins → HosePins) : (p.modPins h f).requestOrder = p.requestOrder := rfl
@[simp] theorem Part.tlg_modPins (p : Part) (h : HoseId) (f : HosePins → HosePins) : (p.modPins h f).tlg = p.tlg := rfl
@[simp] theorem Part.totals_modPins (p : Part) (h : HoseId) (f : HosePins → HosePins) : (p.modPins h f).totals = p.totals := rfl
@[simp] theorem Part.inv_modPins (p : Part) (h : HoseId) (f : HosePins → HosePins) : (p.modPins h f).inv = p.inv := rfl
@[simp] theorem Part.rsc_modPins (p : Part) (h : HoseId) (f : HosePins → HosePins) : (p.modPins h f).rsc = p.rsc := rfl
@[simp] theorem Part.cnl_modPins (p : Part) (h : HoseId) (f : HosePins → HosePins) : (p.modPins h f).cnl = p.cnl := rfl

/-! ## modSnc -/

@[simp] theorem Part.now_modSnc (p : Part) (f : Snc → Snc) : (p.modSnc f).now = p.now := rfl
@[simp] theorem Part.nextSecond_modSnc (p : Part) (f : Snc → Snc) : (p.modSnc f).nextSecond = p.nextSecond := rfl
@[simp] theorem Part.draws_modSnc (p : Part) (f : Snc → Snc) : (p.modSnc f).draws = p.draws := rfl
@[simp] theorem Part.pins_modSnc (p : Part) (f : Snc → Snc) : (p.modSnc f).pins = p.pins := rfl
@[simp] theorem Part.cfl_modSnc (p : Part) (f : Snc → Snc) : (p.modSnc f).cfl = p.cfl := rfl
@[simp] theorem Part.machines_modSnc (p : Part) (f : Snc → Snc) : (p.modSnc f).machines = p.machines := rfl
@[simp] theorem Part.alc_modSnc (p : Part) (f : Snc → Snc) : (p.modSnc f).alc = p.alc := rfl
@[simp] theorem Part.hoses_modSnc (p : Part) (f : Snc → Snc) : (p.modSnc f).hoses = p.hoses := rfl
@[simp] theorem Part.pumps_modSnc (p : Part) (f : Snc → Snc) : (p.modSnc f).pumps = p.pumps := rfl
@[simp] theorem Part.requestOrder_modSnc (p : Part) (f : Snc → Snc) : (p.modSnc f).requestOrder = p.requestOrder := rfl
@[simp] theorem Part.tlg_modSnc (p : Part) (f : Snc → Snc) : (p.modSnc f).tlg = p.tlg := rfl
@[simp] theorem Part.totals_modSnc (p : Part) (f : Snc → Snc) : (p.modSnc f).totals = p.totals := rfl
@[simp] theorem Part.inv_modSnc (p : Part) (f : Snc → Snc) : (p.modSnc f).inv = p.inv := rfl
@[simp] theorem Part.rsc_modSnc (p : Part) (f : Snc → Snc) : (p.modSnc f).rsc = p.rsc := rfl
@[simp] theorem Part.cnl_modSnc (p : Part) (f : Snc → Snc) : (p.modSnc f).cnl = p.cnl := rfl

/-! ## modPeer -/

@[simp] theorem Part.now_modPeer (p : Part) (n : Nat) (f : Peer → Peer) : (p.modPeer n f).now = p.now := rfl
@[simp] theorem Part.nextSecond_modPeer (p : Part) (n : Nat) (f : Peer → Peer) : (p.modPeer n f).nextSecond = p.nextSecond := rfl
@[simp] theorem Part.draws_modPeer (p : Part) (n : Nat) (f : Peer → Peer) : (p.modPeer n f).draws = p.draws := rfl
@[simp] theorem Part.pins_modPeer (p : Part) (n : Nat) (f : Peer → Peer) : (p.modPeer n f).pins = p.pins := rfl
@[simp] theorem Part.cfl_modPeer (p : Part) (n : Nat) (f : Peer → Peer) : (p.modPeer n f).cfl = p.cfl := rfl
@[simp] theorem Part.machines_modPeer (p : Part) (n : Nat) (f : Peer → Peer) : (p.modPeer n f).machines = p.machines := rfl
@[simp] theorem Part.alc_modPeer (p : Part) (n : Nat) (f : Peer → Peer) : (p.modPeer n f).alc = p.alc := rfl
@[simp] theorem Part.hoses_modPeer (p : Part) (n : Nat) (f : Peer → Peer) : (p.modPeer n f).hoses = p.hoses := rfl
@[simp] theorem Part.pumps_modPeer (p : Part) (n : Nat) (f : Peer → Peer) : (p.modPeer n f).pumps = p.pumps := rfl
@[simp] theorem Part.requestOrder_modPeer (p : Part) (n : Nat) (f : Peer → Peer) : (p.modPeer n f).requestOrder = p.requestOrder := rfl
@[simp] theorem Part.tlg_modPeer (p : Part) (n : Nat) (f : Peer → Peer) : (p.modPeer n f).tlg = p.tlg := rfl
@[simp] theorem Part.totals_modPeer (p : Part) (n : Nat) (f : Peer → Peer) : (p.modPeer n f).totals = p.totals := rfl
@[simp] theorem Part.inv_modPeer (p : Part) (n : Nat) (f : Peer → Peer) : (p.modPeer n f).inv = p.inv := rfl
@[simp] theorem Part.rsc_modPeer (p : Part) (n : Nat) (f : Peer → Peer) : (p.modPeer n f).rsc = p.rsc := rfl
@[simp] theorem Part.cnl_modPeer (p : Part) (n : Nat) (f : Peer → Peer) : (p.modPeer n f).cnl = p.cnl := rfl

/-! ## modMachine -/

@[simp] theorem Part.now_modMachine (p : Part) (n : Nat) (f : MachineRow → MachineRow) : (p.modMachine n f).now = p.now := rfl
@[simp] theorem Part.nextSecond_modMachine (p : Part) (n : Nat) (f : MachineRow → MachineRow) : (p.modMachine n f).nextSecond = p.nextSecond := rfl
@[simp] theorem Part.draws_modMachine (p : Part) (n : Nat) (f : MachineRow → MachineRow) : (p.modMachine n f).draws = p.draws := rfl
@[simp] theorem Part.pins_modMachine (p : Part) (n : Nat) (f : MachineRow → MachineRow) : (p.modMachine n f).pins = p.pins := rfl
@[simp] theorem Part.cfl_modMachine (p : Part) (n : Nat) (f : MachineRow → MachineRow) : (p.modMachine n f).cfl = p.cfl := rfl
@[simp] theorem Part.snc_modMachine (p : Part) (n : Nat) (f : MachineRow → MachineRow) : (p.modMachine n f).snc = p.snc := rfl
@[simp] theorem Part.alc_modMachine (p : Part) (n : Nat) (f : MachineRow → MachineRow) : (p.modMachine n f).alc = p.alc := rfl
@[simp] theorem Part.hoses_modMachine (p : Part) (n : Nat) (f : MachineRow → MachineRow) : (p.modMachine n f).hoses = p.hoses := rfl
@[simp] theorem Part.pumps_modMachine (p : Part) (n : Nat) (f : MachineRow → MachineRow) : (p.modMachine n f).pumps = p.pumps := rfl
@[simp] theorem Part.requestOrder_modMachine (p : Part) (n : Nat) (f : MachineRow → MachineRow) : (p.modMachine n f).requestOrder = p.requestOrder := rfl
@[simp] theorem Part.tlg_modMachine (p : Part) (n : Nat) (f : MachineRow → MachineRow) : (p.modMachine n f).tlg = p.tlg := rfl
@[simp] theorem Part.totals_modMachine (p : Part) (n : Nat) (f : MachineRow → MachineRow) : (p.modMachine n f).totals = p.totals := rfl
@[simp] theorem Part.inv_modMachine (p : Part) (n : Nat) (f : MachineRow → MachineRow) : (p.modMachine n f).inv = p.inv := rfl
@[simp] theorem Part.rsc_modMachine (p : Part) (n : Nat) (f : MachineRow → MachineRow) : (p.modMachine n f).rsc = p.rsc := rfl
@[simp] theorem Part.cnl_modMachine (p : Part) (n : Nat) (f : MachineRow → MachineRow) : (p.modMachine n f).cnl = p.cnl := rfl

/-! ## modSlot -/

@[simp] theorem Part.now_modSlot (p : Part) (n : Nat) (f : Slot → Slot) : (p.modSlot n f).now = p.now := rfl
@[simp] theorem Part.nextSecond_modSlot (p : Part) (n : Nat) (f : Slot → Slot) : (p.modSlot n f).nextSecond = p.nextSecond := rfl
@[simp] theorem Part.draws_modSlot (p : Part) (n : Nat) (f : Slot → Slot) : (p.modSlot n f).draws = p.draws := rfl
@[simp] theorem Part.pins_modSlot (p : Part) (n : Nat) (f : Slot → Slot) : (p.modSlot n f).pins = p.pins := rfl
@[simp] theorem Part.cfl_modSlot (p : Part) (n : Nat) (f : Slot → Slot) : (p.modSlot n f).cfl = p.cfl := rfl
@[simp] theorem Part.snc_modSlot (p : Part) (n : Nat) (f : Slot → Slot) : (p.modSlot n f).snc = p.snc := rfl
@[simp] theorem Part.machines_modSlot (p : Part) (n : Nat) (f : Slot → Slot) : (p.modSlot n f).machines = p.machines := rfl
@[simp] theorem Part.alc_modSlot (p : Part) (n : Nat) (f : Slot → Slot) : (p.modSlot n f).alc = p.alc := rfl
@[simp] theorem Part.hoses_modSlot (p : Part) (n : Nat) (f : Slot → Slot) : (p.modSlot n f).hoses = p.hoses := rfl
@[simp] theorem Part.pumps_modSlot (p : Part) (n : Nat) (f : Slot → Slot) : (p.modSlot n f).pumps = p.pumps := rfl
@[simp] theorem Part.requestOrder_modSlot (p : Part) (n : Nat) (f : Slot → Slot) : (p.modSlot n f).requestOrder = p.requestOrder := rfl
@[simp] theorem Part.totals_modSlot (p : Part) (n : Nat) (f : Slot → Slot) : (p.modSlot n f).totals = p.totals := rfl
@[simp] theorem Part.inv_modSlot (p : Part) (n : Nat) (f : Slot → Slot) : (p.modSlot n f).inv = p.inv := rfl
@[simp] theorem Part.rsc_modSlot (p : Part) (n : Nat) (f : Slot → Slot) : (p.modSlot n f).rsc = p.rsc := rfl
@[simp] theorem Part.cnl_modSlot (p : Part) (n : Nat) (f : Slot → Slot) : (p.modSlot n f).cnl = p.cnl := rfl

/-! ## returnSlot -/

@[simp] theorem Part.now_returnSlot (p : Part) (n : Nat) : (p.returnSlot n).now = p.now := rfl
@[simp] theorem Part.nextSecond_returnSlot (p : Part) (n : Nat) : (p.returnSlot n).nextSecond = p.nextSecond := rfl
@[simp] theorem Part.draws_returnSlot (p : Part) (n : Nat) : (p.returnSlot n).draws = p.draws := rfl
@[simp] theorem Part.pins_returnSlot (p : Part) (n : Nat) : (p.returnSlot n).pins = p.pins := rfl
@[simp] theorem Part.cfl_returnSlot (p : Part) (n : Nat) : (p.returnSlot n).cfl = p.cfl := rfl
@[simp] theorem Part.snc_returnSlot (p : Part) (n : Nat) : (p.returnSlot n).snc = p.snc := rfl
@[simp] theorem Part.machines_returnSlot (p : Part) (n : Nat) : (p.returnSlot n).machines = p.machines := rfl
@[simp] theorem Part.alc_returnSlot (p : Part) (n : Nat) : (p.returnSlot n).alc = p.alc := rfl
@[simp] theorem Part.hoses_returnSlot (p : Part) (n : Nat) : (p.returnSlot n).hoses = p.hoses := rfl
@[simp] theorem Part.pumps_returnSlot (p : Part) (n : Nat) : (p.returnSlot n).pumps = p.pumps := rfl
@[simp] theorem Part.requestOrder_returnSlot (p : Part) (n : Nat) : (p.returnSlot n).requestOrder = p.requestOrder := rfl
@[simp] theorem Part.totals_returnSlot (p : Part) (n : Nat) : (p.returnSlot n).totals = p.totals := rfl
@[simp] theorem Part.inv_returnSlot (p : Part) (n : Nat) : (p.returnSlot n).inv = p.inv := rfl
@[simp] theorem Part.rsc_returnSlot (p : Part) (n : Nat) : (p.returnSlot n).rsc = p.rsc := rfl
@[simp] theorem Part.cnl_returnSlot (p : Part) (n : Nat) : (p.returnSlot n).cnl = p.cnl := rfl

/-! ## closeSlot -/

@[simp] theorem Part.now_closeSlot (p : Part) (n : Nat) : (p.closeSlot n).now = p.now := rfl
@[simp] theorem Part.nextSecond_closeSlot (p : Part) (n : Nat) : (p.closeSlot n).nextSecond = p.nextSecond := rfl
@[simp] theorem Part.draws_closeSlot (p : Part) (n : Nat) : (p.closeSlot n).draws = p.draws := rfl
@[simp] theorem Part.pins_closeSlot (p : Part) (n : Nat) : (p.closeSlot n).pins = p.pins := rfl
@[simp] theorem Part.cfl_closeSlot (p : Part) (n : Nat) : (p.closeSlot n).cfl = p.cfl := rfl
@[simp] theorem Part.snc_closeSlot (p : Part) (n : Nat) : (p.closeSlot n).snc = p.snc := rfl
@[simp] theorem Part.machines_closeSlot (p : Part) (n : Nat) : (p.closeSlot n).machines = p.machines := rfl
@[simp] theorem Part.alc_closeSlot (p : Part) (n : Nat) : (p.closeSlot n).alc = p.alc := rfl
@[simp] theorem Part.hoses_closeSlot (p : Part) (n : Nat) : (p.closeSlot n).hoses = p.hoses := rfl
@[simp] theorem Part.pumps_closeSlot (p : Part) (n : Nat) : (p.closeSlot n).pumps = p.pumps := rfl
@[simp] theorem Part.requestOrder_closeSlot (p : Part) (n : Nat) : (p.closeSlot n).requestOrder = p.requestOrder := rfl
@[simp] theorem Part.totals_closeSlot (p : Part) (n : Nat) : (p.closeSlot n).totals = p.totals := rfl
@[simp] theorem Part.inv_closeSlot (p : Part) (n : Nat) : (p.closeSlot n).inv = p.inv := rfl
@[simp] theorem Part.rsc_closeSlot (p : Part) (n : Nat) : (p.closeSlot n).rsc = p.rsc := rfl
@[simp] theorem Part.cnl_closeSlot (p : Part) (n : Nat) : (p.closeSlot n).cnl = p.cnl := rfl

/-! ## takeSequence -/

@[simp] theorem Part.now_takeSequence (p : Part) : (p.takeSequence).now = p.now := rfl
@[simp] theorem Part.nextSecond_takeSequence (p : Part) : (p.takeSequence).nextSecond = p.nextSecond := rfl
@[simp] theorem Part.draws_takeSequence (p : Part) : (p.takeSequence).draws = p.draws := rfl
@[simp] theorem Part.pins_takeSequence (p : Part) : (p.takeSequence).pins = p.pins := rfl
@[simp] theorem Part.cfl_takeSequence (p : Part) : (p.takeSequence).cfl = p.cfl := rfl
@[simp] theorem Part.snc_takeSequence (p : Part) : (p.takeSequence).snc = p.snc := rfl
@[simp] theorem Part.machines_takeSequence (p : Part) : (p.takeSequence).machines = p.machines := rfl
@[simp] theorem Part.alc_takeSequence (p : Part) : (p.takeSequence).alc = p.alc := rfl
@[simp] theorem Part.hoses_takeSequence (p : Part) : (p.takeSequence).hoses = p.hoses := rfl
@[simp] theorem Part.pumps_takeSequence (p : Part) : (p.takeSequence).pumps = p.pumps := rfl
@[simp] theorem Part.requestOrder_takeSequence (p : Part) : (p.takeSequence).requestOrder = p.requestOrder := rfl
@[simp] theorem Part.totals_takeSequence (p : Part) : (p.takeSequence).totals = p.totals := rfl
@[simp] theorem Part.inv_takeSequence (p : Part) : (p.takeSequence).inv = p.inv := rfl
@[simp] theorem Part.rsc_takeSequence (p : Part) : (p.takeSequence).rsc = p.rsc := rfl
@[simp] theorem Part.cnl_takeSequence (p : Part) : (p.takeSequence).cnl = p.cnl := rfl

/-! ## joinWrite -/

@[simp] theorem Part.now_joinWrite (p : Part) (r : WriteReq) : (p.joinWrite r).now = p.now := rfl
@[simp] theorem Part.nextSecond_joinWrite (p : Part) (r : WriteReq) : (p.joinWrite r).nextSecond = p.nextSecond := rfl
@[simp] theorem Part.draws_joinWrite (p : Part) (r : WriteReq) : (p.joinWrite r).draws = p.draws := rfl
@[simp] theorem Part.pins_joinWrite (p : Part) (r : WriteReq) : (p.joinWrite r).pins = p.pins := rfl
@[simp] theorem Part.cfl_joinWrite (p : Part) (r : WriteReq) : (p.joinWrite r).cfl = p.cfl := rfl
@[simp] theorem Part.snc_joinWrite (p : Part) (r : WriteReq) : (p.joinWrite r).snc = p.snc := rfl
@[simp] theorem Part.machines_joinWrite (p : Part) (r : WriteReq) : (p.joinWrite r).machines = p.machines := rfl
@[simp] theorem Part.alc_joinWrite (p : Part) (r : WriteReq) : (p.joinWrite r).alc = p.alc := rfl
@[simp] theorem Part.hoses_joinWrite (p : Part) (r : WriteReq) : (p.joinWrite r).hoses = p.hoses := rfl
@[simp] theorem Part.pumps_joinWrite (p : Part) (r : WriteReq) : (p.joinWrite r).pumps = p.pumps := rfl
@[simp] theorem Part.requestOrder_joinWrite (p : Part) (r : WriteReq) : (p.joinWrite r).requestOrder = p.requestOrder := rfl
@[simp] theorem Part.totals_joinWrite (p : Part) (r : WriteReq) : (p.joinWrite r).totals = p.totals := rfl
@[simp] theorem Part.inv_joinWrite (p : Part) (r : WriteReq) : (p.joinWrite r).inv = p.inv := rfl
@[simp] theorem Part.rsc_joinWrite (p : Part) (r : WriteReq) : (p.joinWrite r).rsc = p.rsc := rfl
@[simp] theorem Part.cnl_joinWrite (p : Part) (r : WriteReq) : (p.joinWrite r).cnl = p.cnl := rfl

/-! ## setBay -/

@[simp] theorem Part.now_setBay (p : Part) (b : BayId) (e : Option BayEntry) : (p.setBay b e).now = p.now := rfl
@[simp] theorem Part.nextSecond_setBay (p : Part) (b : BayId) (e : Option BayEntry) : (p.setBay b e).nextSecond = p.nextSecond := rfl
@[simp] theorem Part.draws_setBay (p : Part) (b : BayId) (e : Option BayEntry) : (p.setBay b e).draws = p.draws := rfl
@[simp] theorem Part.pins_setBay (p : Part) (b : BayId) (e : Option BayEntry) : (p.setBay b e).pins = p.pins := rfl
@[simp] theorem Part.cfl_setBay (p : Part) (b : BayId) (e : Option BayEntry) : (p.setBay b e).cfl = p.cfl := rfl
@[simp] theorem Part.snc_setBay (p : Part) (b : BayId) (e : Option BayEntry) : (p.setBay b e).snc = p.snc := rfl
@[simp] theorem Part.machines_setBay (p : Part) (b : BayId) (e : Option BayEntry) : (p.setBay b e).machines = p.machines := rfl
@[simp] theorem Part.alc_setBay (p : Part) (b : BayId) (e : Option BayEntry) : (p.setBay b e).alc = p.alc := rfl
@[simp] theorem Part.hoses_setBay (p : Part) (b : BayId) (e : Option BayEntry) : (p.setBay b e).hoses = p.hoses := rfl
@[simp] theorem Part.pumps_setBay (p : Part) (b : BayId) (e : Option BayEntry) : (p.setBay b e).pumps = p.pumps := rfl
@[simp] theorem Part.requestOrder_setBay (p : Part) (b : BayId) (e : Option BayEntry) : (p.setBay b e).requestOrder = p.requestOrder := rfl
@[simp] theorem Part.tlg_setBay (p : Part) (b : BayId) (e : Option BayEntry) : (p.setBay b e).tlg = p.tlg := rfl
@[simp] theorem Part.totals_setBay (p : Part) (b : BayId) (e : Option BayEntry) : (p.setBay b e).totals = p.totals := rfl
@[simp] theorem Part.inv_setBay (p : Part) (b : BayId) (e : Option BayEntry) : (p.setBay b e).inv = p.inv := rfl
@[simp] theorem Part.cnl_setBay (p : Part) (b : BayId) (e : Option BayEntry) : (p.setBay b e).cnl = p.cnl := rfl

/-! ## event -/

@[simp] theorem Part.now_event (p : Part) (e : Event) : (p.event e).now = p.now := rfl
@[simp] theorem Part.nextSecond_event (p : Part) (e : Event) : (p.event e).nextSecond = p.nextSecond := rfl
@[simp] theorem Part.draws_event (p : Part) (e : Event) : (p.event e).draws = p.draws := rfl
@[simp] theorem Part.pins_event (p : Part) (e : Event) : (p.event e).pins = p.pins := rfl
@[simp] theorem Part.cfl_event (p : Part) (e : Event) : (p.event e).cfl = p.cfl := rfl
@[simp] theorem Part.snc_event (p : Part) (e : Event) : (p.event e).snc = p.snc := rfl
@[simp] theorem Part.machines_event (p : Part) (e : Event) : (p.event e).machines = p.machines := rfl
@[simp] theorem Part.alc_event (p : Part) (e : Event) : (p.event e).alc = p.alc := rfl
@[simp] theorem Part.hoses_event (p : Part) (e : Event) : (p.event e).hoses = p.hoses := rfl
@[simp] theorem Part.pumps_event (p : Part) (e : Event) : (p.event e).pumps = p.pumps := rfl
@[simp] theorem Part.requestOrder_event (p : Part) (e : Event) : (p.event e).requestOrder = p.requestOrder := rfl
@[simp] theorem Part.tlg_event (p : Part) (e : Event) : (p.event e).tlg = p.tlg := rfl
@[simp] theorem Part.totals_event (p : Part) (e : Event) : (p.event e).totals = p.totals := rfl
@[simp] theorem Part.inv_event (p : Part) (e : Event) : (p.event e).inv = p.inv := rfl
@[simp] theorem Part.rsc_event (p : Part) (e : Event) : (p.event e).rsc = p.rsc := rfl

/-! ## respond -/

@[simp] theorem Part.now_respond (p : Part) (r : Response) : (p.respond r).now = p.now := rfl
@[simp] theorem Part.nextSecond_respond (p : Part) (r : Response) : (p.respond r).nextSecond = p.nextSecond := rfl
@[simp] theorem Part.draws_respond (p : Part) (r : Response) : (p.respond r).draws = p.draws := rfl
@[simp] theorem Part.pins_respond (p : Part) (r : Response) : (p.respond r).pins = p.pins := rfl
@[simp] theorem Part.cfl_respond (p : Part) (r : Response) : (p.respond r).cfl = p.cfl := rfl
@[simp] theorem Part.snc_respond (p : Part) (r : Response) : (p.respond r).snc = p.snc := rfl
@[simp] theorem Part.machines_respond (p : Part) (r : Response) : (p.respond r).machines = p.machines := rfl
@[simp] theorem Part.alc_respond (p : Part) (r : Response) : (p.respond r).alc = p.alc := rfl
@[simp] theorem Part.hoses_respond (p : Part) (r : Response) : (p.respond r).hoses = p.hoses := rfl
@[simp] theorem Part.pumps_respond (p : Part) (r : Response) : (p.respond r).pumps = p.pumps := rfl
@[simp] theorem Part.requestOrder_respond (p : Part) (r : Response) : (p.respond r).requestOrder = p.requestOrder := rfl
@[simp] theorem Part.tlg_respond (p : Part) (r : Response) : (p.respond r).tlg = p.tlg := rfl
@[simp] theorem Part.totals_respond (p : Part) (r : Response) : (p.respond r).totals = p.totals := rfl
@[simp] theorem Part.inv_respond (p : Part) (r : Response) : (p.respond r).inv = p.inv := rfl
@[simp] theorem Part.rsc_respond (p : Part) (r : Response) : (p.respond r).rsc = p.rsc := rfl

/-! ## refuse -/

@[simp] theorem Part.now_refuse (p : Part) (c : Code) : (p.refuse c).now = p.now := rfl
@[simp] theorem Part.nextSecond_refuse (p : Part) (c : Code) : (p.refuse c).nextSecond = p.nextSecond := rfl
@[simp] theorem Part.draws_refuse (p : Part) (c : Code) : (p.refuse c).draws = p.draws := rfl
@[simp] theorem Part.pins_refuse (p : Part) (c : Code) : (p.refuse c).pins = p.pins := rfl
@[simp] theorem Part.cfl_refuse (p : Part) (c : Code) : (p.refuse c).cfl = p.cfl := rfl
@[simp] theorem Part.snc_refuse (p : Part) (c : Code) : (p.refuse c).snc = p.snc := rfl
@[simp] theorem Part.machines_refuse (p : Part) (c : Code) : (p.refuse c).machines = p.machines := rfl
@[simp] theorem Part.alc_refuse (p : Part) (c : Code) : (p.refuse c).alc = p.alc := rfl
@[simp] theorem Part.hoses_refuse (p : Part) (c : Code) : (p.refuse c).hoses = p.hoses := rfl
@[simp] theorem Part.pumps_refuse (p : Part) (c : Code) : (p.refuse c).pumps = p.pumps := rfl
@[simp] theorem Part.requestOrder_refuse (p : Part) (c : Code) : (p.refuse c).requestOrder = p.requestOrder := rfl
@[simp] theorem Part.tlg_refuse (p : Part) (c : Code) : (p.refuse c).tlg = p.tlg := rfl
@[simp] theorem Part.totals_refuse (p : Part) (c : Code) : (p.refuse c).totals = p.totals := rfl
@[simp] theorem Part.inv_refuse (p : Part) (c : Code) : (p.refuse c).inv = p.inv := rfl
@[simp] theorem Part.rsc_refuse (p : Part) (c : Code) : (p.refuse c).rsc = p.rsc := rfl

/-! ## reach -/

@[simp] theorem Part.nextSecond_reach (p : Part) (n : Nat) : (p.reach n).nextSecond = p.nextSecond := rfl
@[simp] theorem Part.draws_reach (p : Part) (n : Nat) : (p.reach n).draws = p.draws := rfl
@[simp] theorem Part.pins_reach (p : Part) (n : Nat) : (p.reach n).pins = p.pins := rfl
@[simp] theorem Part.cfl_reach (p : Part) (n : Nat) : (p.reach n).cfl = p.cfl := rfl
@[simp] theorem Part.snc_reach (p : Part) (n : Nat) : (p.reach n).snc = p.snc := rfl
@[simp] theorem Part.machines_reach (p : Part) (n : Nat) : (p.reach n).machines = p.machines := rfl
@[simp] theorem Part.alc_reach (p : Part) (n : Nat) : (p.reach n).alc = p.alc := rfl
@[simp] theorem Part.hoses_reach (p : Part) (n : Nat) : (p.reach n).hoses = p.hoses := rfl
@[simp] theorem Part.pumps_reach (p : Part) (n : Nat) : (p.reach n).pumps = p.pumps := rfl
@[simp] theorem Part.requestOrder_reach (p : Part) (n : Nat) : (p.reach n).requestOrder = p.requestOrder := rfl
@[simp] theorem Part.tlg_reach (p : Part) (n : Nat) : (p.reach n).tlg = p.tlg := rfl
@[simp] theorem Part.totals_reach (p : Part) (n : Nat) : (p.reach n).totals = p.totals := rfl
@[simp] theorem Part.inv_reach (p : Part) (n : Nat) : (p.reach n).inv = p.inv := rfl
@[simp] theorem Part.rsc_reach (p : Part) (n : Nat) : (p.reach n).rsc = p.rsc := rfl
@[simp] theorem Part.cnl_reach (p : Part) (n : Nat) : (p.reach n).cnl = p.cnl := rfl

/-! ## What the settings give, over updates that leave the loader alone -/

theorem Part.hoseSettings_of_cfl {p q : Part} (hc : q.cfl = p.cfl) (h : HoseId) : q.hoseSettings h = p.hoseSettings h := by
  simp [Part.hoseSettings, hc]

theorem Part.identity_of_cfl {p q : Part} (hc : q.cfl = p.cfl) : q.identity = p.identity := by simp [Part.identity, hc]

theorem Part.role_of_cfl {p q : Part} (hc : q.cfl = p.cfl) : q.role = p.role := by simp [Part.role, hc]

theorem Part.station_of_cfl {p q : Part} (hc : q.cfl = p.cfl) : q.station = p.station := by simp [Part.station, hc]

/-! ## The last writer wins -/

@[simp] theorem Part.setSnc_setSnc (p : Part) (x y : Snc) : (p.setSnc x).setSnc y = p.setSnc y := rfl

@[simp] theorem Part.setAlc_setAlc (p : Part) (x y : Alc) : (p.setAlc x).setAlc y = p.setAlc y := rfl

@[simp] theorem Part.setTlg_setTlg (p : Part) (x y : Tlg) : (p.setTlg x).setTlg y = p.setTlg y := rfl

@[simp] theorem Part.setTotals_setTotals (p : Part) (x y : List Totals) : (p.setTotals x).setTotals y = p.setTotals y := rfl

@[simp] theorem Part.setInv_setInv (p : Part) (x y : Inv) : (p.setInv x).setInv y = p.setInv y := rfl

@[simp] theorem Part.setRsc_setRsc (p : Part) (x y : Rsc) : (p.setRsc x).setRsc y = p.setRsc y := rfl

@[simp] theorem Part.setCnl_setCnl (p : Part) (x y : Cnl) : (p.setCnl x).setCnl y = p.setCnl y := rfl

@[simp] theorem Part.setMachines_setMachines (p : Part) (x y : List MachineRow) : (p.setMachines x).setMachines y = p.setMachines y := rfl

@[simp] theorem Part.setCfl_setCfl (p : Part) (x y : Cfl) : (p.setCfl x).setCfl y = p.setCfl y := rfl

@[simp] theorem Part.setPins_setPins (p : Part) (x y : Pins) : (p.setPins x).setPins y = p.setPins y := rfl

@[simp] theorem Part.setRequestOrder_setRequestOrder (p : Part) (x y : Nat) : (p.setRequestOrder x).setRequestOrder y = p.setRequestOrder y := rfl

@[simp] theorem Part.setHoses_setHoses (p : Part) (x y : Quad Hose) : (p.setHoses x).setHoses y = p.setHoses y := rfl

@[simp] theorem Part.setPumps_setPumps (p : Part) (x y : ByPump Pump) : (p.setPumps x).setPumps y = p.setPumps y := rfl

@[simp] theorem Part.setDraws_setDraws (p : Part) (x y : Nat) : (p.setDraws x).setDraws y = p.setDraws y := rfl

end Sys2Proof.Machine
end

