-- ==== Sys2Proof/Laws/Capacities.lean ====
section
/-! SUPPORT. What the operations on the log's write queue, the peer claim table and the restock coordinator keep of their capacities. -/

namespace Sys2Proof.Machine

open Sys2Proof

/-! ## The write queue (07) -/

theorem replaceWaiting_kinds (r : WriteReq) (l : List WriteReq) : (replaceWaiting r l).map WriteReq.kind = l.map WriteReq.kind := by
  induction l with
  | nil => rfl
  | cons q rest ih =>
    unfold replaceWaiting
    split
    · simp_all
    · simp [ih]

theorem carryClosing_kinds (h : HoseId) (l : List WriteReq) : (carryClosing h l).map WriteReq.kind = l.map WriteReq.kind := by
  induction l with
  | nil => rfl
  | cons q rest ih =>
    unfold carryClosing
    split
    · simp_all
    · split <;> simp_all [WriteReq.kind]
    · simp_all

theorem withoutOldestCheckpoint_some {l rest : List WriteReq} (hl : withoutOldestCheckpoint l = some rest) :
    rest.Sublist l ∧ rest.length + 1 = l.length := by
  induction l generalizing rest with
  | nil => simp [withoutOldestCheckpoint] at hl
  | cons x t ih =>
    unfold withoutOldestCheckpoint at hl
    split at hl
    · cases hl; simp
    · simp only [Option.map_eq_some_iff] at hl
      obtain ⟨a, ha, hb⟩ := hl
      subst hb
      have := ih ha
      exact ⟨this.1.cons_cons x, by simp [this.2]⟩

theorem withoutOldestCheckpoint_none {l : List WriteReq} (hl : withoutOldestCheckpoint l = none) :
    ∀ r ∈ l, r.isCheckpoint = false := by
  induction l with
  | nil => simp
  | cons x t ih =>
    unfold withoutOldestCheckpoint at hl
    split at hl
    · cases hl
    · rename_i hn
      simp only [Option.map_eq_none_iff] at hl
      intro r hr
      rcases List.mem_cons.mp hr with hx | hx
      · subst hx; simpa using hn
      · exact ih hl r hx

/-- Requests other than checkpoints, at most one of a kind: seven (R131). -/
theorem kinds_le_seven {l : List WriteReq} (hn : (l.map WriteReq.kind).Nodup) (hc : ∀ r ∈ l, r.isCheckpoint = false) :
    l.length ≤ 7 := by
  have hs : l.map WriteReq.kind ⊆ [.record .h1, .record .h2, .record .h3, .record .h4, .whole .a, .whole .b, .mark] := by
    intro k hk
    obtain ⟨r, hr, rfl⟩ := List.mem_map.mp hk
    have := hc r hr
    cases r with
    | opening h _ _ => cases h <;> simp [WriteReq.kind]
    | closing h _ => cases h <;> simp [WriteReq.kind]
    | checkpoint _ _ _ => simp [WriteReq.isCheckpoint] at this
    | whole c _ => cases c <;> simp [WriteReq.kind]
    | mark _ => simp [WriteReq.kind]
  simpa using (List.subperm_of_subset hn hs).length_le

namespace Tlg.Bounded

variable {t : Tlg}

/-- The queue replaced by one with the kinds of a part of it. -/
theorem of_queue {u : Tlg} (ht : t.Bounded) (hq : (u.queue.map WriteReq.kind).Sublist (t.queue.map WriteReq.kind))
    (hw : u.waitLists = t.waitLists) : u.Bounded := by
  refine ⟨hq.nodup ht.kinds, ?_, fun c => hw ▸ ht.waits c, fun c => hw ▸ ht.wholes c⟩
  have := hq.length_le
  simp only [List.length_map] at this
  exact this.trans ht.queue

/-- A change of the log that leaves its queue and its wait lists alone. -/
theorem congr {u : Tlg} (ht : t.Bounded) (hq : u.queue = t.queue) (hw : u.waitLists = t.waitLists) : u.Bounded :=
  ht.of_queue (by rw [hq]) hw

theorem empty (hq : t.queue = []) (hw : t.waitLists = ⟨[], []⟩) : t.Bounded :=
  ⟨by simp [hq], by simp [hq], fun c => by cases c <;> simp [hw, ByComp.get], fun c => by cases c <;> simp [hw, ByComp.get]⟩

theorem append (ht : t.Bounded) (r : WriteReq) (hr : r.kind ∉ t.queue.map WriteReq.kind) : (t.append r).Bounded := by
  have hadd : ∀ {l : List WriteReq}, l.Sublist t.queue → ((l ++ [r]).map WriteReq.kind).Nodup := by
    intro l hl
    rw [List.map_append, List.nodup_append]
    refine ⟨(hl.map _).nodup ht.kinds, by simp, ?_⟩
    intro a ha b hb hab
    simp only [List.map_cons, List.map_nil, List.mem_singleton] at hb
    subst hb; subst hab
    exact hr ((hl.map _).subset ha)
  unfold Tlg.append
  split
  · exact ⟨hadd (List.Sublist.refl _), by simp; omega, ht.waits, ht.wholes⟩
  · split
    · have := withoutOldestCheckpoint_some ‹_›
      have := ht.queue
      exact ⟨hadd (withoutOldestCheckpoint_some ‹_›).1, by simp; omega, ht.waits, ht.wholes⟩
    · exfalso
      have := kinds_le_seven ht.kinds (withoutOldestCheckpoint_none ‹_›)
      omega

theorem not_waiting {k : WriteKind} (hw : ¬ t.waits k = true) : k ∉ t.queue.map WriteReq.kind := by
  intro hk
  obtain ⟨q, hq, hqk⟩ := List.mem_map.mp hk
  exact hw (List.any_eq_true.mpr ⟨q, hq, by simp [hqk]⟩)

theorem join (ht : t.Bounded) (r : WriteReq) : (t.join r).Bounded := by
  unfold Tlg.join
  split
  · exact ht.of_queue (by rw [replaceWaiting_kinds]) rfl
  · exact ht.append r (not_waiting ‹_›)

end Tlg.Bounded

/-! ## The peer claim table (03) -/

/-- Claims of a list of origins, at most four of one origin. -/
theorem claims_le (origins : List Nat) (l : List PeerClaim) (ho : ∀ c ∈ l, c.origin ∈ origins)
    (h4 : ∀ o, (l.filter fun c => c.origin == o).length ≤ 4) : l.length ≤ 4 * origins.length := by
  induction origins generalizing l with
  | nil =>
    cases l with
    | nil => simp
    | cons c rest => simpa using ho c (by simp)
  | cons o rest ih =>
    have hsplit := l.length_eq_length_filter_add (fun c : PeerClaim => c.origin == o)
    have hrest := ih (l.filter fun c => !(c.origin == o))
      (fun c hc => by
        have hm := List.mem_filter.mp hc
        rcases List.mem_cons.mp (ho c hm.1) with h | h
        · simp [h] at hm
        · exact h)
      (fun o' => le_trans (((List.filter_sublist (l := l)).filter _).length_le) (h4 o'))
    have := h4 o
    simp only [List.length_cons]
    omega

namespace Alc.Bounded

variable {a b : Alc}

theorem of_claims (hb : ∀ o, (b.peerClaims.filter fun c => c.origin == o).length ≤ 4)
    (ho : ∀ c ∈ b.peerClaims, 1 ≤ c.origin ∧ c.origin ≤ 14) : b.Bounded := by
  refine ⟨?_, hb, ho⟩
  have := claims_le (List.range' 1 14) b.peerClaims (fun c hc => by
    have := ho c hc
    rw [List.mem_range'_1]; omega) hb
  simpa using this

theorem empty (ha : a.peerClaims = []) : a.Bounded := of_claims (by simp [ha]) (by simp [ha])

theorem sublist (ha : a.Bounded) (hs : b.peerClaims.Sublist a.peerClaims) : b.Bounded :=
  of_claims (fun o => (hs.filter _).length_le.trans (ha.perOrigin o)) fun c hc => ha.origins c (hs.subset hc)

theorem congr (ha : a.Bounded) (hs : b.peerClaims = a.peerClaims) : b.Bounded := ha.sublist (by rw [hs])

/-- Entries changed in place, their origins kept. -/
theorem map (ha : a.Bounded) (f : PeerClaim → PeerClaim) (hf : ∀ c, (f c).origin = c.origin)
    (hs : b.peerClaims = a.peerClaims.map f) : b.Bounded := by
  refine of_claims (fun o => ?_) fun c hc => ?_
  · rw [hs, List.filter_map, List.length_map]
    have : ((fun c : PeerClaim => c.origin == o) ∘ f) = fun c => c.origin == o := by
      funext c; simp [hf]
    rw [this]
    exact ha.perOrigin o
  · rw [hs] at hc
    obtain ⟨d, hd, rfl⟩ := List.mem_map.mp hc
    rw [hf]
    exact ha.origins d hd

end Alc.Bounded

theorem worstClaim_mem {origin : Nat} {l : List PeerClaim} {w : PeerClaim} (hw : worstClaim origin l = some w) :
    w ∈ l ∧ w.origin = origin := by
  induction l generalizing w with
  | nil => simp [worstClaim] at hw
  | cons c rest ih =>
    unfold worstClaim at hw
    split at hw
    · split at hw
      · split at hw
        · cases hw
          exact ⟨List.mem_cons_of_mem _ (ih ‹_›).1, (ih ‹_›).2⟩
        · cases hw; simp_all
      · cases hw; simp_all
    · exact ⟨List.mem_cons_of_mem _ (ih hw).1, (ih hw).2⟩

theorem worstClaim_none {origin : Nat} {l : List PeerClaim} (hw : worstClaim origin l = none) : ∀ c ∈ l, c.origin ≠ origin := by
  induction l with
  | nil => simp
  | cons c rest ih =>
    unfold worstClaim at hw
    split at hw
    · split at hw
      · split at hw <;> cases hw
      · cases hw
    · intro d hd
      rcases List.mem_cons.mp hd with h | h
      · subst h; assumption
      · exact ih hw d h

/-- A claim placed: at most four of its origin stand afterwards (03 R45). -/
theorem Part.placeClaim_bounded {p : Part} (hp : p.alc.Bounded) (origin number machine account reserved : Nat)
    (ho : 1 ≤ origin ∧ origin ≤ 14) : (p.placeClaim origin number machine account reserved).alc.Bounded := by
  unfold Part.placeClaim
  simp only []
  split
  · exact hp.map _ (fun c => by split <;> rfl) rfl
  · simp only [Part.alc_setAlc]
    have key : ∀ l : List PeerClaim, l.Sublist p.alc.peerClaims → (l.filter fun c => c.origin == origin).length < 4 →
        ∀ e : PeerClaim, e.origin = origin → ∀ n, ({ p.alc with peerClaims := l ++ [e], placed := n } : Alc).Bounded := by
      intro l hl h4 e he n
      refine Alc.Bounded.of_claims (fun o => ?_) fun c hc => ?_
      · simp only [List.filter_append, List.length_append]
        by_cases hoo : o = origin
        · subst hoo
          simp [he]; omega
        · have := ((hl.filter fun c => c.origin == o).length_le).trans (hp.perOrigin o)
          have hne : (e.origin == o) = false := by simp [he]; omega
          simp [hne, this]
      · rcases List.mem_append.mp hc with h | h
        · exact hp.origins c (hl.subset h)
        · simp only [List.mem_singleton] at h
          subst h
          rw [he]; exact ho
    split
    · exact key _ (List.Sublist.refl _) ‹_› _ rfl _
    · split
      · rename_i w hw
        refine key _ List.erase_sublist ?_ _ rfl _
        obtain ⟨hm, hwo⟩ := worstClaim_mem hw
        have hperm := (List.perm_cons_erase hm).filter fun c => c.origin == origin
        have hlen := hperm.length_eq
        have h4 := hp.perOrigin origin
        simp [hwo] at hlen
        omega
      · rename_i hw
        refine key _ (List.Sublist.refl _) ?_ _ rfl _
        have : (p.alc.peerClaims.filter fun c => c.origin == origin) = [] := by
          rw [List.filter_eq_nil_iff]
          intro c hc
          simpa using worstClaim_none hw c hc
        simp [this]

/-! ## The restock coordinator (09) -/

theorem insertEntry_perm (e : QueueEntry) (l : List QueueEntry) : (insertEntry e l).Perm (e :: l) := by
  induction l with
  | nil => exact List.Perm.refl _
  | cons q rest ih =>
    unfold insertEntry
    split
    · exact List.Perm.refl _
    · exact (ih.cons q).trans (List.Perm.swap e q rest)

namespace Rsc.Bounded

variable {own : Nat} {r s : Rsc}

theorem of_stations (hsize : s.stations.length ≤ 13) (honce : s.stations.Nodup)
    (hpeers : ∀ n ∈ s.stations, 1 ≤ n ∧ n ≤ 14 ∧ n ≠ own) : s.Bounded own := by
  refine ⟨?_, hsize, honce, hpeers⟩
  have : s.stations.length = s.queue.length + s.holders.length := by simp [Rsc.stations]
  omega

theorem empty (hq : r.queue = []) (hb : r.bays = ⟨none, none⟩) : r.Bounded own :=
  of_stations (by simp [Rsc.stations, Rsc.holders, hq, hb, allBays, ByBay.get])
    (by simp [Rsc.stations, Rsc.holders, hq, hb, allBays, ByBay.get])
    (by simp [Rsc.stations, Rsc.holders, hq, hb, allBays, ByBay.get])

/-- The stations rearranged, or some of them gone. -/
theorem of_subperm (hr : r.Bounded own) (hs : s.stations.Subperm r.stations) : s.Bounded own :=
  of_stations (hs.length_le.trans hr.size)
    (let ⟨_, hp, hl⟩ := hs; hp.nodup_iff.mp (hl.nodup hr.once)) fun n hn => hr.peers n (hs.subset hn)

theorem congr (hr : r.Bounded own) (hq : s.queue = r.queue) (hb : s.bays = r.bays) : s.Bounded own :=
  hr.of_subperm (by simp [Rsc.stations, Rsc.holders, hq, hb, List.Subperm.refl])

/-- A station that is neither waiting nor holds a bay joins the queue. -/
theorem insert (hr : r.Bounded own) (e : QueueEntry) (hown : 1 ≤ own ∧ own ≤ 14) (he : 1 ≤ e.station ∧ e.station ≤ 14 ∧ e.station ≠ own)
    (hnew : e.station ∉ r.stations) (hq : s.queue = insertEntry e r.queue) (hb : s.bays = r.bays) : s.Bounded own := by
  have hp : s.stations.Perm (e.station :: r.stations) := by
    simp only [Rsc.stations, Rsc.holders, hq, hb]
    exact ((insertEntry_perm e r.queue).map (·.station)).append_right _
  have hnodup : (e.station :: r.stations).Nodup := List.nodup_cons.mpr ⟨hnew, hr.once⟩
  have hpeers : ∀ n ∈ e.station :: r.stations, 1 ≤ n ∧ n ≤ 14 ∧ n ≠ own := by
    intro n hn
    rcases List.mem_cons.mp hn with h | h
    · rw [h]; exact he
    · exact hr.peers n h
  refine of_stations ?_ (hp.nodup_iff.mpr hnodup) fun n hn => hpeers n (hp.mem_iff.mp hn)
  rw [hp.length_eq]
  have hsub : (e.station :: r.stations) ⊆ (List.range' 1 14).erase own := by
    intro n hn
    obtain ⟨h1, h2, h3⟩ := hpeers n hn
    exact (List.mem_erase_of_ne h3).mpr (by rw [List.mem_range'_1]; omega)
  have hl := (List.subperm_of_subset hnodup hsub).length_le
  rw [List.length_erase_of_mem (by rw [List.mem_range'_1]; omega)] at hl
  simpa using hl

/-- An entry of the queue renewed in place of itself. -/
theorem requeue (hr : r.Bounded own) {e : QueueEntry} (f : QueueEntry) (he : e ∈ r.queue) (hf : f.station = e.station)
    (hq : s.queue = insertEntry f (r.queue.filter fun d => !(d.station == e.station))) (hb : s.bays = r.bays) : s.Bounded own := by
  refine hr.of_subperm ?_
  simp only [Rsc.stations, Rsc.holders, hq, hb]
  have h1 := (insertEntry_perm f (r.queue.filter fun d => !(d.station == e.station))).map (·.station)
  have h2 : (r.queue.filter fun d => !(d.station == e.station)).Subperm (r.queue.erase e) := by
    have hp := (List.perm_cons_erase he).filter fun d => !(d.station == e.station)
    simp only [beq_self_eq_true, Bool.not_true, Bool.false_eq_true, not_false_eq_true, List.filter_cons_of_neg] at hp
    exact hp.subperm.trans List.filter_sublist.subperm
  have h3 : ((f :: r.queue.filter fun d => !(d.station == e.station)).map (·.station)).Subperm (r.queue.map (·.station)) := by
    obtain ⟨l, hp, hs⟩ := h2
    have h4 : ((r.queue.filter fun d => !(d.station == e.station)).map QueueEntry.station).Subperm
        ((r.queue.erase e).map QueueEntry.station) := ⟨l.map QueueEntry.station, hp.map _, hs.map _⟩
    have := ((List.subperm_cons e.station).mpr h4).trans (((List.perm_cons_erase he).map QueueEntry.station).symm.subperm)
    simpa [hf] using this
  exact (h1.subperm.trans h3).append (List.Subperm.refl _)

/-- A bay freed, or its entry changed under the same station. -/
theorem setBay (hr : r.Bounded own) (b : BayId) (e : Option BayEntry)
    (he : ∀ x, e = some x → (r.bays.get b).map (·.station) = some x.station) :
    ({ r with bays := r.bays.set b e } : Rsc).Bounded own := by
  refine hr.of_subperm ?_
  simp only [Rsc.stations]
  refine (List.Subperm.refl _).append ?_
  simp only [Rsc.holders, allBays, List.filterMap]
  cases e with
  | none =>
    cases b
    · simp only [ByBay.get, ByBay.set, Option.map_none]
      cases hb : r.bays.b1 <;> simp [List.Subperm.refl, List.Sublist.subperm]
    · simp only [ByBay.get, ByBay.set, Option.map_none]
      cases hb : r.bays.b1 <;> cases hb' : r.bays.b2 <;> simp [List.Subperm.refl, List.Sublist.subperm]
  | some x =>
    have := he x rfl
    cases b
    · simp only [ByBay.get] at this
      simp [ByBay.get, ByBay.set, this, List.Subperm.refl]
    · simp only [ByBay.get] at this
      simp [ByBay.get, ByBay.set, this, List.Subperm.refl]

/-- The head of the queue takes a free bay. -/
theorem grant (hr : r.Bounded own) (b : BayId) {e : QueueEntry} {rest : List QueueEntry} (x : BayEntry) (hb : r.bays.get b = none)
    (hq : r.queue = e :: rest) (hx : x.station = e.station) (hsq : s.queue = rest) (hsb : s.bays = r.bays.set b (some x)) :
    s.Bounded own := by
  refine hr.of_subperm (List.Perm.subperm ?_)
  simp only [Rsc.stations, Rsc.holders, hq, hsq, hsb, allBays, List.filterMap]
  cases b
  · simp only [ByBay.get] at hb
    cases h2 : r.bays.b2 <;> simp [ByBay.get, ByBay.set, hb, hx, h2, List.perm_middle]
  · simp only [ByBay.get] at hb
    cases h1 : r.bays.b1 with
    | none => simp [ByBay.get, ByBay.set, hb, hx, h1]
    | some y =>
      simp [ByBay.get, ByBay.set, hb, hx, h1]
      exact (List.perm_append_comm (l₁ := rest.map (·.station)) (l₂ := [y.station, e.station])).trans
        ((List.Perm.swap _ _ _).trans ((List.perm_append_comm (l₁ := [y.station])).cons _))

/-- A bay's station goes back to the queue. -/
theorem revoke (hr : r.Bounded own) (b : BayId) {x : BayEntry} (e : QueueEntry) (hb : r.bays.get b = some x)
    (he : e.station = x.station) (hsq : s.queue = insertEntry e r.queue) (hsb : s.bays = r.bays.set b none) : s.Bounded own := by
  refine hr.of_subperm (List.Perm.subperm ?_)
  simp only [Rsc.stations, Rsc.holders, hsq, hsb]
  refine (((insertEntry_perm e r.queue).map (·.station)).append_right _).trans ?_
  simp only [List.map_cons, List.cons_append, allBays, List.filterMap]
  cases b
  · simp only [ByBay.get] at hb
    simp only [ByBay.get, ByBay.set, hb, he, Option.map_none, Option.map_some]
    exact (List.perm_middle).symm
  · simp only [ByBay.get] at hb
    simp only [ByBay.get, ByBay.set, hb, he, Option.map_none, Option.map_some]
    cases h1 : r.bays.b1 with
    | none => exact (List.perm_middle).symm
    | some y =>
      simp only [Option.map_some]
      refine (List.perm_middle).symm.trans (List.Perm.append_left _ (List.Perm.swap _ _ _))

end Rsc.Bounded

end Sys2Proof.Machine
end

