-- ==== Sys2Proof/Laws/Stays.lean ====
section
/-! SUPPORT. What a hose event can do to the part, said once: the relation Stays, what it leaves alone, and one lemma for each
shared operation. -/

namespace Sys2Proof.Machine

open Sys2Proof

/-- What a hose event leaves of the log: its memory, its boot number, the write in progress and the counts of the scan. -/
def Tlg.fixed (t : Tlg) :
    List (Area Opening × Area Closing) × (Area Nat × Area Nat × Nat × Area Nat) × Quad (Area (Nat × Nat)) × Option WriteReq ×
      Timer × (List ScanWrite × Nat × Nat × Nat) :=
  (t.slots.map fun s => (s.nvOpening, s.nvClosing), (t.bootFirst, t.bootSecond, t.bootNumber, t.markArea), t.checkpoints,
    t.writing, t.writeTimer, (t.scanWrites, t.writes, t.scanTorn, t.scanRecovered))

/-- `Stays free p q`: q comes from p by changes that a hose event may make. A valve's phase becomes a flowing one, or a grant is
given, only where `free` holds. -/
inductive Stays (free : Prop) (p : Part) : Part → Prop where
  | refl : Stays free p p
  | setHose {q : Part} (hq : Stays free p q) (h : HoseId) (u : Hose)
      (hflow : u.valves.phase.flowing = true → (q.hose h).valves.phase.flowing = true ∨ free) : Stays free p (q.setHose h u)
  | setEvents {q : Part} (hq : Stays free p q) (c : Cnl)
      (hrest : c = { q.cnl with events := c.events, lost := c.lost, response := c.response })
      (hle : q.cnl.events.length ≤ 16 → c.events.length ≤ 16) : Stays free p (q.setCnl c)
  | setQueue {q : Part} (hq : Stays free p q) (c : Snc)
      (hrest : c = { q.snc with queue := c.queue, txYielded := c.txYielded, txDropped := c.txDropped })
      (hle : q.snc.queue.length ≤ 16 → c.queue.length ≤ 16) : Stays free p (q.setSnc c)
  | setTlg {q : Part} (hq : Stays free p q) (t : Tlg) (hfix : t.fixed = q.tlg.fixed) (hb : q.tlg.Bounded → t.Bounded) :
      Stays free p (q.setTlg t)
  | setRsc {q : Part} (hq : Stays free p q) (r : Rsc)
      (hrole : r.roleInForce = q.rsc.roleInForce) (hfrozen : r.frozenAt = q.rsc.frozenAt)
      (hb : ∀ n, q.rsc.Bounded n → r.Bounded n) : Stays free p (q.setRsc r)
  | setPumps {q : Part} (hq : Stays free p q) (m : ByPump Pump)
      (hgrant : ∀ i g, g ∈ (m.get i).grants → g ∈ (q.pumps.get i).grants ∨ free) : Stays free p (q.setPumps m)
  | setRequestOrder {q : Part} (hq : Stays free p q) (n : Nat) : Stays free p (q.setRequestOrder n)
  | setCounter {q : Part} (hq : Stays free p q) (n : Nat) : Stays free p (q.setAlc { q.alc with claimCounter := n })

namespace Stays

variable {free : Prop} {p q r : Part}

theorem trans (hq : Stays free p q) (hr : Stays free q r) : Stays free p r := by
  induction hr with
  | refl => exact hq
  | setHose _ h u hf ih => exact ih.setHose h u hf
  | setEvents _ c hr hl ih => exact ih.setEvents c hr hl
  | setQueue _ c hr hl ih => exact ih.setQueue c hr hl
  | setTlg _ t hf hb ih => exact ih.setTlg t hf hb
  | setRsc _ r h1 h2 h3 ih => exact ih.setRsc r h1 h2 h3
  | setPumps _ m hg ih => exact ih.setPumps m hg
  | setRequestOrder _ n ih => exact ih.setRequestOrder n
  | setCounter _ n ih => exact ih.setCounter n

/-! ## What a hose event leaves alone -/

theorem now_eq (hq : Stays free p q) : q.now = p.now := by
  induction hq with
  | refl => rfl
  | setHose _ _ _ _ ih => exact ih
  | setEvents _ _ _ _ ih => exact ih
  | setQueue _ _ _ _ ih => exact ih
  | setTlg _ _ _ _ ih => exact ih
  | setRsc _ _ _ _ _ ih => exact ih
  | setPumps _ _ _ ih => exact ih
  | setRequestOrder _ _ ih => exact ih
  | setCounter _ _ ih => exact ih

theorem nextSecond_eq (hq : Stays free p q) : q.nextSecond = p.nextSecond := by
  induction hq with
  | refl => rfl
  | setHose _ _ _ _ ih => exact ih
  | setEvents _ _ _ _ ih => exact ih
  | setQueue _ _ _ _ ih => exact ih
  | setTlg _ _ _ _ ih => exact ih
  | setRsc _ _ _ _ _ ih => exact ih
  | setPumps _ _ _ ih => exact ih
  | setRequestOrder _ _ ih => exact ih
  | setCounter _ _ ih => exact ih

theorem draws_eq (hq : Stays free p q) : q.draws = p.draws := by
  induction hq with
  | refl => rfl
  | setHose _ _ _ _ ih => exact ih
  | setEvents _ _ _ _ ih => exact ih
  | setQueue _ _ _ _ ih => exact ih
  | setTlg _ _ _ _ ih => exact ih
  | setRsc _ _ _ _ _ ih => exact ih
  | setPumps _ _ _ ih => exact ih
  | setRequestOrder _ _ ih => exact ih
  | setCounter _ _ ih => exact ih

theorem pins_eq (hq : Stays free p q) : q.pins = p.pins := by
  induction hq with
  | refl => rfl
  | setHose _ _ _ _ ih => exact ih
  | setEvents _ _ _ _ ih => exact ih
  | setQueue _ _ _ _ ih => exact ih
  | setTlg _ _ _ _ ih => exact ih
  | setRsc _ _ _ _ _ ih => exact ih
  | setPumps _ _ _ ih => exact ih
  | setRequestOrder _ _ ih => exact ih
  | setCounter _ _ ih => exact ih

theorem cfl_eq (hq : Stays free p q) : q.cfl = p.cfl := by
  induction hq with
  | refl => rfl
  | setHose _ _ _ _ ih => exact ih
  | setEvents _ _ _ _ ih => exact ih
  | setQueue _ _ _ _ ih => exact ih
  | setTlg _ _ _ _ ih => exact ih
  | setRsc _ _ _ _ _ ih => exact ih
  | setPumps _ _ _ ih => exact ih
  | setRequestOrder _ _ ih => exact ih
  | setCounter _ _ ih => exact ih

theorem machines_eq (hq : Stays free p q) : q.machines = p.machines := by
  induction hq with
  | refl => rfl
  | setHose _ _ _ _ ih => exact ih
  | setEvents _ _ _ _ ih => exact ih
  | setQueue _ _ _ _ ih => exact ih
  | setTlg _ _ _ _ ih => exact ih
  | setRsc _ _ _ _ _ ih => exact ih
  | setPumps _ _ _ ih => exact ih
  | setRequestOrder _ _ ih => exact ih
  | setCounter _ _ ih => exact ih

theorem totals_eq (hq : Stays free p q) : q.totals = p.totals := by
  induction hq with
  | refl => rfl
  | setHose _ _ _ _ ih => exact ih
  | setEvents _ _ _ _ ih => exact ih
  | setQueue _ _ _ _ ih => exact ih
  | setTlg _ _ _ _ ih => exact ih
  | setRsc _ _ _ _ _ ih => exact ih
  | setPumps _ _ _ ih => exact ih
  | setRequestOrder _ _ ih => exact ih
  | setCounter _ _ ih => exact ih

theorem inv_eq (hq : Stays free p q) : q.inv = p.inv := by
  induction hq with
  | refl => rfl
  | setHose _ _ _ _ ih => exact ih
  | setEvents _ _ _ _ ih => exact ih
  | setQueue _ _ _ _ ih => exact ih
  | setTlg _ _ _ _ ih => exact ih
  | setRsc _ _ _ _ _ ih => exact ih
  | setPumps _ _ _ ih => exact ih
  | setRequestOrder _ _ ih => exact ih
  | setCounter _ _ ih => exact ih


theorem alc_eq (hq : Stays free p q) : q.alc = { p.alc with claimCounter := q.alc.claimCounter } := by
  induction hq with
  | setCounter _ n ih => rw [Part.alc_setAlc, ih]
  | refl => rfl
  | setHose _ _ _ _ ih => exact ih
  | setEvents _ _ _ _ ih => exact ih
  | setQueue _ _ _ _ ih => exact ih
  | setTlg _ _ _ _ ih => exact ih
  | setRsc _ _ _ _ _ ih => exact ih
  | setPumps _ _ _ ih => exact ih
  | setRequestOrder _ _ ih => exact ih

theorem fixed_eq (hq : Stays free p q) : q.tlg.fixed = p.tlg.fixed := by
  induction hq with
  | setTlg _ t hf _ ih => exact hf.trans ih
  | refl => rfl
  | setHose _ _ _ _ ih => exact ih
  | setEvents _ _ _ _ ih => exact ih
  | setQueue _ _ _ _ ih => exact ih
  | setRsc _ _ _ _ _ ih => exact ih
  | setPumps _ _ _ ih => exact ih
  | setRequestOrder _ _ ih => exact ih
  | setCounter _ _ ih => exact ih

theorem snc_eq (hq : Stays free p q) :
    q.snc = { p.snc with queue := q.snc.queue, txYielded := q.snc.txYielded, txDropped := q.snc.txDropped } := by
  induction hq with
  | setQueue _ c hr _ ih => rw [Part.snc_setSnc, hr, ih]
  | refl => rfl
  | setHose _ _ _ _ ih => exact ih
  | setEvents _ _ _ _ ih => exact ih
  | setTlg _ _ _ _ ih => exact ih
  | setRsc _ _ _ _ _ ih => exact ih
  | setPumps _ _ _ ih => exact ih
  | setRequestOrder _ _ ih => exact ih
  | setCounter _ _ ih => exact ih

theorem cnl_eq (hq : Stays free p q) :
    q.cnl = { p.cnl with events := q.cnl.events, lost := q.cnl.lost, response := q.cnl.response } := by
  induction hq with
  | setEvents _ c hr _ ih => rw [Part.cnl_setCnl, hr, ih]
  | refl => rfl
  | setHose _ _ _ _ ih => exact ih
  | setQueue _ _ _ _ ih => exact ih
  | setTlg _ _ _ _ ih => exact ih
  | setRsc _ _ _ _ _ ih => exact ih
  | setPumps _ _ _ ih => exact ih
  | setRequestOrder _ _ ih => exact ih
  | setCounter _ _ ih => exact ih

theorem role_eq (hq : Stays free p q) : q.role = p.role := Part.role_of_cfl hq.cfl_eq
theorem hoseSettings_eq (hq : Stays free p q) (h : HoseId) : q.hoseSettings h = p.hoseSettings h :=
  Part.hoseSettings_of_cfl hq.cfl_eq h

/-! ## The homes -/

theorem modHose (hq : Stays free p q) (h : HoseId) (f : Hose → Hose)
    (hf : (f (q.hose h)).valves.phase.flowing = true → (q.hose h).valves.phase.flowing = true ∨ free) :
    Stays free p (q.modHose h f) := hq.setHose h _ hf

theorem modReader (hq : Stays free p q) (h : HoseId) (f : Reader → Reader) : Stays free p (q.modReader h f) :=
  hq.setHose h _ Or.inl

theorem modMeter (hq : Stays free p q) (h : HoseId) (f : Meter → Meter) : Stays free p (q.modMeter h f) :=
  hq.setHose h _ Or.inl

theorem modValves (hq : Stays free p q) (h : HoseId) (f : Vsq → Vsq)
    (hf : (f (q.hose h).valves).phase.flowing = true → (q.hose h).valves.phase.flowing = true ∨ free) :
    Stays free p (q.modValves h f) := hq.setHose h _ hf

theorem modContext (hq : Stays free p q) (h : HoseId) (f : Context → Context) : Stays free p (q.modContext h f) :=
  hq.setHose h _ Or.inl

theorem addFaults (hq : Stays free p q) (h : HoseId) (f : FaultSet) : Stays free p (q.addFaults h f) := hq.modContext h _

theorem superviseOff (hq : Stays free p q) (h : HoseId) : Stays free p (q.superviseOff h) := hq.modReader h _

theorem offerEvent_le (c : Cnl) (e : Event) (hc : c.events.length ≤ 16) : (c.offer e).events.length ≤ 16 := by
  unfold Cnl.offer
  split <;> simp <;> omega

theorem event (hq : Stays free p q) (e : Event) : Stays free p (q.event e) :=
  hq.setEvents _ (by unfold Cnl.offer; split <;> rfl) (offerEvent_le q.cnl e)

theorem respond (hq : Stays free p q) (x : Response) : Stays free p (q.respond x) := hq.setEvents _ rfl id

theorem refuse (hq : Stays free p q) (c : Code) : Stays free p (q.refuse c) := hq.respond _

theorem modPump (hq : Stays free p q) (i : PumpId) (f : Pump → Pump)
    (hf : ∀ g, g ∈ (f (q.pumps.get i)).grants → g ∈ (q.pumps.get i).grants ∨ free) : Stays free p (q.modPump i f) := by
  refine hq.setPumps _ fun j g hg => ?_
  by_cases hij : j = i
  · subst hij
    rw [ByPump.get_set_same] at hg
    exact hf g hg
  · rw [ByPump.get_set_ne _ _ hij] at hg
    exact Or.inl hg

theorem dropGrant (hq : Stays free p q) (h : HoseId) : Stays free p (q.dropGrant h) := by
  refine hq.setPumps _ fun j g hg => Or.inl ?_
  cases j <;> simp [ByPump.get] at hg ⊢ <;> exact hg.1

theorem withdraw (hq : Stays free p q) (h : HoseId) : Stays free p (q.withdraw h) := by
  refine hq.setPumps _ fun j g hg => Or.inl ?_
  cases j <;> simpa [ByPump.get] using hg

/-! ## The log -/

theorem map_modify_eq {α β : Type} (g : α → β) (f : α → α) (hf : ∀ x, g (f x) = g x) (l : List α) (i : Nat) :
    (l.modify i f).map g = l.map g := by
  induction l generalizing i with
  | nil => cases i <;> simp
  | cons x rest ih => cases i <;> simp [hf, ih]

theorem modSlot (hq : Stays free p q) (i : Nat) (f : Slot → Slot)
    (hf : ∀ s, (f s).nvOpening = s.nvOpening ∧ (f s).nvClosing = s.nvClosing) : Stays free p (q.modSlot i f) := by
  refine hq.setTlg _ ?_ fun hb => hb.congr rfl rfl
  simp only [Tlg.fixed]
  rw [map_modify_eq]
  intro s
  simp [hf s]

theorem returnSlot (hq : Stays free p q) (i : Nat) : Stays free p (q.returnSlot i) := hq.modSlot i _ fun _ => ⟨rfl, rfl⟩

theorem closeSlot (hq : Stays free p q) (i : Nat) : Stays free p (q.closeSlot i) := hq.modSlot i _ fun _ => ⟨rfl, rfl⟩

theorem takeSequence (hq : Stays free p q) : Stays free p q.takeSequence := hq.setTlg _ rfl fun hb => hb.congr rfl rfl

theorem append_fixed (t : Tlg) (x : WriteReq) : (t.append x).fixed = t.fixed := by
  unfold Tlg.append
  split
  · rfl
  · split <;> rfl

theorem join_fixed (t : Tlg) (x : WriteReq) : (t.join x).fixed = t.fixed := by
  unfold Tlg.join
  split
  · rfl
  · exact append_fixed t x

theorem joinWrite (hq : Stays free p q) (x : WriteReq) : Stays free p (q.joinWrite x) :=
  hq.setTlg _ (join_fixed _ _) fun hb => hb.join x

theorem checkpoint (hq : Stays free p q) (h : HoseId) (a b : Nat) : Stays free p (q.checkpoint h a b) := by
  unfold Part.checkpoint
  dsimp only
  split
  · exact hq.setTlg _ rfl fun hb => hb.congr rfl rfl
  · split
    · exact hq.setTlg _ rfl fun hb => hb.of_queue (by simp only [replaceWaiting_kinds]; exact List.Sublist.refl _) rfl
    · rename_i hw
      split
      · rename_i hl
        refine hq.setTlg _ rfl fun hb => ?_
        have := hb.append (.checkpoint h a b) (Tlg.Bounded.not_waiting hw)
        rwa [Tlg.append, if_pos hl] at this
      · exact hq.setTlg _ rfl fun hb => hb.congr rfl rfl

theorem joinClosing (hq : Stays free p q) (h : HoseId) (i : Nat) : Stays free p (q.joinClosing h i) := by
  unfold Part.joinClosing
  split
  · exact hq.setTlg _ rfl fun hb => hb.of_queue (by simp only [carryClosing_kinds]; exact List.Sublist.refl _) rfl
  · exact hq.joinWrite _

theorem waitWhole_bounded {t : Tlg} (ht : t.Bounded) (c : CompId) (i : Nat) (hl : (t.waitLists.get c).length < 4) :
    ({ t with waitLists := t.waitLists.set c (t.waitLists.get c ++ [.whole c i]) } : Tlg).Bounded := by
  refine ⟨ht.kinds, ht.queue, fun d => ?_, fun d r hr => ?_⟩
  · by_cases hd : d = c
    · subst hd; simp; omega
    · simpa only [ByComp.get_set_ne _ _ hd] using ht.waits d
  · by_cases hd : d = c
    · subst hd
      simp only [ByComp.get_set_same, List.mem_append, List.mem_singleton] at hr
      rcases hr with hr | hr
      · exact ht.wholes d r hr
      · rw [hr]; rfl
    · simp only [ByComp.get_set_ne _ _ hd] at hr
      exact ht.wholes d r hr

theorem wholeRecord (hq : Stays free p q) (c : CompId) (o : OpeningFields) (k : ClosingFields) :
    Stays free p (q.wholeRecord c o k) := by
  unfold Part.wholeRecord
  split
  · exact hq.setTlg _ rfl fun hb => hb.congr rfl rfl
  · split
    · exact hq.setTlg _ rfl fun hb => hb.congr rfl rfl
    · rename_i hl
      dsimp only
      split
      · refine Stays.setTlg (Stays.takeSequence (hq.modSlot _ _ ?_)) _ ?_ fun hb => waitWhole_bounded hb c _ ?_
        · exact fun _ => ⟨rfl, rfl⟩
        · simp only [Tlg.fixed]
        · exact Nat.lt_of_not_le hl
      · refine Stays.joinWrite (Stays.takeSequence (hq.modSlot _ _ ?_)) _
        exact fun _ => ⟨rfl, rfl⟩

theorem queueMark (hq : Stays free p q) (n : Nat) : Stays free p (q.queueMark n) := by
  unfold Part.queueMark
  split
  · exact hq
  · exact hq.joinWrite _

/-! ## The transmit queue -/

theorem withoutOldestYielding_length {l rest : List Queued} (hl : withoutOldestYielding l = some rest) :
    rest.length + 1 = l.length := by
  induction l generalizing rest with
  | nil => simp [withoutOldestYielding] at hl
  | cons x t ih =>
    unfold withoutOldestYielding at hl
    split at hl
    · simp_all
    · simp only [Option.map_eq_some_iff] at hl
      obtain ⟨a, ha, hb⟩ := hl
      subst hb
      simp [ih ha]

theorem admit_displaced_length {l rest : List Queued} {y : Bool} (hl : admission l y = .displaced rest) :
    rest.length + 1 = l.length := by
  unfold admission at hl
  split at hl
  · cases hl
  · split at hl
    · cases hl
    · split at hl
      · cases hl
        exact withoutOldestYielding_length ‹_›
      · cases hl

theorem admit_appended_length {l : List Queued} {y : Bool} (hl : admission l y = .appended) : l.length < 16 := by
  unfold admission at hl
  split at hl
  · assumption
  · repeat' split at hl
    all_goals cases hl

theorem offer (hq : Stays free p q) (n : Notice) (y : Bool) : Stays free p (q.offer n y) := by
  unfold Part.offer
  split
  · split
    · refine hq.setQueue _ rfl fun _ => ?_
      have := admit_appended_length ‹_›
      simp; omega
    · refine hq.setQueue _ rfl fun _ => ?_
      have := admit_displaced_length ‹_›
      simp; omega
    · exact hq.setQueue _ rfl id
    · refine Stays.event (hq.setQueue _ ?_ ?_) _
      · rfl
      · exact id
  · exact hq

theorem replaceClaim_length (k : Nat) (n : Notice) (l : List Queued) : (replaceClaim k n l).length = l.length := by
  induction l with
  | nil => rfl
  | cons x rest ih =>
    unfold replaceClaim
    split <;> simp [ih]

theorem offerClaim (hq : Stays free p q) (a b c d : Nat) : Stays free p (q.offerClaim a b c d) := by
  unfold Part.offerClaim
  split
  · exact hq.setQueue _ rfl (by simp [replaceClaim_length])
  · exact hq.offer _ _

theorem offerClosing (hq : Stays free p q) (k : Nat) (n : Notice) : Stays free p (q.offerClosing k n) :=
  (hq.setQueue _ rfl fun h => Nat.le_trans (List.length_filter_le _ _) h).offer _ _

/-! ## The restock coordinator -/

theorem offerStock (hq : Stays free p q) : Stays free p q.offerStock := by
  unfold Part.offerStock
  split
  · exact hq.offer _ _
  · exact hq

theorem finish (hq : Stays free p q) (b : Part) : Stays free p (finish b q) := by
  unfold Machine.finish
  split
  · exact hq
  · exact hq.offerStock

/-- A change of the restock coordinator that leaves its role, its queue and its bays alone. -/
theorem setRestocking (hq : Stays free p q) (r : Rsc) (hrole : r.roleInForce = q.rsc.roleInForce)
    (hfrozen : r.frozenAt = q.rsc.frozenAt) (hqueue : r.queue = q.rsc.queue) (hbays : r.bays = q.rsc.bays) :
    Stays free p (q.setRsc r) := hq.setRsc r hrole hfrozen fun _ hb => hb.congr hqueue hbays

theorem requestBay (hq : Stays free p q) : Stays free p q.requestBay := by
  unfold Part.requestBay
  split
  · refine Stays.offer (hq.setRestocking _ ?_ ?_ ?_ ?_) _ _ <;> rfl
  · exact hq

theorem setRestock (hq : Stays free p q) (s : RestockState) : Stays free p (q.setRestock s) := by
  refine Stays.event (hq.setRestocking _ ?_ ?_ ?_ ?_) _ <;> rfl

theorem enterRequested (hq : Stays free p q) : Stays free p q.enterRequested := (hq.setRestock _).requestBay

theorem enterDraining (hq : Stays free p q) : Stays free p q.enterDraining := by
  unfold Part.enterDraining
  split
  · exact hq.enterRequested
  · exact hq.setRestock _

theorem drainTest (hq : Stays free p q) : Stays free p q.drainTest := by
  unfold Part.drainTest
  split
  · exact hq.enterRequested
  · exact hq

theorem returnNormal (hq : Stays free p q) : Stays free p q.returnNormal := by
  unfold Part.returnNormal
  have hs := Stays.setRestock
    (hq.setRestocking { q.rsc with repeatTimer := none, grant := none, awaited := ⟨false, false⟩ } rfl rfl rfl rfl) .normal
  dsimp only
  split
  · exact hs.offer _ _
  · exact hs

/-- A bay freed, or its entry changed under the same station. -/
theorem setBay (hq : Stays free p q) (b : BayId) (e : Option BayEntry)
    (he : ∀ x, e = some x → (q.rsc.bays.get b).map (·.station) = some x.station) : Stays free p (q.setBay b e) :=
  hq.setRsc _ rfl rfl fun _ hb => hb.setBay b e he

theorem freeBay_free {b : BayId} (hb : q.freeBay = some b) : q.rsc.bays.get b = none := by
  unfold Part.freeBay at hb
  split at hb
  · cases hb; simp_all [ByBay.get]
  · split at hb
    · cases hb; simp_all [ByBay.get]
    · cases hb

theorem grantBay (hq : Stays free p q) {b : BayId} {e : QueueEntry} {l : List QueueEntry} (hb : q.rsc.bays.get b = none)
    (hl : q.rsc.queue = e :: l) : Stays free p (q.grantBay b e l) := by
  refine Stays.event (Stays.offer (hq.setRsc _ ?_ ?_ fun _ h => ?_) _ _) _
  · rfl
  · rfl
  · exact h.grant b _ hb hl rfl rfl rfl

theorem grantStep (hq : Stays free p q) (n : Nat) : Stays free p (q.grantStep n) := by
  induction n generalizing q with
  | zero => exact hq
  | succ n ih =>
    unfold Part.grantStep
    split
    · exact ih (hq.grantBay (freeBay_free ‹_›) ‹_›)
    · exact hq

theorem revokeBay (hq : Stays free p q) (b : BayId) (e : BayEntry) (hb : q.rsc.bays.get b = some e) :
    Stays free p (q.revokeBay b e) := by
  have ho := (hq.offer (.baygrant e.station (bayNumber b) e.grant 1) false).event (.grant e.station (bayNumber b) e.grant true)
  refine ho.setRsc _ rfl rfl fun _ h => h.revoke (x := e) b _ ?_ rfl rfl rfl
  rw [← hb]
  unfold Part.offer
  repeat' split
  all_goals rfl

theorem bayOf_holds {n : Nat} {b : BayId} (hb : q.bayOf n = some b) : (q.rsc.bays.get b).map (·.station) = some n := by
  unfold Part.bayOf at hb
  split at hb
  · cases hb; assumption
  · split at hb
    · cases hb; assumption
    · cases hb

theorem removeStation (hq : Stays free p q) (n : Nat) : Stays free p (q.removeStation n) := by
  unfold Part.removeStation
  split
  · exact (hq.setBay _ _ (by simp)).grantStep 2
  · refine hq.setRsc _ rfl rfl fun _ hb => hb.of_subperm ?_
    exact ((List.filter_sublist.map _).append (List.Sublist.refl _)).subperm

theorem bayUnderGrant_holds {x : Context} {b : BayId} {e : BayEntry} (hb : q.bayUnderGrant x = some (b, e)) :
    q.rsc.bays.get b = some e := by
  unfold Part.bayUnderGrant at hb
  split at hb
  · cases hb
  · split at hb
    · cases hb
    · split at hb
      · split at hb
        · cases hb; assumption
        · cases hb
      · cases hb

theorem endLoadout (hq : Stays free p q) (x : Context) : Stays free p (q.endLoadout x) := by
  unfold Part.endLoadout
  split
  · refine hq.setBay _ _ fun y hy => ?_
    cases hy
    rw [bayUnderGrant_holds ‹_›]
    rfl
  · exact hq

/-! ## Valves -/

theorem load_phase (v : Vsq) : v.load.phase = v.phase := by unfold Vsq.load; split <;> rfl

theorem loadIfDue_phase (st : HoseSettings) (g : Nat) (v : Vsq) : (v.loadIfDue st g).phase = v.phase := by
  unfold Vsq.loadIfDue; split <;> simp [load_phase]

theorem loadAtHundred_phase (g : Nat) (v : Vsq) : (v.loadAtHundred g).phase = v.phase := by
  unfold Vsq.loadAtHundred; split <;> simp [load_phase]

theorem move_load (st : HoseSettings) (g : Nat) (v : Vsq) : (v.move st g).1.phase = v.phase := by
  unfold Vsq.move
  repeat' split
  all_goals simp [load_phase]

/-- A move is due only in TRIM, FULL and TAPER. -/
theorem move_flowing (st : HoseSettings) (g : Nat) (v : Vsq) (hm : (v.move st g).2 ≠ v.phase) : v.phase.flowing = true := by
  revert hm
  unfold Vsq.move
  cases v.phase <;> simp [Phase.flowing]

theorem beginShutting (hq : Stays free p q) (h : HoseId) : Stays free p (q.beginShutting h) := by
  unfold Part.beginShutting
  split
  · exact hq.modHose h _ fun hf => by simp [Vsq.enter, Phase.flowing] at hf
  · exact hq

/-! ## Stops -/

theorem dropClaim (hq : Stays free p q) (h : HoseId) : Stays free p (q.dropClaim h) := by
  unfold Part.dropClaim
  split
  · exact (hq.modHose h _ Or.inl).offerClosing _ _
  · exact hq

theorem stopBeforeFlow (hq : Stays free p q) (h : HoseId) (c : Cause) : Stays free p (q.stopBeforeFlow h c) := by
  unfold Part.stopBeforeFlow
  split
  · exact hq
  · have h1 := (hq.event (.stopped h c)).modHose h (fun u => { u with holdOff := none }) Or.inl
    have h2 := ((h1.withdraw h).dropGrant h).modHose h (fun u => { u with pumpWait := none }) Or.inl
    have h3 := ((h2.modValves h (fun v => { v with pending := none }) Or.inl).superviseOff h).dropClaim h
    exact (((h3.returnSlot _).endLoadout _).modHose h _ Or.inl).drainTest

theorem leaveCommitting (hq : Stays free p q) (h : HoseId) : Stays free p (q.leaveCommitting h) := by
  unfold Part.leaveCommitting
  split
  · exact hq
  · refine Stays.drainTest (hq.modHose h _ fun hf => Or.inl ?_)
    revert hf
    cases (q.hose h).nozzle <;> exact id

theorem ite {c : Prop} [Decidable c] {x y : Part} (hx : Stays free p x) (hy : Stays free p y) :
    Stays free p (if c then x else y) := by
  split
  · exact hx
  · exact hy

theorem enterShut (hq : Stays free p q) (h : HoseId) : Stays free p (q.enterShut h) := by
  unfold Part.enterShut
  dsimp only
  refine Stays.ite (Stays.leaveCommitting ?_ h) ?_
  all_goals
    refine Stays.dropGrant (Stays.superviseOff (hq.modValves h _ ?_) h) h
    exact fun hf => by simp [Phase.flowing] at hf

theorem shutTest (hq : Stays free p q) (h : HoseId) : Stays free p (q.shutTest h) := by
  unfold Part.shutTest
  split
  · exact hq.enterShut h
  · exact hq

theorem takeCause (hq : Stays free p q) (h : HoseId) (c : Cause) : Stays free p (q.takeCause h c) := by
  unfold Part.takeCause
  split
  · exact hq.stopBeforeFlow h c
  · exact hq.stopBeforeFlow h c
  · exact (((((hq.modContext h _).event _).modHose h _ Or.inl).beginShutting h).shutTest h)
  · exact hq.addFaults h _
  · exact hq.addFaults h _
  · exact hq
  · exact hq
  · exact hq

theorem moveValves (hq : Stays free p q) (h : HoseId) : Stays free p (q.moveValves h) := by
  unfold Part.moveValves
  split
  · exact hq
  · rename_i st _
    have hm := move_load st (q.hose h).meter.gross (q.hose h).valves
    have hv : Stays free p (q.modValves h fun _ => ((q.hose h).valves.move st (q.hose h).meter.gross).1) :=
      hq.modValves h _ fun hf => Or.inl (hm ▸ hf)
    dsimp only
    split
    · exact hv
    · split
      · exact (hv.beginShutting h).takeCause h _
      · rename_i hne _
        refine hv.modValves h _ fun _ => Or.inl ?_
        simp only [Part.hose_modValves_same]
        rw [hm]
        exact move_flowing st _ _ (by rwa [hm] at hne)

theorem ite_fst {c : Prop} [Decidable c] {x y : Part × Bool} (hx : Stays free p x.1) (hy : Stays free p y.1) :
    Stays free p (if c then x else y).1 := by
  split
  · exact hx
  · exact hy

theorem writePending (hq : Stays free p q) (h : HoseId) (n : Nat) : Stays free p (q.writePending h n).1 := by
  unfold Part.writePending
  split
  · exact hq
  · dsimp only
    refine Stays.ite_fst (Stays.moveValves (hq.modValves h _ fun hf => Or.inl ?_) h) hq
    rwa [loadIfDue_phase] at hf

/-! ## Flow start and its end -/

theorem startFlow (hq : Stays free p q) (hfree : free) (h : HoseId) : Stays free p (q.startFlow h) := by
  unfold Part.startFlow
  split
  · exact (hq.modHose h _ fun _ => Or.inr hfree).moveValves h
  · exact hq

theorem queueOpening (hq : Stays free p q) (h : HoseId) : Stays free p (q.queueOpening h) := by
  unfold Part.queueOpening
  split
  · exact hq
  · refine Stays.joinWrite (Stays.takeSequence ((hq.modContext h _).modSlot _ _ ?_)) _
    exact fun _ => ⟨rfl, rfl⟩

theorem joinRequest (hq : Stays free p q) (b : Part) (h : HoseId) : Stays free p (b.joinRequest q h) := by
  unfold Part.joinRequest
  split
  · exact hq.queueOpening h
  · split
    · exact hq.checkpoint _ _ _
    · exact hq

/-- A fold over the hoses of an operation that stays. -/
theorem foldHoses (hq : Stays free p q) (l : List HoseId) (f : Part → HoseId → Part)
    (hf : ∀ r h, Stays free p r → Stays free p (f r h)) : Stays free p (l.foldl f q) := by
  induction l generalizing q with
  | nil => exact hq
  | cons h t ih => exact ih (hf q h hq)

theorem joinRequests (hq : Stays free p q) (b : Part) : Stays free p (b.joinRequests q) :=
  hq.foldHoses _ _ fun _ h hr => hr.joinRequest b h

theorem closeWindow (hq : Stays free p q) (h : HoseId) : Stays free p (q.closeWindow h) := by
  unfold Part.closeWindow
  exact Stays.modMeter (hq.addFaults h _) h _

theorem overrunTest (hq : Stays free p q) (h : HoseId) : Stays free p (q.overrunTest h) := by
  unfold Part.overrunTest
  split
  · exact hq
  · exact hq.addFaults h _

theorem queueClosing (hq : Stays free p q) (h : HoseId) : Stays free p (q.queueClosing h) := by
  unfold Part.queueClosing
  have hs := (hq.addFaults h { creep := (q.hose h).meter.creepMark }).modMeter h fun m => { m with creepMark := false }
  dsimp only
  split
  · exact hs
  · refine Stays.joinClosing (Stays.modHose (hs.modSlot _ _ ?_) h _ ?_) h _
    · exact fun _ => ⟨rfl, rfl⟩
    · exact Or.inl

theorem endOverrun (hq : Stays free p q) (h : HoseId) : Stays free p (q.endOverrun h) :=
  ((((hq.modValves h (fun v => { v with overrun := none }) Or.inl).overrunTest h).closeWindow h).queueClosing h)

/-! ## Pumps -/

theorem wakePump (hq : Stays free p q) (i : PumpId) : Stays free p (q.wakePump i) := by
  unfold Part.wakePump
  split
  · exact hq.modPump i _ fun g hg => Or.inl hg
  · exact hq

theorem grantPump (hq : Stays free p q) (hfree : free) (i : PumpId) (x : Request) : Stays free p (q.grantPump i x) :=
  hq.modPump i _ fun _ _ => Or.inr hfree

theorem grantLoop (hq : Stays free p q) (hfree : free) (i : PumpId) (n : Nat) (l : List HoseId) :
    Stays free p (grantLoop i n q l).1 := by
  induction n generalizing q l with
  | zero => exact hq
  | succ n ih =>
    unfold Machine.grantLoop
    split
    · exact hq
    · split
      · exact hq
      · exact ih (hq.grantPump hfree _ _) _

theorem startFlows (hq : Stays free p q) (hfree : free) (l : List HoseId) : Stays free p (q.startFlows l) := by
  refine hq.foldHoses _ _ fun r h hr => ?_
  split
  · exact hr.startFlow hfree h
  · exact hr

theorem restPump (hq : Stays free p q) (i : PumpId) : Stays free p (q.restPump i) := by
  unfold Part.restPump
  split
  · exact hq.modPump i _ fun g hg => Or.inl hg
  · exact hq

theorem arbitrate (hq : Stays free p q) (hfree : q.inputsClear → free) : Stays free p q.arbitrate.1 := by
  unfold Part.arbitrate
  split
  · exact hq
  · rename_i hc
    have hf : free := hfree (by simpa using hc)
    dsimp only
    exact Stays.grantLoop (Stays.grantLoop ((hq.wakePump .p1).wakePump .p2) hf _ _ _) hf _ _ _

/-- Flow starts after an arbitration only where the arbitration runs. -/
theorem arbitrate_starts (hs : q.arbitrate.2 ≠ []) : q.inputsClear := by
  unfold Part.arbitrate at hs
  split at hs
  · exact absurd rfl hs
  · rename_i hc
    simpa using hc

theorem settlePumps (hq : Stays free p q) (hfree : q.inputsClear → free) (n : Nat) : Stays free p (settlePumps n q) := by
  induction n generalizing q with
  | zero => exact (hq.restPump _).restPump _
  | succ n ih =>
    unfold Machine.settlePumps
    have ha := hq.arbitrate hfree
    dsimp only
    split
    · exact (ha.restPump _).restPump _
    · rename_i hs
      have hc := arbitrate_starts hs
      have hst := ha.startFlows (hfree hc) q.arbitrate.2
      refine ih hst fun _ => hfree hc

theorem settleHoses (hq : Stays free p q) (hfree : q.inputsClear → free) (b : Part) : Stays free p (settleHoses b q) :=
  (hq.settlePumps hfree 5).joinRequests b

theorem settle (hq : Stays free p q) (hfree : q.inputsClear → free) (b : Part) : Stays free p (settle b q) :=
  (hq.settleHoses hfree b).finish b

/-! ## Authorisation -/

theorem awaitPump (hq : Stays free p q) (h : HoseId) : Stays free p (q.awaitPump h) := by
  unfold Part.awaitPump
  split
  · exact hq
  · exact ((hq.modHose h _ Or.inl).setRequestOrder _).modPump _ _ fun g hg => Or.inl hg

theorem issueClaim (hq : Stays free p q) (h : HoseId) (e : MachineEntry) (n : Nat) : Stays free p (q.issueClaim h e n).1 := by
  unfold Part.issueClaim
  split
  · exact ((hq.setCounter _).modHose h _ Or.inl).offerClaim _ _ _ _
  · exact hq

theorem beginLoadout (hq : Stays free p q) (e : MachineEntry) : Stays free p (q.beginLoadout e).1 := by
  unfold Part.beginLoadout
  split
  · split
    · exact hq
    · split
      · exact hq
      · rename_i entry he
        refine hq.setBay _ _ fun x hx => ?_
        cases hx
        rw [he]
        rfl
  · exact hq

theorem authorise (hq : Stays free p q) (h : HoseId) (st : HoseSettings) (m : EntryMethod) (i : Nat) (row : MachineRow)
    (slot n : Nat) : Stays free p (q.authorise h st m i row slot n) := by
  unfold Part.authorise
  have h1 := (hq.modSlot slot (fun s => { s with state := .reserved, opening := none, closing := none })
    (fun _ => ⟨rfl, rfl⟩)).issueClaim h row.entry n
  have h2 := (h1.modValves h (fun v => { v with active := n, pending := none }) Or.inl).beginLoadout row.entry
  dsimp only
  split
  · exact Stays.awaitPump (h2.modHose h _ Or.inl) h
  · exact h2.modHose h _ Or.inl

theorem identify (hq : Stays free p q) (h : HoseId) (m : EntryMethod) (i : Option Nat) : Stays free p (q.identify h m i) := by
  unfold Part.identify
  split
  · exact hq.event _
  · split
    · dsimp only
      split
      · exact hq.event _
      · exact hq.authorise _ _ _ _ _ _ _
    · exact hq

/-! ## The cut rule -/

theorem cutTo (hq : Stays free p q) (h : HoseId) (x : Context) (l : Int) : Stays free p (q.cutTo h x l) := by
  unfold Part.cutTo
  repeat' split
  · exact hq
  · exact hq.writePending _ _
  · exact hq.takeCause _ _

theorem runCuts (hq : Stays free p q) (e : Option HoseId) (m a : Nat) : Stays free p (q.runCuts e m a) := by
  unfold Part.runCuts
  generalize allHoses = l
  suffices hs : ∀ (l : List HoseId) (t : Part), Stays free p t → Stays free p (l.foldl (fun t h =>
      if some h = e then t
      else match (q.hose h).context with
        | none => t
        | some x =>
          if q.cutRuns m a h x then
            match q.cutLimit h x with
            | some limit => t.cutTo h x limit
            | none => t
          else t) t) from hs l q hq
  intro l
  induction l with
  | nil => exact fun _ ht => ht
  | cons h rest ih =>
    intro t ht
    rw [List.foldl_cons]
    apply ih
    repeat' split
    all_goals first | exact ht | exact ht.cutTo _ _ _

end Stays

end Sys2Proof.Machine
end

