-- ==== Sys2Proof/Laws/Quiet.lean ====
section
/-! SUPPORT. What the end of an event does where nothing is to be arbitrated, and how the console line takes a request. -/

namespace Sys2Proof.Machine

open Sys2Proof

theorem exec_next (f : Part → Part) (s : State) : nextPart f s = .next { s with part := f s.part } := rfl

theorem allHoses_all (f : HoseId → Bool) : allHoses.all f = true ↔ ∀ h, f h = true := by
  simp only [allHoses, List.all_cons, List.all_nil, Bool.and_true, Bool.and_eq_true]
  constructor
  · rintro ⟨h1, h2, h3, h4⟩ h
    cases h <;> assumption
  · exact fun hf => ⟨hf _, hf _, hf _, hf _⟩

/-! ## Pumps with no request -/

section NoRequests

variable {p : Part} (hr : ∀ i, (p.pumps.get i).requests = [])
include hr

theorem Part.wakePump_idle (i : PumpId) : p.wakePump i = p := by
  unfold Part.wakePump
  rw [if_neg]
  simp [hr i]

theorem Part.nextGrantee_idle (i : PumpId) : p.nextGrantee i = none := by
  unfold Part.nextGrantee
  simp [hr i, grantOrder]

theorem grantLoop_idle (i : PumpId) (n : Nat) (l : List HoseId) : grantLoop i n p l = (p, l) := by
  cases n with
  | zero => rfl
  | succ n =>
    unfold Machine.grantLoop
    rw [Part.nextGrantee_idle hr]
    split <;> rfl

/-- With no request waiting the arbitration grants nothing. -/
theorem Part.arbitrate_idle : p.arbitrate = (p, []) := by
  unfold Part.arbitrate
  split
  · rfl
  · simp only [Part.wakePump_idle hr, grantLoop_idle hr]

/-- With no request waiting the end of an event may rest a pump, and no more. -/
theorem settlePumps_idle (n : Nat) : settlePumps n p = (p.restPump .p1).restPump .p2 := by
  cases n <;> simp [settlePumps, Part.arbitrate_idle hr]

end NoRequests

namespace Part.Quiet

variable {p q : Part}

theorem restPump (hp : p.Quiet) (i : PumpId) : p.restPump i = p := by
  unfold Part.restPump
  rw [if_neg]
  exact fun hs => hp.running i hs.1 hs.2

/-- With nothing to arbitrate the end of an event changes no pump. -/
theorem settlePumps (hp : p.Quiet) (n : Nat) : Machine.settlePumps n p = p := by
  rw [settlePumps_idle hp.requests, hp.restPump, hp.restPump]

/-- A hose whose flow has not started at the event, and that has reached no boundary, asks nothing of the log. -/
theorem joinRequest_eq (b : Part) (h : HoseId) (hb : (p.hose h).begun = true → (b.hose h).begun = true)
    (hm : (p.hose h).meter.boundary ≤ (b.hose h).meter.boundary) : b.joinRequest p h = p := by
  unfold Part.joinRequest
  rw [if_neg (by simpa using hb), if_neg (by omega)]

theorem joinRequests_eq (b : Part) (hb : ∀ h, (p.hose h).begun = true → (b.hose h).begun = true)
    (hm : ∀ h, (p.hose h).meter.boundary ≤ (b.hose h).meter.boundary) : b.joinRequests p = p := by
  unfold Part.joinRequests
  induction allHoses with
  | nil => rfl
  | cons h t ih => rw [List.foldl_cons, joinRequest_eq b h (hb h) (hm h), ih]

/-- With nothing to arbitrate and nothing asked of the log, the hoses' part of the end of an event adds nothing. -/
theorem settleHoses_eq (hq : q.Quiet) (hb : ∀ h, (q.hose h).begun = true → (p.hose h).begun = true)
    (hm : ∀ h, (q.hose h).meter.boundary ≤ (p.hose h).meter.boundary) : settleHoses p q = q := by
  rw [settleHoses, hq.settlePumps, joinRequests_eq p hb hm]

/-- With nothing to arbitrate, nothing asked of the log and the restock state unchanged, the end of an event adds nothing. -/
theorem settle_eq (hq : q.Quiet) (hr : q.rsc.state = p.rsc.state) (hb : ∀ h, (q.hose h).begun = true → (p.hose h).begun = true)
    (hm : ∀ h, (q.hose h).meter.boundary ≤ (p.hose h).meter.boundary) : settle p q = q := by
  rw [settle, settleHoses_eq hq hb hm, finish, if_pos hr]

/-- The same for an event that leaves the hoses alone. -/
theorem settle_hoses (hq : q.Quiet) (hr : q.rsc.state = p.rsc.state) (hh : q.hoses = p.hoses) : settle p q = q :=
  hq.settle_eq hr (fun h => by simp [Part.hose, hh]) fun h => by simp [Part.hose, hh]

/-- Quietness is a matter of the pumps alone. -/
theorem of_pumps (hp : p.Quiet) (hq : q.pumps = p.pumps) : q.Quiet :=
  ⟨fun i => by rw [hq]; exact hp.requests i, fun i => by rw [hq]; exact hp.running i⟩

end Part.Quiet

/-! ## Offers and events touch the net's queue, its counters and the event queue alone -/

/-- An event touches the event queue and LOST alone. -/
theorem Part.event_shape (p : Part) (e : Event) :
    p.event e = p.setCnl { p.cnl with events := (p.event e).cnl.events, lost := (p.event e).cnl.lost } := by
  unfold Part.event Cnl.offer
  split <;> rfl

/-- An offer touches the site-net controller, the event queue and LOST alone. -/
theorem Part.offer_shape (p : Part) (n : Notice) (y : Bool) :
    p.offer n y = (p.setSnc (p.offer n y).snc).setCnl
      { p.cnl with events := (p.offer n y).cnl.events, lost := (p.offer n y).cnl.lost } := by
  unfold Part.offer
  split
  · split
    · rfl
    · rfl
    · rfl
    · unfold Part.event Cnl.offer
      split <;> rfl
  · rfl

theorem Part.offerClaim_shape (p : Part) (shiftNo machine number reserved : Nat) :
    p.offerClaim shiftNo machine number reserved = (p.setSnc (p.offerClaim shiftNo machine number reserved).snc).setCnl
      { p.cnl with
        events := (p.offerClaim shiftNo machine number reserved).cnl.events
        lost := (p.offerClaim shiftNo machine number reserved).cnl.lost } := by
  unfold Part.offerClaim
  split
  · rfl
  · exact p.offer_shape _ _

theorem Part.offerClosing_shape (p : Part) (number : Nat) (n : Notice) :
    p.offerClosing number n = (p.setSnc (p.offerClosing number n).snc).setCnl
      { p.cnl with events := (p.offerClosing number n).cnl.events, lost := (p.offerClosing number n).cnl.lost } := by
  unfold Part.offerClosing
  exact Part.offer_shape _ _ _

/-- A free line takes the request. -/
theorem Part.LineFree.request {p : Part} (hp : p.LineFree) (act : Part → Part) : p.request act = act p := by
  simp [Part.request, Part.lineBusy, hp.stage, hp.response, hp.reloading, hp.waiting]

end Sys2Proof.Machine
end

