-- ==== Sys2Proof/Laws/Moves.lean ====
section
/-! SUPPORT. What any command that leaves the two inputs alone can do to the part, said once: the relation Moves, and one lemma for
each shared operation that Stays does not cover. -/

namespace Sys2Proof.Machine

open Sys2Proof

/-- `Moves free p q`: the capacities of p hold of q, the inputs are those of p, and a valve is commanded open or a grant is held in
q only where it was in p, or where `free` holds. -/
structure Moves (free : Prop) (p q : Part) : Prop where
  emergency : q.pins.emergency = p.pins.emergency
  powerFail : q.pins.powerFail = p.pins.powerFail
  flow : ∀ h, (q.hose h).valves.phase.flowing = true → (p.hose h).valves.phase.flowing = true ∨ free
  grants : ∀ i g, g ∈ (q.pumps.get i).grants → g ∈ (p.pumps.get i).grants ∨ free
  events : p.cnl.events.length ≤ 16 → q.cnl.events.length ≤ 16
  busy : p.cnl.busyWaiting ≤ 4 → q.cnl.busyWaiting ≤ 4
  queue : p.snc.queue.length ≤ 16 → q.snc.queue.length ≤ 16
  attempts : p.snc.attempts ≤ 4 → q.snc.attempts ≤ 4
  peers : p.snc.peers.length = 14 → q.snc.peers.length = 14
  slots : p.tlg.slots.length = 1024 → q.tlg.slots.length = 1024
  totals : p.totals.length = 64 → q.totals.length = 64
  log : p.tlg.Bounded → q.tlg.Bounded
  claims : p.alc.Bounded → q.alc.Bounded
  own : q.station = p.station
  station : p.cfl.Bounded → q.cfl.Bounded
  restock : p.cfl.Bounded → p.rsc.Bounded p.station → q.rsc.Bounded p.station

namespace Moves

variable {free : Prop} {p q r : Part}

theorem refl : Moves free p p :=
  ⟨rfl, rfl, fun _ => Or.inl, fun _ _ => Or.inl, id, id, id, id, id, id, id, id, id, rfl, id, fun _ => id⟩

theorem trans (hq : Moves free p q) (hr : Moves free q r) : Moves free p r where
  emergency := hr.emergency.trans hq.emergency
  powerFail := hr.powerFail.trans hq.powerFail
  flow h hf := (hr.flow h hf).elim (hq.flow h) Or.inr
  grants i g hg := (hr.grants i g hg).elim (hq.grants i g) Or.inr
  events := hr.events ∘ hq.events
  busy := hr.busy ∘ hq.busy
  queue := hr.queue ∘ hq.queue
  attempts := hr.attempts ∘ hq.attempts
  peers := hr.peers ∘ hq.peers
  slots := hr.slots ∘ hq.slots
  totals := hr.totals ∘ hq.totals
  log := hr.log ∘ hq.log
  claims := hr.claims ∘ hq.claims
  own := hr.own.trans hq.own
  station := hr.station ∘ hq.station
  restock hc hb := by
    have := hr.restock (hq.station hc)
    rw [hq.own] at this
    exact this (hq.restock hc hb)

/-- The capacities hold on. -/
theorem bounded (hq : Moves free p q) (hp : p.Bounded) : q.Bounded :=
  ⟨hq.events hp.events, hq.busy hp.busy, hq.queue hp.queue, hq.attempts hp.attempts, hq.peers hp.peers, hq.slots hp.slots,
    hq.totals hp.totals, hq.log hp.log, hq.claims hp.claims, by rw [hq.own]; exact hq.restock hp.station hp.restock,
    hq.station hp.station⟩

/-- A safe part stays safe where valves open and grants are given only while no input is asserted. -/
theorem safe (hq : Moves p.inputsClear p q) (hp : p.Safe) : q.Safe := by
  intro hc
  have hc' : ¬ p.inputsClear := by
    unfold Part.inputsClear at hc ⊢
    rwa [hq.emergency, hq.powerFail] at hc
  obtain ⟨hflow, hgrants⟩ := hp hc'
  refine ⟨fun h => ?_, fun i => ?_⟩
  · by_contra hn
    rcases hq.flow h (by simpa using hn) with hf | hf
    · rw [hflow h] at hf; exact Bool.false_ne_true hf
    · exact hc' hf
  · rw [List.eq_nil_iff_forall_not_mem]
    intro g hg
    rcases hq.grants i g hg with hf | hf
    · rw [hgrants i] at hf; exact List.not_mem_nil hf
    · exact hc' hf

end Moves

/-- What a hose event may do, any command may do. -/
theorem Stays.moves {free : Prop} {p q : Part} (hq : Stays free p q) : Moves free p q := by
  induction hq with
  | refl => exact Moves.refl
  | @setHose q' _ h u hf ih =>
    refine ih.trans { Moves.refl with flow := fun k hk => ?_ }
    by_cases hkh : k = h
    · subst hkh
      rw [Part.hose_setHose_same] at hk
      exact hf hk
    · rw [Part.hose_setHose_ne _ _ hkh] at hk
      exact Or.inl hk
  | setEvents _ c hr hl ih =>
    refine ih.trans { Moves.refl with events := hl, busy := fun hb => ?_ }
    rw [Part.cnl_setCnl, hr]
    exact hb
  | setQueue _ c hr hl ih =>
    refine ih.trans { Moves.refl with queue := hl, attempts := fun hb => ?_, peers := fun hb => ?_ }
    · rw [Part.snc_setSnc, hr]; exact hb
    · rw [Part.snc_setSnc, hr]; exact hb
  | setTlg _ t hf hb ih =>
    refine ih.trans { Moves.refl with slots := fun hl => ?_, log := hb }
    have := congrArg List.length (congrArg Prod.fst hf)
    simpa [Tlg.fixed] using this.trans (by simpa [Tlg.fixed] using hl)
  | setRsc _ r _ _ hb ih => exact ih.trans { Moves.refl with restock := fun _ => hb _ }
  | setPumps _ m hg ih => exact ih.trans { Moves.refl with grants := hg }
  | setRequestOrder _ n ih => exact ih.trans { Moves.refl with }
  | setCounter _ n ih => exact ih.trans { Moves.refl with claims := fun hb => hb.congr rfl }

namespace Moves

variable {free : Prop} {p q r : Part}

theorem reach (hq : Moves free p q) (n : Nat) : Moves free p (q.reach n) := hq.trans { Moves.refl with }

theorem setDraws (hq : Moves free p q) (n : Nat) : Moves free p (q.setDraws n) := hq.trans { Moves.refl with }

theorem setMachines (hq : Moves free p q) (m : List MachineRow) : Moves free p (q.setMachines m) := hq.trans { Moves.refl with }

theorem modMachine (hq : Moves free p q) (i : Nat) (f : MachineRow → MachineRow) : Moves free p (q.modMachine i f) :=
  hq.setMachines _

/-- The allotment controller changed within the capacities of its claim table. -/
theorem setAlc (hq : Moves free p q) (x : Alc) (hx : q.alc.Bounded → x.Bounded) : Moves free p (q.setAlc x) :=
  hq.trans { Moves.refl with claims := hx }

theorem setInv (hq : Moves free p q) (x : Inv) : Moves free p (q.setInv x) := hq.trans { Moves.refl with }

theorem modComp (hq : Moves free p q) (c : CompId) (f : Compartment → Compartment) : Moves free p (q.modComp c f) := hq.setInv _

/-- The loader changed, its station number kept. -/
theorem setCfl (hq : Moves free p q) (x : Cfl) (hs : x.station = q.cfl.station) (hx : q.cfl.Bounded → x.Bounded) :
    Moves free p (q.setCfl x) :=
  hq.trans { Moves.refl with own := by simp only [Part.station, Part.cfl_setCfl, hs], station := hx, restock := fun _ => id }

/-- The restock coordinator changed within its capacities. -/
theorem setRsc (hq : Moves free p q) (x : Rsc) (hx : q.cfl.Bounded → q.rsc.Bounded q.station → x.Bounded q.station) :
    Moves free p (q.setRsc x) := hq.trans { Moves.refl with restock := hx }

/-- The restock coordinator changed but for its queue and its bays. -/
theorem setRestocking (hq : Moves free p q) (x : Rsc) (h1 : x.queue = q.rsc.queue) (h2 : x.bays = q.rsc.bays) :
    Moves free p (q.setRsc x) := hq.setRsc x fun _ hb => hb.congr h1 h2

/-- The pins changed but for the two inputs. -/
theorem setPins (hq : Moves free p q) (x : Pins) (he : x.emergency = q.pins.emergency) (hp : x.powerFail = q.pins.powerFail) :
    Moves free p (q.setPins x) :=
  hq.trans { Moves.refl with emergency := he, powerFail := hp }

theorem modPins (hq : Moves free p q) (h : HoseId) (f : HosePins → HosePins) : Moves free p (q.modPins h f) :=
  hq.setPins _ rfl rfl

/-- The net changed within its capacities. -/
theorem setSnc (hq : Moves free p q) (x : Snc) (h1 : q.snc.queue.length ≤ 16 → x.queue.length ≤ 16)
    (h2 : q.snc.attempts ≤ 4 → x.attempts ≤ 4) (h3 : q.snc.peers.length = 14 → x.peers.length = 14) :
    Moves free p (q.setSnc x) :=
  hq.trans { Moves.refl with queue := h1, attempts := h2, peers := h3 }

/-- The net's counters and timers changed. -/
theorem modSnc (hq : Moves free p q) (f : Snc → Snc) (h1 : (f q.snc).queue = q.snc.queue)
    (h2 : (f q.snc).attempts = q.snc.attempts) (h3 : (f q.snc).peers = q.snc.peers) : Moves free p (q.modSnc f) :=
  hq.setSnc _ (by rw [h1]; exact id) (by rw [h2]; exact id) (by rw [h3]; exact id)

theorem setTotals (hq : Moves free p q) (x : List Totals) (hx : q.totals.length = 64 → x.length = 64) :
    Moves free p (q.setTotals x) :=
  hq.trans { Moves.refl with totals := hx }

/-- The log changed within its capacities. -/
theorem setTlg (hq : Moves free p q) (x : Tlg) (hx : q.tlg.slots.length = 1024 → x.slots.length = 1024)
    (hb : q.tlg.Bounded → x.Bounded) : Moves free p (q.setTlg x) :=
  hq.trans { Moves.refl with slots := hx, log := hb }

/-- The log changed but for its slots, its queue and its wait lists. -/
theorem setMemory (hq : Moves free p q) (x : Tlg) (h1 : x.slots = q.tlg.slots) (h2 : x.queue = q.tlg.queue)
    (h3 : x.waitLists = q.tlg.waitLists) : Moves free p (q.setTlg x) :=
  hq.setTlg x (by rw [h1]; exact id) fun hb => hb.congr h2 h3

theorem modSlot (hq : Moves free p q) (i : Nat) (f : Slot → Slot) : Moves free p (q.modSlot i f) :=
  hq.setTlg _ (by simp) fun hb => hb.congr rfl rfl

theorem setCnl (hq : Moves free p q) (x : Cnl) (h1 : q.cnl.events.length ≤ 16 → x.events.length ≤ 16)
    (h2 : q.cnl.busyWaiting ≤ 4 → x.busyWaiting ≤ 4) : Moves free p (q.setCnl x) :=
  hq.trans { Moves.refl with events := h1, busy := h2 }

/-- The hoses changed where no phase is moved. -/
theorem setHoses (hq : Moves free p q) (x : Quad Hose) (hx : ∀ h, (x.get h).valves.phase = (q.hose h).valves.phase) :
    Moves free p (q.setHoses x) :=
  hq.trans { Moves.refl with flow := fun h hf => Or.inl (by rw [← hx h]; exact hf) }

theorem setPumps (hq : Moves free p q) (x : ByPump Pump) (hx : ∀ i, (x.get i).grants = (q.pumps.get i).grants) :
    Moves free p (q.setPumps x) :=
  hq.trans { Moves.refl with grants := fun i g hg => Or.inl (by rw [← hx i]; exact hg) }

/-- A hose event after other changes. -/
theorem stays (hq : Moves free p q) (hr : Stays free q r) : Moves free p r := hq.trans hr.moves

theorem event (hq : Moves free p q) (e : Event) : Moves free p (q.event e) := hq.stays (Stays.refl.event e)

theorem respond (hq : Moves free p q) (x : Response) : Moves free p (q.respond x) := hq.stays (Stays.refl.respond x)

theorem offer (hq : Moves free p q) (n : Notice) (y : Bool) : Moves free p (q.offer n y) := hq.stays (Stays.refl.offer n y)

theorem takeCause (hq : Moves free p q) (h : HoseId) (c : Cause) : Moves free p (q.takeCause h c) :=
  hq.stays (Stays.refl.takeCause h c)

theorem settleHoses (hq : Moves free p q) (hfree : p.inputsClear → free) (b : Part) : Moves free p (settleHoses b q) :=
  hq.stays (Stays.refl.settleHoses (fun hc => hfree (by
    unfold Part.inputsClear at hc ⊢
    rwa [hq.emergency, hq.powerFail] at hc)) b)

theorem finish (hq : Moves free p q) (b : Part) : Moves free p (finish b q) := hq.stays (Stays.refl.finish b)

theorem settle (hq : Moves free p q) (hfree : p.inputsClear → free) (b : Part) : Moves free p (settle b q) :=
  (hq.settleHoses hfree b).finish b

end Moves

end Sys2Proof.Machine
end

