-- ==== Sys2Proof/Laws/Stops.lean ====
section
/-! SUPPORT. What a stop cause does to the hoses (06 R109 to R113), and what the end of an event leaves of a hose. -/

namespace Sys2Proof.Machine

open Sys2Proof

/-! ## Offers, events and restock moves leave the hoses alone -/

@[simp] theorem Part.hose_offer (p : Part) (n : Notice) (y : Bool) (k : HoseId) : (p.offer n y).hose k = p.hose k := by
  rw [Part.offer_shape]; simp

@[simp] theorem Part.hose_offerClosing (p : Part) (number : Nat) (n : Notice) (k : HoseId) :
    (p.offerClosing number n).hose k = p.hose k := by
  unfold Part.offerClosing; simp

@[simp] theorem Part.hose_offerClaim (p : Part) (a b c d : Nat) (k : HoseId) : (p.offerClaim a b c d).hose k = p.hose k := by
  rw [Part.offerClaim_shape]; simp

@[simp] theorem Part.hose_requestBay (p : Part) (k : HoseId) : p.requestBay.hose k = p.hose k := by
  unfold Part.requestBay; split <;> simp

@[simp] theorem Part.hose_enterRequested (p : Part) (k : HoseId) : p.enterRequested.hose k = p.hose k := by
  simp [Part.enterRequested, Part.setRestock]

@[simp] theorem Part.hose_drainTest (p : Part) (k : HoseId) : p.drainTest.hose k = p.hose k := by
  unfold Part.drainTest; split <;> simp

@[simp] theorem Part.hose_endLoadout (p : Part) (x : Context) (k : HoseId) : (p.endLoadout x).hose k = p.hose k := by
  unfold Part.endLoadout; split <;> simp

@[simp] theorem Part.hose_offerStock (p : Part) (k : HoseId) : p.offerStock.hose k = p.hose k := by
  unfold Part.offerStock; split <;> simp

@[simp] theorem Part.hose_finish (b p : Part) (k : HoseId) : (finish b p).hose k = p.hose k := by
  unfold finish; split <;> simp

/-! ## A stop before flow -/

@[simp] theorem Part.hose_dropClaim_ne (p : Part) {h k : HoseId} (hk : k ≠ h) : (p.dropClaim h).hose k = p.hose k := by
  unfold Part.dropClaim
  split
  · simp [Part.hose_modHose_ne _ _ hk]
  · rfl

theorem Part.hose_dropClaim (p : Part) (h : HoseId) {x : Context} (hx : (p.hose h).context = some x) :
    (p.dropClaim h).hose h = { p.hose h with claim := none } := by
  unfold Part.dropClaim
  rw [hx]
  cases hc : (p.hose h).claim with
  | none => simp [← hc]
  | some c => simp

/-- A stop before flow leaves the other hoses alone. -/
theorem Part.hose_stopBeforeFlow_ne (p : Part) {h k : HoseId} (hk : k ≠ h) (c : Cause) :
    (p.stopBeforeFlow h c).hose k = p.hose k := by
  unfold Part.stopBeforeFlow
  split
  · rfl
  · simp [Part.hose_modHose_ne _ _ hk, Part.superviseOff, Part.hose_modReader_ne _ _ hk, Part.hose_modValves_ne _ _ hk,
      Part.hose_dropClaim_ne _ hk]

/-- What a stop before flow leaves of its hose (06 R113). -/
theorem Part.hose_stopBeforeFlow (p : Part) (h : HoseId) (c : Cause) {x : Context} (hx : (p.hose h).context = some x) :
    (p.stopBeforeFlow h c).hose h =
      { p.hose h with
        holdOff := none, pumpWait := none, valves := { (p.hose h).valves with pending := none }
        reader := { (p.hose h).reader with supervised := none, grace := none }
        claim := none, context := none, summary := some { sequence := none, cause := some c, faults := x.faults }
        dsc := restState (p.hose h).nozzle } := by
  unfold Part.stopBeforeFlow
  rw [hx]
  simp only [Part.hose_drainTest, Part.hose_modHose_same, Part.hose_endLoadout, Part.hose_returnSlot]
  rw [Part.hose_dropClaim _ _ (x := x) (by simp [Part.superviseOff, hx])]
  simp [Part.superviseOff]

/-! ## A stop in flow -/

theorem Part.hose_beginShutting_ne (p : Part) {h k : HoseId} (hk : k ≠ h) : (p.beginShutting h).hose k = p.hose k := by
  unfold Part.beginShutting
  split
  · exact Part.hose_modHose_ne _ _ hk
  · rfl

theorem Part.hose_leaveCommitting_ne (p : Part) {h k : HoseId} (hk : k ≠ h) : (p.leaveCommitting h).hose k = p.hose k := by
  unfold Part.leaveCommitting
  split
  · rfl
  · simp [Part.hose_modHose_ne _ _ hk]

theorem Part.hose_enterShut_ne (p : Part) {h k : HoseId} (hk : k ≠ h) : (p.enterShut h).hose k = p.hose k := by
  unfold Part.enterShut
  dsimp only
  split <;> split
  all_goals
    simp [Part.hose_leaveCommitting_ne _ hk, Part.superviseOff, Part.hose_modReader_ne _ _ hk, Part.hose_modValves_ne _ _ hk]

theorem Part.hose_shutTest_ne (p : Part) {h k : HoseId} (hk : k ≠ h) : (p.shutTest h).hose k = p.hose k := by
  unfold Part.shutTest
  split
  · exact Part.hose_enterShut_ne _ hk
  · rfl

/-- A stop cause leaves the other hoses alone (06 R109). -/
theorem Part.hose_takeCause_ne (p : Part) {h k : HoseId} (hk : k ≠ h) (c : Cause) : (p.takeCause h c).hose k = p.hose k := by
  unfold Part.takeCause
  split
  · exact p.hose_stopBeforeFlow_ne hk c
  · exact p.hose_stopBeforeFlow_ne hk c
  · simp [Part.hose_shutTest_ne _ hk, Part.hose_beginShutting_ne _ hk, Part.hose_modHose_ne _ _ hk, Part.hose_modContext_ne _ _ hk]
  · exact Part.hose_modContext_ne _ _ hk
  · exact Part.hose_modContext_ne _ _ hk
  all_goals rfl

/-- A stop cause before flow undoes the transaction (06 R110, R113). -/
theorem Part.takeCause_before (p : Part) {h : HoseId} (hd : (p.hose h).dsc = .authorising ∨ (p.hose h).dsc = .awaitPump)
    (c : Cause) : p.takeCause h c = p.stopBeforeFlow h c := by
  unfold Part.takeCause
  rcases hd with hd | hd <;> rw [hd]

/-- A stop cause in STOPPING or COMMITTING may add its flag (06 R111). -/
theorem Part.takeCause_late (p : Part) {h : HoseId} (hd : (p.hose h).dsc = .stopping ∨ (p.hose h).dsc = .committing)
    (c : Cause) : p.takeCause h c = p.addFaults h c.flag := by
  unfold Part.takeCause
  rcases hd with hd | hd <;> rw [hd]

theorem Part.dsc_context_beginShutting (p : Part) (h : HoseId) :
    ((p.beginShutting h).hose h).dsc = (p.hose h).dsc ∧ ((p.beginShutting h).hose h).context = (p.hose h).context := by
  unfold Part.beginShutting
  split <;> simp

theorem Part.dsc_context_shutTest (p : Part) (h : HoseId) (hd : (p.hose h).dsc = .stopping) :
    ((p.shutTest h).hose h).dsc = .stopping ∧ ((p.shutTest h).hose h).context = (p.hose h).context := by
  unfold Part.shutTest
  split
  · unfold Part.enterShut
    dsimp only
    rw [if_neg (by simp [Part.superviseOff, hd])]
    simp [Part.superviseOff, hd]
  · exact ⟨hd, rfl⟩

/-- The first cause in flow (06 R110, R111): the hose is in STOPPING, and the cause is its end cause. -/
theorem Part.takeCause_flowing (p : Part) {h : HoseId} (hd : (p.hose h).dsc = .flowing) (c : Cause) :
    ((p.takeCause h c).hose h).dsc = .stopping
      ∧ ((p.takeCause h c).hose h).context = (p.hose h).context.map fun x => { x with cause := some c } := by
  unfold Part.takeCause
  rw [hd]
  simp only
  generalize hq : (((p.modContext h fun x => { x with cause := some c }).event (.stopped h c)).modHose h fun u =>
    { u with dsc := .stopping }) = q
  have hqd : (q.hose h).dsc = .stopping := by rw [← hq]; simp
  have hqc : (q.hose h).context = (p.hose h).context.map fun x => { x with cause := some c } := by rw [← hq]; simp
  obtain ⟨h1, h2⟩ := q.dsc_context_beginShutting h
  obtain ⟨h3, h4⟩ := (q.beginShutting h).dsc_context_shutTest h (by rw [h1, hqd])
  exact ⟨h3, by rw [h4, h2, hqc]⟩

theorem Vsq.enter_trim (now : Nat) (t : Option Nat) (ph : Phase) (q : Vsq) :
    (q.enter now t ph).trim.switch = q.trim.switch ∧ (q.enter now t ph).trim.latch = q.trim.latch := by
  unfold Vsq.enter Valve.supervise
  dsimp only
  split <;> exact ⟨rfl, rfl⟩

/-- The whole of the first cause in flow while the trim valve still shows OPEN: both valves are commanded CLOSED and the no-flow timer
stops (05 R86, 04 R72). -/
theorem Part.takeCause_open (p : Part) {h : HoseId} (c : Cause) (hd : (p.hose h).dsc = .flowing)
    (hf : (p.hose h).valves.phase.flowing = true) (hs : (p.hose h).valves.trim.switch = .opened)
    (hl : (p.hose h).valves.trim.latch = false) :
    p.takeCause h c = (p.event (.stopped h c)).modHose h fun u =>
      { u with
        dsc := .stopping, context := u.context.map fun x => { x with cause := some c }
        valves := u.valves.enter p.now ((p.hoseSettings h).map (·.settleTime)) .shutting
        meter := { u.meter with noFlow := none } } := by
  unfold Part.takeCause
  rw [hd]
  simp only
  generalize hq : (((p.modContext h fun x => { x with cause := some c }).event (.stopped h c)).modHose h fun u =>
    { u with dsc := .stopping }) = q
  have hqh : q.hose h = { p.hose h with
      dsc := .stopping, context := (p.hose h).context.map fun x => { x with cause := some c } } := by rw [← hq]; simp
  have e : q.beginShutting h = q.modHose h fun u =>
      { u with valves := u.valves.enter q.now ((q.hoseSettings h).map (·.settleTime)) .shutting
               meter := { u.meter with noFlow := none } } := by
    unfold Part.beginShutting
    rw [if_pos (by rw [hqh]; exact hf)]
  have ns : (q.beginShutting h).shutTest h = q.beginShutting h := by
    unfold Part.shutTest
    rw [if_neg]
    rintro ⟨-, hset⟩
    rw [e] at hset
    have ht := Vsq.enter_trim q.now ((q.hoseSettings h).map (·.settleTime)) .shutting (q.hose h).valves
    simp only [Part.hose_modHose_same, Vsq.settled, Valve.settled, Bool.and_eq_true, Bool.or_eq_true, beq_iff_eq] at hset
    rw [ht.1, ht.2, hqh] at hset
    rcases hset.1 with h1 | h1
    · rw [hs] at h1; exact absurd h1 (by decide)
    · rw [hl] at h1; exact absurd h1 (by decide)
  rw [ns, e, ← hq]
  cases h <;> rfl

/-- The same for a hose that its sequencer has begun to shut (05 R85). -/
theorem Part.takeCause_shutting (p : Part) {h : HoseId} (c : Cause) (hd : (p.hose h).dsc = .flowing)
    (hf : (p.hose h).valves.phase = .shutting) (hs : (p.hose h).valves.trim.switch = .opened)
    (hl : (p.hose h).valves.trim.latch = false) :
    p.takeCause h c = (p.event (.stopped h c)).modHose h fun u =>
      { u with dsc := .stopping, context := u.context.map fun x => { x with cause := some c } } := by
  unfold Part.takeCause
  rw [hd]
  simp only
  generalize hq : (((p.modContext h fun x => { x with cause := some c }).event (.stopped h c)).modHose h fun u =>
    { u with dsc := .stopping }) = q
  have hqv : (q.hose h).valves = (p.hose h).valves := by rw [← hq]; simp
  have e : q.beginShutting h = q := by
    unfold Part.beginShutting
    rw [if_neg (by rw [hqv, hf]; decide)]
  have ns : q.shutTest h = q := by
    unfold Part.shutTest
    rw [if_neg]
    rintro ⟨-, hset⟩
    rw [hqv] at hset
    simp [Vsq.settled, Valve.settled, hs, hl] at hset
  rw [e, ns, ← hq]
  cases h <;> rfl

/-- A fold over the hoses of an operation that leaves the other hoses alone does to each hose what the operation does to it. -/
theorem hose_fold (f : Part → HoseId → Part) (hne : ∀ q h k, k ≠ h → (f q h).hose k = q.hose k) (p : Part) (k : HoseId) :
    ∃ q, q.hose k = p.hose k ∧ (allHoses.foldl f p).hose k = (f q k).hose k := by
  simp only [allHoses, List.foldl_cons, List.foldl_nil]
  cases k
  · exact ⟨p, rfl, by rw [hne _ _ _ (by decide), hne _ _ _ (by decide), hne _ _ _ (by decide)]⟩
  · exact ⟨f p .h1, hne _ _ _ (by decide), by rw [hne _ _ _ (by decide), hne _ _ _ (by decide)]⟩
  · exact ⟨f (f p .h1) .h2, by rw [hne _ _ _ (by decide), hne _ _ _ (by decide)], by rw [hne _ _ _ (by decide)]⟩
  · exact ⟨f (f (f p .h1) .h2) .h3, by rw [hne _ _ _ (by decide), hne _ _ _ (by decide), hne _ _ _ (by decide)], rfl⟩

/-! ## The end of an event -/

@[simp] theorem Part.hose_restPump (p : Part) (i : PumpId) (k : HoseId) : (p.restPump i).hose k = p.hose k := by
  unfold Part.restPump; split <;> simp

@[simp] theorem Part.hose_wakePump (p : Part) (i : PumpId) (k : HoseId) : (p.wakePump i).hose k = p.hose k := by
  unfold Part.wakePump; split <;> simp

theorem hose_grantLoop (i : PumpId) (n : Nat) (p : Part) (l : List HoseId) (k : HoseId) : (grantLoop i n p l).1.hose k = p.hose k := by
  induction n generalizing p l with
  | zero => rfl
  | succ n ih =>
    unfold grantLoop
    split
    · rfl
    · split
      · rfl
      · rw [ih]; simp [Part.grantPump]

@[simp] theorem Part.hose_arbitrate (p : Part) (k : HoseId) : p.arbitrate.1.hose k = p.hose k := by
  unfold Part.arbitrate
  split
  · rfl
  · dsimp only
    rw [hose_grantLoop, hose_grantLoop]
    simp

theorem Part.hose_moveValves_ne (p : Part) {h k : HoseId} (hk : k ≠ h) : (p.moveValves h).hose k = p.hose k := by
  unfold Part.moveValves
  split
  · rfl
  · dsimp only
    split
    · exact Part.hose_modValves_ne _ _ hk
    · split
      · rw [Part.hose_takeCause_ne _ hk, Part.hose_beginShutting_ne _ hk, Part.hose_modValves_ne _ _ hk]
      · rw [Part.hose_modValves_ne _ _ hk, Part.hose_modValves_ne _ _ hk]

theorem Part.hose_startFlow_ne (p : Part) {h k : HoseId} (hk : k ≠ h) : (p.startFlow h).hose k = p.hose k := by
  unfold Part.startFlow
  split
  · rw [Part.hose_moveValves_ne _ hk, Part.hose_modHose_ne _ _ hk]
  · rfl

/-- Flow starts in AWAIT_PUMP alone. -/
theorem Part.hose_startFlow_idle (p : Part) (h : HoseId) {k : HoseId} (hd : (p.hose k).dsc ≠ .awaitPump) :
    (p.startFlow h).hose k = p.hose k := by
  by_cases hk : k = h
  · subst hk
    unfold Part.startFlow
    split
    · exact absurd ‹_› hd
    · rfl
  · exact p.hose_startFlow_ne hk

theorem Part.hose_startFlows (p : Part) (starts : List HoseId) {k : HoseId} (hd : (p.hose k).dsc ≠ .awaitPump) :
    (p.startFlows starts).hose k = p.hose k := by
  unfold Part.startFlows
  induction allHoses generalizing p with
  | nil => rfl
  | cons h t ih =>
    rw [List.foldl_cons]
    split
    · rw [ih _ (by rw [p.hose_startFlow_idle h hd]; exact hd), p.hose_startFlow_idle h hd]
    · exact ih p hd

/-- The arbitration leaves a hose alone that does not wait for its pump. -/
theorem hose_settlePumps (n : Nat) (p : Part) {k : HoseId} (hd : (p.hose k).dsc ≠ .awaitPump) :
    (settlePumps n p).hose k = p.hose k := by
  induction n generalizing p with
  | zero => simp [settlePumps]
  | succ n ih =>
    unfold settlePumps
    dsimp only
    split
    · simp
    · have h1 : (p.arbitrate.1.hose k).dsc ≠ .awaitPump := by simpa using hd
      rw [ih _ (by rw [Part.hose_startFlows _ _ h1]; exact h1), Part.hose_startFlows _ _ h1, Part.hose_arbitrate]

theorem Part.hose_queueOpening_ne (p : Part) {h k : HoseId} (hk : k ≠ h) : (p.queueOpening h).hose k = p.hose k := by
  unfold Part.queueOpening
  split
  · rfl
  · simp [Part.hose_modContext_ne _ _ hk]

@[simp] theorem Part.hose_queueCheckpoint (p : Part) (h k : HoseId) : (p.queueCheckpoint h).hose k = p.hose k := by
  unfold Part.queueCheckpoint Part.checkpoint
  dsimp only
  repeat' split
  all_goals rfl

/-- The requests to the log number the record of a flow that starts at the event, and change nothing else of the hoses. -/
theorem Part.hose_joinRequests (b p : Part) {k : HoseId} (hk : (p.hose k).begun = true → (b.hose k).begun = true) :
    (b.joinRequests p).hose k = p.hose k := by
  unfold Part.joinRequests
  induction allHoses generalizing p with
  | nil => rfl
  | cons h t ih =>
    have e : (b.joinRequest p h).hose k = p.hose k := by
      unfold Part.joinRequest
      split
      · rename_i hb
        refine Part.hose_queueOpening_ne p ?_
        rintro rfl
        simp only [Bool.and_eq_true, Bool.not_eq_true'] at hb
        rw [hk hb.1] at hb
        exact absurd hb.2 (by decide)
      · split <;> simp
    rw [List.foldl_cons, ih _ (by rw [e]; exact hk), e]

/-- What the end of an event leaves of a hose whose flow does not start at it: the hose itself. -/
theorem hose_settle (b p : Part) {k : HoseId} (hd : (p.hose k).dsc ≠ .awaitPump)
    (hk : (p.hose k).begun = true → (b.hose k).begun = true) : (settle b p).hose k = p.hose k := by
  have e := hose_settlePumps 5 p hd
  rw [settle, Part.hose_finish, settleHoses, Part.hose_joinRequests _ _ (by rw [e]; exact hk), e]

/-- With no request waiting the end of an event leaves the hoses alone. -/
theorem hose_settle_idle (b p : Part) (hr : ∀ i, (p.pumps.get i).requests = []) {k : HoseId}
    (hk : (p.hose k).begun = true → (b.hose k).begun = true) : (settle b p).hose k = p.hose k := by
  have e : (settlePumps 5 p).hose k = p.hose k := by rw [settlePumps_idle hr]; simp
  rw [settle, Part.hose_finish, settleHoses, Part.hose_joinRequests _ _ (by rw [e]; exact hk), e]

theorem Part.pumps_drainTest (q : Part) : q.drainTest.pumps = q.pumps := by
  unfold Part.drainTest Part.enterRequested Part.requestBay; split
  · split
    · rw [Part.offer_shape]; simp [Part.setRestock]
    · simp [Part.setRestock]
  · rfl

/-! ## The entry into SHUT -/

/-- What the entry into SHUT leaves of its hose (05 R87, 06 R114): supervision off, the overrun window started unless a power-fail
warning was taken, and a hose whose commit is complete out of COMMITTING; the grant is released, and no request is withdrawn. -/
theorem Part.hose_enterShut (p : Part) (h : HoseId) (x : Context) (hx : (p.hose h).context = some x) :
    let u := p.hose h
    let window := if x.powerFail then u.valves.overrun else some (p.now + 200000)
    let shut : Hose := { u with
      valves := { u.valves with phase := .shut, overrun := window }
      reader := { u.reader with supervised := none, grace := none } }
    (p.enterShut h).hose h = (if u.dsc = .committing ∧ x.committed = true then
        ({ shut with
          context := none, summary := some { sequence := x.sequence, cause := x.cause, faults := x.faults }
          dsc := (match u.nozzle with | .onHook => .idle | .offHook => .done)
          kept := (match u.nozzle with | .onHook => none | .offHook => some x.position)
          valves := (match u.nozzle with | .onHook => { shut.valves with pending := none } | .offHook => shut.valves) } : Hose)
        else shut)
      ∧ (∀ i, h ∉ ((p.enterShut h).pumps.get i).grants)
      ∧ (∀ i, ((p.enterShut h).pumps.get i).requests = (p.pumps.get i).requests)
      ∧ (p.enterShut h).now = p.now := by
  intro u window shut
  let after : Bool → Part := fun b =>
    ((p.modValves h fun v => { v with phase := .shut, overrun := if b = true then v.overrun else p.after (sec 2) }).superviseOff
      h).dropGrant h
  have e0 : ∀ b : Bool, (after b).hose h = { shut with
      valves := { u.valves with phase := .shut, overrun := if b = true then u.valves.overrun else some (p.now + 200000) } } := by
    intro b
    simp only [after]
    rw [Part.hose_dropGrant]; unfold Part.superviseOff
    simp [shut, u, Part.after, sec]
  constructor
  · unfold Part.enterShut
    simp only [hx, Option.map_some, Option.getD_some]
    have e1 := e0 x.powerFail
    simp only [after] at e1
    simp only [e1]
    by_cases hc : u.dsc = .committing ∧ x.committed = true
    · rw [if_pos (by exact hc), if_pos hc]
      unfold Part.leaveCommitting
      rw [e1]
      simp only [show shut.context = some x from hx]
      simp only [Part.hose_drainTest, Part.hose_modHose_same, e1]
      rfl
    · rw [if_neg (by exact hc), if_neg hc, e1]
  · have lp : ∀ q : Part, (q.leaveCommitting h).pumps = q.pumps ∧ (q.leaveCommitting h).now = q.now := by
      intro q; unfold Part.leaveCommitting
      split
      · exact ⟨rfl, rfl⟩
      · exact ⟨by rw [Part.pumps_drainTest]; rfl, by rw [(Stays.refl (free := False)).drainTest.now_eq]; rfl⟩
    have key : ∀ b : Bool, ∀ q : Part, q = after b →
        (∀ i, h ∉ (q.pumps.get i).grants) ∧ (∀ i, (q.pumps.get i).requests = (p.pumps.get i).requests) ∧ q.now = p.now := by
      rintro b q rfl
      refine ⟨fun i => ?_, fun i => ?_, rfl⟩
      · cases i <;> simp [after, Part.dropGrant, ByPump.get]
      · cases i <;> simp [after, Part.dropGrant, ByPump.get]
    unfold Part.enterShut
    simp only
    generalize hb : (Option.map (fun x => x.powerFail) (p.hose h).context).getD false = b
    generalize hq : Part.dropGrant _ h = q
    have k := key b q hq.symm
    split
    · simp only [(lp _).1, (lp _).2]; exact k
    · exact k

end Sys2Proof.Machine
end

