-- ==== Sys2Proof/Laws/Arbitration.lean ====
section
/-! SUPPORT. The arbitration of the pumps (05 R93 to R97): which request is granted, and what a release leaves. -/

namespace Sys2Proof.Machine

open Sys2Proof

theorem insertRequest_perm (x : Request) (l) : (insertRequest x l).Perm (x :: l) := by
  induction l with
  | nil => exact List.Perm.refl _
  | cons q l ih =>
    unfold insertRequest
    split
    · exact List.Perm.refl _
    · exact (List.Perm.cons q ih).trans (List.Perm.swap x q l)

/-- Grant order holds the same requests. -/
theorem grantOrder_perm (l) : (grantOrder l).Perm l := by
  induction l with
  | nil => exact List.Perm.refl _
  | cons x l ih => unfold grantOrder; exact (insertRequest_perm x _).trans (List.Perm.cons x ih)

/-- Grant order among orders of one half of the circle, counted from a base (05 R94). -/
theorem grantBefore_iff (base : Nat) (hb : base < 4294967296) (x y : Request) (hx : x.order < 4294967296 ∧ (x.order + 4294967296
    - base) % 4294967296 ≤ 2147483647)
   (hy : y.order < 4294967296 ∧ (y.order + 4294967296 - base) % 4294967296 ≤ 2147483647) :
   grantBefore x y = true ↔ y.priority < x.priority ∨ x.priority = y.priority ∧ (x.order + 4294967296 - base) % 4294967296 <
       (y.order + 4294967296 - base) % 4294967296 := by
  unfold grantBefore orderBefore
  simp only [Bool.or_eq_true, decide_eq_true_eq, Bool.and_eq_true, beq_iff_eq]
  refine or_congr Iff.rfl (and_congr_right fun _ => ?_)
  have := hx.1; have := hx.2; have := hy.1; have := hy.2
  omega

/-- The list is in grant order: by level, and within a level by order (05 R94, R95). -/
theorem grantOrder_sorted (base : Nat) (hb : base < 4294967296) (l : List Request) (hl : ∀ t ∈ l, t.order < 4294967296 ∧ (t.order
    + 4294967296 - base) % 4294967296 ≤ 2147483647) :
   (grantOrder l).Pairwise fun t t' => t'.priority < t.priority ∨ t'.priority = t.priority
            ∧ (t.order + 4294967296 - base) % 4294967296 ≤ (t'.order + 4294967296 - base) % 4294967296 := by
  induction l with
  | nil => exact List.Pairwise.nil
  | cons x l ih =>
    have hx := hl x (List.mem_cons_self ..)
    have hl' := fun t ht => hl t (List.mem_cons_of_mem _ ht)
    have ih := ih hl'
    have hg : ∀ t ∈ grantOrder l, t.order < 4294967296 ∧ (t.order + 4294967296 - base) % 4294967296 ≤ 2147483647 := fun t ht =>
        hl' t ((grantOrder_perm l).mem_iff.mp ht)
    unfold grantOrder
    generalize grantOrder l = g at ih hg
    induction g with
    | nil => exact List.pairwise_singleton _ _
    | cons q g ih2 =>
      have hq := hg q (List.mem_cons_self ..)
      rw [List.pairwise_cons] at ih
      unfold insertRequest
      split
      · rename_i h
        rw [grantBefore_iff base hb x q hx hq] at h
        refine List.Pairwise.cons (fun t ht => ?_) (List.Pairwise.cons ih.1 ih.2)
        rcases List.mem_cons.mp ht with rfl | ht
        · omega
        · have := ih.1 t ht; omega
      · rename_i h
        rw [grantBefore_iff base hb x q hx hq] at h
        refine List.Pairwise.cons (fun t ht => ?_) (ih2 ih.2 fun t ht => hg t (List.mem_cons_of_mem _ ht))
        rcases List.mem_cons.mp ((insertRequest_perm x g).mem_iff.mp ht) with rfl | ht
        · omega
        · exact ih.1 t ht

/-- A request that stands before every other is the first in grant order (05 R95). -/
theorem grantOrder_head (l : List Request) (r : Request) (hm : r ∈ l) (hb : ∀ t ∈ l, t ≠ r → grantBefore r t = true ∧ grantBefore
    t r = false) :
   (grantOrder l).head? = some r := by
  induction l with
  | nil => exact nomatch hm
  | cons x l ih =>
    unfold grantOrder
    by_cases hx : x = r
    · subst hx
      cases hq : grantOrder l with
      | nil => rfl
      | cons q rest =>
        unfold insertRequest
        split
        · rfl
        · rename_i hn
          have hql : q ∈ l := (grantOrder_perm l).mem_iff.mp (by rw [hq]; exact List.mem_cons_self ..)
          have : q = x := by
            by_contra hc
            exact hn (hb q (List.mem_cons_of_mem _ hql) hc).1
          rw [this]; rfl
    · have hl : r ∈ l := by rcases List.mem_cons.mp hm with h | h
                            · exact absurd h.symm hx
                            · exact h
      have := ih hl (fun t ht => hb t (List.mem_cons_of_mem _ ht))
      cases hq : grantOrder l with
      | nil => rw [hq] at this; cases this
      | cons q rest =>
        rw [hq] at this; cases this
        unfold insertRequest
        rw [if_neg (by rw [(hb x (List.mem_cons_self ..) hx).2]; decide)]; rfl

/-- The request that the rule of 05 R95 grants among those that wait at a pump. -/
structure Part.Best (p : Part) (i : PumpId) (r : Request) : Prop where
  mem : r ∈ (p.pumps.get i).requests
  eligible : p.eligible r = true
  before : ∀ t ∈ (p.pumps.get i).requests, p.eligible t = true → t ≠ r →
    t.priority < r.priority ∨ t.priority = r.priority ∧ 1 ≤ (t.order + 4294967296 - r.order) % 4294967296
      ∧ (t.order + 4294967296 - r.order) % 4294967296 ≤ 2147483647

/-- The arbitration takes the eligible request of highest level and earliest order (05 R94, R95). -/
theorem Part.nextGrantee_best (p : Part) (i r) (hb : p.Best i r) (ho : ∀ t ∈ (p.pumps.get i).requests, t.order < 4294967296) (hl
    : (p.pumps.get i).grants.length < p.limit i) :
   p.nextGrantee i = some r := by
  unfold Part.nextGrantee
  rw [if_pos hl]
  obtain ⟨h1, h2, h3⟩ := hb
  have hro := ho r h1
  refine grantOrder_head _ r (List.mem_filter.mpr ⟨h1, h2⟩) fun t ht hne => ?_
  obtain ⟨a, b⟩ := List.mem_filter.mp ht
  have hto := ho t a
  unfold grantBefore orderBefore
  have e1 : t.order % 4294967296 = t.order := Nat.mod_eq_of_lt hto
  have e2 : r.order % 4294967296 = r.order := Nat.mod_eq_of_lt hro
  simp only [e1, e2]
  rcases h3 t a b hne with h | ⟨h, h', h''⟩
  · have : ¬ r.priority < t.priority := by omega
    have : ¬ t.priority = r.priority := by omega
    simp [*]
  · have z : ¬ t.priority < r.priority := by omega
    have z' : ¬ r.priority < t.priority := by omega
    simp only [h, lt_irrefl, decide_false, beq_self_eq_true, Bool.true_and, Bool.false_or]
    constructor
    · simp [h', h'']
    · rw [Bool.and_eq_false_iff]
      right
      simp only [decide_eq_false_iff_not]
      omega

/-- A full grant set takes no grant (05 R95). -/
theorem Part.nextGrantee_full (p : Part) (i) (hl : p.limit i ≤ (p.pumps.get i).grants.length) : p.nextGrantee i = none := by
  unfold Part.nextGrantee; rw [if_neg (by omega)]

/-- With no eligible request there is no grant (05 R95). -/
theorem Part.nextGrantee_none (p : Part) (i) (h : ∀ t ∈ (p.pumps.get i).requests, p.eligible t = false) : p.nextGrantee i = none := by
  unfold Part.nextGrantee
  split
  · rw [List.filter_eq_nil_iff.mpr fun t ht => by rw [h t ht]; decide]; rfl
  · rfl

/-- What a grant does to the pumps (05 R95, R96). -/
theorem Part.grantPump_get (p : Part) (i r j) : ((p.grantPump i r).pumps.get j) = if j = i then
   { p.pumps.get i with requests := (p.pumps.get i).requests.filter fun q => !(q.hose == r.hose)
                        grants := (p.pumps.get i).grants ++ [r.hose]
                        state := if (p.pumps.get i).state = .rundown then .running else (p.pumps.get i).state
                        rundown := if (p.pumps.get i).state = .rundown then none else (p.pumps.get i).rundown } else p.pumps.get j := by
  cases i <;> cases j <;> rfl

theorem Part.wakePump_awake (p : Part) (i) (h : (p.pumps.get i).state ≠ .stopped) : p.wakePump i = p := by
  unfold Part.wakePump; rw [if_neg (fun h' => h h'.1)]

theorem Part.wakePump_none (p : Part) (i) (h : (p.pumps.get i).requests = []) : p.wakePump i = p := by
  unfold Part.wakePump; rw [if_neg]; simp [h]

theorem grantLoop_none (p : Part) (i n l) (h : p.nextGrantee i = none) : grantLoop i n p l = (p, l) := by
  cases n with
  | zero => rfl
  | succ n => unfold grantLoop; rw [h]; split <;> rfl

theorem Part.nextGrantee_nil (p : Part) (i) (h : (p.pumps.get i).requests = []) : p.nextGrantee i = none := Part.nextGrantee_none
    p i (by simp [h])

/-- The arbitration with one place free at one pump: one grant, whose hose starts its flow unless the pump is priming (05 R95, R96). -/
theorem Part.arbitrate_one (p : Part) (i : PumpId) (r : Request) (hc : p.inputsClear) (hst : (p.pumps.get i).state ≠ .stopped)
    (hn : p.nextGrantee i = some r)
   (hfull : (p.pumps.get i).grants.length + 1 = p.limit i) (ho : ∀ j, j ≠ i → (p.pumps.get j).requests = []) :
   p.arbitrate = (p.grantPump i r, if (p.pumps.get i).state = .priming then [] else [r.hose]) := by
  have full : (p.grantPump i r).nextGrantee i = none := Part.nextGrantee_full _ _ (by
    have : (p.grantPump i r).limit i = p.limit i := rfl
    rw [this, Part.grantPump_get, if_pos rfl]; simp; omega)
  have step : ∀ l, grantLoop i 4 p l = (p.grantPump i r, if (p.pumps.get i).state = .priming then l else r.hose :: l) := by
    intro l
    rw [show (4 : Nat) = 3 + 1 from rfl]
    unfold grantLoop
    rw [if_neg hst, hn]
    simp only
    rw [grantLoop_none _ _ _ _ full]
  unfold Part.arbitrate
  rw [hc.1, hc.2]
  simp only [Bool.or_self, Bool.false_eq_true, if_false]
  have w : (p.wakePump .p1).wakePump .p2 = p := by
    cases i
    · rw [Part.wakePump_awake _ _ hst, Part.wakePump_none _ _ (ho _ (by decide))]
    · rw [Part.wakePump_none _ _ (ho _ (by decide)), Part.wakePump_awake _ _ hst]
  rw [w]
  cases i
  · rw [step]
    exact grantLoop_none _ _ _ _ (Part.nextGrantee_nil _ _ (by rw [Part.grantPump_get, if_neg (by decide)]; exact ho _ (by decide)))
  · rw [grantLoop_none _ _ _ _ (Part.nextGrantee_nil _ _ (ho _ (by decide)))]
    exact step _

/-- With every place taken, and no request at the other pump, the arbitration grants nothing. -/
theorem Part.arbitrate_full (p : Part) (i : PumpId) (hst : (p.pumps.get i).state ≠ .stopped) 
   (hfull : p.limit i ≤ (p.pumps.get i).grants.length) (ho : ∀ j, j ≠ i → (p.pumps.get j).requests = []) :
   p.arbitrate = (p, []) := by
  unfold Part.arbitrate
  split
  · rfl
  · have w : (p.wakePump .p1).wakePump .p2 = p := by
      cases i
      · rw [Part.wakePump_awake _ _ hst, Part.wakePump_none _ _ (ho _ (by decide))]
      · rw [Part.wakePump_none _ _ (ho _ (by decide)), Part.wakePump_awake _ _ hst]
    rw [w]
    have hn := Part.nextGrantee_full p i hfull
    cases i
    · simp only; rw [grantLoop_none _ _ _ _ hn]; exact grantLoop_none _ _ _ _ (Part.nextGrantee_nil _ _ (ho _ (by decide)))
    · simp only; rw [grantLoop_none _ _ _ _ (Part.nextGrantee_nil _ _ (ho _ (by decide)))]; exact grantLoop_none _ _ _ _ hn

theorem Part.restPump_id (p : Part) (h : ∀ j, (p.pumps.get j).state = .running → (p.pumps.get j).grants ≠ []) (i) : p.restPump i
    = p := by
  unfold Part.restPump; rw [if_neg]; exact fun hs => h i hs.1 hs.2

theorem Part.pumps_offer (p : Part) (n : Notice) (y : Bool) : (p.offer n y).pumps = p.pumps := by rw [Part.offer_shape]; simp

theorem pumps_finish (b p : Part) : (finish b p).pumps = p.pumps := by
  unfold finish Part.offerStock; split
  · rfl
  · split
    · rw [Part.pumps_offer]
    · rfl

/-- A stop before flow withdraws the request and releases the grant (05 R94, R96). -/
theorem Part.pumps_stopBeforeFlow (p : Part) (h : HoseId) (c : Cause) {x : Context} (hx : (p.hose h).context = some x) :
   (p.stopBeforeFlow h c).pumps = ((p.withdraw h).dropGrant h).pumps := by
  have el : ∀ (q : Part) x, (q.endLoadout x).pumps = q.pumps := by
    intro q x; unfold Part.endLoadout; split <;> simp
  have dc : ∀ (q : Part), (q.dropClaim h).pumps = q.pumps := by
    intro q; unfold Part.dropClaim Part.offerClosing; split
    · rw [Part.pumps_offer]; simp
    · rfl
  unfold Part.stopBeforeFlow
  rw [hx]
  simp only [Part.pumps_drainTest, el, dc, Part.pumps_modHose, Part.superviseOff, Part.pumps_modReader, Part.pumps_modValves,
      Part.pumps_returnSlot]
  rfl

/-- The requests to the log leave the pumps alone. -/
theorem Part.pumps_joinRequests (b p : Part) : (b.joinRequests p).pumps = p.pumps := by
  unfold Part.joinRequests
  induction allHoses generalizing p with
  | nil => rfl
  | cons h t ih =>
    rw [List.foldl_cons, ih]
    unfold Part.joinRequest
    split
    · unfold Part.queueOpening; split <;> rfl
    · split
      · unfold Part.queueCheckpoint Part.checkpoint; dsimp only; repeat' split
        all_goals rfl
      · rfl

/-- Of a hose the requests to the log change the context alone. -/
theorem Part.shell_joinRequests (b p : Part) (k) : { (b.joinRequests p).hose k with context := none } = { p.hose k with context
    := none } := by
  unfold Part.joinRequests
  induction allHoses generalizing p with
  | nil => rfl
  | cons h t ih =>
    rw [List.foldl_cons, ih]
    unfold Part.joinRequest
    split
    · by_cases hk : k = h
      · subst hk
        unfold Part.queueOpening; split
        · rfl
        · simp [Part.takeSequence, Part.joinWrite]
      · rw [Part.hose_queueOpening_ne _ hk]
    · split
      · rw [Part.hose_queueCheckpoint]
      · rfl

/-- The start of flow with an active preset above 0 and the trim valve closed: TRIM, FLOWING, the metering window open (05 R83). -/
theorem Part.startFlow_trim (p : Part) (h : HoseId) (st : HoseSettings) (y : Context) (hd : (p.hose h).dsc = .awaitPump) (hs :
    p.hoseSettings h = some st)
   (hy : (p.hose h).context = some y) (hp : (p.hose h).valves.phase = .shut) (hn : (p.hose h).valves.pending = none) (ha : 0 <
       (p.hose h).valves.active)
   (hv : (p.hose h).valves.trim.switch = .closed) :
   (p.startFlow h).pumps = p.pumps ∧ ((p.startFlow h).hose h).dsc = .flowing ∧ ((p.startFlow h).hose h).valves.phase = .trim
   ∧ ((p.startFlow h).hose h).meter.window = true ∧ ((p.startFlow h).hose h).pumpWait = none := by
  unfold Part.startFlow
  rw [hd, hs, hy]
  simp only
  generalize hQ : (p.modHose h fun u =>
      { u with
        valves := u.valves.load.enter p.now (some st.settleTime) .trim
        dsc := .flowing
        pumpWait := none
        meter := u.meter.openWindow p.now st.noFlowTime
        context := some { y with startTime := some (y.authTime + y.elapsed), elapsedAtFlow := y.elapsed } }) = Q
  have Qv : (Q.hose h).valves = (p.hose h).valves.enter p.now (some st.settleTime) .trim := by
    rw [← hQ]; simp [Vsq.load, hn]
  have Qd : (Q.hose h).dsc = .flowing := by rw [← hQ]; simp
  have Qm : (Q.hose h).meter = (p.hose h).meter.openWindow p.now st.noFlowTime := by rw [← hQ]; simp
  have Qw : (Q.hose h).pumpWait = none := by rw [← hQ]; simp
  have Qp : Q.pumps = p.pumps := by rw [← hQ]; rfl
  have Qs : Q.hoseSettings h = some st := by rw [← hs, ← hQ]; rfl
  have Qph : (Q.hose h).valves.phase = .trim := by rw [Qv]; rfl
  have e : Q.moveValves h = Q := by
    unfold Part.moveValves
    rw [Qs]
    have : (Q.hose h).valves.move st (Q.hose h).meter.gross = ((Q.hose h).valves, .trim) := by
      unfold Vsq.move
      rw [Qph]
      simp only
      rw [if_neg, if_neg]
      · rw [Qv]
        have : ((p.hose h).valves.enter p.now (some st.settleTime) .trim).trim.switch = (p.hose h).valves.trim.switch := by
          unfold Vsq.enter; dsimp only; split <;> rfl
        rw [this, hv]; simp
      · rw [Qv, Qm]
        have : ((p.hose h).valves.enter p.now (some st.settleTime) .trim).active = (p.hose h).valves.active := rfl
        rw [this]; simp [Meter.openWindow]; omega
    simp only [this]
    rw [if_pos Qph.symm]
    cases h <;> rfl
  rw [e]
  exact ⟨Qp, Qd, Qph, by rw [Qm]; rfl, Qw⟩

theorem Part.startFlows_one (p : Part) (h) : p.startFlows [h] = p.startFlow h := by
  unfold Part.startFlows
  simp only [allHoses, List.foldl_cons, List.foldl_nil, List.mem_singleton]
  cases h <;> simp

theorem ByPump.get_set_pump (m : ByPump Pump) (i j) (a : Pump) : (m.set i a).get j = if j = i then a else m.get j := by cases i
    <;> cases j <;> rfl

/-- The pumps settlePumps_release one hose has left the grant set of its pump. -/
theorem Part.dropGrant_pumps (p : Part) (i : PumpId) (h : HoseId) (fore back : List HoseId) (hj : ∀ j, j ≠ i → h ∉ (p.pumps.get
    j).grants)
   (hg : (p.pumps.get i).grants = fore ++ h :: back) (hn : h ∉ fore ++ back) : (p.dropGrant h).pumps = p.pumps.set i {
       p.pumps.get i with grants := fore ++ back } := by
  have e : (fore ++ h :: back).filter (fun g => !(g == h)) = fore ++ back := by
    rw [List.filter_append, List.filter_cons, if_neg (by simp), ← List.filter_append, List.filter_eq_self]
    intro a ha
    have : a ≠ h := fun hh => hn (hh ▸ ha)
    simp [this]
  have f : ∀ j, j ≠ i → (p.pumps.get j).grants.filter (fun g => !(g == h)) = (p.pumps.get j).grants := by
    intro j hji
    rw [List.filter_eq_self]; intro a ha
    have : a ≠ h := fun hh => hj j hji (hh ▸ ha)
    simp [this]
  cases i
  · have := f .p2 (by decide)
    simp only [ByPump.get] at this hg
    simp [Part.dropGrant, ByPump.set, ByPump.get, this, hg, e]
  · have := f .p1 (by decide)
    simp only [ByPump.get] at this hg
    simp [Part.dropGrant, ByPump.set, ByPump.get, this, hg, e]

theorem Part.withdraw_id (p : Part) (h : HoseId) (hr : ∀ i, ∀ t ∈ (p.pumps.get i).requests, t.hose ≠ h) : p.withdraw h = p := by
  have f : ∀ i, (p.pumps.get i).requests.filter (fun r => !(r.hose == h)) = (p.pumps.get i).requests := by
    intro i; rw [List.filter_eq_self]; intro a ha; simp [hr i a ha]
  have f1 := f .p1; have f2 := f .p2
  simp only [ByPump.get] at f1 f2
  unfold Part.withdraw; rw [f1, f2]; rfl

/-- The end of an event that has freed one place of a PRIMING or RUNNING pump: the best request is granted, and on a RUNNING pump
its flow starts (05 R95, R96). -/
theorem settlePumps_release (p : Part) (i : PumpId) (r : Request) (hc : p.inputsClear) (hst : (p.pumps.get i).state = .priming ∨
    (p.pumps.get i).state = .running)
   (hl : (p.pumps.get i).grants.length + 1 = p.limit i) (hb : p.nextGrantee i = some r)
   (ho : ∀ j, j ≠ i → (p.pumps.get j).requests = [] ∧ ((p.pumps.get j).state = .running → (p.pumps.get j).grants ≠ [])) :
   ((p.pumps.get i).state = .priming → settlePumps 5 p = p.grantPump i r)
   ∧ ((p.pumps.get i).state = .running → ((p.grantPump i r).startFlow r.hose).pumps = (p.grantPump i r).pumps → settlePumps 5 p =
       (p.grantPump i r).startFlow r.hose) := by
  have hne : (p.pumps.get i).state ≠ .stopped := by rcases hst with h | h <;> rw [h] <;> decide
  have ha := Part.arbitrate_one p i r hc hne hb hl (fun j hj => (ho j hj).1)
  have rest : ∀ q : Part, q.pumps = (p.grantPump i r).pumps → ∀ i, q.restPump i = q := by
    intro q hq
    refine Part.restPump_id q fun j => ?_
    rw [hq, Part.grantPump_get]
    split
    · intro _; simp
    · rename_i hj; exact (ho j hj).2
  refine ⟨fun hs => ?_, fun hs hp => ?_⟩
  · rw [show (5 : Nat) = 4 + 1 from rfl]
    unfold settlePumps
    rw [ha, hs]
    simp only [if_true]
    rw [rest _ rfl, rest _ rfl]
  · rw [show (5 : Nat) = 4 + 1 from rfl]
    unfold settlePumps
    rw [ha, hs]
    simp only [reduceCtorEq, if_false, List.cons_ne_self]
    rw [Part.startFlows_one]
    generalize hq : (p.grantPump i r).startFlow r.hose = q at hp ⊢
    have hf : q.arbitrate = (q, []) := by
      refine Part.arbitrate_full q i ?_ ?_ ?_
      · rw [hp, Part.grantPump_get, if_pos rfl, hs]; simp
      · have : q.limit i = p.limit i := by
          rw [← hq]; unfold Part.limit
          rw [Part.identity_of_cfl ((Stays.refl (free := True)).startFlow trivial r.hose).cfl_eq]; rfl
        rw [this, hp, Part.grantPump_get, if_pos rfl]; simp; omega
      · intro j hj; rw [hp, Part.grantPump_get, if_neg hj]; exact (ho j hj).1
    rw [show (4 : Nat) = 3 + 1 from rfl]
    unfold settlePumps
    rw [hf]
    simp only [if_true]
    rw [rest q hp, rest q hp]

theorem Part.grantPump_pumps (p : Part) (i r) (hs : (p.pumps.get i).state = .priming ∨ (p.pumps.get i).state = .running) :
    (p.grantPump i r).pumps = p.pumps.set i { p.pumps.get i with
     requests := (p.pumps.get i).requests.filter fun q => !(q.hose == r.hose), grants := (p.pumps.get i).grants ++ [r.hose] } := by
  have : (p.pumps.get i).state ≠ .rundown := by rcases hs with h | h <;> rw [h] <;> decide
  cases i <;> simp only [ByPump.get] at this <;> simp [Part.grantPump, Part.modPump, Part.setPumps, ByPump.get, ByPump.set, this]

end Sys2Proof.Machine
end

