-- ==== Sys2Proof/Laws/Authorise.lean ====
section
/-! SUPPORT. What an authorisation does (03 R56). -/

namespace Sys2Proof.Machine

open Sys2Proof

/-- The claim number an authorisation takes (03 R48) is 1 to 65535. -/
theorem nextClaim_pos (held : List Nat) (fuel n : Nat) : 1 ≤ nextClaim held (fuel + 1) n := by
  induction fuel generalizing n with
  | zero =>
    unfold nextClaim
    by_cases hb : n = 65535
    · simp only [hb, if_true]; split <;> simp [nextClaim]
    · simp only [hb, if_false]; split <;> simp [nextClaim]
  | succ k ih =>
    rw [nextClaim]
    by_cases hb : n = 65535
    · simp only [hb, if_true]; split
      · exact ih _
      · omega
    · simp only [hb, if_false]; split
      · exact ih _
      · omega

/-- An entry without an inlet begins no loadout. -/
theorem Part.beginLoadout_of_inlet (p : Part) {e : MachineEntry} (he : e.inlet = none) : p.beginLoadout e = (p, 0) := by
  unfold Part.beginLoadout
  rw [he]
  cases p.role with
  | none => rfl
  | some r => cases r <;> rfl

/-- What an authorisation that issues a claim does (03 R56), for an entry without an inlet. -/
theorem Part.authorise_claimed (p : Part) (h : HoseId) (st : HoseSettings) (method : EntryMethod) (i : Nat) (m : MachineRow)
    (slot preset : Nat) (hc : p.needsClaim m.entry = true) (hin : m.entry.inlet = none) :
    let q := p.authorise h st method i m slot preset
    q.alc = { p.alc with claimCounter := nextClaim p.ownNumbers 5 p.alc.claimCounter }
      ∧ (∃ x : Context, q.hose h =
          { p.hose h with
            dsc := .authorising, context := some x, standing := none, holdOff := some (p.now + 200000)
            claim := some
              { number := q.alc.claimCounter, machine := m.entry.number, account := m.entry.account, status := .active
                renewal := some (p.now + 3000000) }
            valves := { (p.hose h).valves with active := preset, pending := none }
            reader := match method with
              | .tag => { (p.hose h).reader with supervised := some m.entry.tag, grace := none }
              | .keyed => (p.hose h).reader }
          ∧ x.position = i ∧ x.machine = m.entry.number ∧ x.account = m.entry.account ∧ x.method = method ∧ x.preset = preset
          ∧ x.claim = q.alc.claimCounter ∧ x.shift = p.alc.shift ∧ x.slot = slot ∧ x.compartment = st.compartment
          ∧ x.sequence = none ∧ x.metered = 0 ∧ x.cause = none ∧ x.startTime = none)
      ∧ (∀ k, k ≠ h → q.hose k = p.hose k)
      ∧ q.tlg = { p.tlg with slots := p.tlg.slots.modify slot fun u =>
          { u with state := .reserved, opening := none, closing := none } }
      ∧ q.cnl.response = p.cnl.response
      ∧ (q.pumps, q.machines, q.inv, q.totals, q.rsc, q.cfl, q.pins) = (p.pumps, p.machines, p.inv, p.totals, p.rsc, p.cfl, p.pins) := by
  have hn : nextClaim p.ownNumbers 5 p.alc.claimCounter ≠ 0 := Nat.one_le_iff_ne_zero.1 (nextClaim_pos _ 4 _)
  generalize hr : (p.modSlot slot fun s => { s with state := .reserved, opening := none, closing := none }) = r
  generalize hx : ((r.setAlc { p.alc with claimCounter := nextClaim p.ownNumbers 5 p.alc.claimCounter }).modHose h fun u =>
    { u with
      claim := some
        { number := nextClaim p.ownNumbers 5 p.alc.claimCounter, machine := m.entry.number, account := m.entry.account
          status := .active, renewal := p.after (sec 30) }
      holdOff := p.after (sec 2) }) = x
  have issue : r.issueClaim h m.entry preset =
      (x.offerClaim p.alc.shift m.entry.number (nextClaim p.ownNumbers 5 p.alc.claimCounter) preset,
        nextClaim p.ownNumbers 5 p.alc.claimCounter) := by
    rw [← hx, ← hr]
    unfold Part.issueClaim
    rw [if_pos (show (p.modSlot slot _).needsClaim m.entry = true from hc)]
    rfl
  rw [Part.offerClaim_shape] at issue
  generalize (x.offerClaim p.alc.shift m.entry.number (nextClaim p.ownNumbers 5 p.alc.claimCounter) preset).snc = snc at issue
  generalize (x.offerClaim p.alc.shift m.entry.number (nextClaim p.ownNumbers 5 p.alc.claimCounter) preset).cnl = cnl at issue
  unfold Part.authorise
  dsimp only
  rw [hr, issue]
  dsimp only
  simp only [Part.beginLoadout_of_inlet _ hin]
  rw [if_neg hn]
  subst hx hr
  refine ⟨by simp, ?_, ?_, ?_, ?_, ?_⟩
  · cases method <;> simp [sec, Part.after]
  · intro k hk; simp [Part.hose_modHose_ne _ _ hk, Part.modValves, Part.modSlot]
  · simp [Part.modSlot]
  · simp [Part.modSlot]
  · simp [Part.modSlot]

end Sys2Proof.Machine
end

