-- ==== Sys2Proof/Laws/Commands.lean ====
section
/-! SUPPORT. What the operations of the commands can move: one lemma for each operation that Stays does not cover. -/

namespace Sys2Proof.Machine

open Sys2Proof

namespace Moves

variable {free : Prop} {p q : Part}

theorem modHose (hq : Moves free p q) (h : HoseId) (f : Hose → Hose)
    (hf : (f (q.hose h)).valves.phase = (q.hose h).valves.phase) : Moves free p (q.modHose h f) :=
  hq.stays (Stays.refl.modHose h f (by rw [hf]; exact Or.inl))

theorem modMeter (hq : Moves free p q) (h : HoseId) (f : Meter → Meter) : Moves free p (q.modMeter h f) :=
  hq.stays (Stays.refl.modMeter h f)

theorem modReader (hq : Moves free p q) (h : HoseId) (f : Reader → Reader) : Moves free p (q.modReader h f) :=
  hq.stays (Stays.refl.modReader h f)

theorem ite {c : Prop} [Decidable c] {x y : Part} (hx : Moves free p x) (hy : Moves free p y) :
    Moves free p (if c then x else y) := by
  split
  · exact hx
  · exact hy

/-- A fold over the hoses of an operation that moves. -/
theorem foldHoses (hq : Moves free p q) (l : List HoseId) (f : Part → HoseId → Part)
    (hf : ∀ r h, Moves free p r → Moves free p (f r h)) : Moves free p (l.foldl f q) := by
  induction l generalizing q with
  | nil => exact hq
  | cons h t ih => exact ih (hf q h hq)

/-! ## 04 A step of the meter -/

theorem meterOut (hq : Moves free p q) (h : HoseId) (d : Int) : Moves free p (q.meterOut h d) := by
  unfold Part.meterOut
  split
  · exact hq.modComp _ _
  · exact hq

theorem reachBoundary (hq : Moves free p q) (h : HoseId) : Moves free p (q.reachBoundary h) := hq.modMeter h _

theorem handOver (hq : Moves free p q) (h : HoseId) (st : HoseSettings) (g : Nat) : Moves free p (q.handOver h st g) := by
  unfold Part.handOver
  simp only []
  refine Moves.stays ?_ (Stays.refl.moveValves h)
  refine Moves.stays ?_ (Stays.refl.modValves h _ fun hf => Or.inl ?_)
  · exact ((((hq.modMeter h _).stays (Stays.refl.modContext h _)).meterOut h _).reachBoundary h)
  · rwa [Stays.loadIfDue_phase, Stays.loadAtHundred_phase] at hf

theorem regross (hq : Moves free p q) (h : HoseId) (st : HoseSettings) : Moves free p (q.regross h st) := by
  unfold Part.regross
  simp only []
  split
  · exact hq
  · exact hq.handOver h st _

theorem meterFault (hq : Moves free p q) (h : HoseId) : Moves free p (q.meterFault h) := by
  unfold Part.meterFault
  split
  · exact hq.takeCause h _
  · exact hq.takeCause h _
  · exact hq

theorem reverseTest (hq : Moves free p q) (h : HoseId) (st : HoseSettings) : Moves free p (q.reverseTest h st) := by
  unfold Part.reverseTest
  simp only []
  split
  · exact (hq.modMeter h _).meterFault h
  · exact hq

theorem goodStep (hq : Moves free p q) (h : HoseId) (st : HoseSettings) (c : StepClass) : Moves free p (q.goodStep h st c) := by
  unfold Part.goodStep
  simp only []
  split
  · split
    · exact ((hq.modMeter h _).modMeter h _).regross h st
    · exact (((hq.modMeter h _).modMeter h _).regross h st).reverseTest h st
  · split
    · exact ((((hq.modMeter h _).modMeter h _).event _).modMeter h _)
    · exact (hq.modMeter h _).modMeter h _

theorem errorStep (hq : Moves free p q) (h : HoseId) : Moves free p (q.errorStep h) := by
  unfold Part.errorStep
  simp only []
  split
  · exact (hq.modMeter h _).meterFault h
  · exact hq.modMeter h _

theorem decode (hq : Moves free p q) (h : HoseId) (st : HoseSettings) (a b : Bool) : Moves free p (q.decode h st a b) := by
  unfold Part.decode
  simp only []
  split
  · exact hq
  · exact (hq.modMeter h _).errorStep h
  · exact (hq.modMeter h _).goodStep h st _
  · exact (hq.modMeter h _).goodStep h st _

/-! ## 08 A sample event -/

theorem handTemperatures (hq : Moves free p q) : Moves free p q.handTemperatures := by
  unfold Part.handTemperatures
  refine hq.foldHoses _ _ fun r h hr => ?_
  split
  · exact hr.modMeter h _
  · exact hr

theorem stopLow (hq : Moves free p q) (c : CompId) : Moves free p (q.stopLow c) := by
  unfold Part.stopLow
  refine hq.foldHoses _ _ fun r h hr => ?_
  split
  · exact hr.takeCause h _
  · exact hr

theorem lowTest (hq : Moves free p q) (c : CompId) (st : CompSettings) : Moves free p (q.lowTest c st) := by
  unfold Part.lowTest
  split
  · exact hq
  · split
    · split
      · exact (hq.modComp c _).event _
      · exact hq
    · split
      · exact ((hq.modComp c _).stopLow c).event _
      · exact hq

theorem recordVariance (hq : Moves free p q) (c : CompId) : Moves free p (q.recordVariance c) := by
  unfold Part.recordVariance
  exact ((hq.stays (Stays.refl.wholeRecord _ _ _)).event _).modComp c _

theorem varianceTest (hq : Moves free p q) (c : CompId) (st : CompSettings) (n : Nat) : Moves free p (q.varianceTest c st n) := by
  unfold Part.varianceTest
  split
  · split
    · exact hq.modComp c _
    · exact hq
  · split
    · exact hq.recordVariance c
    · exact hq

theorem stockTests (hq : Moves free p q) (c : CompId) (st : CompSettings) : Moves free p (q.stockTests c st) := by
  unfold Part.stockTests
  simp only []
  split
  · split
    · split
      · exact ((hq.modComp c _).modComp c _).recordVariance c
      · exact ((hq.modComp c _).modComp c _).varianceTest c st _
    · exact (hq.modComp c _).varianceTest c st _
  · exact hq

theorem restockTrigger (hq : Moves free p q) (s : Settings) : Moves free p (q.restockTrigger s) := by
  unfold Part.restockTrigger
  split
  · simp only []
    split
    · exact (hq.setRestocking _ (by rfl) (by rfl)).stays Stays.refl.enterDraining
    · exact hq.setRestocking _ (by rfl) (by rfl)
  · exact hq

theorem takeSample (hq : Moves free p q) (r : Readings) : Moves free p (q.takeSample r) := by
  unfold Part.takeSample
  split
  · exact hq
  · exact ((((hq.modComp .a _).modComp .b _).handTemperatures).lowTest .a _).lowTest .b _

theorem testSample (hq : Moves free p q) : Moves free p q.testSample := by
  unfold Part.testSample
  split
  · exact hq
  · exact ((hq.stockTests .a _).stockTests .b _).restockTrigger _

/-! ## 03 and 02 Notices of the allotment controller, and holds -/

theorem adopt (hq : Moves free p q) (n : Nat) : Moves free p (q.adopt n) := by
  unfold Part.adopt
  refine Moves.event ?_ _
  refine hq.trans ?_
  refine { Moves.refl with flow := fun h hf => Or.inl ?_, totals := fun hl => ?_, claims := fun hb => ?_ }
  · cases h <;> exact hf
  · simpa using hl
  · exact hb.sublist (List.nil_sublist _)

theorem compareShift (hq : Moves free p q) (n : Nat) : Moves free p (q.compareShift n).1 := by
  unfold Part.compareShift
  split
  · exact hq.setSnc _ id id id
  · split
    · exact hq.adopt n
    · exact hq

theorem removeClaim (hq : Moves free p q) (a b : Nat) : Moves free p (q.removeClaim a b) :=
  hq.setAlc _ fun hb => hb.sublist List.filter_sublist

theorem placeClaim (hq : Moves free p q) (a b c d e : Nat) (ha : 1 ≤ a ∧ a ≤ 14) : Moves free p (q.placeClaim a b c d e) := by
  have hs : q.placeClaim a b c d e = q.setAlc (q.placeClaim a b c d e).alc := by
    unfold Part.placeClaim
    dsimp only
    split <;> rfl
  rw [hs]
  exact hq.setAlc _ fun hb => Part.placeClaim_bounded hb a b c d e ha

theorem runCuts (hq : Moves free p q) (e : Option HoseId) (m a : Nat) : Moves free p (q.runCuts e m a) :=
  hq.stays (Stays.refl.runCuts e m a)

theorem takeClaim (hq : Moves free p q) (a b c d : Nat) (ha : 1 ≤ a ∧ a ≤ 14) : Moves free p (q.takeClaim a b c d) := by
  unfold Part.takeClaim
  split
  · exact hq
  · split
    · exact hq
    · simp only []
      split
      · exact (hq.placeClaim _ _ _ _ _ ha).runCuts _ _ _
      · exact hq.placeClaim _ _ _ _ _ ha

theorem takeTally (hq : Moves free p q) (a b c d : Nat) : Moves free p (q.takeTally a b c d) := by
  unfold Part.takeTally
  split
  · exact hq
  · split
    · exact hq
    · simp only []
      repeat' split
      all_goals first
        | exact hq
        | exact hq.modMachine _ _
        | exact hq.removeClaim _ _
        | exact (hq.modMachine _ _).removeClaim _ _
        | exact (hq.modMachine _ _).runCuts _ _ _
        | exact ((hq.modMachine _ _).removeClaim _ _).runCuts _ _ _

theorem holdStops (hq : Moves free p q) (i : Nat) : Moves free p (q.holdStops i) := by
  unfold Part.holdStops
  refine hq.foldHoses _ _ fun r h hr => ?_
  split
  · split
    · exact hr.takeCause h _
    · exact hr
  · exact hr

theorem takeHold (hq : Moves free p q) (a b c d e : Nat) : Moves free p (q.takeHold a b c d e) := by
  unfold Part.takeHold
  split
  · exact hq
  · split
    · exact hq
    · split
      · exact hq
      · split
        · exact ite ((ite (hq.modMachine _ _) ((hq.modMachine _ _).event _)).holdStops _)
            (ite (hq.modMachine _ _) ((hq.modMachine _ _).event _))
        · exact hq

theorem setHold (hq : Moves free p q) (i : Nat) (a : Bool) (b : Nat) : Moves free p (q.setHold i a b) := by
  unfold Part.setHold
  split
  · exact hq
  · simp only []
    split
    · exact ((hq.modMachine _ _).offer _ _).holdStops _
    · exact (hq.modMachine _ _).offer _ _

/-! ## 09 Notices of the restock coordinator -/

theorem setRestock (hq : Moves free p q) (s : RestockState) : Moves free p (q.setRestock s) := hq.stays (Stays.refl.setRestock s)

theorem takeBaygrant (hq : Moves free p q) (a b c d e : Nat) : Moves free p (q.takeBaygrant a b c d e) := by
  unfold Part.takeBaygrant
  split
  · exact hq
  · split
    · exact hq
    · split
      · split
        · exact ((hq.setRestocking _ (by rfl) (by rfl)).setRestock _).event _
        · split
          · exact hq
          · exact (hq.setRestocking _ (by rfl) (by rfl)).event _
        · exact hq
        · exact hq
        · exact hq
      · split
        · split
          · exact (hq.setRestocking _ (by rfl) (by rfl)).stays Stays.refl.enterRequested
          · exact hq
        · exact hq

theorem receiveLoad (hq : Moves free p q) (c : CompId) : Moves free p (q.receiveLoad c) := by
  unfold Part.receiveLoad
  simp only []
  split
  · exact (hq.setRestocking _ (by rfl) (by rfl)).stays Stays.refl.returnNormal
  · split
    · exact (hq.setRestocking _ (by rfl) (by rfl)).setRestock _
    · exact hq.setRestocking _ (by rfl) (by rfl)

theorem takeLoadnote (hq : Moves free p q) (a b c d e f : Nat) : Moves free p (q.takeLoadnote a b c d e f) := by
  unfold Part.takeLoadnote
  split
  · split
    · exact hq
    · simp only []
      split
      · exact (((hq.modComp _ _).stays (Stays.refl.wholeRecord _ _ _)).event _).receiveLoad _
      · exact ((hq.modComp _ _).stays (Stays.refl.wholeRecord _ _ _)).event _
  · exact hq

/-- A station without a bay is among no holders. -/
theorem bayOf_none {n : Nat} (hb : q.bayOf n = none) : n ∉ q.rsc.holders := by
  unfold Part.bayOf at hb
  split at hb
  · cases hb
  · split at hb
    · cases hb
    · rename_i h1 h2
      intro hm
      obtain ⟨b, _, hx⟩ := List.mem_filterMap.mp hm
      cases b
      · exact h1 hx
      · exact h2 hx

theorem removeStation (hq : Moves free p q) (n : Nat) : Moves free p (q.removeStation n) := hq.stays (Stays.refl.removeStation n)

theorem takeBayreq (hq : Moves free p q) (a b c d e : Nat) (ha : 1 ≤ a ∧ a ≤ 14) (hown : a ≠ q.station) :
    Moves free p (q.takeBayreq a b c d e) := by
  unfold Part.takeBayreq
  split
  · exact hq
  · rename_i hrole
    split
    · exact hq.removeStation _
    · split
      · split
        · exact hq
        · rename_i x hx
          refine (hq.stays (Stays.refl.setBay _ _ fun y hy => ?_)).offer _ _
          cases hy
          rw [hx]
          rfl
      · rename_i hbay
        split
        · rename_i x hx
          refine hq.setRsc _ fun _ hb => ?_
          have hs : x.station = a := by simpa using List.find?_some hx
          exact hb.requeue { x with urgency := d, spaces := ⟨b, c⟩ } (List.mem_of_find?_eq_some hx) rfl (by rw [hs]) rfl
        · rename_i hx
          refine Moves.stays ?_ (Stays.refl.grantStep 2)
          refine hq.setRsc _ fun hc hb => hb.insert _ ?_ ?_ ?_ rfl rfl
          · have hset : q.cfl.settings ≠ none := by
              intro hn
              exact hrole (Or.inl (by simp [Part.role, hn]))
            obtain ⟨n, hn⟩ := Option.ne_none_iff_exists'.mp (hc.settings hset)
            rw [Part.station, hn]
            exact hc.station n hn
          · exact ⟨ha.1, ha.2, hown⟩
          · intro hm
            rcases List.mem_append.mp hm with h | h
            · obtain ⟨f, hf, hfs⟩ := List.mem_map.mp h
              have := List.find?_eq_none.mp hx f hf
              simp [hfs] at this
            · exact bayOf_none hbay h

theorem takeStock (hq : Moves free p q) (a b : Nat) : Moves free p (q.takeStock a b) := by
  unfold Part.takeStock
  split
  · exact hq.removeStation _
  · exact hq

theorem silent (hq : Moves free p q) (n : Nat) : Moves free p (q.silent n) := by
  unfold Part.silent
  split
  · exact hq
  · split
    · exact hq.removeStation _
    · split
      · exact (hq.setRestocking _ (by rfl) (by rfl)).stays Stays.refl.enterRequested
      · exact hq

/-! ## 01 The net -/

theorem enterBackoff (hq : Moves free p q) : Moves free p q.enterBackoff := (hq.setDraws _).modSnc _ rfl rfl rfl

theorem enterDefer (hq : Moves free p q) (b : Bool) : Moves free p (q.enterDefer b) := by
  unfold Part.enterDefer
  simp only []
  split
  · exact (hq.setPins { q.pins with busy := b } rfl rfl).enterBackoff
  · exact (hq.setPins { q.pins with busy := b } rfl rfl).modSnc _ rfl rfl rfl

theorem collision (hq : Moves free p q) : Moves free p q.collision := by
  unfold Part.collision
  simp only []
  split
  · exact (hq.modSnc _ rfl rfl rfl).enterBackoff
  · exact (hq.modSnc _ rfl rfl rfl).modSnc _ rfl rfl rfl

theorem ownFrame (hq : Moves free p q) (f : Frame) : Moves free p (q.ownFrame f) := by
  unfold Part.ownFrame
  split
  · split
    · exact hq.modSnc _ rfl rfl rfl
    · exact hq.collision
  · exact hq.modSnc _ rfl rfl rfl

theorem modPeer (hq : Moves free p q) (n : Nat) (f : Peer → Peer) : Moves free p (q.modPeer n f) :=
  hq.setSnc _ id id (by simp)

theorem deliver (hq : Moves free p q) (a : Nat) (n : Notice) (ha : 1 ≤ a ∧ a ≤ 14) (hown : a ≠ q.station) :
    Moves free p (q.deliver a n) := by
  unfold Part.deliver
  split
  · simp only []
    split
    · exact (hq.compareShift _).takeClaim _ _ _ _ ha
    · exact hq.compareShift _
  · simp only []
    split
    · exact (hq.compareShift _).removeClaim _ _
    · exact hq.compareShift _
  · simp only []
    split
    · exact (hq.compareShift _).takeTally _ _ _ _
    · exact hq.compareShift _
  · exact hq.compareShift _
  · exact hq.takeHold _ _ _ _ _
  · exact (hq.modPeer _ _).takeStock _ _
  · exact hq.takeBayreq _ _ _ _ _ ha hown
  · exact hq.takeBaygrant _ _ _ _ _
  · exact hq.takeLoadnote _ _ _ _ _ _

theorem accept (hq : Moves free p q) (a : Nat) (n : Notice) (ha : 1 ≤ a ∧ a ≤ 14) (hown : a ≠ q.station) :
    Moves free p (q.accept a n) := (hq.modSnc _ rfl rfl rfl).deliver a n ha hown

theorem hear (hq : Moves free p q) (a b c : Nat) (n : Notice) (ha : 1 ≤ a ∧ a ≤ 14) (hown : a ≠ q.station) :
    Moves free p (q.hear a b c n) := by
  unfold Part.hear
  simp only []
  split
  · exact ((hq.modPeer _ _).modPeer _ _).accept _ _ ha hown
  · exact ((((hq.modPeer _ _).modPeer _ _).setAlc _ fun hb => hb.sublist List.filter_sublist).setMachines _).accept _ _ ha hown
  · exact ((hq.modPeer _ _).modPeer _ _).accept _ _ ha hown
  · exact ((hq.modPeer _ _).modPeer _ _).accept _ _ ha hown
  · exact (hq.modPeer _ _).modSnc _ rfl rfl rfl

theorem receive (hq : Moves free p q) (f : Frame) : Moves free p (q.receive f) := by
  unfold Part.receive
  split
  · exact hq.modSnc _ rfl rfl rfl
  · split
    · exact hq.modSnc _ rfl rfl rfl
    · split
      · exact hq.modSnc _ rfl rfl rfl
      · rename_i ho
        split
        · exact hq.ownFrame f
        · rename_i hown
          split
          · exact hq.modSnc _ rfl rfl rfl
          · split
            · exact hq.modSnc _ rfl rfl rfl
            · exact hq.hear _ _ _ _ (by omega) hown

theorem sweepOnce (hq : Moves free p q) : Moves free p q.sweepOnce := by
  unfold Part.sweepOnce
  split
  · exact hq
  · simp only []
    split
    · exact hq.modSnc _ rfl rfl rfl
    · exact (hq.modSnc _ rfl rfl rfl).offer _ _

/-! ## 07 The log -/

theorem joinWrite (hq : Moves free p q) (r : WriteReq) : Moves free p (q.joinWrite r) := hq.stays (Stays.refl.joinWrite r)

/-- The oldest of a wait list goes to the tail of a queue in which no whole record of its compartment waits. -/
theorem refill_bounded {t : Tlg} (ht : t.Bounded) (c : CompId) {r : WriteReq} {rest : List WriteReq} (hw : t.waitLists.get c = r :: rest)
    (hk : WriteKind.whole c ∉ t.queue.map WriteReq.kind) :
    (({ t with waitLists := t.waitLists.set c rest } : Tlg).append r).Bounded := by
  have h0 : ({ t with waitLists := t.waitLists.set c rest } : Tlg).Bounded := by
    refine ⟨ht.kinds, ht.queue, fun d => ?_, fun d x hx => ?_⟩
    · by_cases hd : d = c
      · subst hd
        have := ht.waits d
        rw [hw] at this
        simp at this ⊢; omega
      · simpa only [ByComp.get_set_ne _ _ hd] using ht.waits d
    · by_cases hd : d = c
      · subst hd
        simp only [ByComp.get_set_same] at hx
        exact ht.wholes d x (by rw [hw]; exact List.mem_cons_of_mem _ hx)
      · simp only [ByComp.get_set_ne _ _ hd] at hx
        exact ht.wholes d x hx
  refine h0.append r ?_
  rw [ht.wholes c r (by rw [hw]; exact List.mem_cons_self)]
  exact hk

theorem takeWrite (hq : Moves free p q) : Moves free p q.takeWrite := by
  unfold Part.takeWrite
  split
  · rename_i r rest _ hqueue
    have h0 : q.tlg.Bounded → ({ q.tlg with writing := some r, queue := rest, writeTimer := q.after (ms 8) } : Tlg).Bounded :=
      fun hb => hb.of_queue (by rw [hqueue]; exact List.sublist_cons_self _ _) rfl
    dsimp only
    split
    · unfold Part.refill
      split
      · exact hq.setTlg _ id h0
      · rename_i i x ws hw
        refine hq.setTlg _ ?_ fun hb => refill_bounded (h0 hb) _ hw ?_
        · intro hs
          unfold Tlg.append
          split
          · exact hs
          · split <;> exact hs
        · have := hb.kinds
          rw [hqueue] at this
          simpa [WriteReq.kind] using (List.nodup_cons.mp this).1
    · exact hq.setTlg _ id h0
  · exact hq

theorem memoryWrite (hq : Moves free p q) (r : WriteReq) : Moves free p (q.memoryWrite r) := by
  unfold Part.memoryWrite
  split
  · exact hq.modSlot _ _
  · exact hq.modSlot _ _
  · exact hq.modSlot _ _
  · exact hq.setMemory _ (by rfl) (by rfl) (by rfl)
  · exact hq.setMemory _ (by rfl) (by rfl) (by rfl)

theorem addTotals_length (t : List Totals) (a v m : Nat) : (addTotals t a v m).length = t.length := by simp [addTotals]

theorem countRecord (hq : Moves free p q) (x : Context) (l : Bool) (g s a : Nat) : Moves free p (q.countRecord x l g s a) := by
  unfold Part.countRecord
  simp only []
  split
  · split
    · exact hq.setTotals _ (by simp [addTotals_length])
    · exact (hq.modMachine _ _).setTotals _ (by simp [addTotals_length])
  · exact hq

theorem tallyClaim (hq : Moves free p q) (h : HoseId) (x : Context) (g : Nat) : Moves free p (q.tallyClaim h x g) := by
  unfold Part.tallyClaim
  split
  · exact hq
  · exact (hq.modHose h _ rfl).stays (Stays.refl.offerClosing _ _)

theorem cutOthers (hq : Moves free p q) (h : HoseId) (x : Context) (l : Bool) : Moves free p (q.cutOthers h x l) := by
  unfold Part.cutOthers
  split
  · exact hq.runCuts _ _ _
  · exact hq

theorem offerLoadnote (hq : Moves free p q) (x : Context) (g s : Nat) : Moves free p (q.offerLoadnote x g s) := by
  unfold Part.offerLoadnote
  split
  · exact hq
  · simp only []
    split
    · refine ((hq.offer _ _).event _).stays (Stays.refl.setBay _ _ fun y hy => ?_)
      cases hy
      rw [Stays.bayUnderGrant_holds ‹_›]
      rfl
    · exact (hq.offer _ _).event _

theorem endCommit (hq : Moves free p q) (h : HoseId) : Moves free p (q.endCommit h) := by
  unfold Part.endCommit
  split
  · exact hq.stays (Stays.refl.leaveCommitting h)
  · exact hq.stays (Stays.refl.modContext h _)

theorem commit (hq : Moves free p q) (h : HoseId) (i : Nat) : Moves free p (q.commit h i) := by
  unfold Part.commit
  simp only []
  split
  · exact (((((((hq.modSlot _ _).countRecord _ _ _ _ _).tallyClaim _ _ _).cutOthers _ _ _).offerLoadnote _ _ _).event
      _).endCommit h)
  · exact hq.modSlot _ _

theorem endWrite (hq : Moves free p q) (r : WriteReq) : Moves free p (q.endWrite r) := by
  unfold Part.endWrite Part.completed
  simp only []
  have hm := (hq.memoryWrite r).setMemory { (q.memoryWrite r).tlg with
    writing := none, writeTimer := none, writes := bump max32 (q.memoryWrite r).tlg.writes } rfl rfl rfl
  split
  · split
    · exact hm.commit _ _
    · exact hm
  · exact hm.commit _ _
  · exact hm.modSlot _ _
  · exact hm
  · exact hm

end Moves

end Sys2Proof.Machine
end

