-- ==== Sys2Proof/Laws/ExecMoves.lean ====
section
/-! SUPPORT. Every command but START and the four that change an input Moves the part: exec_moves, and the lemmas it goes through. -/

namespace Sys2Proof.Machine

open Sys2Proof


theorem request_moves {free : Prop} {p : Part} (act : Part → Part) (ha : Moves free p (act p)) : Moves free p (p.request act) := by
  unfold Part.request
  split
  · refine Moves.refl.setCnl _ ?_ ?_
    · unfold Cnl.refuseBusy; split <;> exact id
    · unfold Cnl.refuseBusy; split
      · intro _; simp; omega
      · exact id
  · exact ha

theorem startScan_moves {free : Prop} {p q : Part} (hq : Moves free p q) (es : List MachineEntry) : Moves free p (q.startScan es) := by
  unfold Part.startScan
  refine hq.trans ?_
  refine { Moves.refl with slots := fun hl => ?_, totals := fun hl => ?_, log := fun hb => hb.congr rfl rfl
                           claims := fun hb => hb.congr rfl }
  · simpa using hl
  · simp only [totalsFromLog]
    have : ∀ (l : List Slot) (t : List Totals) (sh : Nat), t.length = 64 → (l.foldl (fun totals s =>
    if s.state = .closed then
      match s.opening, s.closing.map Closing.fields with
      | some o, some (.fill _ _ standard _ amount _ _) =>
        match o.fields with
        | .fill _ _ _ account _ _ _ _ _ => if o.shift = sh then addTotals totals account standard amount else totals
        | _ => totals
      | _, _ => totals
    else totals) t).length = 64 := by
      intro l
      induction l with
      | nil => intro t _ ht; exact ht
      | cons s l ih =>
        intro t sh ht
        rw [List.foldl_cons]
        apply ih
        split
        · split
          · split
            · split
              · rw [Moves.addTotals_length]; exact ht
              · exact ht
            · exact ht
          · exact ht
        · exact ht
    exact this _ _ _ (by simp)

theorem readLines_moves {free : Prop} {p q : Part} (hq : Moves free p q) : Moves free p q.readLines := by
  unfold Part.readLines
  refine hq.setHoses _ fun h => ?_
  cases h <;> (simp only [Quad.map, Quad.get, Part.hose]; split <;> rfl)

theorem stopSupervision_moves {free : Prop} {p q : Part} (hq : Moves free p q) : Moves free p q.stopSupervision := by
  unfold Part.stopSupervision
  refine hq.setHoses _ fun h => ?_
  cases h <;> (simp only [Quad.map, Quad.get, Part.hose]; split <;> rfl)

theorem readNozzles_moves {free : Prop} {p q : Part} (hq : Moves free p q) : Moves free p q.readNozzles := by
  unfold Part.readNozzles
  refine hq.setHoses _ fun h => ?_
  cases h <;> (simp only [Quad.map, Quad.get, Part.hose]; split <;> rfl)

theorem joinNet_moves {free : Prop} {p q : Part} (hq : Moves free p q) : Moves free p q.joinNet := by
  unfold Part.joinNet
  exact ((hq.setSnc _ (by simp) (by simp) (by exact id)).setInv _).stays Stays.refl.offerStock

theorem begin_moves {free : Prop} {p q : Part} (hq : Moves free p q) (r : Readings) : Moves free p (q.beginSampling r) :=
  ((hq.setInv _).takeSample r).testSample

theorem scanWrites_length (t : Tlg) (l : List ScanWrite) : (t.scanWritesTo l).slots.length = t.slots.length := by
  unfold Tlg.scanWritesTo
  induction l generalizing t with
  | nil => rfl
  | cons w l ih =>
    rw [List.foldl_cons, ih]
    cases w with
    | boot b v => cases b <;> rfl
    | recovered i k => simp [Tlg.scanWrite]

theorem loaded_bounded {c : Cfl} {r : LoadResult} (hc : c.Bounded) (hr : r.content ≠ none → c.station ≠ none) : (c.loaded r).Bounded :=
  ⟨hc.station, fun hs => hr fun hn => hs (by simp [Cfl.loaded, hn])⟩

theorem loadFor_station {n : Option Nat} {store : Option (List Byte)} (hc : (loadFor n store).content ≠ none) : n ≠ none := by
  intro hn
  subst hn
  exact hc rfl

theorem scanWrites_bounded {t : Tlg} {l : List ScanWrite} (ht : t.Bounded) : ({ t.scanWritesTo l with scanWrites := [] } : Tlg).Bounded := by
  have h0 : ∀ (l : List ScanWrite) (u : Tlg), u.Bounded → (u.scanWritesTo l).Bounded := by
    intro l
    induction l with
    | nil => exact fun _ hu => hu
    | cons w rest ih =>
      intro u hu
      refine ih _ ?_
      cases w with
      | boot b v => cases b <;> exact hu.congr rfl rfl
      | recovered i k => exact hu.congr rfl rfl
  exact (h0 l t ht).congr rfl rfl

theorem reloadFault_moves {free : Prop} {p : Part} (r : LoadResult) (hr : r.content = none) : Moves free p (p.reloadFault r) := by
  unfold Part.reloadFault
  simp only []
  refine Moves.respond (Moves.setInv (stopSupervision_moves ?_) _) _
  refine { Moves.refl with grants := fun i g hg => Or.inl ?_, queue := ?_, attempts := ?_
                           claims := fun hb => hb.sublist (List.nil_sublist _)
                           station := fun hc => loaded_bounded hc fun h => absurd hr h
                           restock := fun _ hb => hb.congr rfl rfl }
  · cases i <;> exact hg
  · simp [Snc.halt]
  · simp [Snc.halt]

theorem thaw_bounded {own now : Nat} {c : Rsc} (hc : c.Bounded own) : (c.thaw now).Bounded own := by
  unfold Rsc.thaw
  split
  · exact hc
  · refine hc.of_subperm ?_
    simp only [Rsc.stations, Rsc.holders, allBays, List.filterMap, ByBay.get, Option.map_map]
    have hf : ∀ d, ((fun x : BayEntry => x.station) ∘ BayEntry.thaw d) = fun x => x.station := fun d => rfl
    simp [hf, List.Subperm.refl]

theorem reloadRole_moves {free : Prop} {p q : Part} (hq : Moves free p q) (role : Role) : Moves free p (q.reloadRole role) := by
  unfold Part.reloadRole
  have h0 := hq.setRsc { q.rsc.thaw q.now with roleInForce := some role } fun _ hb => (thaw_bounded hb).congr rfl rfl
  dsimp only
  split
  · split
    · exact h0
    · exact h0.setRsc _ fun _ _ => Rsc.Bounded.empty rfl rfl
  · exact h0

theorem trimBay_moves {free : Prop} {p q : Part} (hq : Moves free p q) (b : BayId) : Moves free p (q.trimBay b) := by
  unfold Part.trimBay
  split
  · split
    · exact hq
    · exact hq.stays ((Stays.refl.revokeBay _ _ ‹_›).grantStep 2)
  · exact hq

theorem reloadGood_moves {free : Prop} {p : Part} (hfree : p.inputsClear → free) (r : LoadResult) (s : Settings) (es : List MachineEntry) (rd : Readings)
    (hst : p.cfl.station ≠ none) : Moves free p (p.reloadGood r s es rd) := by
  unfold Part.reloadGood
  simp only []
  refine Moves.settle ?_ hfree _
  refine Moves.respond (Moves.setCnl ?_ _ (by exact id) (by exact id)) _
  have h0 : Moves free p (p.putInForce r s es) := by
    unfold Part.putInForce Part.rebuildMachines Part.emptyHistories
    have h1 : Moves free p { p with
      cfl := p.cfl.loaded r
      alc := { p.alc with peerClaims := [] }
      snc := { p.snc with cursor := 0 } } :=
      { Moves.refl with
        claims := fun hb => hb.sublist (List.nil_sublist _)
        station := fun hc => loaded_bounded hc fun _ => hst
        restock := fun _ => id }
    exact reloadRole_moves ((stopSupervision_moves (readLines_moves (h1.setMachines _))).setInv _) _
  have h3 : Moves free p ((p.putInForce r s es).reloadBays) := by
    unfold Part.reloadBays
    split
    · exact trimBay_moves h0 _
    · exact h0
  have h4 := ((begin_moves h3 rd).setAlc
    { ((p.putInForce r s es).reloadBays.beginSampling rd).alc with
      listen := if s.identity.listenTime = 0 then .ready else .listen
      listenTimer := if s.identity.listenTime = 0 then none
        else ((p.putInForce r s es).reloadBays.beginSampling rd).after (sec s.identity.listenTime) }
    fun hb => hb.congr rfl)
  split
  · exact h4
  · exact joinNet_moves h4

theorem identifyR {free : Prop} {p q : Part} (hq : Moves free p q) (h : HoseId) (m : EntryMethod) (i : Option Nat) :
    Moves free p (q.identify h m i) := hq.stays (Stays.refl.identify h m i)

theorem tagReport_moves {free : Prop} {p : Part} (h : HoseId) (r : TagReport) : Moves free p (p.tagReport h r) := by
  unfold Part.tagReport Part.takePresent Part.badPresent Part.takeAbsent Part.readerFault
  have e := (Moves.refl (free := free) (p := p))
  split
  · split
    · simp only []
      split
      · split
        · exact e.modReader h _
        · exact (e.modReader h _).takeCause h _
      · split
        · exact identifyR (e.modReader h _) _ _ _
        · exact e.modReader h _
    · simp only []
      split
      · exact e.modReader h _
      · split
        · exact ((e.modReader h _).modReader h _).event _
        · exact e.modReader h _
  · simp only []
    split
    · exact e.modReader h _
    · split
      · exact ((e.modReader h _).modReader h _).event _
      · exact e.modReader h _
  · exact e.modReader h _
  · split
    · exact e
    · exact (e.modReader h _).event _

/-- All commands but START and the four that change an input. Valves open and grants are given only where `free` holds, which the
absence of both inputs gives; `hs` rules out a pump that primes for a hose while an input is asserted. -/
theorem exec_moves {free : Prop} (c : Instr) (s : State) (q : Part) (hfree : s.part.inputsClear → free) (hs : s.part.Safe ∨ free)
    (hq : exec c s = s.goesTo q)
    (h1 : ∀ a b d, c ≠ .start a b d) (h2 : c ≠ .emergencyAsserted) (h3 : c ≠ .emergencyDeasserted)
    (h4 : c ≠ .powerFailWarning) (h5 : c ≠ .powerFailDeasserted) : Moves free s.part q := by
  obtain ⟨pend, p⟩ := s
  have e := (Moves.refl (free := free) (p := p))
  have inj : ∀ f : Part → Part, (nextPart f ⟨pend, p⟩ = State.goesTo ⟨pend, p⟩ q) → q = f p := by
    intro f hf; simp [nextPart, State.goesTo] at hf; exact hf.symm
  cases c <;> simp only [exec] at hq
  case start a b d => exact absurd rfl (h1 a b d)
  case emergencyAsserted => exact absurd rfl h2
  case emergencyDeasserted => exact absurd rfl h3
  case powerFailWarning => exact absurd rfl h4
  case powerFailDeasserted => exact absurd rfl h5
  case imageLoadEnd store r =>
    have := inj _ hq; subst this
    split
    · unfold Part.startLoaded
      simp only []
      refine startScan_moves (readLines_moves ?_) _
      refine { Moves.refl with station := fun hc => ?_, restock := fun _ hb => hb.congr rfl rfl }
      exact ⟨hc.station, (loaded_bounded hc fun h => loadFor_station h).settings⟩
    · split
      · unfold Part.reloadEnd
        simp only []
        split
        · exact reloadGood_moves hfree _ _ _ _ (loadFor_station (store := store) (by simp_all))
        · exact reloadFault_moves _ ‹_›
      · exact e
  case scanWritesDone r =>
    have := inj _ hq; subst this
    split
    · unfold Part.scanEnd
      simp only []
      refine Moves.setCnl ?_ _ (by exact id) (by simp [Cnl.cleared])
      refine Moves.setCfl ?_ _ (by rfl) fun hc => ⟨hc.station, hc.settings⟩
      refine readNozzles_moves ?_
      unfold Part.intoService
      have h0 : Moves free p (p.setTlg { p.tlg.scanWritesTo p.tlg.scanWrites with scanWrites := [] }) :=
        e.setTlg _ (by intro h; simpa [scanWrites_length] using h) fun hb => scanWrites_bounded hb
      split
      · exact joinNet_moves ((begin_moves h0 _).setAlc _ fun hb => hb.congr rfl)
      · exact h0.setAlc _ fun hb => hb.congr rfl
    · exact e
  case secondTick =>
    have := inj _ hq; subst this
    refine { Moves.refl with flow := fun h hf => Or.inl ?_, queue := ?_, attempts := ?_, peers := ?_
                             claims := fun hb => hb.congr rfl }
    · cases h <;> exact hf
    · simp only []; split <;> exact id
    · simp only []; split <;> exact id
    · simp only []; split
      · intro hl; simpa using hl
      · exact id
  case peerSilent n =>
    have := inj _ hq; subst this
    split
    · exact ((e.modPeer n _).silent n).stays (Stays.refl.finish p)
    · exact e
  case frameTaken b =>
    have := inj _ hq; subst this
    unfold Part.takeFrame
    split
    · rename_i hh
      split
      · refine Moves.enterDefer ?_ b
        refine e.setSnc _ ?_ (by simp) (by exact id)
        simp [hh]
        intro hl; omega
      · exact e
    · exact e
  case busyAsserted =>
    have := inj _ hq; subst this
    simp only []
    split
    · exact (e.setPins { p.pins with busy := true } rfl rfl).enterBackoff
    · exact e.setPins { p.pins with busy := true } rfl rfl
  case idleGapExpiry =>
    have := inj _ hq; subst this
    simp only []
    split
    · exact (e.reach _).setSnc _ (by exact id) (by intro _; simp [bump]) (by exact id)
    · exact e
  case backoffExpiry b =>
    have := inj _ hq; subst this
    simp only []
    split
    · exact ((e.reach _).modSnc _ rfl rfl rfl).enterDefer b
    · exact e
  case transmissionEnd =>
    have := inj _ hq; subst this
    simp only []
    split
    · exact e.modSnc _ rfl rfl rfl
    · exact e
  case echoWindowExpiry =>
    have := inj _ hq; subst this
    simp only []
    split
    · exact (e.reach _).collision
    · exact e
  case frameReceived el f =>
    have := inj _ hq; subst this
    simp only []
    split
    · exact ((e.reach _).receive f).settle hfree _
    · exact e.reach _
  case sweepTick =>
    have := inj _ hq; subst this
    simp only []
    split
    · exact ((e.reach _).modSnc _ rfl rfl rfl).sweepOnce
    · exact e
  case tagReport h r =>
    have := inj _ hq; subst this
    simp only []
    split
    · exact (tagReport_moves h r).settle hfree _
    · exact e
  case tagGraceExpiry h =>
    have := inj _ hq; subst this
    simp only []
    split
    · exact (((e.reach _).modReader h _).takeCause h _).settle hfree _
    · exact e
  case peerClaimExpiry a b =>
    have := inj _ hq; subst this
    simp only []
    split
    · exact (e.reach _).removeClaim _ _
    · exact e
  case claimRenewalExpiry h =>
    have := inj _ hq; subst this
    simp only []
    split
    · split
      · exact ((e.reach _).modHose h _ rfl).stays (Stays.refl.offerClaim _ _ _ _)
      · exact e
    · exact e
  case claimHoldOffExpiry h =>
    have := inj _ hq; subst this
    simp only []
    split
    · exact ((e.reach _).stays (Stays.refl.awaitPump h)).settle hfree _
    · exact e
  case listenTimerExpiry =>
    have := inj _ hq; subst this
    simp only []
    split
    · exact (e.reach _).setAlc _ fun hb => hb.congr rfl
    · exact e
  case phaseChange h a b el =>
    have := inj _ hq; subst this
    simp only []
    split
    · exact (e.reach _).modPins h _
    · exact (((e.reach _).modPins h _).decode h _ _ _).settle hfree _
  case rateTimeout h =>
    have := inj _ hq; subst this
    simp only []
    split
    · exact (e.reach _).modMeter h _
    · exact e
  case overrateExpiry h =>
    have := inj _ hq; subst this
    simp only []
    split
    · split
      · exact (e.reach _).modMeter h _
      · exact ((e.reach _).modMeter h _).event _
    · exact e
  case noFlowExpiry h =>
    have := inj _ hq; subst this
    simp only []
    split
    · exact (((e.reach _).modMeter h _).takeCause h _).settle hfree _
    · exact e
  case switchChange h v pos =>
    have := inj _ hq; subst this
    simp only []
    have h0 := e.modPins h fun k => k.setSwitch v pos
    split
    · exact h0
    · refine Moves.settle ?_ hfree _
      unfold Part.takeSwitch
      refine h0.stays (((Stays.refl.modValves h _ ?_).moveValves h).shutTest h)
      intro hf; left
      cases v <;> exact hf
  case settleExpiry h v =>
    have := inj _ hq; subst this
    simp only []
    split
    · refine Moves.settle ?_ hfree _
      unfold Part.positionFault
      simp only []
      have h0 : ∀ x : Valve, Stays free (p.reach ‹Nat›) ((p.reach ‹Nat›).modValves h fun s => s.setValve v x) := by
        intro x
        refine Stays.refl.modValves h _ ?_
        intro hf; left
        cases v <;> exact hf
      split
      · exact (e.reach _).stays ((((((h0 _)).beginShutting h).dropGrant h).takeCause h _).shutTest h)
      · exact (e.reach _).stays (((h0 _).takeCause h _).shutTest h)
    · exact e
  case overrunWindowExpiry h =>
    have := inj _ hq; subst this
    simp only []
    split
    · exact (e.reach _).stays (Stays.refl.endOverrun h)
    · exact e
  case primeExpiry i =>
    have := inj _ hq; subst this
    simp only []
    split
    · refine Moves.settle ?_ hfree _
      unfold Part.primed
      split
      · exact (e.reach _).stays (Stays.refl.modPump i _ (by intro g hg; exact Or.inl hg))
      · rename_i hg
        have hc : free := by
          by_cases hc : p.inputsClear
          · exact hfree hc
          · exact hs.elim (fun h => absurd ((h hc).2 i) hg) id
        refine (e.reach _).stays (Stays.startFlows (Stays.refl.modPump i _ ?_) hc _)
        intro g hg; exact Or.inl hg
    · exact e
  case rundownExpiry i =>
    have := inj _ hq; subst this
    simp only []
    split
    · exact (e.reach _).stays (Stays.refl.modPump i _ (by intro g hg; exact Or.inl hg))
    · exact e
  case pumpWaitExpiry h =>
    have := inj _ hq; subst this
    simp only []
    split
    · exact (((e.reach _).modHose h _ rfl).takeCause h _).settle hfree _
    · exact e
  case nozzleLift h =>
    have := inj _ hq; subst this
    simp only []
    split
    · refine Moves.settle ?_ hfree _
      unfold Part.lift
      simp only []
      have h0 := (e.modPins h fun k => { k with nozzle := .offHook })
      split
      · split
        · exact identifyR (h0.modHose h _ rfl) _ _ _
        · exact h0.modHose h _ rfl
      · exact h0.modHose h _ rfl
    · exact e.modPins h _
  case nozzleHang h =>
    have := inj _ hq; subst this
    simp only []
    split
    · refine Moves.settle ?_ hfree _
      unfold Part.hang
      simp only []
      have h0 := (e.modPins h fun k => { k with nozzle := .onHook })
      split
      · exact ((h0.modHose h _ rfl).modHose h _ rfl).stays Stays.refl.drainTest
      · exact ((h0.modHose h _ rfl).modHose h _ rfl).stays Stays.refl.drainTest
      · exact (h0.modHose h _ rfl).takeCause h _
    · exact e.modPins h _
  case writeStart =>
    have := inj _ hq; subst this
    exact e.takeWrite
  case writeComplete =>
    have := inj _ hq; subst this
    simp only []
    split
    · exact (((e.reach _).endWrite _).settle hfree _).takeWrite
    · exact e
  case sampleEvent r =>
    have := inj _ hq; subst this
    simp only []
    split
    · exact ((((e.reach _).setInv _).takeSample r).settleHoses hfree _).testSample.finish _
    · exact e
  case stockTimerExpiry =>
    have := inj _ hq; subst this
    simp only []
    split
    · exact ((e.reach _).setInv _).stays Stays.refl.offerStock
    · exact e
  case bayreqRepeatExpiry =>
    have := inj _ hq; subst this
    simp only []
    split
    · split
      · exact (e.reach _).stays Stays.refl.requestBay
      · exact e
    · exact e
  case grantExpiry b =>
    have := inj _ hq; subst this
    unfold Part.expireGrant
    split
    · split
      · exact ((e.reach _).stays (Stays.refl.revokeBay _ _ ‹_›)).stays (Stays.refl.grantStep 2)
      · exact e
      · exact e
    · exact e
  case releaseTimerExpiry b =>
    have := inj _ hq; subst this
    unfold Part.expireRelease
    split
    · split
      · exact ((e.reach _).stays (Stays.refl.setBay _ _ (by simp))).stays (Stays.refl.grantStep 2)
      · exact e
      · exact e
    · exact e
  case responseSent =>
    have := inj _ hq; subst this
    refine e.setCnl _ ?_ ?_
    · unfold Cnl.sent; split <;> (try split) <;> exact id
    · unfold Cnl.sent; split
      · exact id
      · split
        · exact id
        · intro hb; simp; omega
  case invalidRequest w =>
    have := inj _ hq; subst this
    refine request_moves _ ?_
    unfold Part.invalid
    split
    · exact (e.setCnl _ (by exact id) (by exact id)).respond _
    · exact e.respond _
  case status => have := inj _ hq; subst this; exact request_moves _ (e.respond _)
  case hose h =>
    have := inj _ hq; subst this
    refine request_moves _ ?_
    unfold Part.hoseRequest
    split
    · exact e.respond _
    · exact e.respond _
  case preset f g =>
    have := inj _ hq; subst this
    refine request_moves _ ?_
    unfold Part.presetRequest Part.standingPreset Part.lowerPreset
    have rf : ∀ c, Moves free p (p.refuse c) := fun c => e.respond _
    have low : ∀ h v, Moves free p (if (p.writePending h v).2 = true then settle p ((p.writePending h v).1.respond .ok) else p.refuse .notLower) := by
      intro h v
      split
      · exact ((e.stays (Stays.refl.writePending _ _)).respond _).settle hfree _
      · exact rf _
    split
    · split
      all_goals first
        | exact rf _
        | (refine Moves.ite (rf _) (Moves.ite ((e.respond _).modHose _ _ rfl) (Moves.ite ((e.respond _).modHose _ _ rfl) (rf _))))
        | exact Moves.ite (rf _) (low _ _)
    · exact rf _
  case stop f =>
    have := inj _ hq; subst this
    refine request_moves _ ?_
    unfold Part.stopRequest
    split
    · exact e.respond _
    · split
      all_goals first
        | exact ((e.respond _).takeCause _ _).settle hfree _
        | exact e.respond _
  case keyed f g =>
    have := inj _ hq; subst this
    refine request_moves _ ?_
    unfold Part.keyed
    split
    · split
      · exact e.respond _
      · exact (identifyR (e.respond _) _ _ _).settle hfree _
    · exact e.respond _
  case hold f g =>
    have := inj _ hq; subst this
    refine request_moves _ ?_
    unfold Part.holdRequest
    split
    · split
      · exact e.respond _
      · split
        · exact e.respond _
        · exact ((e.respond _).setHold _ _ _).settle hfree _
    · exact e.respond _
  case unhold f =>
    have := inj _ hq; subst this
    refine request_moves _ ?_
    unfold Part.unholdRequest
    split
    · split
      · exact e.respond _
      · exact (e.respond _).setHold _ _ _
    · exact e.respond _
  case shift =>
    have := inj _ hq; subst this
    refine request_moves _ ?_
    unfold Part.newShift
    split
    · exact e.respond _
    · split
      · exact e.respond _
      · exact ((e.adopt _).offer _ _).respond _
  case restock =>
    have := inj _ hq; subst this
    refine request_moves _ ?_
    unfold Part.restock
    split
    · exact e.respond _
    · split
      · exact ((e.respond _).stays Stays.refl.enterDraining).stays (Stays.refl.finish _)
      · exact e.respond _
  case restockCancel =>
    have := inj _ hq; subst this
    refine request_moves _ ?_
    unfold Part.restockCancel
    split
    · exact e.respond _
    · split
      all_goals first
        | exact e.respond _
        | exact ((e.respond _).stays Stays.refl.returnNormal).stays (Stays.refl.finish _)
  case restockDone =>
    have := inj _ hq; subst this
    refine request_moves _ ?_
    unfold Part.restockDone
    split
    · exact e.respond _
    · split
      · exact ((e.respond _).stays Stays.refl.returnNormal).stays (Stays.refl.finish _)
      · exact e.respond _
  case delivery f g =>
    have := inj _ hq; subst this
    refine request_moves _ ?_
    unfold Part.delivery
    split
    · split
      · exact e.respond _
      · split
        · exact e.respond _
        · exact ((e.respond _).modComp _ _).stays (Stays.refl.wholeRecord _ _ _)
    · exact e.respond _
  case readlog f =>
    have := inj _ hq; subst this
    refine request_moves _ ?_
    unfold Part.readlog Part.readRecord
    repeat' split
    all_goals exact e.respond _
  case release f =>
    have := inj _ hq; subst this
    refine request_moves _ ?_
    unfold Part.releaseRequest
    split
    · exact e.respond _
    · unfold Part.releaseTo
      simp only []
      have hl : ∀ (fuel lim sh : Nat) (held : Nat → Bool) (l : List Slot) (a b : Nat), (releaseLoop lim sh held fuel l a b).1.length = l.length := by
        intro fuel
        induction fuel with
        | zero => intros; rfl
        | succ n ih =>
          intro lim sh held l a b
          unfold releaseLoop
          split
          · rfl
          · split
            · rfl
            · simp only []
              split
              · rw [ih]; simp
              · rfl
      have h0 := e.setTlg { p.tlg with slots := (releaseLoop ‹Nat› p.alc.shift p.holdsSlot p.tlg.slots.length p.tlg.slots 0 0).1 }
        (by intro h; simpa [hl] using h) fun hb => hb.congr rfl rfl
      split
      · exact h0.respond _
      · exact (h0.stays (Stays.refl.queueMark _)).respond _
  case accounts => have := inj _ hq; subst this; exact request_moves _ (e.respond _)
  case peers => have := inj _ hq; subst this; exact request_moves _ (e.respond _)
  case diag => have := inj _ hq; subst this; exact request_moves _ (e.respond _)
  case events =>
    have := inj _ hq; subst this
    exact request_moves _ ((e.setCnl { p.cnl with events := [], lost := false } (by simp) (by exact id)).respond _)
  case reload =>
    have := inj _ hq; subst this
    refine request_moves _ ?_
    unfold Part.reloadRequest
    split
    · split
      · exact reloadFault_moves _ rfl
      · refine Moves.setCnl ?_ _ (by exact id) (by exact id)
        exact e.setCfl _ (by rfl) fun hc => ⟨hc.station, hc.settings⟩
    · exact e.respond _

/-! ## The two inputs -/

theorem shutDown_stays {free : Prop} {p q : Part} (hq : Stays free p q) : Stays free p q.shutDown := by
  unfold Part.shutDown
  have h0 : Stays free p (allHoses.foldl (fun p h => p.beginShutting h) q) :=
    hq.foldHoses _ _ fun _ h hr => hr.beginShutting h
  refine h0.setPumps _ ?_
  intro i g hg
  cases i <;> simp [Pump.halt, ByPump.get] at hg

theorem beginShutting_flow (p : Part) (h k : HoseId) :
   ((p.beginShutting h).hose k).valves.phase.flowing = (if k = h then false else (p.hose k).valves.phase.flowing) := by
  unfold Part.beginShutting
  split
  · rename_i hf
    by_cases hk : k = h
    · subst hk; simp [Part.modHose]; unfold Vsq.enter; rfl
    · simp [Part.modHose, Part.hose_setHose_ne _ _ hk, hk]
  · rename_i hf
    by_cases hk : k = h
    · subst hk; simpa using hf
    · simp [hk]

theorem shutDown_flow (p : Part) (h : HoseId) : ((p.shutDown).hose h).valves.phase.flowing = false := by
  unfold Part.shutDown
  simp only []
  show (Part.hose (allHoses.foldl (fun p h => p.beginShutting h) p) h).valves.phase.flowing = false
  simp only [allHoses, List.foldl]
  cases h <;> simp [beginShutting_flow]

theorem shutDown_grants (p : Part) (i : PumpId) : ((p.shutDown).pumps.get i).grants = [] := by
  unfold Part.shutDown; cases i <;> rfl

theorem powerFailHose_stays {free : Prop} {p q : Part} (hq : Stays free p q) (h : HoseId) : Stays free p (q.powerFailHose h) := by
  unfold Part.powerFailHose Part.commitEarly
  simp only []
  split
  · exact hq.takeCause h _
  · exact hq.takeCause h _
  · exact (((((hq.modContext h _).event _).modContext h _).endOverrun h).shutTest h)
  · exact ((((hq.modContext h _)).endOverrun h).shutTest h)
  all_goals exact hq

end Sys2Proof.Machine
end

