-- ==== Sys2Proof/Laws/Log.lean ====
section
/-! SUPPORT. The log's shared operations: the oldest record, the slot of a record, the release of records, and the places a request
takes in the write queue. -/

namespace Sys2Proof.Machine

open Sys2Proof

/-! ## Ring order (07 R126) -/

/-- No record stands above the bound. -/
theorem nextAbove_none {b : Nat} {slots : List Slot} (h : nextAbove b slots = none) :
    ∀ u ∈ slots, ∀ o, u.record = some o → o.sequence ≤ b := by
  induction slots with
  | nil => simp
  | cons s rest ih =>
    simp only [nextAbove] at h
    intro u hu o ho
    rcases List.mem_cons.mp hu with rfl | hu
    · rw [ho] at h
      by_contra hb
      simp only [not_le.mp hb, if_true] at h
      split at h <;> simp at h
    · refine ih ?_ u hu o ho
      split at h
      · split at h
        · split at h <;> simp_all
        · exact h
      · exact h

/-- The least number of a record above the bound. -/
theorem nextAbove_some {b n : Nat} {slots : List Slot} (h : nextAbove b slots = some n) :
    b < n ∧ (∃ u ∈ slots, ∃ o, u.record = some o ∧ o.sequence = n)
      ∧ ∀ u ∈ slots, ∀ o, u.record = some o → b < o.sequence → n ≤ o.sequence := by
  induction slots generalizing n with
  | nil => simp [nextAbove] at h
  | cons s rest ih =>
    have skip : nextAbove b rest = some n → (∀ o, s.record = some o → ¬ b < o.sequence) →
        b < n ∧ (∃ u ∈ s :: rest, ∃ o, u.record = some o ∧ o.sequence = n)
          ∧ ∀ u ∈ s :: rest, ∀ o, u.record = some o → b < o.sequence → n ≤ o.sequence := by
      intro hr hs
      obtain ⟨h1, ⟨u, hu, ho⟩, h3⟩ := ih hr
      refine ⟨h1, ⟨u, List.mem_cons_of_mem _ hu, ho⟩, fun v hv o ho hb => ?_⟩
      rcases List.mem_cons.mp hv with rfl | hv
      · exact absurd hb (hs o ho)
      · exact h3 v hv o ho hb
    unfold nextAbove at h
    split at h
    · rename_i o hs
      split at h
      · rename_i hb
        split at h
        · rename_i m hm
          cases h
          obtain ⟨h1, ⟨u, hu, w, hw, hwn⟩, h3⟩ := ih hm
          refine ⟨by omega, ?_, fun v hv r hr hbr => ?_⟩
          · by_cases hle : o.sequence ≤ m
            · exact ⟨s, by simp, o, hs, by omega⟩
            · exact ⟨u, List.mem_cons_of_mem _ hu, w, hw, by omega⟩
          · rcases List.mem_cons.mp hv with rfl | hv
            · rw [hs] at hr; cases hr; omega
            · have := h3 v hv r hr hbr; omega
        · rename_i hn
          cases h
          refine ⟨hb, ⟨s, by simp, o, hs, rfl⟩, fun v hv r hr hbr => ?_⟩
          rcases List.mem_cons.mp hv with rfl | hv
          · rw [hs] at hr; cases hr; exact Nat.le_refl _
          · have := nextAbove_none hn v hv r hr; omega
      · rename_i hb
        refine skip h fun r hr => ?_
        rw [hs] at hr; cases hr; exact hb
    · rename_i hs
      exact skip h fun r hr => by rw [hs] at hr; cases hr

/-- The first slot whose record has a number. -/
theorem slotOf_some {n i : Nat} {slots : List Slot} (h : slotOf n slots = some i) :
    (∃ u o, slots[i]? = some u ∧ u.record = some o ∧ o.sequence = n)
      ∧ ∀ j v r, j < i → slots[j]? = some v → v.record = some r → r.sequence ≠ n := by
  unfold slotOf at h
  rw [List.findIdx?_eq_some_iff_getElem] at h
  obtain ⟨hl, ht, hlt⟩ := h
  constructor
  · refine ⟨slots[i], ?_⟩
    split at ht
    · rename_i o ho
      exact ⟨o, by simp [hl], ho, by simpa using ht⟩
    · simp at ht
  · intro j v r hj hv hr he
    have hjl : j < slots.length := by omega
    have := hlt j hj
    rw [List.getElem?_eq_getElem hjl] at hv
    cases hv
    rw [hr] at this
    simp [he] at this

theorem slotOf_none {n : Nat} {slots : List Slot} (h : slotOf n slots = none) :
    ∀ u ∈ slots, ∀ o, u.record = some o → o.sequence ≠ n := by
  unfold slotOf at h
  rw [List.findIdx?_eq_none_iff] at h
  intro u hu o ho he
  have := h u hu
  rw [ho] at this
  simp [he] at this

/-! ## RELEASE (07 R139) -/

/-- A slot whose record has been released. -/
abbrev cleared (s : Slot) : Slot := { s with state := .free, opening := none, closing := none }

theorem countP_cleared {slots : List Slot} {i : Nat} {u : Slot} {o : Opening} (h : slots[i]? = some u) (ho : u.record = some o) :
    (slots.modify i cleared).countP (·.record.isSome) + 1
      = slots.countP (·.record.isSome) := by
  induction slots generalizing i with
  | nil => simp at h
  | cons s rest ih =>
    cases i with
    | zero =>
      simp at h; subst h
      have : ∀ a b, ({ state := .free, opening := none, closing := none, nvOpening := a, nvClosing := b } : Slot).record = none :=
        fun _ _ => rfl
      simp [ho, this]
    | succ i =>
      simp at h
      have := ih h
      simp only [List.modify_succ_cons, List.countP_cons] at this ⊢
      omega

/-- What the release of records does: it clears exactly the slots of `Freed`, answers their number, and the number of the last of
them. -/
theorem releaseLoop_spec (limit shift : Nat) (held : Nat → Bool) (fuel : Nat) (slots : List Slot) (count last : Nat)
    (hf : slots.countP (·.record.isSome) ≤ fuel) :
    ∃ freed : List Nat, freed.Nodup ∧ (∀ i, i ∈ freed ↔ Freed limit shift held slots i)
      ∧ (releaseLoop limit shift held fuel slots count last).1.length = slots.length
      ∧ (∀ i u, slots[i]? = some u → (releaseLoop limit shift held fuel slots count last).1[i]? = some
          (if i ∈ freed then cleared u else u))
      ∧ (releaseLoop limit shift held fuel slots count last).2.1 = count + freed.length
      ∧ (freed = [] → releaseLoop limit shift held fuel slots count last = (slots, count, last))
      ∧ (freed ≠ [] → (∃ i ∈ freed, ∃ u o, slots[i]? = some u ∧ u.record = some o
            ∧ o.sequence = (releaseLoop limit shift held fuel slots count last).2.2)
          ∧ ∀ i ∈ freed, ∀ u o, slots[i]? = some u → u.record = some o →
            o.sequence ≤ (releaseLoop limit shift held fuel slots count last).2.2) := by
  -- nothing freed
  have stop : (∀ i, ¬ Freed limit shift held slots i) → ∀ r, r = (slots, count, last) →
      ∃ freed : List Nat, freed.Nodup ∧ (∀ i, i ∈ freed ↔ Freed limit shift held slots i) ∧ r.1.length = slots.length
      ∧ (∀ i u, slots[i]? = some u → r.1[i]? = some
          (if i ∈ freed then cleared u else u))
      ∧ r.2.1 = count + freed.length
      ∧ (freed = [] → r = (slots, count, last))
      ∧ (freed ≠ [] → (∃ i ∈ freed, ∃ u o, slots[i]? = some u ∧ u.record = some o ∧ o.sequence = r.2.2)
          ∧ ∀ i ∈ freed, ∀ u o, slots[i]? = some u → u.record = some o → o.sequence ≤ r.2.2) := by
    rintro hn r rfl
    exact ⟨[], by simp, by simpa using hn, rfl, by simp, by simp, by simp, by simp⟩
  induction fuel generalizing slots count last with
  | zero =>
    refine stop (fun i hi => ?_) _ rfl
    obtain ⟨u, o, hu, ho, -⟩ := hi
    have : 0 < slots.countP (·.record.isSome) := List.countP_pos_iff.mpr ⟨u, List.mem_of_getElem? hu, by simp [ho]⟩
    omega
  | succ fuel ih =>
    unfold releaseLoop
    split
    · rename_i hn
      refine stop (fun i hi => ?_) _ rfl
      obtain ⟨u, o, hu, ho, h1, -⟩ := hi
      have := nextAbove_none hn u (List.mem_of_getElem? hu) o ho
      omega
    · rename_i n hn
      obtain ⟨h0, ⟨w, hw, wo, hwo, hwn⟩, hmin⟩ := nextAbove_some hn
      split
      · rename_i hs
        exact absurd hwn (slotOf_none hs w hw wo hwo)
      · rename_i i0 hs
        obtain ⟨⟨u0, o0, hu0, ho0, hn0⟩, hfirst⟩ := slotOf_some hs
        have hget : slots.getD i0 Slot.start = u0 := by simp [List.getD, hu0]
        -- the oldest record stands before every other
        have hold : ∀ j v r, slots[j]? = some v → v.record = some r → 1 ≤ r.sequence →
            (r.sequence < o0.sequence ∨ r.sequence = o0.sequence ∧ j ≤ i0) → j = i0 := by
          intro j v r hv hr h1 hb
          have hm := hmin v (List.mem_of_getElem? hv) r hr (by omega)
          rcases hb with hb | ⟨hb, hj⟩
          · omega
          · by_contra hne
            exact hfirst j v r (by omega) hv hr (by omega)
        simp only [hget]
        split
        · rename_i hc
          obtain ⟨hlim, hcl, hsh, hfree⟩ := hc
          have hop : u0.opening = some o0 := by simpa [Slot.record, hcl] using ho0
          have hsh0 : o0.shift ≠ shift := by simpa [hop] using hsh
          generalize hs1 : (slots.modify i0 cleared) = slots1
          have hget1 : ∀ j, slots1[j]? = if j = i0 then (slots[j]?).map cleared else slots[j]? := by
            intro j; rw [← hs1, List.getElem?_modify]
            by_cases hj : j = i0
            · subst hj; simp
            · simp [hj, Ne.symm hj]
          have hcount := countP_cleared hu0 ho0
          rw [hs1] at hcount
          have stop1 := ih slots1 (count + 1) n (by omega)
          have gone_iff : ∀ i, Freed limit shift held slots i ↔ i = i0 ∨ Freed limit shift held slots1 i := by
            intro i
            constructor
            · rintro ⟨u, o, hu, ho, h1, hall⟩
              by_cases hi : i = i0
              · exact Or.inl hi
              · refine Or.inr ⟨u, o, by rw [hget1, if_neg hi]; exact hu, ho, h1, fun j v r hv hr hr1 hb => ?_⟩
                rw [hget1] at hv
                by_cases hj : j = i0
                · subst hj
                  rw [if_pos rfl, hu0] at hv
                  simp [cleared] at hv; subst hv
                  simp [Slot.record] at hr
                · rw [if_neg hj] at hv
                  exact hall j v r hv hr hr1 hb
            · rintro (rfl | ⟨u, o, hu, ho, h1, hall⟩)
              · refine ⟨u0, o0, hu0, ho0, by omega, fun j v r hv hr hr1 hb => ?_⟩
                have := hold j v r hv hr hr1 hb
                subst this
                rw [hu0] at hv; cases hv
                rw [ho0] at hr; cases hr
                exact ⟨hcl, by omega, hsh0, hfree⟩
              · have hi : i ≠ i0 := by
                  rintro rfl
                  rw [hget1, if_pos rfl, hu0] at hu
                  simp [cleared] at hu; subst hu
                  simp [Slot.record] at ho
                rw [hget1, if_neg hi] at hu
                refine ⟨u, o, hu, ho, h1, fun j v r hv hr hr1 hb => ?_⟩
                by_cases hj : j = i0
                · subst hj
                  rw [hu0] at hv; cases hv
                  rw [ho0] at hr; cases hr
                  exact ⟨hcl, by omega, hsh0, hfree⟩
                · exact hall j v r (by rw [hget1, if_neg hj]; exact hv) hr hr1 hb
          obtain ⟨freed, hnd, hmem, hlen, hslots, hcnt, hnil, hlast⟩ := stop1 (by
            rintro hn r rfl
            exact ⟨[], by simp, by simpa using hn, rfl, by simp, by simp, by simp, by simp⟩)
          have hi0 : i0 ∉ freed := by
            intro hmem0
            obtain ⟨u, o, hu, ho, -⟩ := (hmem i0).mp hmem0
            rw [hget1, if_pos rfl, hu0] at hu
            simp [cleared] at hu; subst hu
            simp [Slot.record] at ho
          refine ⟨i0 :: freed, List.nodup_cons.mpr ⟨hi0, hnd⟩, fun i => ?_, ?_, fun i u hu => ?_, ?_, by simp, fun _ => ?_⟩
          · rw [List.mem_cons, hmem, gone_iff]
          · rw [hlen, ← hs1, List.length_modify]
          · by_cases hi : i = i0
            · subst hi
              rw [hu0] at hu; cases hu
              rw [hslots i (cleared u0) (by rw [hget1, if_pos rfl, hu0]; rfl), if_neg hi0]
              simp [cleared]
            · rw [hslots i u (by rw [hget1, if_neg hi]; exact hu)]
              simp [hi]
          · rw [hcnt, List.length_cons]; omega
          · by_cases hfn : freed = []
            · have := hnil hfn
              rw [this]
              subst hfn
              refine ⟨⟨i0, by simp, u0, o0, hu0, ho0, hn0⟩, fun i hi u o hu ho => ?_⟩
              simp at hi; subst hi
              rw [hu0] at hu; cases hu
              rw [ho0] at ho; cases ho
              exact hn0.le
            · obtain ⟨⟨i, hi, u, o, hu, ho, hl⟩, hmax⟩ := hlast hfn
              have hii : i ≠ i0 := fun h => hi0 (h ▸ hi)
              have hu' : slots[i]? = some u := by rw [hget1, if_neg hii] at hu; exact hu
              refine ⟨⟨i, by simp [hi], u, o, hu', ho, hl⟩, fun j hj v r hv hr => ?_⟩
              by_cases hji : j = i0
              · subst hji
                rw [hu0] at hv; cases hv
                rw [ho0] at hr; cases hr
                rw [← hl]
                have hrel := ((hmem i).mp hi)
                obtain ⟨u', o', hu'', ho', h1, -⟩ := hrel
                rw [hu''] at hu; cases hu
                rw [ho] at ho'; cases ho'
                have := hmin _ (List.mem_of_getElem? hu') o ho (by omega)
                omega
              · have hj' : j ∈ freed := by simpa [hji] using hj
                exact hmax j hj' v r (by rw [hget1, if_neg hji]; exact hv) hr
        · rename_i hc
          refine stop (fun i hi => ?_) _ rfl
          obtain ⟨u, o, hu, ho, h1, hall⟩ := hi
          have hm := hmin u (List.mem_of_getElem? hu) o ho (by omega)
          have hcond : n < o.sequence ∨ n = o.sequence ∧ i0 ≤ i := by
            rcases Nat.lt_or_ge n o.sequence with h | h
            · exact Or.inl h
            · refine Or.inr ⟨by omega, ?_⟩
              by_contra hlt
              exact hfirst i u o (by omega) hu ho (by omega)
          have := hall i0 u0 o0 hu0 ho0 (by omega) (by rw [hn0]; exact hcond)
          obtain ⟨hcl, hl, hsh, hfree⟩ := this
          refine hc ⟨by omega, hcl, ?_, hfree⟩
          have hop : u0.opening = some o0 := by simpa [Slot.record, hcl] using ho0
          simpa [hop] using hsh

/-- The greatest number of a record. -/
theorem newest_some {n : Nat} : ∀ {slots : List Slot}, newest slots = some n → (∃ u ∈ slots, u.record.map (·.sequence) = some n)
      ∧ ∀ u ∈ slots, ∀ o, u.record = some o → o.sequence ≤ n := by
  intro slots
  induction slots generalizing n with
  | nil => exact fun h => nomatch h
  | cons s t ih =>
    intro h
    unfold newest at h
    cases hs : s.record with
    | none =>
      rw [hs] at h; simp only at h
      obtain ⟨⟨u, a, b⟩, c⟩ := ih h
      refine ⟨⟨u, List.mem_cons_of_mem _ a, b⟩, fun v hv o ho => ?_⟩
      rcases List.mem_cons.mp hv with rfl | hv
      · rw [hs] at ho; cases ho
      · exact c v hv o ho
    | some o =>
      rw [hs] at h
      cases hn : newest t with
      | none =>
        rw [hn] at h; simp only [Option.some.injEq] at h; subst h
        refine ⟨⟨s, List.mem_cons_self .., by rw [hs]; rfl⟩, fun v hv o2 ho => ?_⟩
        rcases List.mem_cons.mp hv with rfl | hv
        · rw [hs] at ho; cases ho; exact Nat.le_refl _
        · exfalso
          clear ih
          induction t with
          | nil => exact nomatch hv
          | cons w t ih =>
            unfold newest at hn
            cases hw : w.record with
            | none =>
              rw [hw] at hn; simp only at hn
              rcases List.mem_cons.mp hv with rfl | hv
              · rw [hw] at ho; cases ho
              · exact ih hn (List.mem_cons_of_mem _ hv) hv
            | some x => rw [hw] at hn; cases h2 : newest t <;> rw [h2] at hn <;> cases hn
      | some k =>
        rw [hn] at h; simp only [Option.some.injEq] at h; subst h
        obtain ⟨⟨u, a, b⟩, c⟩ := ih hn
        refine ⟨?_, fun v hv o2 ho => ?_⟩
        · rcases Nat.le_total o.sequence k with h | h
          · exact ⟨u, List.mem_cons_of_mem _ a, by rw [b, Nat.max_eq_right h]⟩
          · exact ⟨s, List.mem_cons_self .., by rw [hs, Nat.max_eq_left h]; rfl⟩
        · rcases List.mem_cons.mp hv with rfl | hv
          · rw [hs] at ho; cases ho; exact Nat.le_max_left _ _
          · exact Nat.le_trans (c v hv o2 ho) (Nat.le_max_right _ _)

/-- No record stands in the slots. -/
theorem newest_none {slots : List Slot} (h : newest slots = none) : ∀ u ∈ slots, u.record = none := by
  induction slots with
  | nil => exact fun _ h => nomatch h
  | cons s t ih =>
    unfold newest at h
    cases hs : s.record with
    | some o => rw [hs] at h; cases hn : newest t <;> rw [hn] at h <;> cases h
    | none =>
      rw [hs] at h; simp only at h
      intro u hu
      rcases List.mem_cons.mp hu with rfl | hu
      · exact hs
      · exact ih h u hu

end Sys2Proof.Machine
end

