-- ==== Sys2Proof/WellFormed.lean ====
section
/-! DEFINITION. Which commands can be sent at all: the range checks on the operands that the lines of the part cannot exceed. -/

namespace Sys2Proof

/-- A station number (00, Numbering). -/
abbrev isStation (n : Nat) : Prop := 1 ≤ n ∧ n ≤ 14

/-- Well-formedness of a command: the straps are four pins (10 R169), a peer is a station (01 R13), a peer claim has a
station and a claim number from 1 to 65535 (03 R44), a frame holds no more body bytes than its length field can count (01 R1),
and the configuration memory gives at most as many bytes as the header's length can name (10 section 10.6). -/
def WellFormed : Instr → Prop
  | .start straps _ _ => straps < 16
  | .imageLoadEnd (some bytes) _ => bytes.length ≤ 65535
  | .imageLoadEnd none _ => True
  | .peerSilent n => isStation n
  | .frameReceived _ f => f.body.length ≤ 255
  | .peerClaimExpiry origin claim => isStation origin ∧ 1 ≤ claim ∧ claim ≤ 65535
  | .scanWritesDone _ => True
  | .secondTick => True
  | .frameTaken _ => True
  | .busyAsserted => True
  | .idleGapExpiry => True
  | .backoffExpiry _ => True
  | .transmissionEnd => True
  | .echoWindowExpiry => True
  | .sweepTick => True
  | .tagReport _ _ => True
  | .tagGraceExpiry _ => True
  | .claimRenewalExpiry _ => True
  | .claimHoldOffExpiry _ => True
  | .listenTimerExpiry => True
  | .phaseChange _ _ _ _ => True
  | .rateTimeout _ => True
  | .overrateExpiry _ => True
  | .noFlowExpiry _ => True
  | .switchChange _ _ _ => True
  | .settleExpiry _ _ => True
  | .overrunWindowExpiry _ => True
  | .primeExpiry _ => True
  | .rundownExpiry _ => True
  | .pumpWaitExpiry _ => True
  | .emergencyAsserted => True
  | .emergencyDeasserted => True
  | .powerFailWarning => True
  | .powerFailDeasserted => True
  | .nozzleLift _ => True
  | .nozzleHang _ => True
  | .writeStart => True
  | .writeComplete => True
  | .sampleEvent _ => True
  | .stockTimerExpiry => True
  | .bayreqRepeatExpiry => True
  | .grantExpiry _ => True
  | .releaseTimerExpiry _ => True
  | .responseSent => True
  | .invalidRequest _ => True
  | .status => True
  | .hose _ => True
  | .preset _ _ => True
  | .stop _ => True
  | .keyed _ _ => True
  | .hold _ _ => True
  | .unhold _ => True
  | .shift => True
  | .restock => True
  | .restockCancel => True
  | .restockDone => True
  | .delivery _ _ => True
  | .readlog _ => True
  | .release _ => True
  | .accounts => True
  | .peers => True
  | .diag => True
  | .events => True
  | .reload => True

end Sys2Proof
end

