-- ==== Sys2Proof/Laws/PerInstr.lean ====
section
/-! SUPPORT. The statement made per command: no word of any width spells it, since no row of spec/opcode_table.json gives bits. -/

namespace Sys2Proof.Laws.F

open Sys2Proof

/-- No word spells the command (spec/opcode_table.json: every row's list of fields is empty). -/
def Statement (c : Instr) : Prop := ∀ nbits w : Nat, decodeTableWord nbits w ≠ some c

theorem statement_of (c : Instr) : Statement c := fun _ _ => Option.some_ne_none c |>.symm

theorem start (straps : Nat) (scanDone : Nat) (fate : WriteFate) : Statement (.start straps scanDone fate) := statement_of _
theorem imageLoadEnd (store : Option (List Byte)) (r : Readings) : Statement (.imageLoadEnd store r) := statement_of _
theorem scanWritesDone (r : Readings) : Statement (.scanWritesDone r) := statement_of _
theorem secondTick : Statement (.secondTick) := statement_of _
theorem peerSilent (station : Nat) : Statement (.peerSilent station) := statement_of _
theorem frameTaken (busy : Bool) : Statement (.frameTaken busy) := statement_of _
theorem busyAsserted : Statement (.busyAsserted) := statement_of _
theorem idleGapExpiry : Statement (.idleGapExpiry) := statement_of _
theorem backoffExpiry (busy : Bool) : Statement (.backoffExpiry busy) := statement_of _
theorem transmissionEnd : Statement (.transmissionEnd) := statement_of _
theorem echoWindowExpiry : Statement (.echoWindowExpiry) := statement_of _
theorem frameReceived (elapsed : Nat) (f : Frame) : Statement (.frameReceived elapsed f) := statement_of _
theorem sweepTick : Statement (.sweepTick) := statement_of _
theorem tagReport (h : HoseId) (report : TagReport) : Statement (.tagReport h report) := statement_of _
theorem tagGraceExpiry (h : HoseId) : Statement (.tagGraceExpiry h) := statement_of _
theorem peerClaimExpiry (origin : Nat) (claim : Nat) : Statement (.peerClaimExpiry origin claim) := statement_of _
theorem claimRenewalExpiry (h : HoseId) : Statement (.claimRenewalExpiry h) := statement_of _
theorem claimHoldOffExpiry (h : HoseId) : Statement (.claimHoldOffExpiry h) := statement_of _
theorem listenTimerExpiry : Statement (.listenTimerExpiry) := statement_of _
theorem phaseChange (h : HoseId) (levelA : Bool) (levelB : Bool) (elapsed : Nat) : Statement (.phaseChange h levelA levelB elapsed) := statement_of _
theorem rateTimeout (h : HoseId) : Statement (.rateTimeout h) := statement_of _
theorem overrateExpiry (h : HoseId) : Statement (.overrateExpiry h) := statement_of _
theorem noFlowExpiry (h : HoseId) : Statement (.noFlowExpiry h) := statement_of _
theorem switchChange (h : HoseId) (v : ValveId) (p : Position) : Statement (.switchChange h v p) := statement_of _
theorem settleExpiry (h : HoseId) (v : ValveId) : Statement (.settleExpiry h v) := statement_of _
theorem overrunWindowExpiry (h : HoseId) : Statement (.overrunWindowExpiry h) := statement_of _
theorem primeExpiry (p : PumpId) : Statement (.primeExpiry p) := statement_of _
theorem rundownExpiry (p : PumpId) : Statement (.rundownExpiry p) := statement_of _
theorem pumpWaitExpiry (h : HoseId) : Statement (.pumpWaitExpiry h) := statement_of _
theorem emergencyAsserted : Statement (.emergencyAsserted) := statement_of _
theorem emergencyDeasserted : Statement (.emergencyDeasserted) := statement_of _
theorem powerFailWarning : Statement (.powerFailWarning) := statement_of _
theorem powerFailDeasserted : Statement (.powerFailDeasserted) := statement_of _
theorem nozzleLift (h : HoseId) : Statement (.nozzleLift h) := statement_of _
theorem nozzleHang (h : HoseId) : Statement (.nozzleHang h) := statement_of _
theorem writeStart : Statement (.writeStart) := statement_of _
theorem writeComplete : Statement (.writeComplete) := statement_of _
theorem sampleEvent (r : Readings) : Statement (.sampleEvent r) := statement_of _
theorem stockTimerExpiry : Statement (.stockTimerExpiry) := statement_of _
theorem bayreqRepeatExpiry : Statement (.bayreqRepeatExpiry) := statement_of _
theorem grantExpiry (bay : BayId) : Statement (.grantExpiry bay) := statement_of _
theorem releaseTimerExpiry (bay : BayId) : Statement (.releaseTimerExpiry bay) := statement_of _
theorem responseSent : Statement (.responseSent) := statement_of _
theorem invalidRequest (what : BadMessage) : Statement (.invalidRequest what) := statement_of _
theorem status : Statement (.status) := statement_of _
theorem hose (h : Field) : Statement (.hose h) := statement_of _
theorem preset (h : Field) (volume : Field) : Statement (.preset h volume) := statement_of _
theorem stop (h : Field) : Statement (.stop h) := statement_of _
theorem keyed (h : Field) (machine : Field) : Statement (.keyed h machine) := statement_of _
theorem hold (machine : Field) (reason : Field) : Statement (.hold machine reason) := statement_of _
theorem unhold (machine : Field) : Statement (.unhold machine) := statement_of _
theorem shift : Statement (.shift) := statement_of _
theorem restock : Statement (.restock) := statement_of _
theorem restockCancel : Statement (.restockCancel) := statement_of _
theorem restockDone : Statement (.restockDone) := statement_of _
theorem delivery (compartment : Field) (gross : Field) : Statement (.delivery compartment gross) := statement_of _
theorem readlog (sequence : Field) : Statement (.readlog sequence) := statement_of _
theorem release (sequence : Field) : Statement (.release sequence) := statement_of _
theorem accounts : Statement (.accounts) := statement_of _
theorem peers : Statement (.peers) := statement_of _
theorem diag : Statement (.diag) := statement_of _
theorem events : Statement (.events) := statement_of _
theorem reload : Statement (.reload) := statement_of _

end Sys2Proof.Laws.F
end

