-- ==== Sys2Proof/Laws/Receiving.lean ====
section
/-! SUPPORT. The receive filter (01 R8 to R12): what a frame that passes stages 1 to 5 does, and the change of a peer's entry. -/

namespace Sys2Proof.Machine

open Sys2Proof

theorem modify_of_getElem {α : Type} (l : List α) (i : Nat) (x : α) (h : l[i]? = some x) (g : α → α) :
    l.modify i g = l.set i (g x) := by
  apply List.ext_getElem?
  intro j
  rw [List.getElem?_modify, List.getElem?_set]
  by_cases hj : i = j
  · subst hj
    obtain ⟨hl, hx⟩ := List.getElem?_eq_some_iff.mp h
    simp [hl, hx]
  · simp [hj]

/-- The change of the entry of a peer (01 R13). -/
theorem Part.modPeer_of_entry (p : Part) (station : Nat) (e : Peer) (h : p.snc.peers[station - 1]? = some e) (g : Peer → Peer) :
    p.modPeer station g = p.setSnc { p.snc with peers := p.snc.peers.set (station - 1) (g e) } := by
  unfold Part.modPeer Part.modSnc
  simp only [modify_of_getElem _ _ _ h]

/-- Two changes of it, one after the other. -/
theorem Part.modPeer_modPeer (p : Part) (station : Nat) (e : Peer) (h : p.snc.peers[station - 1]? = some e) (g g' : Peer → Peer) :
    (p.modPeer station g).modPeer station g' = p.setSnc { p.snc with peers := p.snc.peers.set (station - 1) (g' (g e)) } := by
  have hl : station - 1 < p.snc.peers.length := (List.getElem?_eq_some_iff.mp h).1
  have hq : (p.snc.peers.set (station - 1) (g e))[station - 1]? = some (g e) := by simp [hl]
  rw [p.modPeer_of_entry station e h g]
  unfold Part.modPeer Part.modSnc
  simp only [Part.snc_setSnc, modify_of_getElem _ _ _ hq, List.set_set]
  rfl

/-- A frame of another station that passes stages 1 to 5 is heard with the notice its body spells (01 R8). -/
theorem exec_frameReceived_heard (s : State) (elapsed : Nat) (f : Frame) (i : Identity) (k : NoticeKind)
    (hj : s.part.snc.joined = true) (hi : s.part.identity = some i) (hb : badFrame f = false) (hs : f.site.toNat = i.siteCode)
    (h1 : 1 ≤ f.origin.toNat) (h14 : f.origin.toNat ≤ 14) (hne : f.origin.toNat ≠ s.part.station)
    (hk : kindOfCode f.kind.toNat = some k) (hl : f.bodyLength.toNat = bodyLengthOf k) :
    exec (.frameReceived elapsed f) s = s.goesTo (settle (s.part.reach (s.part.now + elapsed))
      ((s.part.reach (s.part.now + elapsed)).hear f.origin.toNat f.boot.toNat f.sequence.toNat (noticeOf k f.body))) := by
  have e1 : (s.part.reach (s.part.now + elapsed)).snc.joined = true := hj
  have e2 : (s.part.reach (s.part.now + elapsed)).identity = some i := hi
  have e3 : f.origin.toNat ≠ (s.part.reach (s.part.now + elapsed)).station := hne
  simp only [exec, execFrameReceived, exec_next]
  rw [if_pos e1]
  unfold Part.receive
  rw [if_neg (by simp [hb]), if_neg (by simp [e2, hs]), if_neg (by omega), if_neg e3, hk]
  simp only
  rw [if_neg (by omega)]

end Sys2Proof.Machine
end

