-- ==== Sys2Proof/Laws/Sampling.lean ====
section
/-! SUPPORT. The sample event (08 R142, R151, R152; 09 R156): what its low-level tests do to the hoses, and what it leaves of
the restock coordinator before the automatic trigger. -/

namespace Sys2Proof.Machine

open Sys2Proof

/-- q comes from p by changes that leave the arming flags alone and neither enter nor leave NORMAL. -/
structure RestockKept (p q : Part) : Prop where
  armed : q.rsc.armed = p.rsc.armed
  normal : q.rsc.state = .normal ↔ p.rsc.state = .normal

namespace RestockKept

variable {p q r : Part}

theorem refl : RestockKept p p := ⟨rfl, Iff.rfl⟩

theorem of_rsc (h : q.rsc = p.rsc) : RestockKept p q := by constructor <;> rw [h]

theorem trans (a : RestockKept p q) (b : RestockKept q r) : RestockKept p r := ⟨b.armed.trans a.armed, b.normal.trans a.normal⟩

theorem rsc_offer (p : Part) (n : Notice) (y : Bool) : (p.offer n y).rsc = p.rsc := by rw [Part.offer_shape]; simp

theorem of_drainTest (q : Part) : RestockKept q q.drainTest := by
  unfold Part.drainTest
  split
  · rename_i h
    unfold Part.enterRequested Part.requestBay
    split
    · constructor
      · rw [rsc_offer]; rfl
      · rw [rsc_offer, h.1]; simp [Part.setRestock]
    · constructor
      · rfl
      · rw [h.1]; simp [Part.setRestock]
  · exact refl

theorem of_endLoadout (q : Part) (x) : RestockKept q (q.endLoadout x) := by
  unfold Part.endLoadout; split
  · exact ⟨rfl, Iff.rfl⟩
  · exact refl

theorem of_dropClaim (q : Part) (h) : RestockKept q (q.dropClaim h) := by
  refine of_rsc ?_
  unfold Part.dropClaim Part.offerClosing; split
  · rw [rsc_offer]; simp
  · rfl

theorem step {f : Part} (a : RestockKept p q) (e : f.rsc = q.rsc) : RestockKept p f := a.trans (of_rsc e)

theorem of_stopBeforeFlow (q : Part) (h c) : RestockKept q (q.stopBeforeFlow h c) := by
  unfold Part.stopBeforeFlow
  split
  · exact refl
  · dsimp only
    refine RestockKept.trans ?_ (of_drainTest _)
    generalize hz : Part.superviseOff _ h = z
    have e1 : RestockKept q z := of_rsc (by rw [← hz]; simp [Part.superviseOff, Part.dropGrant, Part.withdraw])
    generalize hy : (z.dropClaim h).returnSlot _ = y
    have e2 : RestockKept q y := by rw [← hy]; exact (e1.trans (of_dropClaim z h)).step (by simp)
    generalize hw : y.endLoadout _ = w
    have e3 : RestockKept q w := by rw [← hw]; exact e2.trans (of_endLoadout _ _)
    exact e3.step (by simp)

theorem of_leaveCommitting (q : Part) (h) : RestockKept q (q.leaveCommitting h) := by
  unfold Part.leaveCommitting
  split
  · exact refl
  · exact (of_rsc (by simp)).trans (of_drainTest _)

theorem of_enterShut (q : Part) (h) : RestockKept q (q.enterShut h) := by
  unfold Part.enterShut
  dsimp only
  generalize hz : Part.dropGrant _ h = z
  have e : RestockKept q z := of_rsc (by rw [← hz]; simp [Part.superviseOff, Part.dropGrant])
  split
  · exact e.trans (of_leaveCommitting _ _)
  · exact e

theorem of_shutTest (q : Part) (h) : RestockKept q (q.shutTest h) := by
  unfold Part.shutTest; split
  · exact of_enterShut _ _
  · exact refl

theorem rsc_beginShutting (q : Part) (h) : (q.beginShutting h).rsc = q.rsc := by
  unfold Part.beginShutting; split <;> rfl

theorem of_takeCause (q : Part) (h c) : RestockKept q (q.takeCause h c) := by
  unfold Part.takeCause
  split
  · exact of_stopBeforeFlow _ _ _
  · exact of_stopBeforeFlow _ _ _
  · dsimp only
    exact RestockKept.trans (of_rsc (by rw [rsc_beginShutting]; rfl)) (of_shutTest _ _)
  all_goals exact of_rsc rfl

theorem of_moveValves (q : Part) (h) : RestockKept q (q.moveValves h) := by
  unfold Part.moveValves
  split
  · exact refl
  · dsimp only
    split
    · exact of_rsc rfl
    · split
      · exact RestockKept.trans (of_rsc (by rw [rsc_beginShutting]; rfl)) (of_takeCause _ _ _)
      · exact of_rsc rfl

theorem of_startFlow (q : Part) (h) : RestockKept q (q.startFlow h) := by
  unfold Part.startFlow
  split
  · exact RestockKept.trans (of_rsc (by simp)) (of_moveValves _ _)
  · exact refl

theorem of_startFlows (q : Part) (l) : RestockKept q (q.startFlows l) := by
  unfold Part.startFlows
  induction allHoses generalizing q with
  | nil => exact refl
  | cons h t ih =>
    rw [List.foldl_cons]
    split
    · exact (of_startFlow _ _).trans (ih _)
    · exact ih _

theorem rsc_wakePump (q : Part) (i) : (q.wakePump i).rsc = q.rsc := by unfold Part.wakePump; split <;> rfl

theorem rsc_grantLoop (i n) (q : Part) (l) : (grantLoop i n q l).1.rsc = q.rsc := by
  induction n generalizing q l with
  | zero => rfl
  | succ n ih =>
    unfold grantLoop
    split
    · rfl
    · split
      · rfl
      · rw [ih]; rfl

theorem rsc_arbitrate (q : Part) : q.arbitrate.1.rsc = q.rsc := by
  unfold Part.arbitrate
  split
  · rfl
  · dsimp only; rw [rsc_grantLoop, rsc_grantLoop, rsc_wakePump, rsc_wakePump]

theorem rsc_restPump (q : Part) (i) : (q.restPump i).rsc = q.rsc := by unfold Part.restPump; split <;> rfl

theorem of_settlePumps (n) (q : Part) : RestockKept q (settlePumps n q) := by
  induction n generalizing q with
  | zero => exact of_rsc (by simp only [settlePumps, rsc_restPump])
  | succ n ih =>
    unfold settlePumps
    dsimp only
    split
    · exact of_rsc (by rw [rsc_restPump, rsc_restPump, rsc_arbitrate])
    · exact ((of_rsc (rsc_arbitrate q)).trans (of_startFlows _ _)).trans (ih _)

theorem of_joinRequests (b q : Part) : RestockKept q (b.joinRequests q) := by
  unfold Part.joinRequests
  induction allHoses generalizing q with
  | nil => exact refl
  | cons h t ih =>
    rw [List.foldl_cons]
    refine RestockKept.trans (of_rsc ?_) (ih _)
    unfold Part.joinRequest
    split
    · unfold Part.queueOpening; split <;> rfl
    · split
      · unfold Part.queueCheckpoint Part.checkpoint; dsimp only; repeat' split
        all_goals rfl
      · rfl

theorem of_settleHoses (b q : Part) : RestockKept q (settleHoses b q) := (of_settlePumps 5 q).trans (of_joinRequests b _)

theorem of_stopLow (q : Part) (c) : RestockKept q (q.stopLow c) := by
  unfold Part.stopLow
  induction allHoses generalizing q with
  | nil => exact refl
  | cons h t ih =>
    rw [List.foldl_cons]
    split
    · exact (of_takeCause _ _ _).trans (ih _)
    · exact ih _

theorem of_lowTest (q : Part) (c st) : RestockKept q (q.lowTest c st) := by
  unfold Part.lowTest
  split
  · exact refl
  · split
    · split
      · exact of_rsc rfl
      · exact refl
    · split
      · refine RestockKept.trans ?_ (of_rsc (p := Part.stopLow _ c) (Part.rsc_event _ _))
        exact RestockKept.trans (of_rsc (Part.rsc_modComp q c _)) (of_stopLow _ _)
      · exact refl

theorem rsc_handTemperatures (q : Part) : q.handTemperatures.rsc = q.rsc := by
  unfold Part.handTemperatures
  induction allHoses generalizing q with
  | nil => rfl
  | cons h t ih =>
    rw [List.foldl_cons, ih]
    split <;> rfl

theorem of_handTemperatures (q : Part) (f g : Compartment → Compartment) : RestockKept q ((q.modComp .a f).modComp .b
    g).handTemperatures :=
  of_rsc (by rw [rsc_handTemperatures, Part.rsc_modComp, Part.rsc_modComp])

theorem of_takeSample (q : Part) (r) : RestockKept q (q.takeSample r) := by
  unfold Part.takeSample
  split
  · exact refl
  · dsimp only
    exact ((of_handTemperatures _ _ _).trans (of_lowTest _ _ _)).trans (of_lowTest _ _ _)

theorem rsc_recordVariance (q : Part) (c) : (q.recordVariance c).rsc = q.rsc := by
  unfold Part.recordVariance Part.wholeRecord
  dsimp only
  repeat' split
  all_goals rfl

theorem rsc_varianceTest (q : Part) (c st m) : (q.varianceTest c st m).rsc = q.rsc := by
  unfold Part.varianceTest
  split
  · split <;> rfl
  · split
    · exact rsc_recordVariance _ _
    · rfl

theorem rsc_stockTests (q : Part) (c st) : (q.stockTests c st).rsc = q.rsc := by
  unfold Part.stockTests
  dsimp only
  split
  · split
    · split
      · rw [rsc_recordVariance]; rfl
      · rw [rsc_varianceTest]; rfl
    · rw [rsc_varianceTest]; rfl
  · rfl

end RestockKept

/-- The history after a sample, its newest eight. -/
theorem joinHistory_eq (l : List Nat) (v : Nat) : joinHistory l v = (l ++ [v]).drop (l.length + 1 - 8) := by
  unfold joinHistory
  split
  · rw [List.drop_append_of_le_length (by omega), show l.length + 1 - 8 = l.length - 7 by omega]
  · rw [show l.length + 1 - 8 = 0 by omega, List.drop_zero]

theorem Compartment.openBook_same (c : Compartment) : c.openBook.gauge = c.gauge ∧ c.openBook.low = c.low ∧ c.openBook.history =
    c.history := by
  unfold Compartment.openBook; split <;> exact ⟨rfl, rfl, rfl⟩

/-- The gauge of a sample event (08 R144). -/
theorem Compartment.gauge_sample (cs : CompSettings) (lv t : Int) (k : Compartment) :
   let history := (k.history ++ [strapVolume cs.strapping (max 0 (min 4000 lv)).toNat]).drop (k.history.length + 1 - 8)
   (Compartment.sample cs lv t k).gauge = some (history.sum / history.length) ∧ (Compartment.sample cs lv t k).low = k.low := by
  intro history
  unfold Compartment.sample
  dsimp only
  obtain ⟨a, b, -⟩ := Compartment.openBook_same { k with
      history := joinHistory k.history (strapVolume cs.strapping (clampLevel lv).1), gauge := gaugeOf (joinHistory k.history
          (strapVolume cs.strapping (clampLevel lv).1)), settled := settledOf cs (joinHistory k.history (strapVolume cs.strapping
              (clampLevel lv).1)), temperature := some (clampTemp t).1
      receiptCheck := k.receiptCheck.map (bump 8)
      samples := bump max32 k.samples
      clampedLevels := if (clampLevel lv).2 then bump max16 k.clampedLevels else k.clampedLevels
      clampedTemps := if (clampTemp t).2 then bump max16 k.clampedTemps else k.clampedTemps }
  refine ⟨a.trans ?_, b⟩
  have hl : (clampLevel lv).1 = (max 0 (min 4000 lv)).toNat := by
    unfold clampLevel clampReading; dsimp only; split <;> (try split) <;> simp <;> omega
  rw [hl, joinHistory_eq]
  unfold gaugeOf
  rw [if_neg]
  intro hh
  have := congrArg List.length hh
  simp at this
  omega

theorem Part.stopLow_fold (p : Part) (c) : p.stopLow c = allHoses.foldl (fun q h => if p.hoseComp h = some c then q.takeCause h
    .lowStock else q) p := by
  unfold Part.stopLow
  suffices ∀ (l : List HoseId) (q : Part), q.cfl = p.cfl → l.foldl (fun q h => if q.hoseComp h = some c then q.takeCause h
      .lowStock else q) q = l.foldl (fun q h => if p.hoseComp h = some c then q.takeCause h .lowStock else q) q from this _ _ rfl
  intro l
  induction l with
  | nil => exact fun _ _ => rfl
  | cons h t ih =>
    intro q hq
    simp only [List.foldl_cons]
    have e : q.hoseComp h = p.hoseComp h := by unfold Part.hoseComp Part.hoseSettings; rw [hq]
    rw [e]
    split
    · exact ih _ (by rw [((Stays.refl (free := True)).takeCause h .lowStock).cfl_eq, hq])
    · exact ih _ hq

/-- A hose of the compartment takes LOW_STOCK, another hose is left alone (08 R151). -/
theorem Part.hose_stopLow (p : Part) (c h) : (p.hoseComp h ≠ some c → (p.stopLow c).hose h = p.hose h)
   ∧ (p.hoseComp h = some c → ∃ q : Part, q.hose h = p.hose h ∧ (p.stopLow c).hose h = (q.takeCause h .lowStock).hose h) := by
  rw [Part.stopLow_fold]
  obtain ⟨q, h1, h2⟩ := hose_fold (fun q h => if p.hoseComp h = some c then q.takeCause h .lowStock else q) (by
    intro q h k hk; split
    · exact Part.hose_takeCause_ne _ hk _
    · rfl) p h
  rw [h2]
  refine ⟨fun hc => ?_, fun hc => ⟨q, h1, ?_⟩⟩
  · rw [if_neg hc, h1]
  · rw [if_pos hc]

/-- With every hose of the compartment idle nothing is stopped. -/
theorem Part.stopLow_idle (p : Part) (c) (hi : ∀ h, p.hoseComp h = some c → (p.hose h).dsc = .idle ∨ (p.hose h).dsc = .lifted ∨
    (p.hose h).dsc = .done) : p.stopLow c = p := by
  rw [Part.stopLow_fold]
  induction allHoses with
  | nil => rfl
  | cons h t ih =>
    rw [List.foldl_cons]
    split
    · have : p.takeCause h .lowStock = p := by unfold Part.takeCause; rcases hi h ‹_› with h | h | h <;> rw [h]
      rw [this, ih]
    · exact ih

theorem Part.stays_stopLow (p : Part) (c) : Stays True p (p.stopLow c) := by
  rw [Part.stopLow_fold]
  refine (Stays.refl).foldHoses _ _ ?_
  intro r h hr
  split
  · exact hr.takeCause h _
  · exact hr

/-- What the low-level test does to a hose (08 R151, R152). -/
theorem Part.hose_lowTest (p : Part) (c cs h) (g : Nat) (hg : (p.comp c).gauge = some g) :
   ((p.hoseComp h ≠ some c ∨ (p.comp c).low = true ∨ cs.cutOff * 100 < g) → (p.lowTest c cs).hose h = p.hose h)
   ∧ (p.hoseComp h = some c → (p.comp c).low = false → g ≤ cs.cutOff * 100 → ∃ q : Part, q.hose h = p.hose h ∧ (p.lowTest c
       cs).hose h = (q.takeCause h .lowStock).hose h) := by
  unfold Part.lowTest
  rw [hg]
  simp only
  refine ⟨fun hh => ?_, fun h1 h2 h3 => ?_⟩
  · split
    · split <;> rfl
    · rename_i hl
      split
      · rename_i hl2
        rcases hh with hh | hh | hh
        · exact ((Part.hose_stopLow (p.modComp c fun k => { k with low := true }) c h).1 hh)
        · exact absurd hh hl
        · omega
      · rfl
  · rw [if_neg (by rw [h2]; decide), if_pos h3]
    exact (Part.hose_stopLow (p.modComp c fun k => { k with low := true }) c h).2 h1

theorem Part.lowTest_others (p : Part) (c cs) : (p.lowTest c cs).cfl = p.cfl ∧ (p.lowTest c cs).now = p.now ∧ ∀ d, d ≠ c →
    (p.lowTest c cs).comp d = p.comp d := by
  unfold Part.lowTest
  split
  · exact ⟨rfl, rfl, fun _ _ => rfl⟩
  · split
    · split
      · refine ⟨rfl, rfl, fun d hd => ?_⟩
        cases c <;> cases d <;> first | exact absurd rfl hd | rfl
      · exact ⟨rfl, rfl, fun _ _ => rfl⟩
    · split
      · have z := Part.stays_stopLow (p.modComp c fun k => { k with low := true }) c
        refine ⟨z.cfl_eq, z.now_eq, fun d hd => ?_⟩
        have : ((Part.stopLow (p.modComp c fun k => { k with low := true }) c).event (.low c true)).comp d = (p.modComp c fun k
            => { k with low := true }).comp d := by
          unfold Part.comp; rw [Part.inv_event, z.inv_eq]
        rw [this]
        cases c <;> cases d <;> first | exact absurd rfl hd | rfl
      · exact ⟨rfl, rfl, fun _ _ => rfl⟩

/-- The hand-over of temperatures changes meters alone. -/
theorem Part.handTemperatures_others (p : Part) : p.handTemperatures.cfl = p.cfl ∧ p.handTemperatures.now = p.now ∧
    p.handTemperatures.inv = p.inv ∧
   ∀ h, { p.handTemperatures.hose h with meter := Meter.start } = { p.hose h with meter := Meter.start } := by
  unfold Part.handTemperatures
  induction allHoses generalizing p with
  | nil => exact ⟨rfl, rfl, rfl, fun _ => rfl⟩
  | cons h t ih =>
    rw [List.foldl_cons]
    obtain ⟨a, b, c, d⟩ := ih (match (p.hose h).dsc, p.hoseComp h with
    | .flowing, some c => p.modMeter h (Meter.addTemperature ((p.comp c).temperature.getD unknownTemp))
    | _, _ => p)
    refine ⟨a.trans ?_, b.trans ?_, c.trans ?_, fun k => (d k).trans ?_⟩
    · split <;> rfl
    · split <;> rfl
    · split <;> rfl
    · split
      · by_cases hk : k = h
        · subst hk; simp
        · rw [Part.hose_modMeter_ne _ _ hk]
      · rfl

theorem Part.hoses_wholeRecord (p : Part) (c o k) : (p.wholeRecord c o k).hoses = p.hoses := by
  unfold Part.wholeRecord
  dsimp only
  repeat' split
  all_goals simp [Part.joinWrite, Part.takeSequence]

theorem Part.recordVariance_others (p : Part) (c) : (p.recordVariance c).hoses = p.hoses ∧ (p.recordVariance c).cfl = p.cfl ∧
    (p.recordVariance c).now = p.now := by
  unfold Part.recordVariance
  dsimp only
  generalize hz : p.wholeRecord _ _ _ = z
  have s : Stays True p z := by rw [← hz]; exact Stays.refl.wholeRecord _ _ _
  exact ⟨by rw [← Part.hoses_wholeRecord p, hz]; rfl, s.cfl_eq, s.now_eq⟩

theorem Part.varianceTest_others (p : Part) (c st m) : (p.varianceTest c st m).hoses = p.hoses ∧ (p.varianceTest c st m).cfl =
    p.cfl ∧ (p.varianceTest c st m).now = p.now := by
  unfold Part.varianceTest
  split
  · split <;> exact ⟨rfl, rfl, rfl⟩
  · split
    · exact Part.recordVariance_others _ _
    · exact ⟨rfl, rfl, rfl⟩

/-- The receipt checks and variance tests leave the hoses alone. -/
theorem Part.stockTests_others (p : Part) (c st) : (p.stockTests c st).hoses = p.hoses ∧ (p.stockTests c st).cfl = p.cfl ∧
    (p.stockTests c st).now = p.now := by
  unfold Part.stockTests
  dsimp only
  split
  · split
    · split
      · exact Part.recordVariance_others _ _
      · exact Part.varianceTest_others _ _ _ _
    · exact Part.varianceTest_others _ _ _ _
  · exact ⟨rfl, rfl, rfl⟩

theorem hose_settleHoses (b p : Part) {k : HoseId} (hd : (p.hose k).dsc ≠ .awaitPump)
    (hk : (p.hose k).begun = true → (b.hose k).begun = true) : (settleHoses b p).hose k = p.hose k := by
  have e := hose_settlePumps 5 p hd
  rw [settleHoses, Part.hose_joinRequests _ _ (by rw [e]; exact hk), e]

/-- What the automatic trigger does (09 R156). -/
theorem Part.restockTrigger_spec (X : Part) (st : Settings) (hs : X.cfl.settings = some st) :
   (X.restockTrigger st).hoses = X.hoses ∧ (X.restockTrigger st).inv = X.inv
   ∧ (st.identity.role = .depot → (X.restockTrigger st).rsc = X.rsc)
   ∧ (st.identity.role = .bowser →
      let armed := fun c => X.rsc.armed.get c || rearms (X.comp c) (st.comps.get c)
      let low := fun c => wantsRestock (X.comp c) (st.comps.get c)
      let fires := X.rsc.state = .normal ∧ ∃ c, (armed c && low c) = true
      (fires → (∀ c, (X.restockTrigger st).rsc.armed.get c = (armed c && !low c))
        ∧ (drained X = true → (X.restockTrigger st).rsc.state = .requested ∧ (X.restockTrigger st).rsc.repeatTimer = some (X.now
            + 1000000))
        ∧ (drained X = false → (X.restockTrigger st).rsc.state = .draining))
      ∧ (¬ fires → (∀ c, (X.restockTrigger st).rsc.armed.get c = armed c) ∧ (X.restockTrigger st).rsc.state = X.rsc.state)) := by
  unfold Part.restockTrigger
  by_cases hr : st.identity.role = .bowser
  · rw [if_pos hr]
    dsimp only
    have hex : (∃ c, ((X.rsc.armed.get c || rearms (X.comp c) (st.comps.get c)) && wantsRestock (X.comp c) (st.comps.get c)) = true) ↔
       ((X.rsc.armed.a || rearms X.inv.comps.a st.comps.a) && wantsRestock X.inv.comps.a st.comps.a || (X.rsc.armed.b || rearms
           X.inv.comps.b st.comps.b) && wantsRestock X.inv.comps.b st.comps.b) = true := by
      rw [Bool.or_eq_true]
      constructor
      · rintro ⟨c, hc⟩; cases c
        · exact .inl hc
        · exact .inr hc
      · rintro (h | h)
        · exact ⟨.a, h⟩
        · exact ⟨.b, h⟩
    rw [hex]
    split
    · rename_i hf
      generalize hY : (X.setRsc { X.rsc with armed := ⟨(X.rsc.armed.a || rearms X.inv.comps.a st.comps.a) && !wantsRestock
          X.inv.comps.a st.comps.a, (X.rsc.armed.b || rearms X.inv.comps.b st.comps.b) && !wantsRestock X.inv.comps.b st.comps.b⟩ }) = Y
      have z := (Stays.refl (free := True) (p := Y)).enterDraining
      have yd : drained Y = drained X := by rw [← hY]; rfl
      have yr : (Y.enterDraining).rsc.armed = Y.rsc.armed ∧ (drained X = true → Y.enterDraining.rsc.state = .requested ∧
          Y.enterDraining.rsc.repeatTimer = some (X.now + 1000000)) ∧ (drained X = false → Y.enterDraining.rsc.state = .draining) := by
        unfold Part.enterDraining
        rw [yd]
        split
        · rename_i hd
          unfold Part.enterRequested Part.requestBay
          have : (Y.setRestock .requested).cfl.settings = some st := by rw [← hY]; exact hs
          rw [this]
          simp only
          rw [RestockKept.rsc_offer]
          refine ⟨rfl, fun _ => ⟨rfl, ?_⟩, fun h => by rw [hd] at h; cases h⟩
          rw [← hY]; rfl
        · rename_i hd
          exact ⟨rfl, fun h => absurd h hd, fun _ => rfl⟩
      refine ⟨?_, ?_, fun h => (by rw [hr] at h; cases h), fun _ => ⟨fun _ => ⟨fun c => ?_, yr.2⟩, fun h => absurd hf h⟩⟩
      · have : Y.enterDraining.hoses = Y.hoses := by
          have e : ∀ k, Y.enterDraining.hose k = Y.hose k := by
            intro k; unfold Part.enterDraining; split
            · simp
            · rfl
          have e1 := e .h1; have e2 := e .h2; have e3 := e .h3; have e4 := e .h4
          have ext : ∀ A B : Quad Hose, A.get .h1 = B.get .h1 → A.get .h2 = B.get .h2 → A.get .h3 = B.get .h3 → A.get .h4 = B.get
              .h4 → A = B := by
            intro A B a b c d; cases A; cases B
            simp only [Quad.get] at a b c d
            subst a b c d; rfl
          exact ext _ _ e1 e2 e3 e4
        rw [this, ← hY]; rfl
      · rw [z.inv_eq, ← hY]; rfl
      · rw [yr.1, ← hY]; cases c <;> rfl
    · rename_i hf
      refine ⟨rfl, rfl, fun h => (by rw [hr] at h; cases h), fun _ => ⟨fun h => absurd h hf, fun _ => ⟨fun c => ?_, rfl⟩⟩⟩
      cases c <;> rfl
  · rw [if_neg hr]
    exact ⟨rfl, rfl, fun _ => rfl, fun h => absurd h hr⟩

end Sys2Proof.Machine
end

