-- ==== Sys2Proof/Laws/Reload.lean ====
section
/-! SUPPORT. A good RELOAD (10 R176; 09 R168): what its sample event leaves where no hose has a transaction, and what the restock
coordinator keeps. -/

namespace Sys2Proof.Machine

open Sys2Proof

/-- q comes from p by changes that leave the hoses, the pumps, the restock coordinator, the settings and the books alone: what a sample
event does where no hose has a transaction. -/
structure SameRest (p q : Part) : Prop where
  hoses : q.hoses = p.hoses
  pumps : q.pumps = p.pumps
  rsc : q.rsc = p.rsc
  cfl : q.cfl = p.cfl
  books : ∀ k, (q.comp k).openingBook = (p.comp k).openingBook ∧ (q.comp k).book = (p.comp k).book

namespace SameRest

variable {p q r : Part}

theorem trans (a : SameRest p q) (b : SameRest q r) : SameRest p r :=
  ⟨b.hoses.trans a.hoses, b.pumps.trans a.pumps, b.rsc.trans a.rsc, b.cfl.trans a.cfl,
    fun k => ⟨(b.books k).1.trans (a.books k).1, (b.books k).2.trans (a.books k).2⟩⟩

theorem refl : SameRest p p := ⟨rfl, rfl, rfl, rfl, fun _ => ⟨rfl, rfl⟩⟩

theorem of_event (p : Part) (e) : SameRest p (p.event e) := ⟨rfl, rfl, rfl, rfl, fun _ => ⟨rfl, rfl⟩⟩

theorem of_modComp (p : Part) (c f)
    (hf : (f (p.comp c)).openingBook = (p.comp c).openingBook ∧ (f (p.comp c)).book = (p.comp c).book) :
    SameRest p (p.modComp c f) := by
  refine ⟨rfl, rfl, rfl, rfl, fun k => ?_⟩
  cases c <;> cases k <;> first | exact hf | exact ⟨rfl, rfl⟩

theorem of_offer (p : Part) (n y) : SameRest p (p.offer n y) := by
  rw [Part.offer_shape]; exact ⟨by simp, by simp, by simp, by simp, fun k => by simp [Part.comp]⟩

theorem of_offerStock (p : Part) : SameRest p p.offerStock := by
  unfold Part.offerStock; split
  · exact of_offer _ _ _
  · exact refl

theorem of_wholeRecord (p : Part) (c o k) : SameRest p (p.wholeRecord c o k) := by
  unfold Part.wholeRecord
  dsimp only
  repeat' split
  all_goals exact ⟨rfl, rfl, rfl, rfl, fun _ => ⟨rfl, rfl⟩⟩

theorem of_recordVariance (p : Part) (c) : SameRest p (p.recordVariance c) := by
  unfold Part.recordVariance
  dsimp only
  exact ((of_wholeRecord _ _ _ _).trans (of_event _ _)).trans (of_modComp _ _ _ ⟨rfl, rfl⟩)

theorem of_varianceTest (p : Part) (c st m) : SameRest p (p.varianceTest c st m) := by
  unfold Part.varianceTest
  split
  · split
    · exact of_modComp _ _ _ ⟨rfl, rfl⟩
    · exact refl
  · split
    · exact of_recordVariance _ _
    · exact refl

theorem of_stockTests (p : Part) (c st) : SameRest p (p.stockTests c st) := by
  unfold Part.stockTests
  dsimp only
  split
  · split
    · split
      · exact ((of_modComp _ _ _ ⟨rfl, rfl⟩).trans (of_modComp _ _ _ ⟨rfl, rfl⟩)).trans (of_recordVariance _ _)
      · exact ((of_modComp _ _ _ ⟨rfl, rfl⟩).trans (of_modComp _ _ _ ⟨rfl, rfl⟩)).trans (of_varianceTest _ _ _ _)
    · exact (of_modComp _ _ _ ⟨rfl, rfl⟩).trans (of_varianceTest _ _ _ _)
  · exact refl

theorem of_lowTest (p : Part) (c st) (hi : ∀ h, (p.hose h).dsc = .idle ∨ (p.hose h).dsc = .lifted) :
    SameRest p (p.lowTest c st) := by
  unfold Part.lowTest
  split
  · exact refl
  · split
    · split
      · exact (of_modComp _ _ _ ⟨rfl, rfl⟩).trans (of_event _ _)
      · exact refl
    · split
      · rw [Part.stopLow_idle]
        · exact (of_modComp _ _ _ ⟨rfl, rfl⟩).trans (of_event _ _)
        · intro h _
          have : (p.modComp c fun k => { k with low := true }).hose h = p.hose h := by unfold Part.hose; rw [(of_modComp p c _
              ⟨rfl, rfl⟩).hoses]
          rw [this]
          exact (hi h).imp id .inl
      · exact refl

theorem idle (a : SameRest p q) (hi : ∀ h, (p.hose h).dsc = .idle ∨ (p.hose h).dsc = .lifted) :
    ∀ h, (q.hose h).dsc = .idle ∨ (q.hose h).dsc = .lifted := fun h => by
  unfold Part.hose; rw [a.hoses]; exact hi h

theorem of_handTemperatures (p : Part) (hi : ∀ h, (p.hose h).dsc = .idle ∨ (p.hose h).dsc = .lifted) :
    p.handTemperatures = p := by
  unfold Part.handTemperatures
  induction allHoses with
  | nil => rfl
  | cons h t ih =>
    rw [List.foldl_cons]
    rcases hi h with e | e <;> simp only [e] <;> exact ih

theorem of_sample (p : Part) (c cs lv tp) (hh : (p.comp c).history = []) :
    SameRest p (p.modComp c (Compartment.sample cs lv tp)) := by
  refine of_modComp _ _ _ ?_
  unfold Compartment.sample Compartment.openBook
  dsimp only
  rw [hh, if_neg]
  · exact ⟨rfl, rfl⟩
  · simp [joinHistory, settledOf]

/-- The first part of a sample event, its first sample after the histories were emptied. -/
theorem of_takeSample (p : Part) (r) (hh : ∀ k, (p.comp k).history = []) (hi : ∀ h, (p.hose h).dsc = .idle ∨ (p.hose h).dsc = .lifted) :
    SameRest p (p.takeSample r) := by
  unfold Part.takeSample
  split
  · exact refl
  · rename_i st _
    dsimp only
    have a := (of_sample p .a st.comps.a r.levelA r.tempA (hh _)).trans (of_sample _ .b st.comps.b r.levelB r.tempB (hh .b))
    rw [of_handTemperatures _ (a.idle hi)]
    have b := a.trans (of_lowTest _ .a st.comps.a (a.idle hi))
    exact b.trans (of_lowTest _ .b _ (b.idle hi))

end SameRest

/-- With nobody waiting the grant step grants nothing. -/
theorem Part.grantStep_empty (n : Nat) (p : Part) (h : p.rsc.queue = []) : p.grantStep n = p := by
  cases n with
  | zero => rfl
  | succ n => unfold Part.grantStep; rw [h]; split <;> simp_all

/-- With no bay free the grant step grants nothing (09 R162). -/
theorem Part.grantStep_full (n) (p : Part) (h : p.freeBay = none) : p.grantStep n = p := by
  cases n with
  | zero => rfl
  | succ n => unfold Part.grantStep; rw [h]

/-- The sample tests at a depot. -/
theorem SameRest.of_testSample (p : Part) (h : ∀ st, p.cfl.settings = some st → st.identity.role = .depot) :
    SameRest p p.testSample := by
  unfold Part.testSample
  split
  · exact .refl
  · rename_i st hs
    unfold Part.restockTrigger
    rw [if_neg (by rw [h st hs]; simp)]
    exact (of_stockTests _ _ _).trans (of_stockTests _ _ _)

/-- The restock coordinator after the tests at a bowser on which no hose has a transaction. -/
theorem Part.testSample_bowser (p : Part) (hi : ∀ h, (p.hose h).dsc = .idle ∨ (p.hose h).dsc = .lifted) (hs : p.rsc.state = .normal) :
    p.testSample.hoses = p.hoses ∧ p.testSample.pumps = p.pumps
    ∧ p.testSample.rsc.queue = p.rsc.queue ∧ p.testSample.rsc.bays = p.rsc.bays ∧ p.testSample.rsc.grant = p.rsc.grant
    ∧ (p.testSample.rsc.state = .normal ∨ p.testSample.rsc.state = .requested) := by
  unfold Part.testSample
  split
  · exact ⟨rfl, rfl, rfl, rfl, rfl, .inl hs⟩
  · rename_i st _
    have a := (SameRest.of_stockTests p .a st.comps.a).trans (SameRest.of_stockTests _ .b st.comps.b)
    generalize (p.stockTests .a st.comps.a).stockTests .b st.comps.b = x at a
    rw [← a.hoses, ← a.pumps, ← a.rsc]
    rw [← a.rsc] at hs
    have hx := a.idle hi
    clear a
    unfold Part.restockTrigger
    split
    · dsimp only
      split
      · unfold Part.enterDraining
        rw [if_pos]
        · unfold Part.enterRequested Part.requestBay
          split
          · rw [Part.offer_shape]
            exact ⟨by simp [Part.setRestock], by simp [Part.setRestock], by simp [Part.setRestock], by simp [Part.setRestock], by
                simp [Part.setRestock], .inr (by simp [Part.setRestock])⟩
          · exact ⟨rfl, rfl, rfl, rfl, rfl, .inr rfl⟩
        · unfold drained
          rw [allHoses_all]
          intro h
          rcases hx h with e | e <;> simp [Part.hose, Part.setRsc] at e ⊢ <;> simp [e]
      · exact ⟨rfl, rfl, rfl, rfl, rfl, .inl hs⟩
    · exact ⟨rfl, rfl, rfl, rfl, rfl, .inl hs⟩

/-- Where no compartment would arm or trigger, the tests leave the restock coordinator alone (09 R156). -/
theorem Part.testSample_untriggered (p : Part) (st : Settings) (hs : p.cfl.settings = some st)
    (hk : ∀ k, (p.comp k).openingBook = none ∨ p.rsc.armed.get k = true ∧ ((st.comps.get k).autoRequest = false
      ∨ (((st.comps.get k).restockLevel * 100 : Nat) : Int) ≤ (p.comp k).book)) : p.testSample.rsc = p.rsc ∧ p.testSample.hoses =
          p.hoses
    ∧ p.testSample.pumps = p.pumps := by
  unfold Part.testSample
  rw [hs]
  dsimp only
  have a := (SameRest.of_stockTests p .a st.comps.a).trans (SameRest.of_stockTests _ .b st.comps.b)
  generalize (p.stockTests .a st.comps.a).stockTests .b st.comps.b = x at a
  rw [← a.hoses, ← a.pumps, ← a.rsc]
  have hx : ∀ k, (x.comp k).openingBook = none ∨ x.rsc.armed.get k = true ∧ ((st.comps.get k).autoRequest = false
      ∨ (((st.comps.get k).restockLevel * 100 : Nat) : Int) ≤ (x.comp k).book) := fun k => by
    rw [(a.books k).1, (a.books k).2, a.rsc]; exact hk k
  have e1 : ∀ k, (x.rsc.armed.get k || rearms (x.comp k) (st.comps.get k)) = x.rsc.armed.get k := fun k => by
    rcases hx k with h | h <;> simp [h, rearms]
  have e2 : ∀ k, wantsRestock (x.comp k) (st.comps.get k) = false := fun k => by
    rcases hx k with h | ⟨-, h | h⟩
    · simp [h, wantsRestock]
    · simp [h, wantsRestock]
    · unfold wantsRestock
      rw [decide_eq_false (by omega)]; simp
  unfold Part.restockTrigger
  split
  · have ea := e1 .a
    have eb := e1 .b
    have wa := e2 .a
    have wb := e2 .b
    simp only [ByComp.get, Part.comp] at ea eb wa wb
    dsimp only
    rw [ea, eb, wa, wb, if_neg (by simp)]
    exact ⟨rfl, rfl, rfl⟩
  · exact ⟨rfl, rfl, rfl⟩

theorem Part.dsc_readLines (p : Part) (h) : (p.readLines.hose h).dsc = (p.hose h).dsc := by
  unfold Part.readLines Part.hose
  cases h <;> simp only [Part.hoses_setHoses, Quad.map, Quad.get] <;> split <;> rfl

theorem Part.dsc_stopSupervision (p : Part) (h) : (p.stopSupervision.hose h).dsc = (p.hose h).dsc := by
  unfold Part.stopSupervision Part.hose
  cases h <;> simp only [Part.hoses_setHoses, Quad.map, Quad.get] <;> split <;> rfl

/-- What putting the image in force leaves. -/
theorem Part.putInForce_leaves (p : Part) (r st es) : (∀ h, ((p.putInForce r st es).hose h).dsc = (p.hose h).dsc)
    ∧ (p.putInForce r st es).pumps = p.pumps ∧ (p.putInForce r st es).cfl = p.cfl.loaded r
    ∧ (p.putInForce r st es).rsc = (p.reloadRole st.identity.role).rsc ∧ (p.putInForce r st es).inv = p.emptyHistories.inv := by
  have e : ∀ (q : Part) (x : Role), (q.reloadRole x).hoses = q.hoses ∧ (q.reloadRole x).pumps = q.pumps ∧ (q.reloadRole x).cfl = q.cfl
      ∧ (q.reloadRole x).inv = q.inv := by
    intro q x; unfold Part.reloadRole; dsimp only; split
    · split <;> exact ⟨rfl, rfl, rfl, rfl⟩
    · exact ⟨rfl, rfl, rfl, rfl⟩
  have e' : ∀ (q : Part) (x : Role), q.rsc = p.rsc → q.now = p.now → (q.reloadRole x).rsc = (p.reloadRole x).rsc := by
    intro q x h1 h2; unfold Part.reloadRole; dsimp only; rw [h1, h2]; split
    · split <;> rfl
    · rfl
  unfold Part.putInForce
  dsimp only
  refine ⟨fun h => ?_, ?_, ?_, ?_, ?_⟩
  · unfold Part.hose; rw [(e _ _).1]
    exact (Part.dsc_stopSupervision _ _).trans (Part.dsc_readLines _ _)
  · rw [(e _ _).2.1]; rfl
  · rw [(e _ _).2.2.1]; rfl
  · exact e' _ _ rfl rfl
  · rw [(e _ _).2.2.2]; rfl

/-- The restock coordinator at a good RELOAD, no timer of it standing still (09 R168). -/
theorem Part.rsc_reloadRole (p : Part) (role old : Role) (hf : p.rsc.frozenAt = none) (ho : p.rsc.roleInForce = some old) :
    (p.reloadRole role).rsc = if old = role then { p.rsc with roleInForce := some role }
      else { p.rsc with
        roleInForce := some role, queue := [], bays := ⟨none, none⟩, state := .normal, grant := none
        awaited := ⟨false, false⟩, repeatTimer := none, armed := ⟨true, true⟩ } := by
  have hth : p.rsc.thaw p.now = p.rsc := by unfold Rsc.thaw; rw [hf]
  unfold Part.reloadRole
  dsimp only
  rw [ho, hth]
  dsimp only
  split <;> rfl

end Sys2Proof.Machine
end

