-- ==== Sys2Proof/Laws/Scan.lean ====
section
/-! SUPPORT. The start scan (07 R134 to R137): which closing parts it writes, and what its writes leave in memory. -/

namespace Sys2Proof.Machine

open Sys2Proof

theorem Part.fixed_joinNet (p : Part) : p.joinNet.tlg.fixed = p.tlg.fixed := by
  unfold Part.joinNet
  rw [((Stays.refl (free := True)).offerStock).fixed_eq]
  rfl

theorem fixed_foldHoses (f : Part → HoseId → Part) (hf : ∀ p h, (f p h).tlg.fixed = p.tlg.fixed) (l : List HoseId) (p : Part) :
   (l.foldl f p).tlg.fixed = p.tlg.fixed := by
  induction l generalizing p with
  | nil => rfl
  | cons h t ih => rw [List.foldl_cons, ih, hf]

theorem Part.fixed_handTemperatures (p : Part) : p.handTemperatures.tlg.fixed = p.tlg.fixed := by
  unfold Part.handTemperatures
  refine fixed_foldHoses _ (fun p h => ?_) _ _
  split <;> rfl

theorem Part.fixed_stopLow (p : Part) (c) : (p.stopLow c).tlg.fixed = p.tlg.fixed := by
  unfold Part.stopLow
  refine fixed_foldHoses _ (fun p h => ?_) _ _
  split
  · exact ((Stays.refl (free := True)).takeCause h _).fixed_eq
  · rfl

theorem Part.fixed_lowTest (p : Part) (c st) : (p.lowTest c st).tlg.fixed = p.tlg.fixed := by
  unfold Part.lowTest
  split
  · rfl
  · split
    · split <;> rfl
    · split
      · exact Part.fixed_stopLow _ _
      · rfl

theorem Part.fixed_recordVariance (p : Part) (c) : (p.recordVariance c).tlg.fixed = p.tlg.fixed := by
  unfold Part.recordVariance
  exact ((Stays.refl (free := True)).wholeRecord c _ _).fixed_eq

theorem Part.fixed_varianceTest (p : Part) (c st m) : (p.varianceTest c st m).tlg.fixed = p.tlg.fixed := by
  unfold Part.varianceTest
  split
  · split <;> rfl
  · split
    · exact Part.fixed_recordVariance _ _
    · rfl

theorem Part.fixed_stockTests (p : Part) (c st) : (p.stockTests c st).tlg.fixed = p.tlg.fixed := by
  unfold Part.stockTests
  dsimp only
  split
  · split
    · split
      · exact (Part.fixed_recordVariance _ _)
      · exact Part.fixed_varianceTest _ _ _ _
    · exact Part.fixed_varianceTest _ _ _ _
  · rfl

theorem Part.fixed_restockTrigger (p : Part) (s) : (p.restockTrigger s).tlg.fixed = p.tlg.fixed := by
  unfold Part.restockTrigger
  dsimp only
  split
  · split
    · exact ((Stays.refl (free := True)).enterDraining).fixed_eq
    · rfl
  · rfl

/-- Sampling leaves the memory of the log alone. -/
theorem Part.fixed_beginSampling (p : Part) (r) : (p.beginSampling r).tlg.fixed = p.tlg.fixed := by
  unfold Part.beginSampling Part.testSample
  have h1 : ∀ p : Part, (p.takeSample r).tlg.fixed = p.tlg.fixed := by
    intro p
    unfold Part.takeSample
    split
    · rfl
    · dsimp only; rw [Part.fixed_lowTest, Part.fixed_lowTest, Part.fixed_handTemperatures]; rfl
  split
  · rw [h1]; rfl
  · rw [Part.fixed_restockTrigger, Part.fixed_stockTests, Part.fixed_stockTests, h1]; rfl

/-- The end of the start sequence leaves the memory of the log as the scan's writes leave it. -/
theorem Part.fixed_scanEnd (p : Part) (r) : (p.scanEnd r).tlg.fixed = { p.tlg.scanWritesTo p.tlg.scanWrites with scanWrites := []
    }.fixed := by
  unfold Part.scanEnd
  dsimp only
  have : ∀ q : Part, (q.intoService r).tlg.fixed = q.tlg.fixed := by
    intro q
    unfold Part.intoService
    split
    · rw [Part.fixed_joinNet]; exact Part.fixed_beginSampling q r
    · rfl
  exact this _

/-- What the closing writes of the scan leave in memory (07 R136). -/
theorem Tlg.scanWritesTo_closings (l : List ScanWrite) (hl : ∀ w ∈ l, ∃ i k, w = .recovered i k) (t : Tlg) :
   (t.scanWritesTo l).bootFirst = t.bootFirst ∧ (t.scanWritesTo l).bootSecond = t.bootSecond
   ∧ ∀ i u, t.slots[i]? = some u → ∃ w, (t.scanWritesTo l).slots[i]? = some w ∧ w.nvOpening = u.nvOpening
      ∧ (w.nvClosing = u.nvClosing ∧ (∀ k, .recovered i k ∉ l) ∨ ∃ k, .recovered i k ∈ l ∧ w.nvClosing = .valid k) := by
  induction l generalizing t with
  | nil => exact ⟨rfl, rfl, fun i u hu => ⟨u, hu, rfl, .inl ⟨rfl, fun k h => nomatch h⟩⟩⟩
  | cons w l ih =>
    obtain ⟨j, k, rfl⟩ := hl _ (List.mem_cons_self ..)
    obtain ⟨h1, h2, h3⟩ := ih (fun w hw => hl w (List.mem_cons_of_mem _ hw)) (t.scanWrite (.recovered j k))
    refine ⟨h1, h2, fun i u hu => ?_⟩
    by_cases hij : j = i
    · subst hij
      obtain ⟨w, e1, e2, e3⟩ := h3 j { u with nvClosing := .valid k } (by simp [Tlg.scanWrite, hu])
      refine ⟨w, e1, e2, .inr ?_⟩
      rcases e3 with ⟨e3, -⟩ | ⟨k', e3, e4⟩
      · exact ⟨k, List.mem_cons_self .., e3⟩
      · exact ⟨k', List.mem_cons_of_mem _ e3, e4⟩
    · obtain ⟨w, e1, e2, e3⟩ := h3 i u (by simp [Tlg.scanWrite, hij, hu])
      refine ⟨w, e1, e2, ?_⟩
      rcases e3 with ⟨e3, e4⟩ | ⟨k', e3, e4⟩
      · refine .inl ⟨e3, fun k' hk => ?_⟩
        rcases List.mem_cons.mp hk with hk | hk
        · cases hk; exact hij rfl
        · exact e4 k' hk
      · exact .inr ⟨k', List.mem_cons_of_mem _ e3, e4⟩

theorem Tlg.scanWritesTo_marks (l : List ScanWrite) (t : Tlg) : (t.scanWritesTo l).bootNumber = t.bootNumber ∧ (t.scanWritesTo
    l).markArea = t.markArea ∧ (t.scanWritesTo l).checkpoints = t.checkpoints := by
  induction l generalizing t with
  | nil => exact ⟨rfl, rfl, rfl⟩
  | cons w l ih =>
    obtain ⟨a, b, c⟩ := ih (t.scanWrite w)
    have : (t.scanWrite w).bootNumber = t.bootNumber ∧ (t.scanWrite w).markArea = t.markArea ∧ (t.scanWrite w).checkpoints =
        t.checkpoints := by
      match w with
      | .boot false _ => exact ⟨rfl, rfl, rfl⟩
      | .boot true _ => exact ⟨rfl, rfl, rfl⟩
      | .recovered _ _ => exact ⟨rfl, rfl, rfl⟩
    exact ⟨a.trans this.1, b.trans this.2.1, c.trans this.2.2⟩

/-- The closing writes of the scan: one for each slot that it closes (07 R136). -/
theorem mem_closingWrites (l : List SlotClass) (a : Nat) (w : ScanWrite) :
    w ∈ closingWrites a l ↔ ∃ i o k, w = .recovered (a + i) k ∧ l[i]? = some (.recovered o k) := by
  induction l generalizing a with
  | nil => simp [closingWrites]
  | cons c t ih =>
    have shift : (∃ i o k, w = .recovered (a + 1 + i) k ∧ t[i]? = some (.recovered o k)) ↔ ∃ i o k, w = .recovered (a + (i + 1))
        k ∧ (c :: t)[i + 1]? = some (.recovered o k) := by
      simp [Nat.add_assoc, Nat.add_comm 1]
    have key : (∃ i o k, w = .recovered (a + i) k ∧ (c :: t)[i]? = some (.recovered o k)) ↔ (∃ o k, w = .recovered a k ∧ c =
        .recovered o k) ∨ ∃ i o k, w = .recovered (a + 1 + i) k ∧ t[i]? = some (.recovered o k) := by
      rw [shift]
      constructor
      · rintro ⟨i, o, k, h1, h2⟩
        cases i with
        | zero => exact .inl ⟨o, k, h1, by simpa using h2⟩
        | succ i => exact .inr ⟨i, o, k, h1, h2⟩
      · rintro (⟨o, k, h1, h2⟩ | ⟨i, o, k, h1, h2⟩)
        · exact ⟨0, o, k, h1, by simp [h2]⟩
        · exact ⟨i + 1, o, k, h1, h2⟩
    rw [key]
    cases c with
    | recovered o k =>
      simp only [closingWrites, List.mem_cons, ih]
      constructor
      · rintro (h | h)
        · exact .inl ⟨o, k, h, rfl⟩
        · exact .inr h
      · rintro (⟨o', k', h, e⟩ | h)
        · cases e; exact .inl h
        · exact .inr h
    | _ => simp [closingWrites, ih]

/-- Which slots the scan closes, and with what (07 R135, R136). -/
theorem classifySlot_recovered (settings cps mark) (u : Slot) (o' : Opening) (k : Closing) : classifySlot settings cps mark u =
    .recovered o' k ↔
    ∃ o, u.nvOpening = .valid o ∧ mark < o.sequence ∧ (∀ k', u.nvClosing = .valid k' → k'.sequence ≠ o.sequence) ∧ o' = o
      ∧ ∃ l h m a g e c p t, o.fields = .fill l h m a g e c p t ∧ k = recoveredClosing settings cps o h a g p := by
  unfold classifySlot
  have bel : ∀ o, (u.belonging o = none ↔ ∀ k', u.nvClosing = .valid k' → k'.sequence ≠ o.sequence) := by
    intro o; unfold Slot.belonging
    cases h : u.nvClosing with
    | valid k => simp
    | blank => simp
    | bad => simp
  cases ho : u.nvOpening with
  | blank => simp
  | bad => simp
  | valid o =>
    simp only
    by_cases hm : o.sequence ≤ mark
    · rw [if_pos hm]; constructor
      · exact fun h => nomatch h
      · rintro ⟨o2, h, h2, -⟩; cases h; omega
    · rw [if_neg hm]
      cases hb : u.belonging o with
      | some k2 =>
        constructor
        · exact fun h => nomatch h
        · rintro ⟨o2, h, h2, h3, -⟩; cases h; rw [← bel, hb] at h3; cases h3
      | none =>
        simp only
        cases hf : o.fields with
        | fill l h m a g e c p t =>
          simp only
          constructor
          · intro hh; injection hh with e1 e2; exact ⟨o, rfl, by omega, (bel o).mp hb, e1.symm, l, h, m, a, g, e, c, p, t, hf, e2.symm⟩
          · rintro ⟨o2, h1, h2, h3, rfl, l', h', m', a', g', e', c', p', t', h4, rfl⟩
            cases h1; rw [hf] at h4; cases h4; rfl
        | _ =>
          constructor
          · exact fun h => nomatch h
          · rintro ⟨o2, h1, h2, h3, rfl, l', h', m', a', g', e', c', p', t', h4, -⟩
            cases h1; rw [hf] at h4; cases h4

end Sys2Proof.Machine
end

