-- ==== Sys2Proof/Tests/Slice0.lean ====
section
/-! SUPPORT. Tests: ill-formed commands refused, check values and worked figures of the manual, and for every statement with hypotheses
concrete states and operands that meet them, clause by clause at the boundaries. -/

namespace Sys2Proof.Tests

open Sys2Proof Sys2Proof.Machine

set_option Elab.async false

/-! ## Well-formedness: one ill-formed command per check, refused -/

theorem test_wf_straps : ¬ WellFormed (.start 16 0 .complete) ∧ WellFormed (.start 15 0 .complete) := by
  simp [WellFormed]

theorem test_wf_store (r : Readings) : ¬ WellFormed (.imageLoadEnd (some (List.replicate 65536 0#8)) r)
    ∧ WellFormed (.imageLoadEnd (some (List.replicate 65535 0#8)) r) ∧ WellFormed (.imageLoadEnd none r) := by
  simp only [WellFormed, List.length_replicate]
  decide

theorem test_wf_station : ¬ WellFormed (.peerSilent 0) ∧ ¬ WellFormed (.peerSilent 15) ∧ WellFormed (.peerSilent 14) := by
  simp [WellFormed, isStation]

theorem test_wf_body (f : Frame) : ¬ WellFormed (.frameReceived 0 { f with body := List.replicate 256 0#8 })
    ∧ WellFormed (.frameReceived 0 { f with body := List.replicate 255 0#8 }) := by
  simp only [WellFormed, List.length_replicate]
  decide

theorem test_wf_claim : ¬ WellFormed (.peerClaimExpiry 0 1) ∧ ¬ WellFormed (.peerClaimExpiry 1 0)
    ∧ ¬ WellFormed (.peerClaimExpiry 1 65536) ∧ WellFormed (.peerClaimExpiry 14 65535) := by
  simp [WellFormed, isStation]

/-! ## Check values -/

def digits : List Byte := [0x31#8, 0x32#8, 0x33#8, 0x34#8, 0x35#8, 0x36#8, 0x37#8, 0x38#8, 0x39#8]

/-- 01 R1, the frame's CRC over the digits 1 to 9. -/
theorem test_crc16 : crc16 digits = 0x29B1#16 := by decide +kernel

/-- 10 R170, the image's CRC over the digits 1 to 9. -/
theorem test_crc32 : crc32 digits = 0xCBF43926#32 := by decide +kernel

/-! ## A small station in service -/

def hoseSet : HoseSettings :=
  { enabled := true, compartment := .a, pump := .p1, priority := 0, phaseSwap := false, stepsPerLitre := 200
    calibration := 10000, startVolume := 100, slowdown := 200, settleTime := 500, overrunTolerance := 50, ratedFlow := 100
    noFlowTime := 30 }

/-- A strapping table of 33 points, from 0 mm and 0 L to 4000 mm and 4800 L. -/
def strapping : List (Nat × Nat) := (List.range 33).map fun i => (125 * i, 150 * i)

def compSet : CompSettings :=
  { grade := 1, capacity := 5000, reserve := 100, cutOff := 50, restockLevel := 1000, autoRequest := false
    varianceLimit := 100, settleTolerance := 50, strapping := strapping }

def identityOf (r : Role) : Identity :=
  { siteCode := 7, role := r, depotStation := 2, listenTime := 60, bays := 2, limits := ⟨1, 1⟩ }

def settingsOf (r : Role) : Settings :=
  { identity := identityOf r, hoses := Quad.replicate (some hoseSet), comps := ⟨compSet, compSet⟩
    correction := List.replicate 72 10000, tariff := List.replicate 8 0, accounts := List.replicate 64 ⟨0, 0⟩ }

def entry : MachineEntry :=
  { number := 17, tag := 5, account := 0, grade1 := true, grade2 := false, capacity := 500, allowance := some 300, keyed := true
    held := false, reason := 0, inlet := none }

def row : MachineRow :=
  { entry := entry, hold := { held := false, reason := 0, version := 255, author := 1 }, drawn := List.replicate 14 0 }

def tank : Compartment :=
  { Compartment.start with
    history := List.replicate 8 400000, gauge := some 400000, settled := true, temperature := some 200
    openingBook := some 400000, book := 400000 }

/-- A station in service, in a role: READY, joined, one machine, both compartments settled. -/
def up (r : Role) : Part :=
  { Part.reset with
    cfl := { Cfl.start (some 1) with stage := .running, load := .good, check := some .good, settings := some (settingsOf r) }
    snc := { Snc.start with joined := true, sweep := some 400000 }
    machines := [row], alc := { Alc.start with listen := .ready }
    inv := { comps := ⟨tank, tank⟩, sampleTimer := some 200000, stockTimer := some 6000000 }
    rsc := { Rsc.start with roleInForce := some r } }

def bow : Part := up .bowser
def dep : Part := up .depot

/-- The context of a fill of machine 17 in slot 0. -/
def fill : Context :=
  { position := 0, machine := 17, account := 0, grade := 1, compartment := .a, method := .keyed, preset := 3000, claim := 1
    shift := 1, authTime := 0, elapsed := 0, elapsedAtFlow := 0, slot := 0, sequence := none, startTime := none, metered := 0
    cause := none, faults := {}, powerFail := false, target := none, grant := 0, committed := false }

/-- The bowser with hose 1 changed. -/
def with1 (f : Hose → Hose) : Part := bow.modHose .h1 f

/-- Hose 1 in a state, with the fill's context, its nozzle off hook. -/
def atWork (d : DscState) (f : Hose → Hose) : Part :=
  with1 fun u => f { u with dsc := d, nozzle := .offHook, context := some fill }

theorem quiet_of {p : Part} (h : p.pumps = ⟨Pump.start, Pump.start⟩) : p.Quiet := by
  refine ⟨fun i => ?_, fun i hr => ?_⟩
  · rw [h]; cases i <;> rfl
  · rw [h] at hr; cases i <;> cases hr

theorem lineFree_of {p : Part} (h1 : p.cfl.stage = .running) (h2 : p.cnl = Cnl.start) : p.LineFree :=
  ⟨h1, by rw [h2]; rfl, by rw [h2]; rfl, by rw [h2]; rfl⟩

theorem noContext_of {p : Part} (h : p.hoses = Quad.replicate Hose.start) : ∀ k, (p.hose k).context = none := by
  intro k; unfold Part.hose; rw [h]; cases k <;> rfl

/-- With hose 1 alone changed, no other hose has a context. -/
theorem others_idle (f : Hose → Hose) : ∀ k, k ≠ .h1 → ((with1 f).hose k).context = none := by
  intro k hk; cases k
  · exact absurd rfl hk
  all_goals rfl

/-! ## 01 The site net -/

def queued (n : Nat) (yielding : Bool) : Part :=
  bow.setSnc { bow.snc with queue := List.replicate n ⟨.shift 3, yielding⟩ }

theorem test_FrameTaken_met : (queued 16 true).snc.joined = true ∧ (queued 16 true).snc.tx = .idle
    ∧ (queued 16 true).snc.queue = ⟨.shift 3, true⟩ :: List.replicate 15 ⟨.shift 3, true⟩ := by decide +kernel

def sending (tx : TxState) (attempts : Nat) : Part :=
  bow.setSnc { bow.snc with
    tx := tx, attempts := attempts, idleGap := some 1000, backoff := some 500, echoWindow := some 500 }

theorem test_MediumAccess_met :
    ((sending .defer 3).snc.tx = .defer ∧ (sending .defer 3).snc.idleGap ≠ none ∧ (sending .defer 3).snc.idleGap = some 1000
      ∧ (sending .defer 3).snc.attempts < 4)
    ∧ (sending .sending 1).snc.tx ≠ .defer ∧ (sending .sending 1).snc.tx = .sending
    ∧ ((sending .backoff 1).snc.tx = .backoff ∧ (sending .backoff 1).snc.backoff = some 500)
    ∧ ((sending .awaitEcho 3).snc.tx = .awaitEcho ∧ (sending .awaitEcho 3).snc.echoWindow = some 500
      ∧ (sending .awaitEcho 3).snc.attempts < 4 ∧ (sending .awaitEcho 4).snc.attempts = 4) := by decide +kernel

/-- A frame of this site from a station, sealed. -/
def frameOf (station kind length sequence : Nat) (body : List Byte) : Frame :=
  let f : Frame :=
    { site := 7, origin := BitVec.ofNat 8 station, boot := 1, sequence := BitVec.ofNat 8 sequence, kind := BitVec.ofNat 8 kind
      bodyLength := BitVec.ofNat 8 length, body := body, crc := 0 }
  { f with crc := crc16 (crcBytes f) }

/-- A sealed frame passes stage 1 up to a body of 48 bytes. -/
theorem frameOf_good (station kind length sequence : Nat) (body : List Byte) (h1 : (BitVec.ofNat 8 length).toNat ≤ 48)
    (h2 : (BitVec.ofNat 8 length).toNat ≤ body.length) : badFrame (frameOf station kind length sequence body) = false := by
  have h : (frameOf station kind length sequence body).crc = crc16 (crcBytes (frameOf station kind length sequence body)) := by
    simp only [frameOf, crcBytes]
  unfold badFrame
  rw [h]
  have h3 : (frameOf station kind length sequence body).bodyLength = BitVec.ofNat 8 length := rfl
  have h4 : (frameOf station kind length sequence body).body = body := rfl
  rw [h3, h4, decide_eq_false (by omega), decide_eq_false (by omega)]
  simp

def ownFrame : Frame := frameOf 1 5 2 0 [0#8, 1#8]

def echoing : Part := bow.setSnc { bow.snc with tx := .awaitEcho, inHand := some ownFrame, attempts := 3, echoWindow := some 500 }

theorem test_OwnFrames_met : (echoing.snc.joined = true ∧ echoing.Quiet ∧ echoing.identity = some (identityOf .bowser)
      ∧ badFrame ownFrame = false ∧ ownFrame.site.toNat = 7 ∧ 1 ≤ ownFrame.origin.toNat ∧ ownFrame.origin.toNat ≤ 14
      ∧ ownFrame.origin.toNat = echoing.station)
    ∧ (echoing.snc.tx = .awaitEcho ∧ echoing.snc.inHand = some ownFrame ∧ ownFrame.body.length = ownFrame.bodyLength.toNat)
    ∧ (echoing.snc.inHand ≠ some { ownFrame with sequence := 1 } ∧ echoing.snc.attempts < 4 ∧ (sending .awaitEcho 4).snc.attempts = 4
      ∧ (sending .awaitEcho 4).snc.inHand ≠ some ownFrame)
    ∧ bow.snc.tx ≠ .awaitEcho :=
  ⟨⟨rfl, quiet_of rfl, rfl, by decide +kernel⟩, by decide +kernel, by decide +kernel, by decide +kernel⟩

/-- Malformed in each of the three ways; the longest body; origins 0 and 15; kinds 0 and 10; a length that is not the kind's. -/
theorem test_FramesDiscarded_met : (bow.snc.joined = true ∧ bow.Quiet ∧ bow.identity = some (identityOf .bowser))
    ∧ { ownFrame with crc := 0 }.crc ≠ crc16 (crcBytes { ownFrame with crc := 0 })
    ∧ 48 < (frameOf 2 5 49 0 []).bodyLength.toNat
    ∧ (frameOf 2 5 2 0 [0#8]).body.length < (frameOf 2 5 2 0 [0#8]).bodyLength.toNat
    ∧ badFrame (frameOf 2 5 48 0 (List.replicate 48 0#8)) = false
    ∧ (badFrame (frameOf 0 5 2 0 [0#8, 1#8]) = false ∧ (frameOf 0 5 2 0 [0#8, 1#8]).origin.toNat = 0)
    ∧ (badFrame (frameOf 15 5 2 0 [0#8, 1#8]) = false ∧ 14 < (frameOf 15 5 2 0 [0#8, 1#8]).origin.toNat)
    ∧ (badFrame (frameOf 2 0 2 0 [0#8, 1#8]) = false ∧ (frameOf 2 0 2 0 [0#8, 1#8]).kind.toNat = 0)
    ∧ (badFrame (frameOf 14 10 2 0 [0#8, 1#8]) = false ∧ 9 < (frameOf 14 10 2 0 [0#8, 1#8]).kind.toNat)
    ∧ (badFrame (frameOf 2 5 3 0 [0#8, 1#8, 0#8]) = false ∧ kindOfCode 5 = some .shift ∧ 3 ≠ bodyLengthOf .shift)
    ∧ Part.reset.snc.joined = false := by
  have good := frameOf_good
  refine ⟨⟨rfl, quiet_of rfl, rfl⟩, by decide +kernel, by decide +kernel, by decide +kernel, ?_, ⟨?_, rfl⟩, ⟨?_, by decide⟩, ⟨?_, rfl⟩,
    ⟨?_, by decide⟩, ⟨?_, rfl, by decide⟩, rfl⟩
  all_goals exact good _ _ _ _ _ (by decide) (by decide)

def foreignSite : Frame := { ownFrame with site := 8, crc := crc16 (crcBytes { ownFrame with site := 8 }) }

theorem test_FramesDiscarded_foreign : badFrame foreignSite = false ∧ foreignSite.site.toNat ≠ 7 := by decide +kernel

def heardPeer : Peer := { Peer.start with heard := true, boot := some 1, lastSequence := some 0, seconds := 300 }

/-- A part that holds an entry for a station. -/
def hearing (station : Nat) (e : Peer) (p : Part) : Part := p.setSnc { p.snc with peers := p.snc.peers.set (station - 1) e }

/-- Station 2 has been heard, its last sequence being 0. -/
def withPeer (p : Part) : Part := hearing 2 heardPeer p

def shiftFrame (sequence : Nat) : Frame := frameOf 2 5 2 sequence [0#8, 1#8]

/-- Differences 0, 127, 128, 254 and 255. -/
theorem test_NoticeFromAPeer_met : (heardPeer.boot = some 1 ∧ heardPeer.heard = true ∧ heardPeer.lastSequence = some 0)
    ∧ [1, 128, 129, 255, 0].map (fun n => (n + 256 - (0 + 1) % 256) % 256) = [0, 127, 128, 254, 255]
    ∧ ((withPeer bow).snc.joined = true ∧ (withPeer bow).Quiet ∧ (withPeer bow).identity = some (identityOf .bowser))
    ∧ (badFrame (shiftFrame 128) = false ∧ (shiftFrame 128).origin.toNat = 2 ∧ (shiftFrame 128).kind.toNat = 5
      ∧ (shiftFrame 128).bodyLength.toNat = 2 ∧ fieldAt (shiftFrame 128).body 0 2 = (withPeer bow).alc.shift
      ∧ (withPeer bow).snc.peers[1]? = some heardPeer ∧ (shiftFrame 128).boot.toNat = 1)
    ∧ heardPeer.arrival 1 128 = .inSequence 127 ∧ heardPeer.arrival 1 0 = .repeated :=
  ⟨by decide +kernel, by decide +kernel, ⟨rfl, quiet_of rfl, rfl⟩, by decide +kernel⟩

/-- A first hearing, a silent peer of equal boot number, and a changed boot number. -/
theorem test_NoticeFromAPeer_others : (bow.snc.joined = true ∧ bow.Quiet ∧ bow.identity = some (identityOf .bowser))
    ∧ (bow.snc.peers[(shiftFrame 128).origin.toNat - 1]? = some Peer.start ∧ Peer.start.boot = none)
    ∧ ((hearing 2 { heardPeer with heard := false } bow).snc.peers[1]? = some { heardPeer with heard := false }
      ∧ heardPeer.boot = some (shiftFrame 128).boot.toNat)
    ∧ ((hearing 2 { heardPeer with boot := some 255 } bow).snc.peers[1]? = some { heardPeer with boot := some 255 }
      ∧ 255 ≠ (shiftFrame 128).boot.toNat) :=
  ⟨⟨rfl, quiet_of rfl, rfl⟩, by decide +kernel⟩

/-- The kinds with their body lengths. -/
def frameKinds : List (Nat × Nat) := [(1, 10), (2, 4), (3, 10), (4, 5), (5, 2), (6, 28), (7, 10), (8, 5), (9, 12)]

/-- A frame of each kind from station 2, in sequence after 127 that are lost. -/
theorem test_NoticeFromAPeer_kinds : ∀ k ∈ frameKinds,
    let f := frameOf 2 k.1 k.2 128 (List.replicate k.2 1#8)
    badFrame f = false ∧ f.kind.toNat = k.1 ∧ f.bodyLength.toNat = k.2 ∧ f.origin.toNat = 2 ∧ f.site.toNat = 7
      ∧ heardPeer.arrival f.boot.toNat f.sequence.toNat = .inSequence 127 := by
  decide +kernel

/-- A queue of 15, and full queues with and without a yielding notice. -/
theorem test_NoticeOffered_met : (queued 15 false).snc.joined = true ∧ (queued 15 false).snc.queue.length < 16
    ∧ (queued 16 false).snc.queue.length = 16 ∧ (∀ q ∈ (queued 16 false).snc.queue, q.yielding = false)
    ∧ ((queued 16 true).snc.queue = [] ++ ⟨.shift 3, true⟩ :: List.replicate 15 ⟨.shift 3, true⟩
      ∧ ∀ q ∈ ([] : List Queued), q.yielding = false) := by decide +kernel

def claimQueued : Part := bow.setSnc { bow.snc with queue := [⟨.shift 3, false⟩, ⟨.claim 1 17 4 200, false⟩] }

theorem test_ClaimsMerge_met : claimQueued.snc.joined = true
    ∧ (claimQueued.snc.queue = [⟨.shift 3, false⟩] ++ ⟨.claim 1 17 4 200, false⟩ :: []
      ∧ ∀ q ∈ [(⟨.shift 3, false⟩ : Queued)], isClaimOf 4 q = false)
    ∧ ∀ q ∈ claimQueued.snc.queue, isClaimOf 5 q = false := by decide +kernel

theorem test_SecondsAndSilence_met : Part.reset.snc.joined = false ∧ (withPeer bow).snc.joined = true
    ∧ (withPeer bow).snc.peers[2 - 1]? = some heardPeer ∧ heardPeer.heard = true ∧ 300 ≤ heardPeer.seconds
    ∧ (withPeer bow).identity = some (identityOf .bowser) ∧ (withPeer bow).rsc.state ≠ .granted
    ∧ (withPeer dep).identity = some (identityOf .depot) ∧ (withPeer dep).bayOf 2 = none := by decide +kernel

def drawnRow : MachineRow := { row with drawn := (List.replicate 14 0).set 0 4321 }

def sweeping (n : Nat) : Part := ((queued n false).setMachines [drawnRow])

theorem test_SweepTick_met : (sweeping 8).snc.sweep = some 400000 ∧ (sweeping 8).snc.joined = true
    ∧ (sweeping 8).machines[(sweeping 8).snc.cursor]? = some drawnRow ∧ drawnRow.column (sweeping 8).station ≠ 0
    ∧ (sweeping 8).snc.queue.length ≤ 8 ∧ 8 < (sweeping 9).snc.queue.length := by decide +kernel

theorem test_SweepTick_empty : ∀ k, (bow.setMachines []).sweepNotice k = none := by
  intro k; rfl

/-- One machine, no volume drawn: position 0 is passed over and position 1 is the hold; queues of 15 and 16. -/
theorem test_SweepTick_hold : let position : Nat → Nat := fun j => j % 2
    (position 0 = (queued 15 false).snc.cursor ∧ (queued 15 false).machines.length = 1 ∧ 1 < 2 * 1)
    ∧ (∀ j, position (j + 1) = (position j + 1) % (2 * 1)) ∧ (∀ j, j < 1 → (queued 15 false).sweepNotice (position j) = none)
    ∧ ((queued 15 false).sweepNotice (position 1) = some ⟨.hold 17 0 0 255, false⟩ ∧ (queued 15 false).snc.queue.length = 15)
    ∧ ((queued 16 false).sweepNotice (position 1) = some ⟨.hold 17 0 0 255, false⟩
      ∧ ∀ q ∈ (queued 16 false).snc.queue, q.yielding = false)
    ∧ (queued 16 true).snc.queue = [] ++ ⟨.shift 3, true⟩ :: List.replicate 15 ⟨.shift 3, true⟩ := by
  refine ⟨by decide +kernel, fun j => ?_, fun j hj => ?_, by decide +kernel, by decide +kernel, rfl⟩
  · show (j + 1) % 2 = (j % 2 + 1) % 2
    omega
  · obtain rfl : j = 0 := by omega
    decide +kernel

/-- A tally at the cursor, with 8 and 9 notices in the queue. -/
theorem test_SweepTick_tally : (sweeping 8).sweepNotice 0 = some ⟨.tally 1 17 4321 0, true⟩
    ∧ (sweeping 8).snc.queue.length = 8 ∧ (sweeping 9).sweepNotice 0 = some ⟨.tally 1 17 4321 0, true⟩
    ∧ (sweeping 9).snc.queue.length = 9 ∧ bow.machines[0]? = some row := by decide +kernel

/-! ## 02 Identification and holds -/

def reading (run : Nat) (fault : Bool) : Part := with1 fun u => { u with reader := { u.reader with run := run, fault := fault } }

theorem test_TagReports_met : ((reading 3 false).cfl.stage = .running ∧ (reading 3 false).Quiet
      ∧ ((reading 3 false).hose .h1).reader.supervised = none ∧ ((reading 3 false).hose .h1).dsc ≠ .lifted)
    ∧ (((reading 3 false).hose .h1).reader.fault = false ∧ ((reading 3 false).hose .h1).reader.run < 4)
    ∧ ((reading 4 false).hose .h1).reader.run = 4 ∧ ((reading 0 true).hose .h1).reader.fault = true
    ∧ goodPresent 1 0 = false ∧ goodPresent 1 255 = true ∧ goodPresent 0 0 = false :=
  ⟨⟨rfl, quiet_of rfl, rfl, by decide +kernel⟩, by decide +kernel⟩

def supervised (grace : Timer) : Part :=
  atWork .flowing fun u => { u with reader := { u.reader with supervised := some 1, grace := grace } }

theorem test_TagSupervision_met : ((supervised none).cfl.stage = .running ∧ (supervised none).Quiet
      ∧ ((supervised none).hose .h1).reader.supervised = some 1)
    ∧ ((supervised none).hose .h1).reader.grace = none ∧ ((supervised (some 300000)).hose .h1).reader.grace = some 300000
    ∧ goodPresent 1 255 = true :=
  ⟨⟨rfl, quiet_of rfl, rfl⟩, by decide +kernel⟩

/-- Reason 15, and 16 above it; a version of 255. -/
theorem test_HoldRequests_met : (bow.LineFree ∧ bow.Quiet ∧ bow.findMachine 17 = some 0 ∧ bow.machines[0]? = some row
      ∧ ∀ h x, (bow.hose h).context = some x → x.position ≠ 0)
    ∧ row.hold.version = 255 ∧ 15 ≤ 15 ∧ 15 < 16 ∧ bow.findMachine 99 = none :=
  ⟨⟨lineFree_of rfl rfl, quiet_of rfl, by decide +kernel, rfl, fun h x hx => by rw [noContext_of rfl h] at hx; cases hx⟩, by decide +kernel⟩

/-- Version 0 after 255 is older by none; difference 127 and 128; the author's tie. -/
theorem test_HoldNotices_met : (bow.findMachine 17 = some 0 ∧ bow.machines[0]? = some row)
    ∧ holdApplies row.hold 2 126 = true ∧ holdApplies row.hold 2 127 = false ∧ holdApplies row.hold 2 255 = true
    ∧ holdApplies row.hold 1 255 = false ∧ (row.hold.held = decide (0 = 1) ∧ row.hold.reason = 0)
    ∧ ¬ (row.hold.held = decide (1 = 1) ∧ row.hold.reason = 15) := by decide +kernel

/-- Each of the five checks fails in some state, those before it passing. -/
theorem test_KeyedRefusals_met : hoseField (some 1) = some .h1 ∧ hoseField (some 4) = some .h4
    ∧ ((bow.setCfl { bow.cfl with load := .fault }).LineFree ∧ (bow.setCfl { bow.cfl with load := .fault }).cfl.load = .fault)
    ∧ (bow.LineFree ∧ bow.cfl.load ≠ .fault ∧ (bow.hose .h1).dsc ≠ .lifted)
    ∧ ((with1 fun u => { u with dsc := .lifted, reader := { u.reader with readTag := some 1 } }).hose .h1).reader.readTag ≠ none
    ∧ (((with1 fun u => { u with dsc := .lifted }).hose .h1).dsc = .lifted
      ∧ ((with1 fun u => { u with dsc := .lifted }).hose .h1).reader.readTag = none
      ∧ (with1 fun u => { u with dsc := .lifted }).lookupNumber 99 = none)
    ∧ ((bow.setMachines [{ row with entry := { entry with keyed := false } }]).lookupNumber 17 = some 0) :=
  ⟨by decide +kernel, by decide +kernel, ⟨lineFree_of rfl rfl, rfl⟩, ⟨lineFree_of rfl rfl, by decide +kernel, by decide +kernel⟩, by decide +kernel⟩

/-! ## 03 Allotments -/

theorem test_AuthorisationChecks_met : bow.hoseSettings .h1 = some hoseSet := rfl

/-- Hose 1 lifted; machine 17 has drawn a volume of its allowance of 30000 cL. -/
def lifted (drawn : Nat) : Part :=
  (with1 fun u => { u with dsc := .lifted, nozzle := .offHook }).setMachines
    [{ row with drawn := (List.replicate 14 0).set 0 drawn }]

def rowOf (drawn : Nat) : MachineRow := { row with drawn := (List.replicate 14 0).set 0 drawn }

/-- A least term of 199 and of 200. -/
theorem test_KeyedIdentification_met : ((lifted 29801).LineFree ∧ (lifted 29801).Quiet ∧ hoseField (some 1) = some .h1)
    ∧ ((lifted 29801).keyedRefusal .h1 17 = none ∧ (lifted 29801).hoseSettings .h1 = some hoseSet
      ∧ (lifted 29801).lookupNumber 17 = some 0 ∧ (lifted 29801).machines[0]? = some (rowOf 29801)
      ∧ (lifted 29801).reservable = some 0 ∧ (lifted 29801).refusalOf .h1 .keyed (some 0) = none)
    ∧ ((lifted 29801).terms .h1 hoseSet (rowOf 29801)).least = 199
    ∧ ((lifted 29800).terms .h1 hoseSet (rowOf 29800)).least = 200 ∧ (lifted 29800).needsClaim entry = true
    ∧ entry.inlet = none :=
  ⟨⟨lineFree_of rfl rfl, quiet_of rfl, rfl⟩, by decide +kernel⟩

def peerClaim : PeerClaim :=
  { origin := 14, number := 65535, machine := 17, account := 0, reserved := 200, life := 12000000, placed := 0 }

def claiming : Part := (bow.setAlc { bow.alc with peerClaims := [peerClaim], listenTimer := some 6000000 }).modHose .h1 fun u =>
  { u with claim := some { number := 1, machine := 17, account := 0, status := .active, renewal := some 3000000 } }

theorem test_ClaimTimers_met : (2 ∉ [1, 3] ∧ 1 ∈ [1, 3])
    ∧ claiming.alc.peerClaims.find? (fun d => d.origin == peerClaim.origin && d.number == peerClaim.number) = some peerClaim
    ∧ (claiming.hose .h1).claim = some { number := 1, machine := 17, account := 0, status := .active, renewal := some 3000000 }
    ∧ claiming.alc.listenTimer = some 6000000 := by decide +kernel

def holdingOff : Part := atWork .authorising fun u => { u with holdOff := some 200000 }

theorem test_HoldOffExpires_met : (holdingOff.Quiet ∧ holdingOff.inputsClear)
    ∧ (holdingOff.hose .h1).dsc = .authorising ∧ (holdingOff.hose .h1).holdOff = some 200000
    ∧ holdingOff.hoseSettings .h1 = some hoseSet ∧ (holdingOff.hose .h1).valves.trim.latch = false
    ∧ (holdingOff.hose .h1).valves.main.latch = false ∧ (holdingOff.pumps.get .p1).state = .stopped
    ∧ (holdingOff.pumps.get .p1).grants = [] ∧ 1 ≤ holdingOff.limit .p1 :=
  ⟨⟨quiet_of rfl, rfl, rfl⟩, by decide +kernel⟩

/-- Pump 1, its one place held by hose 1, with hoses 2, 3 and 4 waiting: 2 and 3 of one level across the wrap of the orders. -/
def contended (st : PumpState) (f : Hose → Hose) (requests : List Request) : Part :=
  ((atWork .awaitPump fun u => f { u with pumpWait := some 18000000 }).modHose .h2 fun u =>
    { u with dsc := .awaitPump, context := some fill, valves := { u.valves with active := 1 } }).modPump .p1 fun m =>
      { m with state := st, grants := [.h1], requests := requests }

def waitingOf (h : HoseId) (priority order : Nat) : Request := { hose := h, priority := priority, order := order }

def wrapped : List Request := [waitingOf .h3 1 0, waitingOf .h2 1 4294967295, waitingOf .h4 0 4294967294]

/-- Of the waiting requests hose 2's is the best: level before order, the order before the wrap the earlier. -/
theorem test_HoldOffExpires_best : ∀ t ∈ wrapped, t ≠ waitingOf .h2 1 4294967295 →
    t.priority < 1 ∨ t.priority = 1 ∧ 1 ≤ (t.order + 4294967296 - 4294967295) % 4294967296
      ∧ (t.order + 4294967296 - 4294967295) % 4294967296 ≤ 2147483647 := by decide +kernel

theorem test_HoldOffExpires_release (st : PumpState) (f : Hose → Hose) : (contended st f wrapped).inputsClear
    ∧ (∀ j, j ≠ .p1 → ((contended st f wrapped).pumps.get j).requests = []
      ∧ ((contended st f wrapped).pumps.get j).state ≠ .running ∧ .h1 ∉ ((contended st f wrapped).pumps.get j).grants)
    ∧ ((contended st f wrapped).pumps.get .p1).grants = [] ++ .h1 :: []
    ∧ ((contended st f wrapped).pumps.get .p1).grants.length = (contended st f wrapped).limit .p1
    ∧ (∀ t ∈ ((contended st f wrapped).pumps.get .p1).requests, t.hose ≠ .h1 ∧ t.order < 4294967296)
    ∧ (contended st f wrapped).eligible (waitingOf .h2 1 4294967295) = true :=
  ⟨⟨rfl, rfl⟩, fun j hj => by cases j; exact absurd rfl hj; exact ⟨rfl, nofun, List.not_mem_nil⟩, rfl, rfl,
    (show ∀ t ∈ wrapped, t.hose ≠ .h1 ∧ t.order < 4294967296 by decide +kernel), rfl⟩

/-- The pump wait stop in PRIMING, and the trim valve last to close on a RUNNING pump. -/
theorem test_HoldOffExpires_ends : ((contended .priming id wrapped).hose .h1).dsc = .awaitPump
    ∧ ((contended .priming id wrapped).hose .h1).pumpWait = some 18000000
    ∧ (let p := contended .running (fun u => { u with
          dsc := .stopping, valves := { u.valves with phase := .shutting, trim := { u.valves.trim with switch := .opened } } }) wrapped
       p.cfl.stage ≠ .imageLoad ∧ (p.hose .h1).dsc = .stopping ∧ (p.hose .h1).context = some fill
       ∧ (p.hose .h1).valves.phase = .shutting ∧ ((p.hose .h1).valves.valve .trim).switch = .opened
       ∧ ((p.hose .h1).valves.valve .main).switch = .closed ∧ p.hoseSettings .h2 = some hoseSet
       ∧ (p.hose .h2).dsc = .awaitPump ∧ (p.hose .h2).context = some fill ∧ (p.hose .h2).valves.phase = .shut
       ∧ (p.hose .h2).valves.pending = none ∧ 0 < (p.hose .h2).valves.active ∧ (p.hose .h2).valves.trim.switch = .closed) := by
  decide +kernel

/-- A full grant set, and no eligible request. -/
theorem test_HoldOffExpires_none : (contended .running id wrapped).limit .p1 ≤ ((contended .running id wrapped).pumps.get .p1).grants.length
    ∧ ∀ t ∈ ((contended .running id []).pumps.get .p1).requests, (contended .running id []).eligible t = false :=
  ⟨Nat.le_refl 1, nofun⟩

def atShift (n : Nat) : Part := bow.setAlc { bow.alc with shift := n }

theorem test_Shifts_met : (bow.setCfl { bow.cfl with load := .fault }).LineFree
    ∧ ((atShift 65535).LineFree ∧ (atShift 65535).cfl.load ≠ .fault ∧ (atShift 65535).alc.shift = 65535)
    ∧ ((atShift 65534).LineFree ∧ (atShift 65534).alc.shift < 65535) :=
  ⟨lineFree_of rfl rfl, ⟨lineFree_of rfl rfl, by decide +kernel, rfl⟩, lineFree_of rfl rfl, by decide +kernel⟩

/-- Unknown machine and known; claim numbers 0, new and held; three claims of one origin. -/
theorem test_PeerNotices_met : (bow.findMachine 99 = none ∧ bow.findMachine 17 = some 0 ∧ bow.machines[0]? = some row
      ∧ row.drawn.length = 14)
    ∧ (∀ h, (bow.hose h).context = none)
    ∧ (bow.setAlc { bow.alc with peerClaims := List.replicate 3 peerClaim }).alc.peerClaims.any
        (fun c => c.origin == 14 && c.number == 4) = false
    ∧ ((bow.setAlc { bow.alc with peerClaims := List.replicate 3 peerClaim }).alc.peerClaims.filter
        fun c => c.origin == 14).length < 4
    ∧ claiming.alc.peerClaims.any (fun c => c.origin == 14 && c.number == 65535) = true :=
  ⟨by decide +kernel, noContext_of rfl, by decide +kernel⟩

def loaded (phase : Phase) (active : Nat) : Part :=
  atWork .flowing fun u =>
    { u with
      valves := { u.valves with phase := phase, active := active }
      meter := { u.meter with window := true, noFlow := some 3000000 } }

theorem test_CutRule_met : (((loaded .full 300).hose .h1).valves.active : Int) ≤ 300
    ∧ (299 : Int) < ((loaded .full 300).hose .h1).valves.active ∧ (fill.metered : Int) < 299 ∧ (0 : Int) ≤ fill.metered
    ∧ (0 : Int) < ((loaded .full 300).hose .h1).valves.active := by decide +kernel

/-- A hose in LIFTED and a good tag: of no machine, and of machine 17 with least terms of 199 and 200. -/
theorem test_TagReports_identify : ((lifted 29801).cfl.stage = .running ∧ (lifted 29801).Quiet)
    ∧ (((lifted 29801).hose .h1).reader.supervised = none ∧ ((lifted 29801).hose .h1).dsc = .lifted
      ∧ goodPresent 6 250 = true ∧ goodPresent 5 251 = true)
    ∧ (lifted 29801).refusalOf .h1 .tag ((lifted 29801).lookupTag 6) = some .unknownTag
    ∧ ((lifted 29801).lookupTag 5 = some 0 ∧ (lifted 29801).refusalOf .h1 .tag (some 0) = none
      ∧ (lifted 29801).hoseSettings .h1 = some hoseSet ∧ (lifted 29801).reservable = some 0)
    ∧ (lifted 29800).needsClaim entry = true ∧ entry.inlet = none :=
  ⟨⟨rfl, quiet_of rfl⟩, by decide +kernel⟩

theorem test_ClaimTimers_four : [65535, 1, 2, 3].length = 4 ∧ nextClaim [65535, 1, 2, 3] 5 65534 = 4
    ∧ (claiming.hose .h1).claim ≠ none := by decide +kernel

/-- Four claims of one origin, the third nearest its end, the fourth of the same life placed later. -/
def fourClaims : List PeerClaim :=
  [{ peerClaim with number := 1, life := 300, placed := 0 }, { peerClaim with number := 2, life := 301, placed := 1 },
   { peerClaim with number := 3, life := 200, placed := 2 }, { peerClaim with number := 4, life := 200, placed := 3 }]

theorem test_PeerNotices_four : (fourClaims.filter fun c => c.origin == 14).length = 4
    ∧ { peerClaim with number := 3, life := 200, placed := 2 } ∈ fourClaims
    ∧ (∀ c ∈ fourClaims, c.origin = 14 → c ≠ { peerClaim with number := 3, life := 200, placed := 2 } →
        200 < c.life ∨ 200 = c.life ∧ 2 < c.placed)
    ∧ (∀ c ∈ fourClaims, ¬ (c.origin = 14 ∧ c.number = 5)) ∧ (∃ c ∈ fourClaims, c.origin = 14 ∧ c.number = 4)
    ∧ ((fourClaims.drop 1).filter fun c => c.origin == 14).length < 4
    ∧ (row.drawn.length = 14 ∧ 0 ≤ row.column 14 ∧ row.column 14 < 1) ∧ ((atShift 2).alc.shift = 2 ∧ 1 < (atShift 2).alc.shift) := by
  decide +kernel

/-- Notices of the own shift, of a later one and of an older one. -/
theorem test_PeerNotices_shifts : bow.alc.shift = 1 ∧ bow.alc.shift < 65535 ∧ 65534 < (atShift 65535).alc.shift
    ∧ (∃ machine number reserved, Notice.claim 65534 17 4 200 = .claim 65534 machine number reserved) :=
  ⟨rfl, by decide, by decide, 17, 4, 200, rfl⟩

/-! ## 04 Meter channels -/

/-- Bands at their ends: -20.1, -20.0, -18.1, -18.0, 49.9 and 50.0 degrees. -/
theorem test_MeterArithmetic_met : [-201, -200, -181, -180, 499, 500].map bandOf = [0, 0, 0, 1, 34, 35] := by decide +kernel

def creeping (creep : Nat) (sent : Bool) : Part :=
  with1 fun u => { u with meter := { u.meter with creep := creep, creepSent := sent, goodRun := 62 } }

/-- 39 and 40 steps of half a centilitre, forward and reverse. -/
theorem test_CreepSteps_met : ((creeping 38 false).Quiet ∧ (creeping 38 false).hoseSettings .h1 = some hoseSet)
    ∧ hoseSet.phaseSwap = false ∧ ((creeping 38 false).hose .h1).meter.window = false
    ∧ classify false false true false = some .forward ∧ classify false false false true = some .reverse
    ∧ ((creeping 38 false).hose .h1).meter.goodRun < 63 ∧ 39 * 100 * 10000 / (200 * 10000) < 20
    ∧ 20 ≤ 40 * 100 * 10000 / (200 * 10000) ∧ ((creeping 39 true).hose .h1).meter.creepSent = true
    ∧ ((creeping 39 false).hose .h1).meter.creepSent = false :=
  ⟨⟨quiet_of rfl, rfl⟩, by decide +kernel⟩

/-- Hose 1 flowing at 99.5 cL, one step of half a centilitre from 100, on a preset of 301: 1 cL before the taper. -/
def nearTaper : Part := (loaded .full 301).modMeter .h1 fun m => { m with netSteps := 199, gross := 99 }

theorem test_ForwardStep_met : (nearTaper.Quiet ∧ nearTaper.hoseSettings .h1 = some hoseSet)
    ∧ (nearTaper.hose .h1).meter.window = true
    ∧ classify (nearTaper.hose .h1).meter.lastA (nearTaper.hose .h1).meter.lastB true false = some .forward
    ∧ (nearTaper.hose .h1).meter.netSteps = (199 : Nat) ∧ (nearTaper.hose .h1).valves.phase = .full
    ∧ (nearTaper.hose .h1).valves.pending = none ∧ (199 + 1) * 100 * 10000 / (200 * 10000) + 200 < 301
    ∧ (nearTaper.hose .h1).valves.active = 301 ∧ (nearTaper.hose .h1).meter.gross ≠ 100 :=
  ⟨⟨quiet_of rfl, rfl⟩, by decide +kernel⟩

theorem test_SequenceErrors_met : ((creeping 0 false).Quiet ∧ (creeping 0 false).hoseSettings .h1 = some hoseSet)
    ∧ ((creeping 0 false).hose .h1).meter.lastA ≠ true ∧ ((creeping 0 false).hose .h1).meter.lastB ≠ true
    ∧ ((creeping 0 false).hose .h1).meter.errorCount ≠ 7 :=
  ⟨⟨quiet_of rfl, rfl⟩, by decide +kernel⟩

def rated (overrate : Bool) : Part :=
  with1 fun u => { u with meter := { u.meter with rateTimer := some 100000, overrateTimer := some 300000, overrate := overrate } }

theorem test_RateTimers_met : ((rated false).hose .h1).meter.rateTimer = some 100000
    ∧ ((rated false).hose .h1).meter.overrateTimer = some 300000 ∧ ((rated false).hose .h1).meter.overrate = false
    ∧ ((rated true).hose .h1).meter.overrateTimer = some 300000 ∧ ((rated true).hose .h1).meter.overrate = true := by decide +kernel

/-! ## 05 and 06 The dispense transaction -/

/-- Hose 1 flowing with its trim valve open and a grace timer running. -/
def open1 (phase : Phase) : Part :=
  ((loaded phase 3000).modValves .h1 fun v => { v with trim := { v.trim with switch := .opened } }).modReader .h1 fun r =>
    { r with supervised := some 1, grace := some 300000 }

theorem test_FirstCauseInFlow_met : ((open1 .trim).Quiet ∧ (open1 .trim).LineFree)
    ∧ (open1 .trim).cfl.stage = .running ∧ ((open1 .trim).hose .h1).dsc = .flowing
    ∧ ((open1 .trim).hose .h1).context = some fill ∧ (open1 .trim).hoseSettings .h1 = some hoseSet
    ∧ ((open1 .trim).hose .h1).valves.phase.flowing = true ∧ ((open1 .full).hose .h1).valves.phase.flowing = true
    ∧ ((open1 .taper).hose .h1).valves.phase.flowing = true ∧ ((open1 .trim).hose .h1).valves.trim.switch = .opened
    ∧ ((open1 .trim).hose .h1).valves.trim.latch = false ∧ ((open1 .trim).hose .h1).meter.noFlow ≠ none
    ∧ ((open1 .trim).hose .h1).reader.grace ≠ none ∧ ((open1 .trim).hose .h1).nozzle = .offHook
    ∧ hoseField (some 1) = some .h1 :=
  ⟨⟨quiet_of rfl, lineFree_of rfl rfl⟩, by decide +kernel⟩

def waiting : Part := atWork .awaitPump fun u => { u with pumpWait := some 18000000 }

theorem test_PumpWaitEnds_met : ((waiting.hose .h1).dsc = .awaitPump ∧ (waiting.hose .h1).context = some fill
      ∧ (waiting.hose .h1).pumpWait = some 18000000 ∧ (waiting.hose .h1).nozzle = .offHook
      ∧ fill.slot < waiting.tlg.slots.length)
    ∧ ∀ k y, k ≠ .h1 → (waiting.hose k).context = some y → y.slot ≠ fill.slot :=
  ⟨by decide +kernel, fun k y hk hy => by rw [waiting, atWork, others_idle _ k hk] at hy; cases hy⟩

theorem test_NozzleChanges_met : ((bow.cfl.stage = .running ∧ bow.Quiet ∧ bow.LineFree) ∧ (bow.hose .h4).nozzle = .onHook
      ∧ (bow.hose .h4).dsc = .idle ∧ (bow.hose .h4).reader.readTag = none)
    ∧ ((with1 fun u => { u with dsc := .stopping }).hose .h1).dsc ≠ .idle
    ∧ ((atWork .lifted id).Quiet ∧ ((atWork .lifted id).hose .h1).nozzle = .offHook ∧ (atWork .lifted id).rsc.state ≠ .draining)
    ∧ ((atWork .lifted id).hose .h1).dsc = .lifted ∧ ((atWork .done id).hose .h1).dsc = .done
    ∧ ((atWork .stopping id).hose .h1).dsc = .stopping ∧ ((atWork .committing id).hose .h1).dsc = .committing
    ∧ hoseField (some 4) = some .h4 :=
  ⟨⟨⟨rfl, quiet_of rfl, lineFree_of rfl rfl⟩, by decide +kernel⟩, by decide +kernel, ⟨quiet_of rfl, by decide +kernel⟩, by decide +kernel⟩

def settling (switch : Position) : Part :=
  with1 fun u => { u with valves := { u.valves with trim := { switch := switch, settle := some 50000, latch := false, faults := 0 } } }

theorem test_ValveSupervision_met : ((settling .closed).cfl.stage ≠ .imageLoad ∧ (settling .closed).Quiet
      ∧ (settling .closed).hoseSettings .h1 = some hoseSet ∧ ((settling .closed).hose .h1).valves.phase = .shut)
    ∧ (((settling .closed).hose .h1).valves.valve .trim).switch = .closed
    ∧ (((settling .opened).hose .h1).valves.valve .trim).switch = .opened
    ∧ (((settling .opened).hose .h1).valves.valve .trim).settle = some 50000 ∧ ((settling .opened).hose .h1).dsc = .idle
    ∧ (∀ i, .h1 ∉ ((settling .opened).pumps.get i).grants) :=
  ⟨⟨by decide +kernel, quiet_of rfl, rfl, rfl⟩, rfl, rfl, rfl, rfl, fun i => by cases i <;> decide +kernel⟩

/-- Hose 1 in TRIM at the start volume of 100 cL, the main valve open for ValvesShut. -/
def trimming (active : Nat) : Part := (loaded .trim active).modMeter .h1 fun m => { m with gross := 100 }

/-- Active presets of 301 and 300: above the slowdown volume and at it. -/
theorem test_TrimConfirmed_met : ((trimming 301).cfl.stage ≠ .imageLoad ∧ (trimming 301).Quiet
      ∧ (trimming 301).hoseSettings .h1 = some hoseSet)
    ∧ ((trimming 301).hose .h1).valves.phase = .trim ∧ ((trimming 301).hose .h1).valves.trim.switch = .closed
    ∧ ((trimming 301).hose .h1).valves.pending = none ∧ 100 ≤ ((trimming 301).hose .h1).meter.gross
    ∧ ((trimming 301).hose .h1).meter.gross + 200 < ((trimming 301).hose .h1).valves.active
    ∧ ((trimming 300).hose .h1).valves.active ≤ ((trimming 300).hose .h1).meter.gross + 200
    ∧ ((trimming 300).hose .h1).meter.gross < ((trimming 300).hose .h1).valves.active :=
  ⟨⟨by decide +kernel, quiet_of rfl, rfl⟩, by decide +kernel⟩

def shutting : Part :=
  atWork .stopping fun u =>
    { u with valves := { u.valves with phase := .shutting, main := { u.valves.main with switch := .opened }, overrun := some 200000 } }

theorem test_ValvesShut_met : (shutting.cfl.stage ≠ .imageLoad ∧ shutting.Quiet ∧ shutting.hoseSettings .h1 = some hoseSet)
    ∧ (shutting.hose .h1).dsc = .stopping ∧ (shutting.hose .h1).context = some fill ∧ fill.powerFail = false
    ∧ (shutting.hose .h1).valves.phase = .shutting ∧ (shutting.hose .h1).valves.trim.switch = .closed
    ∧ (shutting.hose .h1).valves.main.switch = .opened :=
  ⟨⟨by decide +kernel, quiet_of rfl, rfl⟩, by decide +kernel⟩

/-- Hose 1 in SHUTTING, in a state, with a context and its valves. -/
def closing (d : DscState) (x : Context) (trim main : Valve) : Part :=
  atWork d fun u => { u with context := some x, valves := { u.valves with phase := .shutting, trim := trim, main := main } }

/-- The trim valve last, the main valve latched, and a close fault on either, before and after the commit. -/
theorem test_ValvesShut_last :
    let opened := { Valve.start with switch := .opened, settle := some 50000 }
    let latched := { Valve.start with switch := .opened, latch := true }
    ((closing .stopping fill opened Valve.start).Quiet
      ∧ (closing .stopping fill opened Valve.start).hoseSettings .h1 = some hoseSet)
    ∧ ((closing .stopping fill opened latched).hose .h1).valves.phase = .shutting
    ∧ (((closing .stopping fill opened latched).hose .h1).valves.valve .trim).switch = .opened
    ∧ (((closing .stopping fill opened latched).hose .h1).valves.valve .main).latch = true
    ∧ (((closing .stopping fill opened Valve.start).hose .h1).valves.valve .main).switch = .closed
    ∧ (((closing .stopping fill opened Valve.start).hose .h1).valves.valve .trim).settle = some 50000
    ∧ ((closing .stopping fill opened Valve.start).hose .h1).context = some fill
    ∧ (let x := { fill with powerFail := true, committed := true }
       ((closing .committing x opened Valve.start).hose .h1).dsc = .committing ∧ x.powerFail = true ∧ x.committed = true
       ∧ ({ fill with powerFail := true } : Context).committed = false
       ∧ ((closing .committing x opened Valve.start).hose .h1).nozzle = .offHook) :=
  ⟨⟨quiet_of rfl, rfl⟩, by decide +kernel⟩

theorem test_OverrunWindowEnds_met : shutting.hoseSettings .h1 = some hoseSet ∧ (shutting.hose .h1).context = some fill
    ∧ (shutting.hose .h1).valves.overrun = some 200000 ∧ fill.slot < shutting.tlg.slots.length := by decide +kernel

def priming (grants : List HoseId) : Part :=
  (atWork .awaitPump fun u => { u with valves := { u.valves with active := 1 } }).modPump .p1 fun m =>
    { m with state := .priming, grants := grants, prime := some 200000 }

def runningDown : Part := bow.modPump .p1 fun m => { m with state := .rundown, rundown := some 500000 }

theorem test_PumpTimers_quiet (g : List HoseId) : (priming g).Quiet :=
  ⟨fun i => by cases i <;> rfl, fun i h => by cases i <;> cases h⟩

theorem test_PumpTimers_met : ((priming []).pumps.get .p1).state = .priming ∧ ((priming []).pumps.get .p1).prime = some 200000
    ∧ ((priming []).pumps.get .p1).grants = [] ∧ ((priming [.h1]).pumps.get .p1).grants = [.h1]
    ∧ ((priming [.h1]).hose .h1).dsc = .awaitPump ∧ (priming [.h1]).hoseSettings .h1 = some hoseSet
    ∧ ((priming [.h1]).hose .h1).context = some fill ∧ ((priming [.h1]).hose .h1).valves.phase = .shut
    ∧ ((priming [.h1]).hose .h1).valves.pending = none ∧ 0 < ((priming [.h1]).hose .h1).valves.active
    ∧ ((priming [.h1]).hose .h1).valves.trim.switch = .closed ∧ ((priming [.h1]).hose .h1).valves.trim.settle = none
    ∧ fill.slot < (priming [.h1]).tlg.slots.length ∧ (runningDown.pumps.get .p1).state = .rundown
    ∧ (runningDown.pumps.get .p1).rundown = some 500000 := by decide +kernel

theorem test_EmergencyInput_met : bow.pins.emergency = false ∧ bow.Quiet
    ∧ (((atWork .authorising id).hose .h1).context = some fill ∧ ((atWork .authorising id).hose .h1).dsc = .authorising)
    ∧ ((atWork .awaitPump id).hose .h1).dsc = .awaitPump
    ∧ (((open1 .full).hose .h1).context = some fill ∧ ((open1 .full).hose .h1).dsc = .flowing) :=
  ⟨rfl, quiet_of rfl, by decide +kernel⟩

theorem test_PowerFailWarning_met : (open1 .full).pins.powerFail = false ∧ ((open1 .full).hose .h1).context = some fill
    ∧ ((open1 .full).hose .h1).dsc = .flowing ∧ fill.committed = false := by decide +kernel

/-- The nozzle on hook and a tag read. -/
def tagged (code : TagCode) (drawn : Nat) : Part :=
  (with1 fun u => { u with reader := { u.reader with readTag := some code } }).setMachines [rowOf drawn]

theorem test_NozzleChanges_identify : ((tagged 5 29801).cfl.stage = .running ∧ (tagged 5 29801).Quiet)
    ∧ (((tagged 5 29801).hose .h1).nozzle = .onHook ∧ ((tagged 5 29801).hose .h1).dsc = .idle
      ∧ ((tagged 5 29801).hose .h1).reader.readTag = some 5)
    ∧ (tagged 6 0).refusalOf .h1 .tag ((tagged 6 0).lookupTag 6) = some .unknownTag
    ∧ ((tagged 5 29801).lookupTag 5 = some 0 ∧ (tagged 5 29801).machines[0]? = some (rowOf 29801)
      ∧ (tagged 5 29801).hoseSettings .h1 = some hoseSet ∧ (tagged 5 29801).reservable = some 0
      ∧ (tagged 5 29801).refusalOf .h1 .tag (some 0) = none)
    ∧ ((tagged 5 29801).terms .h1 hoseSet (rowOf 29801)).least = 199
    ∧ ((tagged 5 29800).terms .h1 hoseSet (rowOf 29800)).least = 200 ∧ (tagged 5 29800).needsClaim entry = true :=
  ⟨⟨rfl, quiet_of rfl⟩, by decide +kernel⟩

/-- Hose 1 with a transaction under the tag of code 1. -/
def watched (d : DscState) : Part := atWork d fun u => { u with reader := { u.reader with supervised := some 1 } }

/-- Tag 5 under supervision of code 1, in each state with a transaction. -/
theorem test_TagSupervision_changed : ((watched .stopping).cfl.stage = .running ∧ (watched .stopping).Quiet ∧ (open1 .trim).Quiet)
    ∧ ((5 : TagCode) ≠ 1 ∧ goodPresent 5 251 = true ∧ ((supervised none).hose .h1).reader.fault = false)
    ∧ [DscState.stopping, .authorising, .awaitPump].map (fun d => (((watched d).hose .h1).dsc, ((watched d).hose .h1).context,
        ((watched d).hose .h1).reader.supervised)) = [DscState.stopping, .authorising, .awaitPump].map (fun d => (d, some fill, some 1))
    ∧ ((open1 .trim).hose .h1).reader.supervised = some 1 :=
  ⟨⟨rfl, quiet_of rfl, quiet_of rfl⟩, by decide +kernel⟩

/-- Transactions on machine 17, in every state that a hold meets. -/
theorem test_Holds_met : ((atWork .flowing id).LineFree ∧ (atWork .committing id).LineFree)
    ∧ [DscState.authorising, .awaitPump, .flowing, .stopping, .committing].map (fun d => (((atWork d id).hose .h1).dsc,
        ((atWork d id).hose .h1).context)) = [DscState.authorising, .awaitPump, .flowing, .stopping, .committing].map (fun d => (d, some fill))
    ∧ (fill.position = 0 ∧ (atWork .flowing id).findMachine 17 = some 0 ∧ (atWork .flowing id).machines[0]? = some row
      ∧ { fill with position := 1 }.position ≠ 0) ∧ holdApplies row.hold 2 255 = true :=
  ⟨⟨lineFree_of rfl rfl, lineFree_of rfl rfl⟩, by decide +kernel⟩

/-- Hose 1 flowing, one step of half a centilitre from 1000 cL, the highest boundary reported being given. -/
def atBoundary (boundary : Nat) (queue : List WriteReq) : Part :=
  (((loaded .full 3000).modMeter .h1 fun m => { m with netSteps := 1999, gross := 999, boundary := boundary }).modHose .h1 fun u =>
    { u with context := some { fill with sequence := some 7 } }).setTlg { bow.tlg with queue := queue }

/-- A boundary new and reported; a checkpoint waiting; queues of 7 and 8. -/
theorem test_ForwardStep_boundary : ((atBoundary 0 []).Quiet ∧ (atBoundary 0 []).hoseSettings .h1 = some hoseSet)
    ∧ (((atBoundary 0 []).hose .h1).meter.window = true ∧ ((atBoundary 0 []).hose .h1).meter.netSteps = (1999 : Nat)
      ∧ classify ((atBoundary 0 []).hose .h1).meter.lastA ((atBoundary 0 []).hose .h1).meter.lastB true false = some .forward
      ∧ ((atBoundary 0 []).hose .h1).valves.phase = .full ∧ ((atBoundary 0 []).hose .h1).valves.pending = none
      ∧ ((atBoundary 0 []).hose .h1).context = some { fill with sequence := some 7 }
      ∧ (1999 + 1) * 100 * 10000 / (200 * 10000) = 1000 ∧ 1000 + 200 < ((atBoundary 0 []).hose .h1).valves.active
      ∧ ((atBoundary 0 []).hose .h1).meter.gross ≠ 1000)
    ∧ (((atBoundary 0 []).hose .h1).meter.boundary < 1000 ∧ 1000 ≤ ((atBoundary 1000 []).hose .h1).meter.boundary)
    ∧ (atBoundary 0 [.mark 1, .checkpoint .h1 7 500]).tlg.queue = [.mark 1] ++ .checkpoint .h1 7 500 :: []
    ∧ ((atBoundary 0 (List.replicate 7 (.mark 1))).tlg.queue.length < 8 ∧ 8 ≤ (atBoundary 0 (List.replicate 8 (.mark 1))).tlg.queue.length
      ∧ ∀ r ∈ (atBoundary 0 (List.replicate 8 (.mark 1))).tlg.queue, r.kind ≠ .checkpoint .h1)
    ∧ (atBoundary 0 []).pins.powerFail = false
    ∧ ((atBoundary 0 []).setPins { bow.pins with powerFail := true }).pins.powerFail = true :=
  ⟨⟨quiet_of rfl, rfl⟩, by decide +kernel⟩

/-- Hose 1 in TAPER with its trim valve open, one step of half a centilitre from its active preset of 3000 cL. -/
def atPreset : Part := (open1 .taper).modMeter .h1 fun m => { m with netSteps := 5999, gross := 2999 }

theorem test_ForwardStep_preset : (atPreset.Quiet ∧ atPreset.hoseSettings .h1 = some hoseSet)
    ∧ (atPreset.hose .h1).meter.window = true ∧ (atPreset.hose .h1).meter.netSteps = (5999 : Nat)
    ∧ (atPreset.hose .h1).valves.phase.flowing = true ∧ (atPreset.hose .h1).dsc = .flowing
    ∧ (atPreset.hose .h1).context = some fill ∧ (atPreset.hose .h1).valves.trim.switch = .opened
    ∧ (atPreset.hose .h1).valves.active ≤ (5999 + 1) * 100 * 10000 / (200 * 10000) ∧ (atPreset.hose .h1).meter.gross ≠ 3000 :=
  ⟨⟨quiet_of rfl, rfl⟩, by decide +kernel⟩

/-- The eighth sequence error of a flowing hose, of a stopping one and of one in neither state. -/
theorem test_SequenceErrors_eighth : (((open1 .full).modMeter .h1 fun m => { m with errorCount := 7 }).Quiet
      ∧ (shutting.modMeter .h1 fun m => { m with errorCount := 7 }).Quiet ∧ ((creeping 0 false).modMeter .h1 fun m => { m with errorCount := 7 }).Quiet)
    ∧ (((open1 .full).modMeter .h1 fun m => { m with errorCount := 7 }).hose .h1).meter.errorCount = 7
    ∧ ((open1 .full).hose .h1).meter.lastA ≠ true ∧ ((open1 .full).hose .h1).meter.lastB ≠ true
    ∧ ((open1 .full).hose .h1).dsc = .flowing ∧ ((open1 .full).hose .h1).valves.trim.switch = .opened
    ∧ (shutting.hose .h1).dsc = .stopping ∧ ((creeping 0 false).hose .h1).dsc = .idle :=
  ⟨⟨quiet_of rfl, quiet_of rfl, quiet_of rfl⟩, by decide +kernel⟩

/-- Hose 1 a step of half a centilitre back from 100 cL, after a reverse volume in steps. -/
def backing (p : Part) (deficit : Nat) : Part :=
  p.modMeter .h1 fun m => { m with window := true, netSteps := 200, gross := 100, deficit := deficit }

/-- Reverse volumes that reach 50 and 51 cL, in flow and while the valves shut. -/
theorem test_SequenceErrors_reverse : ((backing (open1 .full) 100).Quiet ∧ (backing shutting 100).Quiet
      ∧ (backing (open1 .full) 100).hoseSettings .h1 = some hoseSet ∧ (backing shutting 100).hoseSettings .h1 = some hoseSet)
    ∧ classify ((backing (open1 .full) 100).hose .h1).meter.lastA ((backing (open1 .full) 100).hose .h1).meter.lastB false true
        = some .reverse
    ∧ (200 - 1) * 100 * 10000 / (200 * 10000) = 99 ∧ (100 + 1) * 100 * 10000 / (200 * 10000) = 50
    ∧ (101 + 1) * 100 * 10000 / (200 * 10000) = 51 ∧ ((backing (open1 .full) 101).hose .h1).meter.reverseReported = false
    ∧ ((backing (open1 .full) 100).hose .h1).valves.pending = none ∧ ((backing (open1 .full) 100).hose .h1).context = some fill
    ∧ ((backing (open1 .full) 100).hose .h1).dsc = .flowing ∧ ((backing (open1 .full) 100).hose .h1).valves.phase = .full
    ∧ 99 + 200 < ((backing (open1 .full) 100).hose .h1).valves.active
    ∧ ((backing shutting 100).hose .h1).dsc = .stopping ∧ ((backing shutting 100).hose .h1).valves.phase.flowing = false
    ∧ ((backing shutting 100).hose .h1).valves.pending = none ∧ ((backing shutting 100).hose .h1).context = some fill
    ∧ { hoseSet with phaseSwap := true }.phaseSwap = true :=
  ⟨⟨quiet_of rfl, quiet_of rfl, rfl, rfl⟩, by decide +kernel⟩

/-- A mean with samples and without; an account of the settings in force. -/
theorem test_OverrunWindowEnds_closing : (shutting.hose .h1).meter.tempCount = 0
    ∧ ((shutting.modMeter .h1 fun m => { m with tempSum := -7, tempCount := 2 }).hose .h1).meter.tempCount ≠ 0
    ∧ (-7 : Int).tdiv 2 = -3 ∧ shutting.cfl.settings = some (settingsOf .bowser)
    ∧ (settingsOf .bowser).accounts[fill.account]? = some ⟨0, 0⟩ := by decide +kernel

/-! ## 07 The transaction log -/

def openingOf (n : Nat) : Opening :=
  { sequence := n, shift := 1, startTime := 0, fields := .fill false .h1 17 0 1 .keyed 1 3000 none }

def closingOf (n : Nat) : Closing :=
  { sequence := n, endTime := 10, fields := .fill 3000 2990 2990 200 0 .preset {} }

/-- The bowser with slot 0 holding record n in a state. -/
def recorded (p : Part) (st : SlotState) (n : Nat) : Part :=
  p.modSlot 0 fun u => { u with state := st, opening := some (openingOf n), closing := some (closingOf n) }

def slotOf1 (st : SlotState) (n : Nat) : Slot :=
  { Slot.start with state := st, opening := some (openingOf n), closing := some (closingOf n) }

/-- The bowser with a write in progress and a queue. -/
def writing (p : Part) (w : Option WriteReq) (q : List WriteReq) : Part :=
  p.setTlg { p.tlg with writing := w, writeTimer := w.map fun _ => 800, queue := q }

theorem test_Writes_start : (writing bow (some (.mark 1)) []).tlg.writing ≠ none ∧ bow.tlg.queue = []
    ∧ ((writing bow none [.mark 1]).tlg.writing = none ∧ (writing bow none [.mark 1]).tlg.queue = [.mark 1])
    ∧ (writing bow none [.whole .a 0]).tlg.queue = .whole .a 0 :: []
    ∧ (writing bow none [.whole .a 0]).tlg.waitLists.get .a = []
    ∧ ((writing bow none (.whole .a 0 :: List.replicate 7 (.mark 1))).setTlg
        { (writing bow none (.whole .a 0 :: List.replicate 7 (.mark 1))).tlg with waitLists := ⟨[.whole .a 1], []⟩ }).tlg.waitLists.get .a
        = [.whole .a 1]
    ∧ (List.replicate 7 (WriteReq.mark 1)).length < 8 := by decide +kernel

theorem test_Writes_end : ((writing bow (some (.checkpoint .h1 1 1000)) []).Quiet
      ∧ (writing bow (some (.checkpoint .h1 1 1000)) [.mark 1]).Quiet)
    ∧ (writing bow (some (.checkpoint .h1 1 1000)) []).tlg.writing = some (.checkpoint .h1 1 1000)
    ∧ (writing bow (some (.checkpoint .h1 1 1000)) []).tlg.writeTimer = some 800
    ∧ (writing bow (some (.checkpoint .h1 1 1000)) []).tlg.queue = []
    ∧ (writing bow (some (.checkpoint .h1 1 1000)) [.mark 1]).tlg.queue = .mark 1 :: []
    ∧ (writing (recorded bow .opened 1) (some (.opening .h1 0 false)) []).tlg.slots[0]? = some (slotOf1 .opened 1)
    ∧ (slotOf1 .opened 1).opening = some (openingOf 1) ∧ (slotOf1 .opened 1).closing = some (closingOf 1) :=
  ⟨⟨quiet_of rfl, quiet_of rfl⟩, by decide +kernel⟩

/-- A commit about to complete, in the current shift and in one gone by. -/
def committing (x : Context) (c : Option OwnClaim) : Part :=
  writing (recorded (with1 fun u => { u with dsc := .committing, nozzle := .offHook, context := some x, claim := c }) .opened 1)
    (some (.closing .h1 0)) []

def ownClaim : OwnClaim := { number := 1, machine := 17, account := 0, status := .active, renewal := some 3000000 }

theorem test_CommitCompletion_met : ((committing fill none).Quiet ∧ (∀ j, j ≠ .h1 → ((committing fill none).hose j).context = none))
    ∧ (committing fill none).tlg.writing = some (.closing .h1 0) ∧ (committing fill none).tlg.writeTimer = some 800
    ∧ (committing fill none).tlg.queue = [] ∧ (committing fill none).tlg.slots[0]? = some (slotOf1 .opened 1)
    ∧ (closingOf 1).fields = .fill 3000 2990 2990 200 0 .preset {} ∧ ((committing fill none).hose .h1).context = some fill
    ∧ ((committing fill none).hose .h1).claim = none ∧ fill.target = none ∧ (committing fill none).rsc.state ≠ .draining
    ∧ ((committing fill none).hose .h1).valves.phase = .shut ∧ fill.shift = (committing fill none).alc.shift
    ∧ (slotOf1 .opened 1).isLoadout = false ∧ (committing fill none).machines[fill.position]? = some row
    ∧ row.column (committing fill none).station + 2990 ≤ 4294967295
    ∧ ({ fill with shift := 2 } : Context).shift ≠ (committing { fill with shift := 2 } none).alc.shift :=
  ⟨⟨quiet_of rfl, fun j hj => by cases j; exact absurd rfl hj; all_goals rfl⟩, by decide +kernel⟩

theorem test_CommitCompletion_claim : ((committing fill (some ownClaim)).hose .h1).claim = some ownClaim ∧ ownClaim.status = .active
    ∧ ((committing fill (some ownClaim)).hose .h1).dsc = .committing ∧ row.drawn.length = 14
    ∧ (committing fill (some ownClaim)).station = 1 ∧ (committing fill (some ownClaim)).snc.joined = true
    ∧ (committing fill (some ownClaim)).snc.queue.length < 16 := by decide +kernel

/-- In DONE the table position is kept beside the cleared context, and the hang clears it. -/
theorem test_position_kept : (((atWork .committing id).leaveCommitting .h1).hose .h1).context = none
    ∧ (((atWork .committing id).leaveCommitting .h1).hose .h1).dsc = .done
    ∧ (((atWork .committing id).leaveCommitting .h1).hose .h1).kept = some 0
    ∧ ((((atWork .committing id).leaveCommitting .h1).hang .h1).hose .h1).dsc = .idle
    ∧ ((((atWork .committing id).leaveCommitting .h1).hang .h1).hose .h1).kept = none := by decide +kernel

/-- A slot of a longer list than the tests need is left out: three slots, records 5 and 9. -/
def records : Part :=
  bow.setTlg { bow.tlg with slots := [slotOf1 .closed 5, Slot.start, slotOf1 .opened 9] }

theorem test_ReadAndRelease_met : records.LineFree
    ∧ (∀ u ∈ records.tlg.slots, ∀ o, u.record = some o → o.sequence ≠ 6)
    ∧ (records.tlg.slots[2]? = some (slotOf1 .opened 9) ∧ (slotOf1 .opened 9).record = some (openingOf 9))
    ∧ (∀ u ∈ (bow.setTlg { bow.tlg with slots := [Slot.start] }).tlg.slots, u.record = none)
    ∧ records.tlg.queue.length < 8 := by
  refine ⟨lineFree_of rfl rfl, ?_, by decide +kernel, by decide +kernel, by decide +kernel⟩
  intro u hu o ho
  have h : u = slotOf1 .closed 5 ∨ u = Slot.start ∨ u = slotOf1 .opened 9 := by simpa [records] using hu
  rcases h with h | h | h <;> rw [h] at ho <;> cases ho <;> decide +kernel

/-- The number a record holds is held once. -/
theorem test_ReadAndRelease_once : ∀ (l : Nat) (v : Slot) (r : Opening), records.tlg.slots[l]? = some v → v.record = some r →
    r.sequence = 9 → l = 2 := by
  intro l v r hv hr hs
  rcases l with _ | _ | _ | l
  · cases hv; cases hr; exact absurd hs (by decide +kernel)
  · cases hv; cases hr
  · rfl
  · cases hv

/-- Records 5, CLOSED, and 9, OPEN, of the shift before. -/
def released (queue : List WriteReq) : Part :=
  (records.setAlc { records.alc with shift := 2 }).setTlg { records.tlg with queue := queue }

/-- A release up to 5 frees slot 0 and no other. -/
theorem test_ReadAndRelease_freed : Freed 5 (released []).alc.shift (released []).holdsSlot (released []).tlg.slots 0
    ∧ ¬ Freed 5 (released []).alc.shift (released []).holdsSlot (released []).tlg.slots 2 := by
  refine ⟨⟨slotOf1 .closed 5, openingOf 5, rfl, rfl, by decide +kernel, ?_⟩, fun ⟨u, o, hu, ho, _, h⟩ => ?_⟩
  · intro j v r hv hr _ hs
    rcases j with _ | _ | _ | j
    · cases hv; cases hr; decide +kernel
    · cases hv; cases hr
    · cases hv; cases hr; revert hs; decide +kernel
    · cases hv
  · cases hu; cases ho
    exact absurd (h 2 _ _ rfl rfl (by decide +kernel) (.inr ⟨rfl, Nat.le_refl 2⟩)).1 (by decide +kernel)

/-- A mark waiting, none, and a full queue with its oldest checkpoint second. -/
theorem test_ReadAndRelease_mark : (released []).LineFree ∧ (released []).pins.powerFail = false
    ∧ (released [.opening .h1 0 false, .mark 3]).tlg.queue = [.opening .h1 0 false] ++ .mark 3 :: []
    ∧ (let q := [.opening .h1 0 false] ++ .checkpoint .h2 4 1000 :: List.replicate 6 (.whole .a 1)
       (released q).tlg.queue.length = 8 ∧ (∀ r ∈ (released q).tlg.queue, r.kind ≠ .mark)
       ∧ WriteReq.isCheckpoint (.checkpoint .h2 4 1000) = true ∧ WriteReq.isCheckpoint (.opening .h1 0 false) = false)
    ∧ (exec (.release (some 5)) ⟨[], released []⟩ = .next ⟨[], (released []).releaseTo 5⟩)
    ∧ (((released []).releaseTo 5).cnl.response = some (.okReleased 1) ∧ ((released []).releaseTo 5).tlg.queue = [.mark 5]) :=
  ⟨lineFree_of rfl rfl, rfl, rfl, by decide +kernel, rfl, by decide +kernel⟩

/-- Record 5 is the oldest. -/
theorem test_ReadAndRelease_oldest : records.tlg.slots[0]? = some (slotOf1 .closed 5)
    ∧ ∀ v ∈ records.tlg.slots, ∀ r, v.record = some r → 5 ≤ r.sequence := by
  refine ⟨rfl, fun u hu o ho => ?_⟩
  have h : u = slotOf1 .closed 5 ∨ u = Slot.start ∨ u = slotOf1 .opened 9 := by simpa [records] using hu
  rcases h with h | h | h <;> rw [h] at ho <;> cases ho <;> decide +kernel

/-- A slot that a hose in COMMITTING still holds stops the release at its record. -/
theorem test_release_stops_at_held :
    let p := (released []).modHose .h1 fun u => { u with dsc := .committing, context := some { fill with committed := true } }
    p.holdsSlot 0 = true ∧ (p.releaseTo 5).cnl.response = some (.okReleased 0) ∧ (p.releaseTo 5).tlg.queue = [] := by
  decide +kernel

/-! ## 08 The inventory -/

theorem test_SampleEvents_met : bow.inv.sampleTimer = some 200000 ∧ bow.cfl.settings = some (settingsOf .bowser)
    ∧ tank.openingBook ≠ none ∧ tank.low = false ∧ ({ tank with low := true } : Compartment).low = true
    ∧ Compartment.start.openingBook = none := by decide +kernel

/-- A part with an empty sample history in compartment A, whose next gauge a level of 0 mm makes 0 cL. -/
def drying (p : Part) (low : Bool) : Part := p.modComp .a fun k => { k with history := [], low := low }

theorem test_SampleEvents_low : (drying bow false).hoseComp .h1 = some .a
    ∧ (let history := (((drying bow false).comp .a).history ++ [strapVolume strapping (max 0 (min 4000 (0 : Int))).toNat]).drop (0 + 1 - 8)
       history.sum / history.length ≤ compSet.cutOff * 100)
    ∧ (let history := (((drying bow false).comp .a).history ++ [strapVolume strapping (max 0 (min 4000 (4000 : Int))).toNat]).drop (0 + 1 - 8)
       compSet.cutOff * 100 < history.sum / history.length)
    ∧ ((drying bow true).comp .a).low = true ∧ ((drying (open1 .full) false).hose .h1).dsc = .flowing
    ∧ ((drying waiting false).hose .h1).dsc = .awaitPump ∧ ((drying (atWork .committing id) false).hose .h1).dsc = .committing
    ∧ (tank.gauge = some 400000 ∧ Compartment.start.gauge = none ∧ 5000 ≤ compSet.cutOff * 100
      ∧ compSet.cutOff * 100 + compSet.capacity * 5 = 30000) := by decide +kernel

/-- Compartment A below its restock level of 1000 L, its auto-request set: the trigger, the bowser drained. -/
def thirsty (st : RestockState) (armed : ByComp Bool) : Part :=
  ((bow.setCfl { bow.cfl with settings := some { settingsOf .bowser with
    comps := ⟨{ compSet with autoRequest := true, varianceLimit := 6000 }, compSet⟩ } }).modComp .a fun k => { k with book := 99999 }).setRsc
      { bow.rsc with state := st, armed := armed }

theorem test_SampleEvents_trigger :
    (∃ q, exec (.sampleEvent ⟨4000, 200, 4000, 200⟩) ⟨[], thirsty .normal ⟨true, false⟩⟩ = .next ⟨[], q⟩
      ∧ q.rsc.state = .requested ∧ q.rsc.armed = ⟨false, true⟩)
    ∧ ∃ q, exec (.sampleEvent ⟨4000, 200, 4000, 200⟩) ⟨[], thirsty .normal ⟨false, true⟩⟩ = .next ⟨[], q⟩
      ∧ q.rsc.state = .normal ∧ q.rsc.armed = ⟨false, true⟩ :=
  ⟨⟨_, rfl, by decide +kernel⟩, ⟨_, rfl, by decide +kernel⟩⟩

/-- The bowser with compartment A's book 100.00 L and 100.01 L under its gauge. -/
def apart (k : Compartment → Compartment) : Part := bow.modComp .a k

theorem test_VarianceAndStock_met : (bow.comp .a).openingBook ≠ none ∧ (bow.comp .a).settled = true
    ∧ (bow.comp .a).receiptCheck ≠ some 8 ∧ (bow.comp .a).latched = false
    ∧ ((400000 : Int) - ((apart fun k => { k with book := 390000 }).comp .a).book).natAbs ≤ 100 * 100
    ∧ 100 * 100 < ((400000 : Int) - ((apart fun k => { k with book := 389999 }).comp .a).book).natAbs
    ∧ ((apart fun k => { k with latched := true }).comp .a).latched = true
    ∧ ((apart fun k => { k with receiptCheck := some 8 }).comp .a).receiptCheck = some 8
    ∧ ((apart fun k => { k with settled := false }).comp .a).settled = false
    ∧ bow.inv.stockTimer = some 6000000 ∧ bow.cfl.settings = some (settingsOf .bowser) := by decide +kernel

theorem test_VarianceAndStock_still : ∀ h, bow.hoseComp h = some .a → (bow.hose h).dsc ≠ .flowing ∧ (bow.hose h).dsc ≠ .stopping := by
  intro h _; cases h <;> decide +kernel

/-! ## 09 Restocking -/

/-- The bowser in a restock state, in bay 1 under grant 4 where it has one. -/
def restocking (st : RestockState) : Part :=
  bow.setRsc { bow.rsc with state := st, grant := some (1, 4), awaited := ⟨true, true⟩, repeatTimer := some 1000000 }

theorem test_RestockRequests_met : (bow.LineFree ∧ dep.LineFree ∧ (bow.setCfl { bow.cfl with load := .fault }).LineFree)
    ∧ dep.role ≠ some .bowser ∧ dep.cfl.load ≠ .fault
    ∧ bow.cfl.settings = some (settingsOf .bowser) ∧ (settingsOf .bowser).identity.role = .bowser
    ∧ [RestockState.normal, .draining, .requested, .granted, .receiving].map (fun r => (restocking r).rsc.state)
        = [.normal, .draining, .requested, .granted, .receiving]
    ∧ ((atWork .flowing id).hose .h1).dsc ≠ .idle ∧ ((atWork .flowing id).hose .h1).dsc ≠ .lifted :=
  ⟨⟨lineFree_of rfl rfl, lineFree_of rfl rfl, lineFree_of rfl rfl⟩, by decide +kernel⟩

theorem test_RestockRequests_drained : ∀ h, (bow.hose h).dsc = .idle ∨ (bow.hose h).dsc = .lifted := by
  intro h; cases h <;> decide +kernel

def bayEntry (t : BayTimer) : BayEntry :=
  { station := 3, grant := 65535, urgency := 0, spaces := ⟨100, 0⟩, loaded := ⟨0, 0⟩, active := 0, noteOffered := false, timer := t }

def waitingStation : QueueEntry := { station := 4, urgency := 0, arrival := 7, spaces := ⟨200, 0⟩ }

/-- The depot with both bays in use, and a station waiting or none. -/
def bays (t : BayTimer) (q : List QueueEntry) : Part :=
  dep.setRsc { dep.rsc with bays := ⟨some (bayEntry t), some { bayEntry .stopped with station := 5 }⟩, queue := q, arrival := 7
                            grantCounter := 65535 }

theorem test_BayTimers_met : ((restocking .requested).rsc.repeatTimer = some 1000000 ∧ (restocking .requested).rsc.frozenAt = none
      ∧ (restocking .requested).cfl.settings = some (settingsOf .bowser))
    ∧ ((bays (.expiry 90000000) [waitingStation]).rsc.bays.get .b1 = some (bayEntry (.expiry 90000000))
      ∧ (bays (.expiry 90000000) [waitingStation]).rsc.queue = waitingStation :: []
      ∧ (bayEntry (.expiry 90000000)).urgency ≤ waitingStation.urgency
      ∧ waitingStation.arrival ≤ (bays (.expiry 90000000) [waitingStation]).rsc.arrival
      ∧ (bays (.expiry 90000000) [waitingStation]).hasBay .b1 = true
      ∧ (bays (.expiry 90000000) [waitingStation]).rsc.bays.get .b2 ≠ none
      ∧ (bays (.expiry 90000000) [waitingStation]).snc.joined = true
      ∧ (bays (.expiry 90000000) [waitingStation]).snc.queue.length < 15)
    ∧ ((bays (.release 6000000) []).rsc.bays.get .b1 = some (bayEntry (.release 6000000))
      ∧ (bays (.release 6000000) []).rsc.frozenAt = none ∧ (bays (.release 6000000) []).rsc.queue = []) := by decide +kernel

theorem test_RestockNotices_met : ((restocking .requested).identity = some (identityOf .bowser)
      ∧ (identityOf .bowser).depotStation = 2 ∧ (restocking .requested).station = 1 ∧ compOfCode 2 = some .b)
    ∧ dep.identity = some (identityOf .depot)
    ∧ ((restocking .granted).rsc.grant.map (·.2) = some 4 ∧ (restocking .granted).rsc.awaited = ⟨true, true⟩)
    ∧ (restocking .granted).rsc.grant.map (·.2) ≠ some 5
    ∧ bow.role ≠ some .depot ∧ dep.role = some .depot ∧ dep.bayOf 3 = none
    ∧ ((bays .stopped []).bayOf 6 = none ∧ (bays .stopped []).freeBay = none)
    ∧ ((bays .stopped []).bayOf 3 = some .b1 ∧ (bays .stopped []).rsc.bays.get .b1 = some (bayEntry .stopped)) := by decide +kernel

/-- A gross of 1 and of 6000000; 0 and 6000001 beyond them; compartments 0 and 3. -/
theorem test_Deliveries_met : (dep.LineFree ∧ bow.LineFree ∧ (dep.setCfl { dep.cfl with load := .fault }).LineFree)
    ∧ compOfCode 1 = some .a ∧ compOfCode 2 = some .b ∧ compOfCode 3 = none ∧ dep.role = some .depot ∧ bow.role ≠ some .depot
    ∧ 6000000 < 6000001 ∧ tank.openingBook ≠ none ∧ tank.receipts + 6000000 ≤ 2147483647 ∧ tank.book + 6000000 ≤ 2147483647
    ∧ (dep.setTlg { dep.tlg with nextSequence := 4294966272 }).tlg.nextSequence = 4294966272
    ∧ (dep.setTlg { dep.tlg with waitLists := ⟨List.replicate 4 (.whole .a 0), []⟩ }).tlg.waitLists.get .a = List.replicate 4 (.whole .a 0)
    ∧ (records.tlg.nextSequence ≤ 4294966271 ∧ records.tlg.slots[1]? = some Slot.start ∧ Slot.start.state = .free
      ∧ (records.tlg.waitLists.get .a).length < 4 ∧ records.tlg.queue = []) ∧ (slotOf1 .closed 5).state ≠ .free
    ∧ .whole .a 0 ∈ (writing dep none [.whole .a 0]).tlg.queue :=
  ⟨⟨lineFree_of rfl rfl, lineFree_of rfl rfl, lineFree_of rfl rfl⟩, by decide +kernel⟩

theorem test_Deliveries_full : ∀ u ∈ (dep.setTlg { dep.tlg with slots := [slotOf1 .closed 5] }).tlg.slots, u.state ≠ .free := by decide +kernel

theorem test_SecondsAndSilence_granted :
    let p := (hearing 2 heardPeer (restocking .granted)).setSnc
      { (hearing 2 heardPeer (restocking .granted)).snc with queue := List.replicate 14 ⟨.shift 3, false⟩ }
    p.snc.joined = true ∧ p.snc.peers[2 - 1]? = some heardPeer ∧ p.identity = some (identityOf .bowser)
    ∧ p.cfl.settings = some (settingsOf .bowser) ∧ (identityOf .bowser).depotStation = 2 ∧ p.rsc.state = .granted
    ∧ p.snc.queue.length = 14 := by decide +kernel

theorem test_SecondsAndSilence_holder :
    let p := fun q => hearing 3 heardPeer (bays .stopped q)
    ((p []).snc.joined = true ∧ (p []).snc.peers[3 - 1]? = some heardPeer ∧ (p []).identity = some (identityOf .depot)
      ∧ (p []).bayOf 3 = some .b1 ∧ (p []).rsc.queue = [])
    ∧ (p [waitingStation]).rsc.queue = waitingStation :: [] ∧ (p [waitingStation]).hasBay .b1 = true
    ∧ (p [waitingStation]).rsc.bays.get .b2 ≠ none ∧ (p [waitingStation]).rsc.grantCounter = 65535 := by decide +kernel

/-- A machine that is compartment A or B of station 3. -/
def inletRow (c : CompId) : MachineRow := { row with entry := { entry with account := 63, allowance := none, inlet := some (3, c) } }

/-- A station with a ceiling of 400 L on account 63. -/
def ceilinged (r : Role) : Part :=
  (up r).setCfl { (up r).cfl with settings := some { settingsOf r with accounts := List.replicate 63 ⟨0, 0⟩ ++ [⟨0, 400⟩] } }

/-- A bay entry with spaces for A alone; figures heard and not heard; an allowance and none; a ceiling and none. -/
theorem test_Terms_met : (dep.role = some .depot ∧ bow.role ≠ some .depot ∧ (inletRow .a).entry.inlet = some (3, .a)
      ∧ (bays .stopped []).bayOf 3 = some .b1 ∧ (bays .stopped []).rsc.bays.get .b1 = some (bayEntry .stopped)
      ∧ 0 < (bayEntry .stopped).spaces.get .a ∧ (bayEntry .stopped).spaces.get .b = 0 ∧ (inletRow .b).entry.inlet = some (3, .b))
    ∧ ((hearing 3 { heardPeer with figures := some (⟨0, 0, 5000, 1⟩, ⟨0, 0, 5000, 1⟩) } (bays .stopped [])).snc.peers[3 - 1]?.bind
        (·.figures) = some (⟨0, 0, 5000, 1⟩, ⟨0, 0, 5000, 1⟩) ∧ (bays .stopped []).snc.peers[3 - 1]?.bind (·.figures) = none)
    ∧ ((inletRow .a).entry.allowance = none ∧ entry.inlet = none ∧ entry.allowance = some 300)
    ∧ bow.ceiling 0 = 0 ∧ (ceilinged .bowser).ceiling 63 ≠ 0 := by decide +kernel

/-- The depot with hose 1 lifted, station 3 in bay 1, and machine 17 a compartment of it, on an account with a ceiling or without. -/
def loadoutOf (account : Nat) : Part :=
  ((((ceilinged .depot).setRsc (bays .stopped []).rsc).modHose .h1 fun u =>
    { u with dsc := .lifted, nozzle := .offHook })).setMachines
    [{ row with entry := { entry with account := account, allowance := none, inlet := some (3, .a) } }]

theorem test_KeyedIdentification_loadout (account : Nat) (h : account = 63 ∨ account = 0) :
    (loadoutOf account).Quiet ∧ (loadoutOf account).LineFree ∧ (loadoutOf account).inputsClear
    ∧ (loadoutOf account).keyedRefusal .h1 17 = none ∧ (loadoutOf account).lookupNumber 17 = some 0
    ∧ (loadoutOf account).reservable = some 0 ∧ (loadoutOf account).refusalOf .h1 .keyed (some 0) = none
    ∧ ((loadoutOf account).terms .h1 hoseSet { inletRow .a with entry := { (inletRow .a).entry with account := account } }).least = 10000
    ∧ (loadoutOf account).needsClaim { (inletRow .a).entry with account := account } = decide (account = 63)
    ∧ (loadoutOf account).role = some .depot ∧ (loadoutOf account).bayOf 3 = some .b1
    ∧ ((loadoutOf account).hose .h1).valves.trim.latch = false ∧ ((loadoutOf account).hose .h1).valves.main.latch = false
    ∧ ((loadoutOf account).pumps.get .p1).state = .stopped ∧ ((loadoutOf account).pumps.get .p1).grants = []
    ∧ 1 ≤ (loadoutOf account).limit .p1 := by
  refine ⟨quiet_of rfl, lineFree_of rfl rfl, ⟨rfl, rfl⟩, ?_⟩
  rcases h with rfl | rfl <;> decide +kernel

/-- Machine 17 under its allowance, under a ceiling, under both and under neither; a transaction the rule runs for. -/
theorem test_CutRule_limits : (bow.machines[fill.position]? = some row ∧ entry.inlet = none ∧ entry.allowance = some 300)
    ∧ (inletRow .a).entry.allowance = none ∧ ((ceilinged .bowser).ceiling 63 ≠ 0 ∧ bow.ceiling fill.account = 0)
    ∧ (bow.machineLimit .h1 fill = some 30000 ∧ bow.accountLimit .h1 fill = none ∧ bow.cutLimit .h1 fill = some 30000)
    ∧ ((ceilinged .bowser).machineLimit .h1 { fill with account := 63 } = some 30000
      ∧ (ceilinged .bowser).accountLimit .h1 { fill with account := 63 } = some 40000)
    ∧ ((ceilinged .bowser).setMachines [inletRow .a]).machineLimit .h1 { fill with account := 63 } = none
    ∧ ((bow.setMachines [inletRow .a]).machineLimit .h1 fill = none ∧ (bow.setMachines [inletRow .a]).cutLimit .h1 fill = none)
    ∧ ((atWork .flowing id).cutRuns 17 0 .h1 fill = true ∧ ((atWork .flowing id).hose .h1).context = some fill
      ∧ some HoseId.h1 ≠ none)
    ∧ (fill.shift = bow.alc.shift ∧ { fill with shift := 2 }.shift ≠ bow.alc.shift) := by decide +kernel

/-- A loadout to compartment B of station 3 about to be committed, under grant 65535 of bay 1, under one gone by, or with no bay. -/
def loadingOut (x : Context) (r : Rsc) : Part :=
  ((writing (recorded (dep.modHose .h1 fun u => { u with dsc := .committing, nozzle := .offHook, context := some x }) .opened 1)
    (some (.closing .h1 0)) []).modSlot 0 fun u => { u with opening := some { openingOf 1 with
      fields := .fill true .h1 17 0 1 .keyed 0 3000 (some (3, .b)) } }).setRsc r

def loadout : Context := { fill with target := some (3, .b), grant := 65535, claim := 0 }

theorem test_CommitCompletion_loadout : (loadingOut loadout (bays .stopped []).rsc).Quiet
    ∧ (loadingOut loadout (bays .stopped []).rsc).tlg.writing = some (.closing .h1 0)
    ∧ (loadingOut loadout (bays .stopped []).rsc).tlg.queue = []
    ∧ ((loadingOut loadout (bays .stopped []).rsc).tlg.slots[0]?.map Slot.isLoadout) = some true
    ∧ (closingOf 1).fields = .fill 3000 2990 2990 200 0 .preset {} ∧ loadout.target = some (3, .b)
    ∧ ((loadingOut loadout (bays .stopped []).rsc).hose .h1).claim = none
    ∧ (loadingOut loadout (bays .stopped []).rsc).rsc.state ≠ .draining
    ∧ ((loadingOut loadout (bays .stopped []).rsc).hose .h1).valves.phase = .shut
    ∧ ((bays .stopped []).bayOf 3 = some .b1 ∧ (bays .stopped []).rsc.bays.get .b1 = some (bayEntry .stopped)
      ∧ (bayEntry .stopped).grant = loadout.grant) ∧ (bayEntry .stopped).grant ≠ { loadout with grant := 1 }.grant
    ∧ (loadingOut loadout dep.rsc).bayOf 3 = none :=
  ⟨quiet_of rfl, by decide +kernel⟩

/-- Another grant in GRANTED, a revoke in REQUESTED, the last load awaited, one not awaited and one beside another, and a station
that waits already. -/
theorem test_RestockNotices_more : (restocking .granted).identity = some (identityOf .bowser)
    ∧ ((restocking .granted).rsc.grant.map (·.2) ≠ some 65535 ∧ (restocking .requested).rsc.state = .requested)
    ∧ (compOfCode 2 = some .b ∧ (restocking .receiving).rsc.grant.map (·.2) = some 4
      ∧ ((restocking .receiving).setRsc { (restocking .receiving).rsc with awaited := ⟨false, true⟩ }).rsc.awaited = ⟨false, true⟩)
    ∧ ((restocking .receiving).rsc.awaited.get .b = true ∧ (restocking .receiving).rsc.awaited.get .a = true)
    ∧ ((restocking .receiving).setRsc { (restocking .receiving).rsc with awaited := ⟨true, false⟩ }).rsc.awaited.get .b = false
    ∧ (dep.role = some .depot ∧ (bays .stopped [waitingStation]).bayOf 4 = none
      ∧ (bays .stopped [waitingStation]).rsc.queue = [] ++ waitingStation :: []) := by decide +kernel

/-- Entries of more and of equal urgency stand before the new one, of less and of equal urgency and later arrival after it. -/
theorem test_RestockNotices_order :
    (∀ q ∈ [{ waitingStation with urgency := 1, arrival := 9 }, { waitingStation with arrival := 8 }],
      waitingStation.urgency < q.urgency ∨ q.urgency = waitingStation.urgency ∧ q.arrival ≤ { waitingStation with arrival := 8 }.arrival)
    ∧ ∀ q ∈ [{ waitingStation with arrival := 9 }], q.urgency < waitingStation.urgency
        ∨ q.urgency = waitingStation.urgency ∧ { waitingStation with arrival := 8 }.arrival < q.arrival := by decide +kernel

/-- Notices of the other role, origin or station, compartments that are not A or B, a STOCK at a bowser and one that reports REQUESTED,
and an expected load in GRANTED that is not awaited or not the last. -/
theorem test_RestockNotices_refused : dep.identity = some (identityOf .depot) ∧ (identityOf .depot).role = .depot
    ∧ 1 ≠ (identityOf .bowser).depotStation ∧ 2 ≠ bow.station ∧ (0 ≠ 1 ∧ 0 ≠ 2) ∧ (3 ≠ 1 ∧ 3 ≠ 2)
    ∧ bow.role ≠ some .depot
    ∧ (restockCode .requested ≠ restockCode .normal ∧ restockCode .requested ≠ restockCode .draining)
    ∧ (let p := (restocking .granted).setRsc { (restocking .granted).rsc with awaited := ⟨true, false⟩ }
       p.rsc.state = .granted ∧ p.rsc.grant.map (·.2) = some 4 ∧ p.rsc.awaited.get .b = false ∧ p.rsc.awaited.get .a = true) := by
  decide +kernel

/-- A free bay with nobody waiting, a station that holds bay 1, and the peer entries of stations 1 and 14. -/
theorem test_RestockNotices_free : (dep.role = some .depot ∧ dep.rsc.queue = [] ∧ dep.bayOf 3 = none ∧ dep.freeBay = some .b1)
    ∧ ((bays .stopped []).rsc.queue = [] ∧ (bays .stopped []).bayOf 3 = some .b1 ∧ (bays .stopped []).bayOf 5 = some .b2)
    ∧ dep.snc.peers[1 - 1]? = some Peer.start ∧ dep.snc.peers[14 - 1]? = some Peer.start := by decide +kernel

/-! ## 10 Start and reload -/

theorem test_StartCommand_met : bow.tlg.writing = none ∧ bow.tlg.scanWrites = []
    ∧ ((committing fill none).tlg.writing = some (.closing .h1 0) ∧ (committing fill none).tlg.scanWrites = []
      ∧ 0 < (committing fill none).tlg.slots.length ∧ ((committing fill none).slot 0).closing = some (closingOf 1)) := by decide +kernel

/-- A slot's memory. -/
def memory (o : Area Opening) (k : Area Closing) : Slot := { Slot.start with nvOpening := o, nvClosing := k }

/-- The part in its image load, with boot copies and slots in memory. -/
def loading (x y : Area Nat) (slots : List Slot) : Part :=
  Part.reset.setTlg { Part.reset.tlg with
    bootFirst := x, bootSecond := y, slots := slots, markArea := .valid 4, checkpoints := Quad.replicate (.valid (6, 1000)) }

/-- Boot copies none, one, and two at differences 1, 127 and 128; slots blank, bad, released, closed, found open, not a fill. -/
theorem test_StartLoad_met : Part.reset.cfl.stage = .imageLoad ∧ Part.reset.cfl.station = some 1
    ∧ (Part.reset.setCfl (Cfl.start none)).cfl.station = none
    ∧ [(1, 0), (127, 0), (128, 0), (0, 255)].map (fun q : Nat × Nat => (q.1 + 256 - q.2) % 256) = [1, 127, 128, 1]
    ∧ (loading .blank .bad []).tlg.bootFirst.value? = none ∧ (loading .blank .bad []).tlg.bootSecond.value? = none
    ∧ (loading (.valid 255) (.valid 0) []).tlg.bootFirst.value? = some 255
    ∧ (memory .blank .blank).nvOpening = .blank ∧ (memory .bad .blank).nvOpening = .bad
    ∧ ((memory (.valid (openingOf 4)) .blank).nvOpening = .valid (openingOf 4) ∧ (openingOf 4).sequence ≤ 4)
    ∧ ((memory (.valid (openingOf 5)) (.valid (closingOf 5))).nvClosing = .valid (closingOf 5) ∧ 4 < (openingOf 5).sequence
      ∧ (closingOf 5).sequence = (openingOf 5).sequence)
    ∧ (memory (.valid (openingOf 6)) (.valid (closingOf 5))).nvClosing = .valid (closingOf 5)
    ∧ (closingOf 5).sequence ≠ (openingOf 6).sequence
    ∧ (loading .blank .blank []).tlg.checkpoints.get .h1 = .valid ((openingOf 6).sequence, 1000) := by decide +kernel

def scanning (p : Part) : Part := p.setCfl { p.cfl with stage := .scanWrites }

theorem test_ScanWritesDone_met : (scanning Part.reset).cfl.stage = .scanWrites ∧ (scanning Part.reset).cfl.settings = none
    ∧ (scanning bow).cfl.settings = some (settingsOf .bowser)
    ∧ (((scanning bow).modPins .h4 fun k => { k with nozzle := .offHook }).pins.hoses.get .h4).nozzle = .offHook := by decide +kernel

/-- Slots read in no order, the mark below them: the next number follows the greatest, and the shift is the highest. -/
theorem test_StartLoad_figures :
    let p := loading .blank .blank [memory (.valid (openingOf 9)) (.valid (closingOf 9)), memory .bad .blank, memory (.valid (openingOf 5)) .blank]
    p.tlg.markArea.value?.getD 0 = 4 ∧ ((p.tlg.slots.filterMap fun u => u.nvOpening.value?).map (·.sequence)).foldl max 4 + 1 = 10
    ∧ (closingOf 9).sequence = (openingOf 9).sequence ∧ (openingOf 9).shift = 1 := by decide +kernel

/-- Copies 255 and 0: 0 is the newer, so 1 goes over the first; the open fill 6 is closed at its checkpoint of 1000 cL. -/
theorem test_StartLoad_writes :
    let p := loading (.valid 255) (.valid 0) [memory (.valid (openingOf 5)) (.valid (closingOf 5)), memory (.valid (openingOf 6)) .blank]
    (p.startLoaded none).tlg.scanWrites = [.boot false 1, .recovered 1
      { sequence := 6, endTime := (openingOf 6).startTime, fields := .fill 3000 1000 1000 200 0 .powerLoss { estimated := true } }] := by
  decide +kernel

/-- The figures of a recovered record with settings in force. -/
theorem test_StartLoad_priced : (settingsOf .bowser).correction[(1 - 1) * 36 + 20]? = some 10000
    ∧ (settingsOf .bowser).accounts[0]? = some ⟨0, 0⟩ ∧ (settingsOf .bowser).tariff[(1 - 1) * 4 + 0]? = some 0 := by decide +kernel

/-- The scan's writes at their end, one slot among them and one not. -/
theorem test_ScanWritesDone_writes : (∀ w ∈ [ScanWrite.recovered 0 (closingOf 6)], ∃ i k, w = .recovered i k)
    ∧ (∀ k, .recovered 0 k ∈ [ScanWrite.recovered 0 (closingOf 6)] → k = closingOf 6)
    ∧ (∀ k, .recovered 1 k ∉ [ScanWrite.recovered 0 (closingOf 6)])
    ∧ ((scanning bow).setTlg { bow.tlg with scanWrites := .boot true 5 :: [.recovered 0 (closingOf 6)] }).tlg.slots[0]?
        = some Slot.start := by
  refine ⟨fun w hw => ?_, fun k hk => ?_, fun k hk => ?_, rfl⟩
  · simp at hw; exact ⟨_, _, hw⟩
  · simpa using hk
  · simp at hk

/-! ### An image -/

def identityBytes : List Byte := bigEndian 2 7 ++ [1#8, 2#8, 0#8, 60#8, 2#8, 1#8, 1#8]

def compBytes (table : List (Nat × Nat)) : List Byte :=
  [1#8] ++ bigEndian 2 5000 ++ bigEndian 2 100 ++ bigEndian 2 50 ++ bigEndian 2 1000 ++ [0#8] ++ bigEndian 2 100 ++ [50#8]
    ++ table.flatMap fun q => bigEndian 2 q.1 ++ bigEndian 2 q.2

/-- The offsets of the sections: identity at 34, A at 43, B and the machines as given (0 for a section that is absent). -/
def directory (b machines : Nat) : List Byte :=
  bigEndian 2 34 ++ bigEndian 8 0 ++ bigEndian 2 43 ++ bigEndian 2 b ++ bigEndian 6 0 ++ bigEndian 2 machines

def machineBytes (number tag : Nat) : List Byte :=
  bigEndian 2 number ++ bigEndian 8 tag ++ [0#8, 1#8] ++ bigEndian 2 500 ++ bigEndian 2 300 ++ [1#8, 0#8, 0#8]

/-- The three sections that must be present. -/
def body : List Byte := directory 188 0 ++ identityBytes ++ compBytes strapping ++ compBytes strapping

/-- The same with two machines. -/
def bodyWith (number tag : Nat) : List Byte :=
  directory 188 333 ++ identityBytes ++ compBytes strapping ++ compBytes strapping ++ bigEndian 2 2 ++ machineBytes 17 5
    ++ machineBytes number tag

def imageWith (marker format length presence crc : Nat) (rest : List Byte) : List Byte :=
  bigEndian 2 marker ++ bigEndian 2 format ++ bigEndian 2 length ++ bigEndian 2 presence ++ bigEndian 4 crc ++ rest

/-- An image sealed with its CRC. -/
def sealed (length presence : Nat) (rest : List Byte) : List Byte :=
  imageWith 0x6B1D 1 length presence (crc32 (imageWith 0x6B1D 1 length presence 0 rest)).toNat rest

/-- The CRC field of a sealed image is that of R170. -/
theorem sealed_crc (length presence : Nat) (rest : List Byte) (h : rest.length + 12 ≤ length) :
    (crc32 (withoutCrc (sealed length presence rest) length)).toNat = (headerOf (sealed length presence rest)).crc := by
  have hw : withoutCrc (sealed length presence rest) length = imageWith 0x6B1D 1 length presence 0 rest := by
    have ht : (sealed length presence rest).take length = sealed length presence rest :=
      List.take_of_length_le (by simp [sealed, imageWith, bigEndian]; omega)
    rw [withoutCrc, ht]
    rfl
  rw [hw, sealed]
  generalize crc32 (imageWith 0x6B1D 1 length presence 0 rest) = c
  have hc := c.isLt
  show c.toNat = ofBigEndian (bigEndian 4 c.toNat)
  simp [bigEndian, ofBigEndian]
  omega

/-- A store too short; the header's marker and format; lengths of 33 and 16385; a presence of 2048; a section left out of the
directory; a section that is not there. -/
theorem test_LoadChecks_header : (List.replicate 33 0#8).length < 34
    ∧ (imageWith 0x6B1D 1 333 0x61 0 body).length = 333
    ∧ (headerOf (imageWith 0x6B1C 1 333 0x61 0 body)).marker ≠ 0x6B1D
    ∧ (headerOf (imageWith 0x6B1D 2 333 0x61 0 body)).format ≠ 1
    ∧ (headerOf (imageWith 0x6B1D 1 33 0x61 0 body)).length < 34
    ∧ 16384 < (headerOf (imageWith 0x6B1D 1 16385 0x61 0 body)).length
    ∧ 2048 ≤ (headerOf (imageWith 0x6B1D 1 333 2048 0 body)).presence
    ∧ lengthOk (imageWith 0x6B1D 1 333 0x21 0 body) (headerOf (imageWith 0x6B1D 1 333 0x21 0 body)) = false
    ∧ lengthOk (imageWith 0x6B1D 1 333 0x21 0 (directory 0 0)) (headerOf (imageWith 0x6B1D 1 333 0x21 0 (directory 0 0))) = true
    ∧ (headerOf (imageWith 0x6B1D 1 333 0x21 0 (directory 0 0))).has 6 = false := by decide +kernel

/-- An image without machines passes every check. -/
theorem test_LoadChecks_good : lengthOk (sealed 333 0x61 body) (headerOf (sealed 333 0x61 body)) = true
    ∧ contentOf 1 (sealed 333 0x61 body) (headerOf (sealed 333 0x61 body))
      = some ({ settingsOf .bowser with hoses := Quad.replicate none }, []) := by decide +kernel

theorem test_LoadChecks_badCrc : (crc32 (withoutCrc (imageWith 0x6B1D 1 12 0 0 []) 12)).toNat
    ≠ (headerOf (imageWith 0x6B1D 1 12 0 0 [])).crc := by decide +kernel

/-- A bowser that is its own depot; a strapping table that stands still; a machine number and a tag code that appear twice. -/
theorem test_LoadChecks_content :
    contentOf 2 (sealed 333 0x61 body) (headerOf (sealed 333 0x61 body)) = none
    ∧ ((contentOf 1 (sealed 333 0x61 (directory 188 0 ++ identityBytes ++ compBytes (List.replicate 33 (0, 0)) ++ compBytes strapping))
        (headerOf (sealed 333 0x61 (directory 188 0 ++ identityBytes ++ compBytes (List.replicate 33 (0, 0)) ++ compBytes strapping)))).map
          fun c => increasing c.1.comps.a.strapping) = some false
    ∧ ((contentOf 1 (sealed 373 0x461 (bodyWith 17 6)) (headerOf (sealed 373 0x461 (bodyWith 17 6)))).map
        fun c => c.2.map fun m => (m.number, m.tag)) = some [(17, 5), (17, 6)]
    ∧ ((contentOf 1 (sealed 373 0x461 (bodyWith 18 5)) (headerOf (sealed 373 0x461 (bodyWith 18 5)))).map
        fun c => c.2.map fun m => (m.number, m.tag)) = some [(17, 5), (18, 5)]
    ∧ lengthOk (sealed 373 0x461 (bodyWith 18 5)) (headerOf (sealed 373 0x461 (bodyWith 18 5))) = true
    ∧ (bodyWith 18 5).length + 12 = 373 := by decide +kernel

theorem test_Reload_met : (bow.LineFree ∧ (bow.setCfl { bow.cfl with station := none }).LineFree)
    ∧ ((with1 fun u => { u with dsc := .lifted }).hose .h1).dsc ≠ .idle ∧ (restocking .draining).rsc.state ≠ .normal
    ∧ bow.cfl.station = some 1 ∧ (bow.setCnl { bow.cnl with reloading := true }).cnl.reloading = true
    ∧ (loadImage 1 none).check ≠ .good :=
  ⟨⟨lineFree_of rfl rfl, lineFree_of rfl rfl⟩, by decide +kernel⟩

theorem test_Reload_idle : ∀ h, (bow.hose h).dsc = .idle := by intro h; cases h <;> rfl

/-- The sections of the image of a station with no hose, in a role and with a number of bays. -/
def sectionsOf (r : Role) (bays : Nat) : List Byte :=
  directory 188 0 ++ bigEndian 2 7 ++ [BitVec.ofNat 8 (roleCode r), 2#8, 0#8, 60#8, BitVec.ofNat 8 bays, 1#8, 1#8]
    ++ compBytes strapping ++ compBytes strapping

def imageSettings (r : Role) (bays : Nat) : Settings :=
  { settingsOf r with identity := { identityOf r with bays := bays }, hoses := Quad.replicate none }

/-- A sealed image of 333 bytes whose sections are good is loaded. -/
theorem sealed_good (rest : List Byte) (c : Settings × List MachineEntry) (hr : rest.length = 321)
    (hm : (headerOf (sealed 333 0x61 rest)).marker = 0x6B1D ∧ (headerOf (sealed 333 0x61 rest)).format = 1
      ∧ (headerOf (sealed 333 0x61 rest)).length = 333)
    (hl : lengthOk (sealed 333 0x61 rest) (headerOf (sealed 333 0x61 rest)) = true)
    (hp : ((headerOf (sealed 333 0x61 rest)).has 0 && (headerOf (sealed 333 0x61 rest)).has 5
      && (headerOf (sealed 333 0x61 rest)).has 6) = true)
    (hc : contentOf 1 (sealed 333 0x61 rest) (headerOf (sealed 333 0x61 rest)) = some c)
    (hi : (increasing c.1.comps.a.strapping && increasing c.1.comps.b.strapping) = true) (hn : c.2 = []) :
    (loadImage 1 (some (sealed 333 0x61 rest))).content = some c := by
  have hb : (sealed 333 0x61 rest).length = 333 := by simp [sealed, imageWith, bigEndian, hr]
  have hk := sealed_crc 333 0x61 rest (by omega)
  unfold loadImage
  dsimp only
  rw [if_neg (by omega), if_neg (by omega)]
  unfold checkImage
  rw [if_neg (by rw [hm.1]; decide), if_neg (by rw [hm.2.1]; decide), hl, hm.2.2, if_neg (by decide), if_neg (by rw [hk]; simp), hp,
    if_neg (by decide), hc]
  obtain ⟨st, ms⟩ := c
  simp only at hn hi
  subst hn
  simp [hi, distinct]

theorem test_Reload_images : (loadImage 1 (some (sealed 333 0x61 (sectionsOf .bowser 2)))).content = some (imageSettings .bowser 2, [])
    ∧ (loadImage 1 (some (sealed 333 0x61 (sectionsOf .depot 1)))).content = some (imageSettings .depot 1, [])
    ∧ (loadImage 1 (some (sealed 333 0x61 (sectionsOf .depot 2)))).content = some (imageSettings .depot 2, []) :=
  ⟨sealed_good (sectionsOf .bowser 2) _ (by decide +kernel) (by decide +kernel) (by decide +kernel) (by decide +kernel) (by decide +kernel) (by decide +kernel) rfl,
    sealed_good (sectionsOf .depot 1) _ (by decide +kernel) (by decide +kernel) (by decide +kernel) (by decide +kernel) (by decide +kernel) (by decide +kernel) rfl,
    sealed_good (sectionsOf .depot 2) _ (by decide +kernel) (by decide +kernel) (by decide +kernel) (by decide +kernel) (by decide +kernel) (by decide +kernel) rfl⟩

/-- A RELOAD at a bowser and at a depot: nothing waits, every hose is IDLE; bay 2 free, bay 2 held beside bay 1; no flag to arm. -/
theorem test_Reload_restock : (bow.Quiet ∧ (bays .stopped []).Quiet)
    ∧ (bow.cfl.stage = .running ∧ bow.rsc.frozenAt = none ∧ (bays .stopped []).rsc.frozenAt = none
      ∧ (bow.setCnl { bow.cnl with reloading := true }).cnl.reloading = true)
    ∧ (bow.rsc.roleInForce = some .bowser ∧ dep.rsc.roleInForce = some .depot ∧ dep.rsc.bays.b2 = none)
    ∧ (bays .stopped []).rsc.bays = ⟨some (bayEntry .stopped), some { bayEntry .stopped with station := 5 }⟩
    ∧ ((imageSettings .depot 1).identity.bays = 1 ∧ 2 ≤ (imageSettings .depot 2).identity.bays)
    ∧ ((bow.comp .a).openingBook ≠ none ∧ bow.rsc.armed.get .a = true ∧ ((imageSettings .bowser 2).comps.get .a).autoRequest = false) :=
  ⟨⟨quiet_of rfl, quiet_of rfl⟩, by decide +kernel⟩

/-! ## 11 The console line -/

theorem test_ConsoleLine_met : (Part.reset.cfl.stage ≠ .running ∧ (bow.respond .ok).cnl.response = some .ok
      ∧ (bow.setCnl { bow.cnl with busyWaiting := 3 }).cnl.busyWaiting < 4
      ∧ 4 ≤ (bow.setCnl { bow.cnl with busyWaiting := 4 }).cnl.busyWaiting)
    ∧ (bow.setCnl { bow.cnl with busyWaiting := 1 }).cnl.busyWaiting = 0 + 1 ∧ 4294967295 < 4294967296 := by decide +kernel

theorem test_ConsoleLine_free : bow.LineFree := lineFree_of rfl rfl

/-- The reports: a bowser's and a depot's restock side, requests whose orders wrap, and a log with a record and without. -/
theorem test_ReadOnlyRequests_reports : bow.role = some .bowser ∧ dep.cfl.settings = some (settingsOf .depot)
    ∧ (settingsOf .depot).identity.role = .depot
    ∧ (∀ t ∈ wrapped, t.order < 4294967296 ∧ (t.order + 4294967296 - 4294967294) % 4294967296 ≤ 2147483647)
    ∧ (records.statusReport.oldest = some 5 ∧ records.statusReport.newest = some 9)
    ∧ ((slotOf1 .closed 5).record = some (openingOf 5) ∧ 0 < (openingOf 5).sequence)
    ∧ ((contended .running id wrapped).statusReport.pumps.p1.requests = [(.h2, 1, true), (.h3, 1, true), (.h4, 0, true)]) := by
  decide +kernel

/-- Volumes 0, 1, 199, 200, 6000000 and 6000001 on a hose of each kind. -/
theorem test_Presets_met : (bow.LineFree ∧ dep.LineFree ∧ (atWork .stopping id).LineFree ∧ (loaded .full 300).LineFree)
    ∧ hoseField (some 1) = some .h1 ∧ (bow.hose .h1).dsc = .idle ∧ dep.role = some .depot ∧ bow.role = some .bowser
    ∧ 200 ≤ 200 ∧ 6000000 ≤ 6000000 ∧ 199 < 200 ∧ 6000000 < 6000001
    ∧ ((atWork .stopping id).hose .h1).dsc = .stopping ∧ ((loaded .full 300).hose .h1).dsc = .flowing
    ∧ ((loaded .full 300).hose .h1).valves.active ≤ 300 :=
  ⟨⟨lineFree_of rfl rfl, lineFree_of rfl rfl, lineFree_of rfl rfl, lineFree_of rfl rfl⟩, by decide +kernel⟩

theorem test_Presets_pending : ((atWork .authorising fun u => { u with valves := { u.valves with active := 300 } }).Quiet
      ∧ (atWork .authorising fun u => { u with valves := { u.valves with active := 300 } }).LineFree)
    ∧ 299 < ((atWork .authorising fun u => { u with valves := { u.valves with active := 300 } }).hose .h1).valves.active
    ∧ ((atWork .authorising fun u => { u with valves := { u.valves with active := 300 } }).hose .h1).valves.phase = .shut :=
  ⟨⟨quiet_of rfl, lineFree_of rfl rfl⟩, by decide +kernel⟩

/-! ## The invariants -/

theorem test_StepKeepsBounded_met : State.reset.part.Bounded ∧ step State.reset = .next State.reset :=
  ⟨⟨by decide +kernel, by decide +kernel, by decide +kernel, by decide +kernel, by decide +kernel, by decide +kernel, by decide +kernel,
    Tlg.Bounded.empty rfl rfl, Alc.Bounded.empty rfl, Rsc.Bounded.empty rfl rfl,
    ⟨fun n hn => by cases hn; decide, fun h => absurd rfl h⟩⟩, rfl⟩

/-- The bowser with the emergency input asserted is safe: nothing flows and no grant is held. -/
theorem test_StepKeepsSafe_met : (bow.setPins { bow.pins with emergency := true }).Safe
    ∧ ¬ (bow.setPins { bow.pins with emergency := true }).inputsClear :=
  ⟨fun _ => ⟨fun h => by cases h <;> rfl, fun i => by cases i <;> rfl⟩, by decide +kernel⟩

/-! ## One command in front -/

/-- The front command is taken and the rest stays. -/
theorem test_step_front (p : Part) : step ⟨[.status, .diag], p⟩ = exec .status ⟨[.diag], p⟩ := rfl

/-- The first command after reset: the load's end with no image takes the part into FAULT, and the scan follows. -/
theorem test_first_command (r : Readings) : ∃ q : Part, exec (.imageLoadEnd none r) State.reset = State.reset.goesTo q
    ∧ q.cfl.load = .fault ∧ q.cfl.stage = .scanWrites := ⟨_, rfl, rfl, rfl⟩

end Sys2Proof.Tests
end

section
/-! The net's transmit side (01 R3 to R7): what each event of the medium does, said once. -/

namespace Sys2Proof.Machine

open Sys2Proof

/-! ## The entries into BACKOFF and DEFER -/

/-- A slot count is 1 to 16 (R5). -/
theorem backoffSlots_range (draw : Nat) : 1 ≤ backoffSlots draw ∧ backoffSlots draw ≤ 16 := by
  have := (Config.backoffDraw draw).isLt
  unfold backoffSlots
  omega

/-- The wait of a number of slots of 5 ms, in hundredths of a millisecond (R5). -/
theorem ms_slots (n : Nat) : ms (5 * n) = 500 * n := by unfold ms; omega

theorem Part.enterBackoff_eq (p : Part) : p.enterBackoff = (p.setDraws (p.draws + 1)).setSnc
    { p.snc with tx := .backoff, idleGap := none, backoff := some (p.now + 500 * backoffSlots p.draws) } := by
  rw [← ms_slots]; rfl

theorem Part.enterDefer_free (p : Part) : p.enterDefer false = (p.setPins { p.pins with busy := false }).setSnc
    { p.snc with tx := .defer, idleGap := some (p.now + 1000), backoff := none } := rfl

theorem Part.enterDefer_busy (p : Part) : p.enterDefer true = (p.setPins { p.pins with busy := true }).enterBackoff := rfl

/-! ## The events of the medium -/

/-- FRAME_TAKEN in IDLE with a notice waiting (R3). -/
theorem Part.takeFrame_idle (p : Part) {n : Queued} {rest : List Queued} (hj : p.snc.joined = true) (ht : p.snc.tx = .idle)
    (hq : p.snc.queue = n :: rest) (busy : Bool) : p.takeFrame busy = (p.setSnc { p.snc with
      queue := rest, inHand := some (p.buildFrame n.notice), attempts := 0
      sequence := (p.snc.sequence + 1) % 256 }).enterDefer busy := by
  unfold Part.takeFrame
  rw [ht, hq]
  exact if_pos hj

/-- The CRC of a frame that is sent is that of its bytes from the site code on (R1). -/
theorem sealFrame_crc (site station boot sequence : Nat) (n : Notice) :
    (sealFrame site station boot sequence n).crc = crc16 (crcBytes (sealFrame site station boot sequence n)) := by
  simp only [sealFrame, crcBytes]

/-- BUSY_ASSERTED while the idle gap runs (R4). -/
theorem exec_busyAsserted_defer (s : State) (ht : s.part.snc.tx = .defer) (hg : s.part.snc.idleGap ≠ none) :
    exec .busyAsserted s = s.goesTo (s.part.setPins { s.part.pins with busy := true }).enterBackoff := by
  simp only [exec, execBusyAsserted, exec_next]
  rw [if_pos ⟨ht, Option.isSome_iff_ne_none.mpr hg⟩]

/-- BUSY_ASSERTED at any other moment (R4). -/
theorem exec_busyAsserted_other (s : State) (ht : s.part.snc.tx ≠ .defer) :
    exec .busyAsserted s = s.goesTo (s.part.setPins { s.part.pins with busy := true }) := by
  simp only [exec, execBusyAsserted, exec_next]
  rw [if_neg fun h => ht h.1]

/-- IDLE_GAP_EXPIRY in DEFER (R4). -/
theorem exec_idleGapExpiry_defer (s : State) {due : Nat} (ht : s.part.snc.tx = .defer) (hg : s.part.snc.idleGap = some due) :
    exec .idleGapExpiry s = s.goesTo ((s.part.reach due).setSnc
      { s.part.snc with tx := .sending, idleGap := none, attempts := bump 4 s.part.snc.attempts }) := by
  simp only [exec, execIdleGapExpiry, exec_next, ht, hg]
  rfl

/-- BACKOFF_EXPIRY in BACKOFF (R5). -/
theorem exec_backoffExpiry_backoff (s : State) {due : Nat} (ht : s.part.snc.tx = .backoff) (hb : s.part.snc.backoff = some due)
    (busy : Bool) : exec (.backoffExpiry busy) s = s.goesTo
      (((s.part.reach due).setSnc { s.part.snc with backoff := none }).enterDefer busy) := by
  simp only [exec, execBackoffExpiry, exec_next, ht, hb]
  rfl

/-- TRANSMISSION_END in SENDING (R6). -/
theorem exec_transmissionEnd_sending (s : State) (ht : s.part.snc.tx = .sending) : exec .transmissionEnd s = s.goesTo
    (s.part.setSnc { s.part.snc with tx := .awaitEcho, echoWindow := some (s.part.now + 500) }) := by
  simp only [exec, execTransmissionEnd, exec_next]
  rw [if_pos ht]
  rfl

/-- ECHO_WINDOW_EXPIRY in AWAIT_ECHO is a collision (R7). -/
theorem exec_echoWindowExpiry_awaiting (s : State) {due : Nat} (ht : s.part.snc.tx = .awaitEcho)
    (hw : s.part.snc.echoWindow = some due) : exec .echoWindowExpiry s = s.goesTo (s.part.reach due).collision := by
  simp only [exec, execEchoWindowExpiry, exec_next, ht, hw]

/-- A collision below four attempts: the same frame backs off (R7). -/
theorem Part.collision_retry (p : Part) (ha : p.snc.attempts < 4) : p.collision = (p.setDraws (p.draws + 1)).setSnc
    { p.snc with
      tx := .backoff, echoWindow := none, idleGap := none, backoff := some (p.now + 500 * backoffSlots p.draws)
      txCollisions := min (p.snc.txCollisions + 1) 65535 } := by
  unfold Part.collision
  rw [if_pos ha, Part.enterBackoff_eq]
  rfl

/-- A collision after the fourth attempt: the frame is dropped (R7). -/
theorem Part.collision_drop (p : Part) (ha : p.snc.attempts = 4) : p.collision = p.setSnc
    { p.snc with
      tx := .idle, inHand := none, echoWindow := none
      txCollisions := min (p.snc.txCollisions + 1) 65535, txCollided := min (p.snc.txCollided + 1) 65535 } := by
  unfold Part.collision
  rw [if_neg (by omega)]
  rfl

/-! ## The obligations of medium access -/

/-- Settles O4: the frame is taken as `takeFrame_idle` says, and DEFER is entered at a free or a busy medium. -/
theorem frameTaken : Obligations.FrameTaken := by
  intro s n rest hj ht hq
  have taken := s.part.takeFrame_idle hj ht hq
  refine ⟨?_, ⟨_, (backoffSlots_range s.part.draws).1, (backoffSlots_range s.part.draws).2, ?_⟩, rfl, rfl, rfl, rfl,
    sealFrame_crc _ _ _ _ _⟩
  · simp only [exec, execFrameTaken, exec_next, taken, Part.enterDefer_free]
    rfl
  · simp only [exec, execFrameTaken, exec_next, taken, Part.enterDefer_busy, Part.enterBackoff_eq]
    rfl

/-- Settles O5: one clause for each event of the medium, from its equation. -/
theorem mediumAccess : Obligations.MediumAccess := by
  refine ⟨fun s => ⟨fun ht hg => ?_, exec_busyAsserted_other s⟩, fun s due ht hg ha => ?_, fun s due ht hb => ⟨?_, ?_⟩,
    exec_transmissionEnd_sending, fun s due ht hw => ⟨fun ha => ?_, fun ha => ?_⟩⟩
  · refine ⟨_, (backoffSlots_range s.part.draws).1, (backoffSlots_range s.part.draws).2, ?_⟩
    rw [exec_busyAsserted_defer s ht hg, Part.enterBackoff_eq]
    rfl
  · have once_more : bump 4 s.part.snc.attempts = s.part.snc.attempts + 1 := by unfold bump; omega
    rw [exec_idleGapExpiry_defer s ht hg, once_more]
  · rw [exec_backoffExpiry_backoff s ht hb, Part.enterDefer_free]
    rfl
  · refine ⟨_, (backoffSlots_range s.part.draws).1, (backoffSlots_range s.part.draws).2, ?_⟩
    rw [exec_backoffExpiry_backoff s ht hb, Part.enterDefer_busy, Part.enterBackoff_eq]
    rfl
  · refine ⟨_, (backoffSlots_range s.part.draws).1, (backoffSlots_range s.part.draws).2, ?_⟩
    rw [exec_echoWindowExpiry_awaiting s ht hw, Part.collision_retry (s.part.reach due) ha]
    rfl
  · rw [exec_echoWindowExpiry_awaiting s ht hw, Part.collision_drop (s.part.reach due) ha]
    rfl

end Sys2Proof.Machine
end

section
/-! The receive filter (01 R8, R9): what becomes of a frame that is not heard, one equation per stage. -/

namespace Sys2Proof.Machine

open Sys2Proof

/-! ## FRAME_RECEIVED -/

/-- A frame that arrives while the net is joined (R8). -/
theorem exec_frameReceived (s : State) (elapsed : Nat) (f : Frame) (hj : s.part.snc.joined = true) :
    exec (.frameReceived elapsed f) s = s.goesTo
      (settle (s.part.reach (s.part.now + elapsed)) ((s.part.reach (s.part.now + elapsed)).receive f)) :=
  congrArg s.goesTo (if_pos hj)

/-- A frame that arrives while the net is stopped (R20, R21). -/
theorem exec_frameReceived_stopped (s : State) (elapsed : Nat) (f : Frame) (hj : s.part.snc.joined = false) :
    exec (.frameReceived elapsed f) s = s.goesTo (s.part.reach (s.part.now + elapsed)) :=
  congrArg s.goesTo (if_neg (by simp [hj]))

/-- With nothing to arbitrate, a frame that leaves the pumps, the hoses and the restock state alone does no more than the filter
does. -/
theorem exec_frameReceived_quiet (s : State) (elapsed : Nat) (f : Frame) (q : Part) (hj : s.part.snc.joined = true)
    (hquiet : s.part.Quiet) (hq : (s.part.reach (s.part.now + elapsed)).receive f = q) (hpumps : q.pumps = s.part.pumps)
    (hrsc : q.rsc.state = s.part.rsc.state) (hhoses : q.hoses = s.part.hoses) :
    exec (.frameReceived elapsed f) s = s.goesTo q := by
  have settled : settle (s.part.reach (s.part.now + elapsed)) q = q := (hquiet.of_pumps hpumps).settle_hoses hrsc hhoses
  rw [exec_frameReceived s elapsed f hj, hq, settled]

/-! ## The stages of the filter -/

/-- What stage 1 looks at (R8). -/
theorem badFrame_iff (f : Frame) : badFrame f = true ↔
    f.crc ≠ crc16 (crcBytes f) ∨ 48 < f.bodyLength.toNat ∨ f.body.length < f.bodyLength.toNat := by
  simp [badFrame, or_assoc]

section Stages

variable {p : Part} {f : Frame} {i : Identity}

theorem Part.receive_bad (hb : badFrame f = true) :
    p.receive f = p.setSnc { p.snc with rxBad := min (p.snc.rxBad + 1) 65535 } := by
  unfold Part.receive
  rw [if_pos hb]
  rfl

variable (hi : p.identity = some i) (hb : badFrame f = false)
include hi hb

theorem Part.receive_foreign (hs : f.site.toNat ≠ i.siteCode) :
    p.receive f = p.setSnc { p.snc with rxForeign := min (p.snc.rxForeign + 1) 65535 } := by
  have foreign : p.identity.map (·.siteCode) ≠ some f.site.toNat := by simpa [hi] using hs.symm
  unfold Part.receive
  rw [if_neg (by simp [hb]), if_pos foreign]
  rfl

variable (hs : f.site.toNat = i.siteCode)
include hs

/-- A frame that passes stages 1 and 2 is looked at by its origin. -/
theorem Part.receive_own_site : p.receive f =
    if f.origin.toNat < 1 ∨ 14 < f.origin.toNat then p.setSnc { p.snc with rxBad := min (p.snc.rxBad + 1) 65535 }
    else if f.origin.toNat = p.station then p.ownFrame f
    else match kindOfCode f.kind.toNat with
      | none => p.setSnc { p.snc with rxUnknown := min (p.snc.rxUnknown + 1) 65535 }
      | some k =>
        if f.bodyLength.toNat ≠ bodyLengthOf k then p.setSnc { p.snc with rxBad := min (p.snc.rxBad + 1) 65535 }
        else p.hear f.origin.toNat f.boot.toNat f.sequence.toNat (noticeOf k f.body) := by
  have here : ¬ p.identity.map (·.siteCode) ≠ some f.site.toNat := by simp [hi, hs]
  unfold Part.receive
  rw [if_neg (by simp [hb]), if_neg here]
  rfl

theorem Part.receive_no_station (ho : f.origin.toNat = 0 ∨ 14 < f.origin.toNat) :
    p.receive f = p.setSnc { p.snc with rxBad := min (p.snc.rxBad + 1) 65535 } := by
  rw [Part.receive_own_site hi hb hs, if_pos (by omega)]

variable (h1 : 1 ≤ f.origin.toNat) (h14 : f.origin.toNat ≤ 14)
include h1 h14

theorem Part.receive_own (ho : f.origin.toNat = p.station) : p.receive f = p.ownFrame f := by
  rw [Part.receive_own_site hi hb hs, if_neg (by omega), if_pos ho]

variable (ho : f.origin.toNat ≠ p.station)
include ho

theorem Part.receive_unknown (hk : kindOfCode f.kind.toNat = none) :
    p.receive f = p.setSnc { p.snc with rxUnknown := min (p.snc.rxUnknown + 1) 65535 } := by
  rw [Part.receive_own_site hi hb hs, if_neg (by omega), if_neg ho, hk]

theorem Part.receive_wrong_length {k : NoticeKind} (hk : kindOfCode f.kind.toNat = some k)
    (hl : f.bodyLength.toNat ≠ bodyLengthOf k) :
    p.receive f = p.setSnc { p.snc with rxBad := min (p.snc.rxBad + 1) 65535 } := by
  rw [Part.receive_own_site hi hb hs, if_neg (by omega), if_neg ho, hk]
  exact if_pos hl

end Stages

/-- The codes of the nine kinds are 1 to 9 (R2). -/
theorem kindOfCode_none {n : Nat} (hn : n = 0 ∨ 9 < n) : kindOfCode n = none := by
  unfold kindOfCode
  split
  case h_10 => rfl
  all_goals omega

/-! ## Own-origin frames (R6, R7, R9) -/

/-- A body as long as the frame says is compared whole. -/
theorem frameFields_whole {f : Frame} (hl : f.body.length = f.bodyLength.toNat) : frameFields f = f := by
  unfold frameFields
  rw [← hl, List.take_length]

theorem Part.ownFrame_echo {p : Part} {f : Frame} (ht : p.snc.tx = .awaitEcho) (hl : f.body.length = f.bodyLength.toNat)
    (hf : p.snc.inHand = some f) : p.ownFrame f = p.setSnc
      { p.snc with tx := .idle, inHand := none, echoWindow := none, txSent := min (p.snc.txSent + 1) 65535 } := by
  unfold Part.ownFrame
  rw [if_pos ht, frameFields_whole hl, if_pos hf]
  rfl

theorem Part.ownFrame_collision {p : Part} {f : Frame} (ht : p.snc.tx = .awaitEcho) (hl : f.body.length = f.bodyLength.toNat)
    (hf : p.snc.inHand ≠ some f) : p.ownFrame f = p.collision := by
  unfold Part.ownFrame
  rw [if_pos ht, frameFields_whole hl, if_neg hf]

theorem Part.ownFrame_stray {p : Part} (f : Frame) (ht : p.snc.tx ≠ .awaitEcho) :
    p.ownFrame f = p.setSnc { p.snc with rxOwn := min (p.snc.rxOwn + 1) 65535 } := by
  unfold Part.ownFrame
  rw [if_neg ht]
  rfl

/-! ## The obligations of the filter -/

/-- Settles O6: the frame goes to the transmit side, which knows its echo, a collision or a stray. -/
theorem ownFrames : Obligations.OwnFrames := by
  intro s elapsed f i hj hquiet hi hb hs h1 h14 ho p
  have own : p.receive f = p.ownFrame f := Part.receive_own (p := p) hi hb hs h1 h14 ho
  refine ⟨fun ht hl => ⟨fun hf => ?_, fun hf ha => ?_, fun hf ha => ?_⟩, fun ht => ?_⟩
  · exact exec_frameReceived_quiet s elapsed f _ hj hquiet (own.trans (Part.ownFrame_echo ht hl hf)) rfl rfl rfl
  · exact ⟨_, (backoffSlots_range p.draws).1, (backoffSlots_range p.draws).2, exec_frameReceived_quiet s elapsed f _ hj hquiet
      ((own.trans (Part.ownFrame_collision ht hl hf)).trans (p.collision_retry ha)) rfl rfl rfl⟩
  · exact exec_frameReceived_quiet s elapsed f _ hj hquiet
      ((own.trans (Part.ownFrame_collision ht hl hf)).trans (p.collision_drop ha)) rfl rfl rfl
  · exact exec_frameReceived_quiet s elapsed f _ hj hquiet (own.trans (Part.ownFrame_stray f ht)) rfl rfl rfl

/-- Settles O7: each stage's equation, and what a stopped net does with a frame and with an offer. -/
theorem framesDiscarded : Obligations.FramesDiscarded := by
  refine ⟨?_, fun s hj => ⟨fun elapsed f => exec_frameReceived_stopped s elapsed f hj, fun n y => if_neg (by simp [hj])⟩⟩
  intro s elapsed f i hj hquiet hi p bad malformed
  have passes : ¬ malformed → badFrame f = false := fun h => by simpa using mt (badFrame_iff f).mp h
  refine ⟨fun hm => ?_, fun hm hs => ?_, fun hm hs ho => ?_, fun hm hs h1 h14 ho => ⟨fun hk => ?_, fun k hk hl => ?_⟩⟩
  · exact exec_frameReceived_quiet s elapsed f _ hj hquiet (Part.receive_bad ((badFrame_iff f).mpr hm)) rfl rfl rfl
  · exact exec_frameReceived_quiet s elapsed f _ hj hquiet (Part.receive_foreign hi (passes hm) hs) rfl rfl rfl
  · exact exec_frameReceived_quiet s elapsed f _ hj hquiet (Part.receive_no_station hi (passes hm) hs ho) rfl rfl rfl
  · exact exec_frameReceived_quiet s elapsed f _ hj hquiet
      (Part.receive_unknown hi (passes hm) hs h1 h14 ho (kindOfCode_none hk)) rfl rfl rfl
  · exact exec_frameReceived_quiet s elapsed f _ hj hquiet
      (Part.receive_wrong_length hi (passes hm) hs h1 h14 ho hk hl) rfl rfl rfl

end Sys2Proof.Machine
end

section
/-! The transmit queue (01 section 1.5): what becomes of an offered notice, and the merging of CLAIMs. -/

namespace Sys2Proof.Machine

open Sys2Proof

/-! ## Admission (R15) -/

/-- The oldest yielding notice leaves the queue, the others keep their order. -/
theorem withoutOldestYielding_split (front : List Queued) (o : Queued) (back : List Queued)
    (hf : ∀ q ∈ front, q.yielding = false) (ho : o.yielding = true) :
    withoutOldestYielding (front ++ o :: back) = some (front ++ back) := by
  induction front with
  | nil => simp [withoutOldestYielding, ho]
  | cons q front ih =>
    have hq : q.yielding = false := hf q (List.mem_cons_self ..)
    have tail := ih fun r hr => hf r (List.mem_cons_of_mem _ hr)
    simp [withoutOldestYielding, hq, tail]

theorem withoutOldestYielding_none (queue : List Queued) (hq : ∀ q ∈ queue, q.yielding = false) :
    withoutOldestYielding queue = none := by
  induction queue with
  | nil => rfl
  | cons q rest ih =>
    have head : q.yielding = false := hq q (List.mem_cons_self ..)
    have tail := ih fun r hr => hq r (List.mem_cons_of_mem _ hr)
    simp [withoutOldestYielding, head, tail]

theorem admission_room (queue : List Queued) (y : Bool) (hl : queue.length < 16) : admission queue y = .appended := if_pos hl

theorem admission_yielded (queue : List Queued) (hl : 16 ≤ queue.length) : admission queue true = .yielded := by
  unfold admission
  rw [if_neg (by omega), if_pos rfl]

/-- At a full queue a non-yielding notice takes the place of the oldest yielding one. -/
theorem admission_displaced (front : List Queued) (o : Queued) (back : List Queued) (hl : 16 ≤ (front ++ o :: back).length)
    (hf : ∀ q ∈ front, q.yielding = false) (ho : o.yielding = true) :
    admission (front ++ o :: back) false = .displaced (front ++ back) := by
  unfold admission
  rw [if_neg (by omega), if_neg (by decide), withoutOldestYielding_split front o back hf ho]

theorem admission_dropped (queue : List Queued) (hl : 16 ≤ queue.length) (hq : ∀ q ∈ queue, q.yielding = false) :
    admission queue false = .dropped := by
  unfold admission
  rw [if_neg (by omega), if_neg (by decide), withoutOldestYielding_none queue hq]

/-! ## Offers, one equation per outcome -/

section Offers

variable {p : Part} (hj : p.snc.joined = true)
include hj

theorem Part.offer_appended (n : Notice) (y : Bool) (hl : p.snc.queue.length < 16) :
    p.offer n y = p.setSnc { p.snc with queue := p.snc.queue ++ [⟨n, y⟩] } := by
  unfold Part.offer
  rw [if_pos hj, admission_room _ _ hl]

theorem Part.offer_yielded (n : Notice) (hl : 16 ≤ p.snc.queue.length) :
    p.offer n true = p.setSnc { p.snc with txYielded := min (p.snc.txYielded + 1) 65535 } := by
  unfold Part.offer
  rw [if_pos hj, admission_yielded _ hl]
  rfl

theorem Part.offer_displaced (n : Notice) {front : List Queued} {o : Queued} {back : List Queued} (hl : 16 ≤ p.snc.queue.length)
    (hq : p.snc.queue = front ++ o :: back) (hf : ∀ q ∈ front, q.yielding = false) (ho : o.yielding = true) :
    p.offer n false = p.setSnc { p.snc with
      queue := front ++ back ++ [⟨n, false⟩], txYielded := min (p.snc.txYielded + 1) 65535 } := by
  unfold Part.offer
  rw [if_pos hj, hq, admission_displaced front o back (hq ▸ hl) hf ho]
  rfl

theorem Part.offer_dropped (n : Notice) (hl : 16 ≤ p.snc.queue.length) (hq : ∀ q ∈ p.snc.queue, q.yielding = false) :
    p.offer n false =
      (p.setSnc { p.snc with txDropped := min (p.snc.txDropped + 1) 65535 }).event (.txDropped n.kind) := by
  unfold Part.offer
  rw [if_pos hj, admission_dropped _ hl hq]
  rfl

end Offers

/-! ## CLAIMs of one number (R16) -/

/-- The first waiting CLAIM of a number is replaced in place. -/
theorem replaceClaim_split (number : Nat) (n : Notice) (front : List Queued) (o : Queued) (back : List Queued)
    (hf : ∀ q ∈ front, isClaimOf number q = false) (ho : isClaimOf number o = true) :
    replaceClaim number n (front ++ o :: back) = front ++ { o with notice := n } :: back := by
  induction front with
  | nil => simp [replaceClaim, ho]
  | cons q front ih =>
    have hq : isClaimOf number q = false := hf q (List.mem_cons_self ..)
    have tail := ih fun r hr => hf r (List.mem_cons_of_mem _ hr)
    simp [replaceClaim, hq, tail]

theorem isClaimOf_claim (shift machine number reserved : Nat) (y : Bool) :
    isClaimOf number ⟨.claim shift machine number reserved, y⟩ = true := beq_self_eq_true number

/-! ## The obligations of the transmit queue -/

/-- Settles O9: the four outcomes of an offer. -/
theorem noticeOffered : Obligations.NoticeOffered := by
  refine fun p n y hj => ⟨fun hl => Part.offer_appended hj n y hl, fun hl hy => ?_, fun hl hy front o back hq hf ho => ?_,
    fun hl hy hq => ?_⟩
  · rw [hy, Part.offer_yielded hj n hl.ge]
  · rw [hy, Part.offer_displaced hj n hl.ge hq hf ho]
  · rw [hy, Part.offer_dropped hj n hl.ge hq]

/-- Settles O10: a waiting CLAIM of the number is replaced where one waits; R17's removal is how `offerClosing` is defined. -/
theorem claimsMerge : Obligations.ClaimsMerge := by
  refine fun p shift machine number reserved hj => ⟨fun front sh m r y back hq hf => ?_, fun hq => ?_, fun n => rfl⟩
  · have waits : p.snc.queue.any (isClaimOf number) = true :=
      List.any_eq_true.mpr ⟨_, by rw [hq]; simp, isClaimOf_claim sh m number r y⟩
    unfold Part.offerClaim
    rw [if_pos (by simp [hj, waits]), hq, replaceClaim_split number _ front _ back hf (isClaimOf_claim sh m number r y)]
  · have none_waits : p.snc.queue.any (isClaimOf number) = false := List.any_eq_false.mpr fun q h => by simp [hq q h]
    unfold Part.offerClaim
    rw [if_neg (by simp [none_waits])]

end Sys2Proof.Machine
end

section
/-! Stages 6 to 8 of the receive filter (01 R10 to R12): how a frame stands to its origin's entry, and what the entry notes. -/

namespace Sys2Proof.Machine

open Sys2Proof

/-! ## How a frame stands to the entry (R10, R11) -/

section Arrivals

variable {e : Peer} {boot sequence : Nat}

theorem Peer.arrival_fresh (hb : e.boot = none) : e.arrival boot sequence = .fresh := by
  unfold Peer.arrival
  rw [hb]

theorem Peer.arrival_restarted {b : Nat} (hb : e.boot = some b) (hne : b ≠ boot) : e.arrival boot sequence = .restarted := by
  unfold Peer.arrival
  rw [hb]
  exact if_pos hne

theorem Peer.arrival_silent (hb : e.boot = some boot) (hh : e.heard = false) : e.arrival boot sequence = .resynchronised := by
  unfold Peer.arrival
  rw [hb]
  simp [hh]

/-- The sequence check of a heard peer: the difference to the number that was due (R11). -/
theorem Peer.arrival_heard {last : Nat} (hb : e.boot = some boot) (hh : e.heard = true) (hl : e.lastSequence = some last) :
    e.arrival boot sequence =
      if (sequence + 512 - (last + 1)) % 256 = 255 then .repeated
      else .inSequence (if (sequence + 512 - (last + 1)) % 256 ≤ 127 then (sequence + 512 - (last + 1)) % 256 else 0) := by
  unfold Peer.arrival
  rw [hb]
  simp [hh, hl]

end Arrivals

/-! ## What the entry notes -/

/-- The origin's entry after an arrival, with RX_GOOD advanced: the notice passes stage 8 (R12). -/
def Part.noted (p : Part) (origin : Nat) (entry : Peer) : Part :=
  p.setSnc { p.snc with peers := p.snc.peers.set (origin - 1) entry, rxGood := min (p.snc.rxGood + 1) 65535 }

theorem Part.peer_of_entry {p : Part} {station : Nat} {e : Peer} (he : p.snc.peers[station - 1]? = some e) :
    p.peer station = e := by
  unfold Part.peer
  rw [List.getD_eq_getElem?_getD, he]
  rfl

/-- The arrival of a peer that is heard already. -/
theorem Peer.arrive_heard {e : Peer} (hh : e.heard = true) :
    e.arrive = { e with received := min (e.received + 1) 65535, seconds := 0 } := by
  obtain ⟨heard⟩ := e
  cases hh
  rfl

section Hearing

variable {p : Part} {origin : Nat} {e : Peer} (he : p.snc.peers[origin - 1]? = some e) {boot sequence : Nat} (n : Notice)
include he

/-- The boot number is learnt at the first hearing (R10). -/
theorem Part.hear_fresh (ha : e.arrival boot sequence = .fresh) : p.hear origin boot sequence n =
    (p.noted origin { e.arrive with lastSequence := some sequence, boot := some boot }).deliver origin n := by
  unfold Part.hear
  rw [Part.peer_of_entry he, ha]
  simp only [p.modPeer_modPeer origin e he]
  rfl

/-- A silent peer's sequence is taken as it comes (R11). -/
theorem Part.hear_resynchronised (ha : e.arrival boot sequence = .resynchronised) : p.hear origin boot sequence n =
    (p.noted origin { e.arrive with lastSequence := some sequence }).deliver origin n := by
  unfold Part.hear
  rw [Part.peer_of_entry he, ha]
  simp only [p.modPeer_modPeer origin e he]
  rfl

/-- The frames lost are counted (R11). -/
theorem Part.hear_inSequence {lost : Nat} (ha : e.arrival boot sequence = .inSequence lost) : p.hear origin boot sequence n =
    (p.noted origin
      { e.arrive with lastSequence := some sequence, lost := min (e.lost + lost) 65535 }).deliver origin n := by
  unfold Part.hear
  rw [Part.peer_of_entry he, ha]
  simp only [p.modPeer_modPeer origin e he]
  rfl

/-- A repeat is noted and goes no further (R11). -/
theorem Part.hear_repeated (ha : e.arrival boot sequence = .repeated) : p.hear origin boot sequence n = p.setSnc
    { p.snc with peers := p.snc.peers.set (origin - 1) e.arrive, rxRepeat := min (p.snc.rxRepeat + 1) 65535 } := by
  unfold Part.hear
  rw [Part.peer_of_entry he, ha]
  simp only [p.modPeer_of_entry origin e he]
  rfl

/-- A peer that has started again loses what it claimed, and this station takes over its holds (R10, 03 R47, 02 R35). -/
theorem Part.hear_restarted (ha : e.arrival boot sequence = .restarted) : p.hear origin boot sequence n =
    (((p.noted origin { e.arrive with
        lastSequence := some sequence, boot := some boot, role := none, restockState := none, figures := none }).setAlc
      { p.alc with peerClaims := p.alc.peerClaims.filter fun c => !(c.origin == origin) }).setMachines
      (p.machines.map fun m =>
        if m.hold.author = origin ∧ m.hold.version ≠ 0 then { m with hold := { m.hold with author := p.station } }
        else m)).deliver origin n := by
  unfold Part.hear
  rw [Part.peer_of_entry he, ha]
  simp only [Part.peerRestarted, p.modPeer_modPeer origin e he]
  rfl

end Hearing

/-- A SHIFT notice of the own shift changes nothing (03 R40). -/
theorem Part.deliver_shift_current (p : Part) (origin : Nat) {n : Nat} (hn : n = p.alc.shift) :
    p.deliver origin (.shift n) = p := by
  subst hn
  simp [Part.deliver, Part.compareShift]

/-- With nothing to arbitrate, a SHIFT notice of the own shift does no more than its hearing notes. -/
theorem exec_frameReceived_shift (s : State) (elapsed : Nat) (f : Frame) (i : Identity) (q : Part) (hj : s.part.snc.joined = true)
    (hquiet : s.part.Quiet) (hi : s.part.identity = some i) (hb : badFrame f = false) (hs : f.site.toNat = i.siteCode)
    (h1 : 1 ≤ f.origin.toNat) (h14 : f.origin.toNat ≤ 14) (hne : f.origin.toNat ≠ s.part.station)
    (hk : f.kind.toNat = 5) (hl : f.bodyLength.toNat = 2)
    (hq : (s.part.reach (s.part.now + elapsed)).hear f.origin.toNat f.boot.toNat f.sequence.toNat
      (.shift (fieldAt f.body 0 2)) = q)
    (hpumps : q.pumps = s.part.pumps) (hrsc : q.rsc.state = s.part.rsc.state) (hhoses : q.hoses = s.part.hoses) :
    exec (.frameReceived elapsed f) s = s.goesTo q := by
  have settled : settle (s.part.reach (s.part.now + elapsed)) q = q := (hquiet.of_pumps hpumps).settle_hoses hrsc hhoses
  rw [exec_frameReceived_heard s elapsed f i .shift hj hi hb hs h1 h14 hne (by rw [hk]; rfl) hl]
  exact congrArg s.goesTo ((congrArg _ hq).trans settled)

/-- Settles O8: the sequence check is arithmetic; each way of arriving is a lemma of `hear`; and the kind code names the notice
that is delivered. -/
theorem noticeFromAPeer : Obligations.NoticeFromAPeer := by
  refine ⟨?_, ?_, ?_, ?_⟩
  · intro e boot last sequence hb hh hl hlast hseq d
    have same : (sequence + 512 - (last + 1)) % 256 = d := by omega
    rw [Peer.arrival_heard hb hh hl, same]
    exact ⟨fun hd => by rw [if_neg (by omega), if_pos hd], fun h1 h2 => by rw [if_neg (by omega), if_neg (by omega)],
      fun hd => if_pos hd⟩
  · intro s elapsed f i e boot last hj hquiet hi hb hs h1 h14 hne hk hl hshift he hboot hh hlast hbb p arrived
    subst hbb
    have arrives : e.arrive = arrived := Peer.arrive_heard hh
    refine ⟨fun lost ha => exec_frameReceived_shift s elapsed f i _ hj hquiet hi hb hs h1 h14 hne hk hl ?_ rfl rfl rfl,
      fun ha => exec_frameReceived_shift s elapsed f i _ hj hquiet hi hb hs h1 h14 hne hk hl ?_ rfl rfl rfl⟩
    · rw [← arrives]
      exact (Part.hear_inSequence (p := p) he _ ha).trans (Part.deliver_shift_current _ _ hshift)
    · rw [← arrives]
      exact Part.hear_repeated (p := p) he _ ha
  · intro s elapsed f i e hj hquiet hi hb hs h1 h14 hne hk hl hshift he p heard noted
    refine ⟨fun hboot => ?_, fun hboot hh => ?_, fun b hboot hbb => ?_⟩
    · exact exec_frameReceived_shift s elapsed f i _ hj hquiet hi hb hs h1 h14 hne hk hl ((Part.hear_fresh (p := p) he _
        (Peer.arrival_fresh hboot)).trans (Part.deliver_shift_current _ _ hshift)) rfl rfl rfl
    · exact exec_frameReceived_shift s elapsed f i _ hj hquiet hi hb hs h1 h14 hne hk hl ((Part.hear_resynchronised (p := p) he _
        (Peer.arrival_silent hboot hh)).trans (Part.deliver_shift_current _ _ hshift)) rfl rfl rfl
    · exact exec_frameReceived_shift s elapsed f i _ hj hquiet hi hb hs h1 h14 hne hk hl ((Part.hear_restarted (p := p) he _
        (Peer.arrival_restarted hboot hbb)).trans (Part.deliver_shift_current _ _ hshift)) rfl rfl rfl
  · intro s elapsed f i e hj hi hb hs h1 h14 hne he p origin boot arrived sequenced noted delivers kind length field figures
    have hears : ∀ k, kindOfCode kind = some k → length = bodyLengthOf k → delivers (noticeOf k f.body) := by
      intro k hk hl
      have heard := exec_frameReceived_heard s elapsed f i k hj hi hb hs h1 h14 hne hk hl
      refine ⟨fun lost hboot hh ha => ?_, fun hboot hh ha => ?_, fun hboot hh => ?_, fun hboot => ?_, fun b hboot hbb => ?_⟩
      · exact heard.trans (congrArg (fun q => s.goesTo (settle p q)) (Part.hear_inSequence (p := p) he _ ha))
      · exact heard.trans (congrArg (fun q => s.goesTo (settle p q)) (Part.hear_repeated (p := p) he _ ha))
      · exact heard.trans (congrArg (fun q => s.goesTo (settle p q))
          (Part.hear_resynchronised (p := p) he _ (Peer.arrival_silent hboot hh)))
      · exact heard.trans (congrArg (fun q => s.goesTo (settle p q)) (Part.hear_fresh (p := p) he _ (Peer.arrival_fresh hboot)))
      · exact heard.trans (congrArg (fun q => s.goesTo (settle p q))
          (Part.hear_restarted (p := p) he _ (Peer.arrival_restarted hboot hbb)))
    exact ⟨fun hk => hears .claim (by rw [hk]; rfl), fun hk => hears .drop (by rw [hk]; rfl),
      fun hk => hears .tally (by rw [hk]; rfl), fun hk => hears .hold (by rw [hk]; rfl), fun hk => hears .shift (by rw [hk]; rfl),
      fun hk => hears .stock (by rw [hk]; rfl), fun hk => hears .bayreq (by rw [hk]; rfl),
      fun hk => hears .baygrant (by rw [hk]; rfl), fun hk => hears .loadnote (by rw [hk]; rfl)⟩

end Sys2Proof.Machine
end

section
/-! The second tick and the silence of a peer (01 R14), and what the restock coordinator makes of it (09 R158, R162, R164). -/

namespace Sys2Proof.Machine

open Sys2Proof

/-! ## The second tick -/

theorem Peer.tick_eq (e : Peer) : e.tick = if e.boot = none then e else { e with seconds := min (e.seconds + 1) 65535 } := by
  unfold Peer.tick
  cases e.boot <;> rfl

/-- The entries count while the net is joined. -/
theorem tick_entry {peers : List Peer} {k : Nat} {e : Peer} (he : peers[k]? = some e) : (peers.map Peer.tick)[k]? = some
    (if e.boot = none then e else { e with seconds := min (e.seconds + 1) 65535 }) := by
  rw [List.getElem?_map, he, Option.map_some, Peer.tick_eq]

/-! ## Shared operations of the restock coordinator -/

theorem finish_same {before after : Part} (h : after.rsc.state = before.rsc.state) : finish before after = after := if_pos h

theorem finish_changed {before after : Part} (h : after.rsc.state ≠ before.rsc.state) : finish before after = after.offerStock :=
  if_neg h

theorem Part.identity_of_settings {p : Part} {st : Settings} (hs : p.cfl.settings = some st) : p.identity = some st.identity := by
  unfold Part.identity
  rw [hs]
  rfl

theorem Part.hasBay_of_cfl {p q : Part} (hc : q.cfl = p.cfl) (b : BayId) : q.hasBay b = p.hasBay b := by
  unfold Part.hasBay
  rw [Part.identity_of_cfl hc]

/-- No bay is free where every bay of the image is held (09 R162). -/
theorem Part.freeBay_none {p : Part} (hb : ∀ k, p.rsc.bays.get k ≠ none ∨ p.hasBay k = false) : p.freeBay = none := by
  have taken : ∀ k, ¬ (p.hasBay k && (p.rsc.bays.get k).isNone) = true := by
    intro k
    rcases hb k with h | h <;> simp [h]
  unfold Part.freeBay
  exact (if_neg (taken .b1)).trans (if_neg (taken .b2))

/-- The one bay that is free (09 R162). -/
theorem Part.freeBay_only {p : Part} {b : BayId} (hb : p.hasBay b = true) (hf : p.rsc.bays.get b = none)
    (hk : ∀ k, k ≠ b → p.rsc.bays.get k ≠ none ∨ p.hasBay k = false) : p.freeBay = some b := by
  have free : (p.hasBay b && (p.rsc.bays.get b).isNone) = true := by simp [hb, hf]
  unfold Part.freeBay
  cases b with
  | b1 => exact if_pos free
  | b2 =>
    have taken : ¬ (p.hasBay .b1 && (p.rsc.bays.get .b1).isNone) = true := by
      rcases hk .b1 (by decide) with h | h <;> simp [h]
    exact (if_neg taken).trans (if_pos free)

/-- The grant step where one grant is all that can be given: nobody else waits, or no bay is free any more. -/
theorem Part.grantStep_one {p : Part} {b : BayId} {e : QueueEntry} {rest : List QueueEntry} (hb : p.freeBay = some b)
    (hq : p.rsc.queue = e :: rest) (hn : rest = [] ∨ (p.grantBay b e rest).freeBay = none) :
    p.grantStep 2 = p.grantBay b e rest := by
  have first : p.grantStep 2 = (p.grantBay b e rest).grantStep 1 := by
    conv => lhs; unfold Part.grantStep
    rw [hb, hq]
  rw [first]
  rcases hn with hr | hf
  · refine Part.grantStep_empty 1 _ ?_
    unfold Part.grantBay
    simp only [Part.rsc_event, RestockKept.rsc_offer, Part.rsc_setRsc]
    exact hr
  · exact Part.grantStep_full 1 _ hf

theorem Part.removeStation_waiting {p : Part} {station : Nat} (hb : p.bayOf station = none) : p.removeStation station =
    p.setRsc { p.rsc with queue := p.rsc.queue.filter fun e => !(e.station == station) } := by
  unfold Part.removeStation
  rw [hb]

theorem Part.removeStation_holder {p : Part} {station : Nat} {b : BayId} (hb : p.bayOf station = some b) :
    p.removeStation station = (p.setBay b none).grantStep 2 := by
  unfold Part.removeStation
  rw [hb]

/-- The entry into REQUESTED: the state with its event, and a BAYREQ at once (09 R157). -/
theorem Part.enterRequested_eq {p : Part} {st : Settings} (hs : p.cfl.settings = some st) : p.enterRequested =
    ((p.setRsc { p.rsc with
      state := .requested, repeatTimer := some (p.now + 1000000)
      awaited := ⟨decide (0 < spaceOf p.inv.comps.a st.comps.a), decide (0 < spaceOf p.inv.comps.b st.comps.b)⟩ }).event
      (.restockState .requested)).offer (bayreqNotice p st false) false := by
  unfold Part.enterRequested Part.requestBay
  rw [show (p.setRestock .requested).cfl.settings = some st from hs]
  rfl

/-! ## Silence -/

/-- PEER_SILENT for a heard entry that has reached 300 seconds (R14). -/
theorem exec_peerSilent_heard (s : State) (station : Nat) (e : Peer) (hj : s.part.snc.joined = true)
    (he : s.part.snc.peers[station - 1]? = some e) (hh : e.heard = true) (h300 : 300 ≤ e.seconds) :
    exec (.peerSilent station) s = s.goesTo (finish s.part ((s.part.setSnc
      { s.part.snc with peers := s.part.snc.peers.set (station - 1) { e with heard := false } }).silent station)) := by
  have due : (s.part.snc.joined && (s.part.peer station).heard && decide (300 ≤ (s.part.peer station).seconds)) = true := by
    rw [Part.peer_of_entry he]
    simp [hj, hh, h300]
  simp only [exec, execPeerSilent, exec_next]
  rw [if_pos due, s.part.modPeer_of_entry station e he]

section Silent

variable {p : Part} {i : Identity} (hi : p.identity = some i) {station : Nat}
include hi

theorem Part.silent_depot (hr : i.role = .depot) : p.silent station = p.removeStation station := by
  unfold Part.silent
  rw [hi]
  simp only [hr]

theorem Part.silent_other (hr : i.role = .bowser) (hs : p.rsc.state ≠ .granted) : p.silent station = p := by
  unfold Part.silent
  rw [hi]
  simp only [hr]
  exact if_neg fun h => hs h.1

/-- A bowser in GRANTED that has lost its depot asks again (09 R158). -/
theorem Part.silent_granted (hr : i.role = .bowser) (hd : station = i.depotStation) (hs : p.rsc.state = .granted) :
    p.silent station = (p.setRsc { p.rsc with grant := none }).enterRequested := by
  unfold Part.silent
  rw [hi]
  simp only [hr]
  exact if_pos ⟨hs, hd⟩

end Silent

theorem Part.offerStock_of_settings {p : Part} {st : Settings} (hs : p.cfl.settings = some st) :
    p.offerStock = p.offer (stockNotice p st) true := by
  unfold Part.offerStock
  rw [hs]

/-- What one grant makes of the restock record (09 R162). -/
theorem Part.rsc_grantBay (p : Part) (b : BayId) (e : QueueEntry) (rest : List QueueEntry) : ∃ x, (p.grantBay b e rest).rsc =
    { p.rsc with queue := rest, grantCounter := nextGrant p.rsc.grantCounter, bays := p.rsc.bays.set b (some x) } :=
  ⟨_, (Part.rsc_event _ _).trans (RestockKept.rsc_offer _ _ _)⟩

theorem Part.cfl_grantBay (p : Part) (b : BayId) (e : QueueEntry) (rest : List QueueEntry) :
    (p.grantBay b e rest).cfl = p.cfl := (SameRest.of_offer (p.setRsc _) _ _).cfl

/-- A bay that is given away forgets what stood in it. -/
theorem Part.grantBay_setBay (p : Part) (b : BayId) (x : Option BayEntry) (e : QueueEntry) (rest : List QueueEntry) :
    (p.setBay b x).grantBay b e rest = p.grantBay b e rest := by
  cases b <;> rfl

/-- A holder that leaves while stations wait: its bay, the only free one, goes to the head of the queue (09 R162, R164). -/
theorem Part.removeStation_passed_on {p : Part} {station : Nat} {b : BayId} {r : QueueEntry} {rest : List QueueEntry}
    (hb : p.bayOf station = some b) (hq : p.rsc.queue = r :: rest) (hown : p.hasBay b = true)
    (hk : ∀ k, k ≠ b → p.rsc.bays.get k ≠ none ∨ p.hasBay k = false) :
    p.removeStation station = p.grantBay b r rest := by
  have others (k : BayId) (hkb : k ≠ b) : (p.rsc.bays.set b none).get k ≠ none ∨ (p.setBay b none).hasBay k = false :=
    (hk k hkb).imp (fun h => (ByBay.get_set_ne p.rsc.bays none hkb).trans_ne h) ((Part.hasBay_of_cfl rfl k).trans ·)
  have only : (p.setBay b none).freeBay = some b :=
    Part.freeBay_only ((Part.hasBay_of_cfl rfl b).trans hown) (ByBay.get_set_same _ b none) others
  have full : ((p.setBay b none).grantBay b r rest).freeBay = none := by
    obtain ⟨x, hx⟩ := Part.rsc_grantBay (p.setBay b none) b r rest
    refine Part.freeBay_none fun k => ?_
    rw [hx, Part.hasBay_of_cfl (Part.cfl_grantBay ..)]
    by_cases hkb : k = b
    · subst hkb
      simp
    · rw [ByBay.get_set_ne _ _ hkb]
      exact others k hkb
  rw [Part.removeStation_holder hb, Part.grantStep_one only hq (.inr full), Part.grantBay_setBay]

/-- Settles O11: the second tick field by field, and the silence of a peer by the role of the station that finds it. -/
theorem secondsAndSilence : Obligations.SecondsAndSilence := by
  refine ⟨fun s => ?_, ?_, ?_, ?_⟩
  · refine ⟨_, rfl, rfl, rfl, fun hj => if_neg (by simp [hj]), fun hj => ⟨s.part.snc.peers.map Peer.tick, if_pos hj, by simp,
      fun k e he => tick_entry he⟩, fun h => ?_, rfl⟩
    exact Quad.get_map _ _ h
  · intro s station e i hj _ he hh h300 hi p
    rw [exec_peerSilent_heard s station e hj he hh h300]
    refine ⟨fun hr hs => ?_, fun hr hb => ?_⟩
    · have unchanged : p.silent station = p := Part.silent_other (p := p) hi hr hs
      exact congrArg s.goesTo ((finish_same (congrArg (·.rsc.state) unchanged)).trans unchanged)
    · have gone := (Part.silent_depot (p := p) hi hr).trans (Part.removeStation_waiting (p := p) hb)
      exact congrArg s.goesTo ((finish_same (congrArg (·.rsc.state) gone)).trans gone)
  · intro s station e i st hj _ he hh h300 hi hst hr hd hs hl p asking
    have asks : p.silent station = asking.offer (bayreqNotice s.part st false) false :=
      (Part.silent_granted (p := p) hi hr hd hs).trans (Part.enterRequested_eq hst)
    have offered := asks.trans (Part.offer_appended (p := asking) hj (bayreqNotice s.part st false) false (Nat.lt_succ_of_lt hl))
    have changed : (p.silent station).rsc.state ≠ s.part.rsc.state := by
      rw [offered, hs]
      exact show RestockState.requested ≠ .granted by decide
    have room : (p.silent station).snc.queue.length < 16 := by
      rw [offered]
      simp only [Part.snc_setSnc, List.length_append, List.length_singleton]
      exact Nat.succ_lt_succ hl
    have stock : (p.silent station).offerStock = (p.silent station).offer (stockNotice asking st) true := by
      rw [offered]
      exact Part.offerStock_of_settings hst
    have joined : (p.silent station).snc.joined = true := by
      rw [offered]
      exact hj
    rw [exec_peerSilent_heard s station e hj he hh h300, finish_changed changed, stock,
      Part.offer_appended joined (stockNotice asking st) true room, offered]
    refine congrArg s.goesTo (congrArg (fun l => asking.setSnc { p.snc with queue := l }) ?_)
    exact List.append_assoc ..
  · intro s station e i b hj _ he hh h300 hi hr hb p
    have freed := Part.silent_depot (p := p) (station := station) hi hr
    rw [exec_peerSilent_heard s station e hj he hh h300]
    refine ⟨fun hq => ?_, fun r rest hq hown hk => ?_⟩
    · have none_waits := freed.trans ((Part.removeStation_holder (p := p) hb).trans (Part.grantStep_empty 2 (p.setBay b none) hq))
      exact congrArg s.goesTo ((finish_same (congrArg (·.rsc.state) none_waits)).trans none_waits)
    · intro n
      have passed := freed.trans (Part.removeStation_passed_on (p := p) hb hq hown hk)
      have state : (p.silent station).rsc.state = p.rsc.state := by
        obtain ⟨x, hx⟩ := Part.rsc_grantBay p b r rest
        rw [passed, hx]
      exact congrArg s.goesTo ((finish_same state).trans passed)

end Sys2Proof.Machine
end

section
/-! The sweep (01 R18): the candidate a tick finds, and what becomes of it at the queue. -/

namespace Sys2Proof.Machine

open Sys2Proof

/-! ## The candidates -/

/-- A position of the first half is the tally of its machine. -/
theorem Part.sweepNotice_tally {p : Part} {i : Nat} {m : MachineRow} (hm : p.machines[i]? = some m) :
    p.sweepNotice i = if m.column p.station = 0 then none
      else some ⟨.tally p.alc.shift m.entry.number (m.column p.station) 0, true⟩ := by
  have inside : i < p.machines.length := (List.getElem?_eq_some_iff.mp hm).1
  unfold Part.sweepNotice
  rw [if_pos inside, hm]

/-- A position of the second half is the hold state of its machine. -/
theorem Part.sweepNotice_hold {p : Part} {i : Nat} {m : MachineRow} (hm : p.machines[i]? = some m) :
    p.sweepNotice (p.machines.length + i) = if m.hold.author = p.station ∧ m.hold.version ≠ 0 then
      some ⟨.hold m.entry.number (if m.hold.held = true then 1 else 0) m.hold.reason m.hold.version, false⟩ else none := by
  have beyond : ¬ p.machines.length + i < p.machines.length := Nat.not_lt.mpr (Nat.le_add_right ..)
  unfold Part.sweepNotice
  rw [if_neg beyond, Nat.add_sub_cancel_left, hm]
  rfl

/-! ## The scan -/

theorem Part.sweepScan_none {p : Part} (hn : ∀ k, p.sweepNotice k = none) (left position : Nat) :
    p.sweepScan left position = none := by
  induction left generalizing position with
  | zero => rfl
  | succ left ih =>
    unfold Part.sweepScan
    rw [hn position]
    exact ih _

theorem Part.sweepScan_here {p : Part} {position : Nat} {q : Queued} (hq : p.sweepNotice position = some q) (left : Nat) :
    p.sweepScan (left + 1) position = some (position, q) := by
  unfold Part.sweepScan
  rw [hq]

theorem Part.sweepScan_onward {p : Part} {position : Nat} (hn : p.sweepNotice position = none) (left : Nat) :
    p.sweepScan (left + 1) position = p.sweepScan left ((position + 1) % (2 * p.machines.length)) := by
  conv => lhs; unfold Part.sweepScan
  rw [hn]

/-- The scan stops at the first candidate of the round. -/
theorem Part.sweepScan_first {p : Part} {q : Queued} {k left : Nat} (position : Nat → Nat)
    (step : ∀ j, position (j + 1) = (position j + 1) % (2 * p.machines.length)) (hk : k < left)
    (hn : ∀ j, j < k → p.sweepNotice (position j) = none) (hq : p.sweepNotice (position k) = some q) :
    p.sweepScan left (position 0) = some (position k, q) := by
  induction k generalizing left position with
  | zero =>
    obtain ⟨rest, rfl⟩ := Nat.exists_eq_succ_of_ne_zero (Nat.ne_zero_of_lt hk)
    exact Part.sweepScan_here hq rest
  | succ k ih =>
    obtain ⟨rest, rfl⟩ := Nat.exists_eq_succ_of_ne_zero (Nat.ne_zero_of_lt hk)
    rw [Part.sweepScan_onward (hn 0 (Nat.succ_pos k)), ← step 0]
    exact ih (fun j => position (j + 1)) (fun j => step (j + 1)) (Nat.lt_of_succ_lt_succ hk)
      (fun j hj => hn (j + 1) (Nat.succ_lt_succ hj)) hq

/-! ## One sweep -/

theorem sweepQueues_yielding (queue : List Queued) (n : Notice) : sweepQueues queue ⟨n, true⟩ = decide (queue.length ≤ 8) := rfl

theorem sweepQueues_hold (queue : List Queued) (n : Notice) :
    sweepQueues queue ⟨n, false⟩ = !(admission queue false == .dropped) := rfl

/-- The part with the sweep at a position (R18). -/
def Part.atCursor (p : Part) (c : Nat) : Part := p.setSnc { p.snc with cursor := c }

section Sweep

variable {p : Part} {c : Nat} {n : Notice}

theorem Part.sweepOnce_none (hs : p.sweepScan (2 * p.machines.length) p.snc.cursor = none) : p.sweepOnce = p := by
  unfold Part.sweepOnce
  rw [hs]

/-- A notice that the queue takes moves the cursor on. -/
theorem Part.sweepOnce_queues {y : Bool} (hs : p.sweepScan (2 * p.machines.length) p.snc.cursor = some (c, ⟨n, y⟩))
    (hq : sweepQueues p.snc.queue ⟨n, y⟩ = true) :
    p.sweepOnce = (p.atCursor ((c + 1) % (2 * p.machines.length))).offer n y := by
  unfold Part.sweepOnce Part.modSnc
  rw [hs]
  simp only [hq, if_true, Bool.not_true, Bool.and_false, Bool.false_eq_true, if_false]
  rfl

/-- A notice that finds room, a tally no more than 8 before it (R15, R18). -/
theorem Part.sweepOnce_room {y : Bool} (hj : p.snc.joined = true)
    (hs : p.sweepScan (2 * p.machines.length) p.snc.cursor = some (c, ⟨n, y⟩)) (hl : p.snc.queue.length < 16)
    (ht : y = true → p.snc.queue.length ≤ 8) :
    p.sweepOnce = p.setSnc { p.snc with
      cursor := (c + 1) % (2 * p.machines.length), queue := p.snc.queue ++ [⟨n, y⟩] } := by
  have queues : sweepQueues p.snc.queue ⟨n, y⟩ = true := by
    cases y with
    | true => exact decide_eq_true (ht rfl)
    | false => rw [sweepQueues_hold, admission_room _ _ hl]; rfl
  rw [Part.sweepOnce_queues hs queues]
  exact Part.offer_appended (p := p.atCursor ((c + 1) % (2 * p.machines.length))) hj n y hl

/-- A hold that takes the place of the oldest yielding notice. -/
theorem Part.sweepOnce_displaces (hj : p.snc.joined = true)
    (hs : p.sweepScan (2 * p.machines.length) p.snc.cursor = some (c, ⟨n, false⟩)) (hl : 16 ≤ p.snc.queue.length)
    {front back : List Queued} {o : Queued} (hq : p.snc.queue = front ++ o :: back) (hf : ∀ q ∈ front, q.yielding = false)
    (ho : o.yielding = true) : p.sweepOnce = p.setSnc { p.snc with
      cursor := (c + 1) % (2 * p.machines.length), queue := front ++ back ++ [⟨n, false⟩]
      txYielded := min (p.snc.txYielded + 1) 65535 } := by
  have queues : sweepQueues p.snc.queue ⟨n, false⟩ = true := by
    rw [sweepQueues_hold, hq, admission_displaced front o back (hq ▸ hl) hf ho]
    rfl
  rw [Part.sweepOnce_queues hs queues]
  exact Part.offer_displaced (p := p.atCursor ((c + 1) % (2 * p.machines.length))) hj n hl hq hf ho

/-- A tally that finds more than 8 waiting is not offered, and the cursor stays with it. -/
theorem Part.sweepOnce_waits (hs : p.sweepScan (2 * p.machines.length) p.snc.cursor = some (c, ⟨n, true⟩))
    (hl : 8 < p.snc.queue.length) : p.sweepOnce = p.atCursor c := by
  have full : sweepQueues p.snc.queue ⟨n, true⟩ = false := by
    rw [sweepQueues_yielding]
    exact decide_eq_false (Nat.not_le.mpr hl)
  unfold Part.sweepOnce Part.modSnc
  rw [hs]
  simp only [full, Bool.not_false, Bool.and_self, if_true, Bool.false_eq_true, if_false]
  rfl

/-- A hold that the queue drops leaves the cursor with it. -/
theorem Part.sweepOnce_drops (hj : p.snc.joined = true)
    (hs : p.sweepScan (2 * p.machines.length) p.snc.cursor = some (c, ⟨n, false⟩))
    (hl : 16 ≤ p.snc.queue.length) (hf : ∀ q ∈ p.snc.queue, q.yielding = false) :
    p.sweepOnce = (p.setSnc { p.snc with cursor := c, txDropped := min (p.snc.txDropped + 1) 65535 }).event
      (.txDropped n.kind) := by
  have dropped : sweepQueues p.snc.queue ⟨n, false⟩ = false := by
    rw [sweepQueues_hold, admission_dropped _ hl hf]
    rfl
  unfold Part.sweepOnce Part.modSnc
  rw [hs]
  simp only [dropped, Bool.false_and, Bool.false_eq_true, if_false]
  exact Part.offer_dropped (p := p.atCursor c) hj n hl hf

end Sweep

/-- The part at a due sweep tick: the next tick is 4 s later (R18). -/
def Part.sweepDue (p : Part) (due : Nat) : Part := (p.reach due).setSnc { p.snc with sweep := some (due + 400000) }

theorem exec_sweepTick (s : State) {due : Nat} (hd : s.part.snc.sweep = some due) : exec .sweepTick s =
    s.goesTo (s.part.sweepDue due).sweepOnce := by
  simp only [exec, execSweepTick, exec_next, hd]
  rfl

/-- Settles O12: a round without a candidate, the tally at the cursor, and every outcome of the first candidate of a round. -/
theorem sweepTick : Obligations.SweepTick := by
  refine ⟨fun s due hd hj => ?_, fun p i m hm => ⟨Part.sweepNotice_tally hm, Part.sweepNotice_hold hm⟩, ?_⟩
  · rw [exec_sweepTick s hd]
    intro p
    refine ⟨fun hn => congrArg s.goesTo (Part.sweepOnce_none (p := p) (Part.sweepScan_none (p := p) hn _ _)), fun m hm hc => ?_⟩
    have tally : p.sweepNotice p.snc.cursor = some ⟨.tally s.part.alc.shift m.entry.number (m.column s.part.station) 0, true⟩ :=
      (Part.sweepNotice_tally (p := p) hm).trans (if_neg hc)
    have rows : 0 < 2 * p.machines.length := Nat.mul_pos Nat.two_pos (Nat.zero_lt_of_lt (List.getElem?_eq_some_iff.mp hm).1)
    have found := Part.sweepScan_here tally (2 * p.machines.length - 1)
    rw [Nat.sub_add_cancel rows] at found
    exact ⟨fun hl => congrArg s.goesTo (Part.sweepOnce_room (p := p) hj found (Nat.lt_of_le_of_lt hl (by decide)) fun _ => hl),
      fun hl => congrArg s.goesTo (Part.sweepOnce_waits (p := p) found hl)⟩
  · intro s due position k n y hd hj h0 step hk hn hq p swept next
    rw [exec_sweepTick s hd]
    have found := h0 ▸ Part.sweepScan_first (p := s.part.sweepDue due) position step hk hn hq
    refine ⟨?_, ?_, ?_, ?_, ?_⟩
    · rintro rfl hl
      exact congrArg s.goesTo
        (Part.sweepOnce_room (p := s.part.sweepDue due) hj found (Nat.lt_of_le_of_lt hl (by decide)) fun _ => hl)
    · rintro rfl hl
      exact congrArg s.goesTo (Part.sweepOnce_waits (p := s.part.sweepDue due) found hl)
    · rintro rfl hl
      exact congrArg s.goesTo (Part.sweepOnce_room (p := s.part.sweepDue due) hj found hl fun h => absurd h (by decide))
    · rintro rfl hl front o back hb hf ho r
      exact congrArg s.goesTo (Part.sweepOnce_displaces (p := s.part.sweepDue due) hj found hl hb hf ho)
    · rintro rfl hl hf r
      exact congrArg s.goesTo (Part.sweepOnce_drops (p := s.part.sweepDue due) hj found hl hf)

end Sys2Proof.Machine
end

section
/-! HOLD notices (02 R35, R36): when one is applied, what it leaves in the entry, and which transactions it stops. -/

namespace Sys2Proof.Machine

open Sys2Proof

/-! ## The transactions a hold stops -/

/-- What a hold on a table position does to one hose (R36). -/
def Part.holdStop (p : Part) (position : Nat) (h : HoseId) : Part :=
  match (p.hose h).context with
  | some x => if x.position = position ∧ (p.hose h).dsc.fillable = true then p.takeCause h .held else p
  | none => p

theorem Part.holdStops_eq (p : Part) (position : Nat) :
    p.holdStops position = allHoses.foldl (fun q h => q.holdStop position h) p := rfl

theorem Part.holdStop_stops {p : Part} {i : Nat} {h : HoseId} {x : Context} (hx : (p.hose h).context = some x)
    (hi : x.position = i) (hd : (p.hose h).dsc.fillable = true) : p.holdStop i h = p.takeCause h .held := by
  unfold Part.holdStop
  rw [hx]
  exact if_pos ⟨hi, hd⟩

theorem Part.holdStop_leaves {p : Part} {i : Nat} {h : HoseId}
    (hn : ∀ x, (p.hose h).context = some x → x.position ≠ i ∨ (p.hose h).dsc.fillable = false) : p.holdStop i h = p := by
  unfold Part.holdStop
  cases hc : (p.hose h).context with
  | none => rfl
  | some x =>
    refine if_neg fun ⟨hi, hd⟩ => ?_
    rcases hn x hc with hne | hf
    · exact hne hi
    · exact absurd (hd.symm.trans hf) (by decide)

theorem Part.hose_holdStop_ne (p : Part) (i : Nat) {h k : HoseId} (hk : k ≠ h) : (p.holdStop i h).hose k = p.hose k := by
  unfold Part.holdStop
  split
  · split
    · exact Part.hose_takeCause_ne _ hk _
    · rfl
  · rfl

/-- Each hose is stopped by itself. -/
theorem Part.hose_holdStops (p : Part) (i : Nat) (k : HoseId) :
    ∃ q : Part, q.hose k = p.hose k ∧ (p.holdStops i).hose k = (q.holdStop i k).hose k :=
  hose_fold (fun q h => q.holdStop i h) (fun q _ _ => q.hose_holdStop_ne i) p k

theorem Part.machines_holdStops (p : Part) (i : Nat) : (p.holdStops i).machines = p.machines := by
  refine (Stays.foldHoses (free := True) .refl allHoses (fun q h => q.holdStop i h) fun r h hr => ?_).machines_eq
  unfold Part.holdStop
  split
  · split
    · exact hr.takeCause h .held
    · exact hr
  · exact hr

/-- A machine that no transaction is on stops nothing. -/
theorem Part.holdStops_unused {p : Part} {i : Nat} (hn : ∀ h x, (p.hose h).context = some x → x.position ≠ i) :
    p.holdStops i = p := by
  have leaves (h : HoseId) : p.holdStop i h = p := Part.holdStop_leaves fun x hx => .inl (hn h x hx)
  simp only [Part.holdStops_eq, allHoses, List.foldl_cons, List.foldl_nil, leaves]

/-- What a hold stops and what it leaves, hose by hose (R36). -/
theorem Part.holdStops_spec (p : Part) (i : Nat) (h : HoseId) (x : Context) (hx : (p.hose h).context = some x) :
    (x.position = i → (p.hose h).dsc = .flowing →
      ((p.holdStops i).hose h).dsc = .stopping ∧ ((p.holdStops i).hose h).context = some { x with cause := some .held })
    ∧ (x.position = i → (p.hose h).dsc = .authorising ∨ (p.hose h).dsc = .awaitPump →
      ((p.holdStops i).hose h).dsc = restState (p.hose h).nozzle ∧ ((p.holdStops i).hose h).context = none
      ∧ ((p.holdStops i).hose h).claim = none
      ∧ ((p.holdStops i).hose h).summary = some { sequence := none, cause := some .held, faults := x.faults })
    ∧ (x.position ≠ i ∨ (p.hose h).dsc = .stopping ∨ (p.hose h).dsc = .committing → (p.holdStops i).hose h = p.hose h) := by
  obtain ⟨q, hq, hs⟩ := p.hose_holdStops i h
  rw [hs, ← hq]
  rw [← hq] at hx
  refine ⟨fun hi hd => ?_, fun hi hd => ?_, fun hn => ?_⟩
  · obtain ⟨stopping, context⟩ := q.takeCause_flowing hd .held
    rw [Part.holdStop_stops hx hi (by rw [hd]; rfl), context, hx]
    exact ⟨stopping, rfl⟩
  · have fillable : (q.hose h).dsc.fillable = true := by rcases hd with hd | hd <;> rw [hd] <;> rfl
    rw [Part.holdStop_stops hx hi fillable, q.takeCause_before hd, q.hose_stopBeforeFlow h .held hx]
    exact ⟨rfl, rfl, rfl, rfl⟩
  · have leaves : x.position ≠ i ∨ (q.hose h).dsc.fillable = false :=
      hn.imp_right fun hd => by rcases hd with hd | hd <;> rw [hd] <;> rfl
    rw [Part.holdStop_leaves fun y hy => Option.some.inj (hx.symm.trans hy) ▸ leaves]

/-! ## The notice -/

theorem holdApplies_iff (hold : Hold) (origin version : Nat) :
    let d := (version + 256 - hold.version) % 256
    (holdApplies hold origin version = true ↔
      (hold.version = 0 ∧ version ≠ 0) ∨ (1 ≤ d ∧ d ≤ 127) ∨ (d = 0 ∧ hold.author < origin)) := by
  intro d
  unfold holdApplies
  by_cases first : hold.version = 0 ∧ version ≠ 0
  · rw [if_pos first]
    exact iff_of_true rfl (.inl first)
  · rw [if_neg first, or_iff_right first]
    simp [d]

section Taken

variable {p : Part} {origin number i held reason version : Nat} {m : MachineRow}

/-- The entry after an applied notice, with the event of a change (R35). -/
def Part.holdNoted (p : Part) (i : Nat) (m : MachineRow) (origin number held reason version : Nat) : Part :=
  let q := p.setMachines (p.machines.set i
    { m with hold := { held := decide (held = 1), reason := reason, version := version, author := origin } })
  if m.hold.held = decide (held = 1) ∧ m.hold.reason = reason then q
  else q.event (.holdChanged number (decide (held = 1)) reason origin)

theorem Part.machines_holdNoted : (p.holdNoted i m origin number held reason version).machines = p.machines.set i
    { m with hold := { held := decide (held = 1), reason := reason, version := version, author := origin } } := by
  unfold Part.holdNoted
  split <;> rfl

theorem Part.hoses_holdNoted : (p.holdNoted i m origin number held reason version).hoses = p.hoses := by
  unfold Part.holdNoted
  split <;> rfl

variable (hf : p.findMachine number = some i) (hm : p.machines[i]? = some m)
include hf hm

theorem Part.takeHold_applied (hh : held ≤ 1) (hr : reason ≤ 15) (ha : holdApplies m.hold origin version = true) :
    p.takeHold origin number held reason version =
      if held = 1 then (p.holdNoted i m origin number held reason version).holdStops i
      else p.holdNoted i m origin number held reason version := by
  have valid : ¬ (1 < held ∨ 15 < reason) := by omega
  unfold Part.takeHold Part.holdNoted Part.modMachine
  simp only [hf, hm, if_neg valid, ha, if_true, modify_of_getElem _ _ _ hm, decide_eq_true_eq,
    eq_comm (b := m.hold.held), eq_comm (b := m.hold.reason)]

theorem Part.takeHold_ignored (hn : 1 < held ∨ 15 < reason ∨ holdApplies m.hold origin version = false) :
    p.takeHold origin number held reason version = p := by
  unfold Part.takeHold
  simp only [hf, hm]
  by_cases invalid : 1 < held ∨ 15 < reason
  · exact if_pos invalid
  · have stale : holdApplies m.hold origin version = false := by
      rcases hn with h | h | h
      · exact absurd (.inl h) invalid
      · exact absurd (.inr h) invalid
      · exact h
    rw [if_neg invalid, stale]
    rfl

end Taken

/-- Settles O16: serial arithmetic on versions, the entry of an applied notice, and the hoses it stops. -/
theorem holdNotices : Obligations.HoldNotices := by
  refine ⟨fun hold origin version _ _ => holdApplies_iff hold origin version, ?_, ?_, ?_, fun _ _ _ _ _ _ => rfl⟩
  · intro p origin i number held reason version m hf hm hu q
    refine ⟨fun hh hr ha => ?_, Part.takeHold_ignored hf hm⟩
    have unused : (p.holdNoted i m origin number held reason version).holdStops i =
        p.holdNoted i m origin number held reason version :=
      Part.holdStops_unused fun h x hx => hu h x (by rwa [← show _ = p.hose h from congrArg (·.get h) Part.hoses_holdNoted])
    rw [Part.takeHold_applied hf hm hh hr ha, unused, ite_self]
    exact ⟨fun same => if_pos same, fun changed => if_neg changed⟩
  · intro p origin i number reason version m hf hm hr ha q
    have stops : q = (p.holdNoted i m origin number 1 reason version).holdStops i :=
      (Part.takeHold_applied hf hm le_rfl hr ha).trans (if_pos rfl)
    have kept (h : HoseId) : (p.holdNoted i m origin number 1 reason version).hose h = p.hose h :=
      congrArg (·.get h) Part.hoses_holdNoted
    refine ⟨?_, fun h x hx => ?_⟩
    · rw [stops, Part.machines_holdStops, Part.machines_holdNoted]
      rfl
    · rw [stops, ← kept h]
      exact Part.holdStops_spec _ i h x ((congrArg (·.context) (kept h)).trans hx)
  · intro p origin i number version m hf hm reason hr ha
    rw [Part.takeHold_applied hf hm (Nat.zero_le 1) hr ha, if_neg (by decide)]
    exact Part.hoses_holdNoted

end Sys2Proof.Machine
end

section
/-! What the peers say of the shift (03 R40, R43, R45, R47): CLAIM, TALLY and DROP notices. -/

namespace Sys2Proof.Machine

open Sys2Proof

/-! ## The cut rule -/

/-- With no transaction under way the cut rule cuts nothing. -/
theorem Part.runCuts_idle (p : Part) (hn : ∀ h, (p.hose h).context = none) (except : Option HoseId) (machine account : Nat) :
    p.runCuts except machine account = p := by
  unfold Part.runCuts
  simp only [hn, ite_self]
  rfl

/-! ## Peer claims -/

theorem worstClaim_other {origin : Nat} {c : PeerClaim} (rest : List PeerClaim) (hc : c.origin ≠ origin) :
    worstClaim origin (c :: rest) = worstClaim origin rest := if_neg hc

theorem worstClaim_last {origin : Nat} {c : PeerClaim} {rest : List PeerClaim} (hc : c.origin = origin)
    (hr : worstClaim origin rest = none) : worstClaim origin (c :: rest) = some c := by
  unfold worstClaim
  rw [if_pos hc, hr]

theorem worstClaim_compared {origin : Nat} {c d : PeerClaim} {rest : List PeerClaim} (hc : c.origin = origin)
    (hr : worstClaim origin rest = some d) : worstClaim origin (c :: rest) =
      if d.life < c.life ∨ d.life = c.life ∧ d.placed < c.placed then some d else some c := by
  conv => lhs; unfold worstClaim
  rw [if_pos hc, hr]

/-- The entry that R45 replaces, where the lives and the order of placing single one out. -/
theorem worstClaim_of_least {origin : Nat} {w : PeerClaim} {claims : List PeerClaim} (hw : w ∈ claims) (ho : w.origin = origin)
    (hl : ∀ c ∈ claims, c.origin = origin → c ≠ w → w.life < c.life ∨ w.life = c.life ∧ w.placed < c.placed) :
    worstClaim origin claims = some w := by
  induction claims with
  | nil => exact absurd hw List.not_mem_nil
  | cons c rest ih =>
    have tail : w ∈ rest → worstClaim origin rest = some w := fun hm => ih hm fun d hd => hl d (List.mem_cons_of_mem _ hd)
    by_cases hcw : c = w
    · subst hcw
      cases hr : worstClaim origin rest with
      | none => exact worstClaim_last ho hr
      | some d =>
        obtain ⟨hd, hdo⟩ := worstClaim_mem hr
        have not_worse : ¬ (d.life < c.life ∨ d.life = c.life ∧ d.placed < c.placed) := by
          by_cases hdc : d = c
          · subst hdc
            omega
          · have := hl d (List.mem_cons_of_mem _ hd) hdo hdc
            omega
        rw [worstClaim_compared ho hr, if_neg not_worse]
    · have later : worstClaim origin rest = some w := tail ((List.mem_cons.mp hw).resolve_left (Ne.symm hcw))
      by_cases hc : c.origin = origin
      · rw [worstClaim_compared hc later, if_pos (hl c List.mem_cons_self hc hcw)]
      · rw [worstClaim_other rest hc, later]

section Place

variable {p : Part} {origin number machine account reserved : Nat}

/-- The entry of a claim that has just been placed (R45). -/
def Part.placedClaim (p : Part) (origin number machine account reserved : Nat) : PeerClaim :=
  { origin := origin, number := number, machine := machine, account := account, reserved := reserved
    life := p.now + 12000000, placed := p.alc.placed }

theorem Part.placeClaim_held (hh : p.alc.peerClaims.any (fun c => c.origin == origin && c.number == number) = true) :
    p.placeClaim origin number machine account reserved = p.setAlc { p.alc with
      peerClaims := p.alc.peerClaims.map fun c =>
        if c.origin = origin ∧ c.number = number then
          { c with machine := machine, account := account, reserved := reserved, life := p.now + 12000000 }
        else c } := by
  unfold Part.placeClaim
  rw [if_pos hh]
  rfl

theorem Part.placeClaim_room (hh : p.alc.peerClaims.any (fun c => c.origin == origin && c.number == number) = false)
    (hl : (p.alc.peerClaims.filter fun c => c.origin == origin).length < 4) :
    p.placeClaim origin number machine account reserved = p.setAlc { p.alc with
      peerClaims := p.alc.peerClaims ++ [p.placedClaim origin number machine account reserved], placed := p.alc.placed + 1 } := by
  unfold Part.placeClaim
  rw [if_neg (by simp [hh]), if_pos hl]
  rfl

theorem Part.placeClaim_replaced {w : PeerClaim}
    (hh : p.alc.peerClaims.any (fun c => c.origin == origin && c.number == number) = false)
    (hl : 4 ≤ (p.alc.peerClaims.filter fun c => c.origin == origin).length)
    (hw : worstClaim origin p.alc.peerClaims = some w) :
    p.placeClaim origin number machine account reserved = p.setAlc { p.alc with
      peerClaims := p.alc.peerClaims.erase w ++ [p.placedClaim origin number machine account reserved]
      placed := p.alc.placed + 1 } := by
  unfold Part.placeClaim
  rw [if_neg (by simp [hh]), if_neg (Nat.not_lt.mpr hl), hw]
  rfl

end Place

/-! ## The notices -/

section Notices

variable {p : Part} {origin number i : Nat} {m : MachineRow}

theorem Part.takeClaim_nothing {machine : Nat} (h : p.findMachine machine = none ∨ number = 0) (reserved : Nat) :
    p.takeClaim origin machine number reserved = p := by
  unfold Part.takeClaim
  split
  · rfl
  · next hf => exact if_pos (h.resolve_left (by simp [hf]))

/-- A CLAIM of a known machine: its placing, and the cut rule where the origin has the lower number (R45, R57). -/
theorem Part.takeClaim_placed {machine reserved : Nat} {x : Alc} (hf : p.findMachine machine = some i)
    (hm : p.machines[i]? = some m) (hn : number ≠ 0)
    (hp : p.placeClaim origin number machine m.entry.account reserved = p.setAlc x) :
    p.takeClaim origin machine number reserved =
      if origin < p.station then (p.setAlc x).runCuts none machine m.entry.account else p.setAlc x := by
  unfold Part.takeClaim
  simp only [hf, hm, if_neg hn, Option.map_some, Option.getD_some, hp]
  rfl

/-- What a TALLY leaves before the cut rule runs (R43). -/
def Part.tallied (p : Part) (i : Nat) (m : MachineRow) (origin cumulative closing : Nat) : Part :=
  (p.setMachines (p.machines.set i { m with drawn := m.drawn.set (origin - 1) (max (m.column origin) cumulative) })).setAlc
    { p.alc with
      peerClaims := if closing = 0 then p.alc.peerClaims
        else p.alc.peerClaims.filter fun c => !(c.origin == origin && c.number == closing) }

/-- The claim a TALLY closes leaves the table; closing number 0 closes none. -/
theorem Part.closeClaim_eq (p : Part) (origin closing : Nat) : (if closing = 0 then p else p.removeClaim origin closing) =
    p.setAlc { p.alc with
      peerClaims := if closing = 0 then p.alc.peerClaims
        else p.alc.peerClaims.filter fun c => !(c.origin == origin && c.number == closing) } := by
  split <;> rfl

theorem Part.takeTally_unknown (hf : p.findMachine number = none) (cumulative closing : Nat) :
    p.takeTally origin number cumulative closing = p := by
  unfold Part.takeTally
  rw [hf]

variable (hf : p.findMachine number = some i) (hm : p.machines[i]? = some m)
include hf hm

theorem Part.takeTally_raised {cumulative : Nat} (hr : m.column origin < cumulative) (closing : Nat) :
    p.takeTally origin number cumulative closing =
      (p.tallied i m origin cumulative closing).runCuts none number m.entry.account := by
  unfold Part.takeTally Part.tallied Part.modMachine
  simp only [hf, hm, decide_eq_true hr, if_true, Part.closeClaim_eq, modify_of_getElem _ _ _ hm, max_eq_right hr.le]
  rfl

theorem Part.takeTally_unraised {cumulative : Nat} (h1 : 1 ≤ origin) (h14 : origin ≤ 14) (hd : m.drawn.length = 14)
    (hr : cumulative ≤ m.column origin) (closing : Nat) :
    p.takeTally origin number cumulative closing = p.tallied i m origin cumulative closing := by
  have inside : origin - 1 < m.drawn.length := by omega
  have same : m.drawn.set (origin - 1) (max (m.column origin) cumulative) = m.drawn := by
    rw [max_eq_left hr]
    unfold MachineRow.column
    rw [List.getD_eq_getElem _ _ inside, List.set_getElem_self]
  have row : p.machines.set i m = p.machines := by
    obtain ⟨hi, rfl⟩ := List.getElem?_eq_some_iff.mp hm
    exact List.set_getElem_self hi
  unfold Part.takeTally Part.tallied
  simp only [hf, hm, decide_eq_false (Nat.not_lt.mpr hr), Bool.false_eq_true, if_false, Part.closeClaim_eq, same, row]
  rfl

end Notices

/-! ## The shift of a notice (R40) -/

theorem Part.compareShift_current {p : Part} {shift : Nat} (h : shift = p.alc.shift) : p.compareShift shift = (p, true) := by
  unfold Part.compareShift
  rw [if_neg h.not_lt, if_neg h.not_gt]

theorem Part.compareShift_later {p : Part} {shift : Nat} (h : p.alc.shift < shift) :
    p.compareShift shift = (p.adopt shift, true) := by
  unfold Part.compareShift
  rw [if_neg h.not_gt, if_pos h]

theorem Part.compareShift_stale {p : Part} {shift : Nat} (h : shift < p.alc.shift) :
    p.compareShift shift = (p.setSnc { p.snc with rxStale := min (p.snc.rxStale + 1) 65535 }, false) := if_pos h

/-- Settles O24: each notice by its equation; where no own transaction is under way the cut rule is the identity. -/
theorem peerNotices : Obligations.PeerNotices := by
  refine ⟨?_, ?_, ?_, ?_, ?_, ?_⟩
  · refine fun p origin number cumulative closing h1 => ⟨fun hf => Part.takeTally_unknown hf _ _,
      fun i m hf hm hidle hd h14 => ?_⟩
    have told : p.takeTally origin number cumulative closing = p.tallied i m origin cumulative closing := by
      rcases Nat.lt_or_ge (m.column origin) cumulative with hr | hr
      · rw [Part.takeTally_raised hf hm hr]
        exact Part.runCuts_idle (p.tallied i m origin cumulative closing) hidle none number m.entry.account
      · exact Part.takeTally_unraised hf hm h1 h14 hd hr closing
    rw [told]
    exact ⟨rfl, rfl, rfl⟩
  · refine fun p origin machine number reserved => ⟨fun h => Part.takeClaim_nothing h reserved,
      fun i m hf hm hn hidle => ?_⟩
    have idle (x : Alc) : (p.setAlc x).runCuts none machine m.entry.account = p.setAlc x :=
      Part.runCuts_idle (p.setAlc x) hidle none machine m.entry.account
    refine ⟨fun hh hl => ?_, fun hh => ?_⟩
    · rw [Part.takeClaim_placed hf hm hn (Part.placeClaim_room hh hl), idle, ite_self]
      rfl
    · rw [Part.takeClaim_placed hf hm hn (Part.placeClaim_held hh), idle, ite_self]
  · exact fun p origin i number cumulative closing m h1 h14 hd hf hm =>
      ⟨fun hr => Part.takeTally_unraised hf hm h1 h14 hd hr closing, fun hr => Part.takeTally_raised hf hm hr closing⟩
  · intro p origin i machine number reserved m hf hm hn taken entry
    refine ⟨fun ⟨c, hc, hco⟩ => ?_, fun hnone => ?_⟩
    · have held : p.alc.peerClaims.any (fun c => c.origin == origin && c.number == number) = true :=
        List.any_eq_true.mpr ⟨c, hc, by simp [hco]⟩
      have renewed (c : PeerClaim) : (if c.origin = origin ∧ c.number = number then
          { c with machine := machine, account := m.entry.account, reserved := reserved, life := p.now + 12000000 } else c) =
          if c.origin = origin ∧ c.number = number then { entry with placed := c.placed } else c :=
        ite_congr rfl (fun ⟨ho, hnum⟩ => by subst ho hnum; rfl) fun _ => rfl
      rw [Part.takeClaim_placed hf hm hn (Part.placeClaim_held held), funext renewed]
    · have unheld : p.alc.peerClaims.any (fun c => c.origin == origin && c.number == number) = false :=
        List.any_eq_false.mpr fun c hc => by simpa using hnone c hc
      exact ⟨fun hl => Part.takeClaim_placed hf hm hn (Part.placeClaim_room unheld hl), fun w hw hl ho hleast =>
        Part.takeClaim_placed hf hm hn (Part.placeClaim_replaced unheld hl (worstClaim_of_least hw ho hleast))⟩
  · intro p origin shift number
    refine ⟨fun h => ?_, fun h => ?_⟩
    · simp only [Part.deliver, Part.compareShift_current h]
      rfl
    · simp only [Part.deliver, Part.compareShift_stale h]
      rfl
  · intro p origin shift
    refine ⟨fun h => ?_, fun h => ?_, fun h n hn => ?_⟩
    · simp only [Part.deliver, Part.compareShift_current h, if_true, implies_true, and_self]
    · simp only [Part.deliver, Part.compareShift_later h, if_true, implies_true, true_and]
      exact fun number => rfl
    · rcases hn with ⟨machine, number, reserved, rfl⟩ | ⟨machine, cumulative, closing, rfl⟩
      · simp only [Part.deliver, Part.compareShift_stale h]
        rfl
      · simp only [Part.deliver, Part.compareShift_stale h]
        rfl

end Sys2Proof.Machine
end

section
/-! What a bowser's restock coordinator makes of the BAYGRANTs and LOADNOTEs it hears (09 R158, R159, R160). -/

namespace Sys2Proof.Machine

open Sys2Proof

/-! ## Settings and states -/

theorem Part.settings_of_identity {p : Part} {i : Identity} (hi : p.identity = some i) :
    ∃ st, p.cfl.settings = some st ∧ st.identity = i := Option.map_eq_some_iff.mp hi

theorem Part.role_of_identity {p : Part} {i : Identity} (hi : p.identity = some i) : p.role = some i.role := by
  obtain ⟨st, hst, rfl⟩ := Part.settings_of_identity hi
  unfold Part.role
  rw [hst]
  rfl

theorem Part.rsc_enterRequested {p : Part} {st : Settings} (hs : p.cfl.settings = some st) : p.enterRequested.rsc =
    { p.rsc with
      state := .requested, repeatTimer := some (p.now + 1000000)
      awaited := ⟨decide (0 < spaceOf p.inv.comps.a st.comps.a), decide (0 < spaceOf p.inv.comps.b st.comps.b)⟩ } := by
  rw [Part.enterRequested_eq hs, RestockKept.rsc_offer]
  rfl

/-- The return to NORMAL with its cancel BAYREQ (09 R160). -/
theorem Part.returnNormal_eq {p : Part} {st : Settings} (hs : p.cfl.settings = some st) : p.returnNormal =
    ((p.setRsc { p.rsc with state := .normal, repeatTimer := none, grant := none, awaited := ⟨false, false⟩ }).event
      (.restockState .normal)).offer (bayreqNotice p st true) false := by
  unfold Part.returnNormal
  simp only [show ((p.setRsc { p.rsc with repeatTimer := none, grant := none, awaited := ⟨false, false⟩ }).setRestock
    .normal).cfl.settings = some st from hs]
  rfl

/-! ## BAYGRANT (09 R158) -/

section Baygrant

variable {p : Part} {i : Identity} (hi : p.identity = some i) {origin station bay grant : Nat}
include hi

theorem Part.takeBaygrant_ignored
    (hn : i.role ≠ .bowser ∨ origin ≠ i.depotStation ∨ station ≠ p.station ∨ bay < 1 ∨ 2 < bay ∨ grant = 0) (revoke : Nat) :
    p.takeBaygrant origin station bay grant revoke = p := by
  unfold Part.takeBaygrant
  rw [hi]
  exact if_pos hn

variable (hv : ¬ (i.role ≠ .bowser ∨ origin ≠ i.depotStation ∨ station ≠ p.station ∨ bay < 1 ∨ 2 < bay ∨ grant = 0))
include hv

theorem Part.takeBaygrant_requested (hs : p.rsc.state = .requested) : p.takeBaygrant origin station bay grant 0 =
    ((p.setRsc { p.rsc with grant := some (bay, grant), repeatTimer := none, state := .granted }).event
      (.restockState .granted)).event (.grant station bay grant false) := by
  unfold Part.takeBaygrant
  simp only [hi, if_neg hv, hs]
  rfl

theorem Part.takeBaygrant_repeated (hs : p.rsc.state = .granted) (hg : p.rsc.grant.map (·.2) = some grant) :
    p.takeBaygrant origin station bay grant 0 = p := by
  unfold Part.takeBaygrant
  simp only [hi, if_neg hv, hs, hg, if_true]

theorem Part.takeBaygrant_another (hs : p.rsc.state = .granted) (hg : p.rsc.grant.map (·.2) ≠ some grant) :
    p.takeBaygrant origin station bay grant 0 =
      (p.setRsc { p.rsc with grant := some (bay, grant) }).event (.grant station bay grant false) := by
  unfold Part.takeBaygrant
  simp only [hi, if_neg hv, hs, if_true, if_neg hg]

theorem Part.takeBaygrant_revoked (hs : p.rsc.state = .granted) (hg : p.rsc.grant.map (·.2) = some grant) :
    p.takeBaygrant origin station bay grant 1 = (p.setRsc { p.rsc with grant := none }).enterRequested := by
  unfold Part.takeBaygrant
  simp only [hi, if_neg hv, if_neg Nat.one_ne_zero, if_true, if_pos (And.intro hs hg)]

theorem Part.takeBaygrant_unrevoked (hn : ¬ (p.rsc.state = .granted ∧ p.rsc.grant.map (·.2) = some grant)) :
    p.takeBaygrant origin station bay grant 1 = p := by
  unfold Part.takeBaygrant
  simp only [hi, if_neg hv, if_neg Nat.one_ne_zero, if_true, if_neg hn]

/-- In the states that wait for no grant a BAYGRANT has no effect, whatever its revoke flag. -/
theorem Part.takeBaygrant_unasked (hs : p.rsc.state = .normal ∨ p.rsc.state = .draining ∨ p.rsc.state = .receiving)
    (revoke : Nat) : p.takeBaygrant origin station bay grant revoke = p := by
  have ungranted : ¬ (p.rsc.state = .granted ∧ p.rsc.grant.map (·.2) = some grant) := fun ⟨hg, _⟩ => by simp [hg] at hs
  unfold Part.takeBaygrant
  simp only [hi, if_neg hv, if_neg ungranted, ite_self]
  rcases hs with hs | hs | hs <;> simp only [hs, ite_self]

end Baygrant

/-! ## LOADNOTE (09 R159) -/

theorem Part.expects_iff (p : Part) (grant : Nat) : p.expects grant = true ↔
    (p.rsc.state = .granted ∨ p.rsc.state = .receiving) ∧ p.rsc.grant.map (·.2) = some grant := by
  simp [Part.expects]

theorem compOfCode_none {code : Nat} (h1 : code ≠ 1) (h2 : code ≠ 2) : compOfCode code = none := by
  unfold compOfCode
  split
  · exact absurd rfl h1
  · exact absurd rfl h2
  · rfl

/-- The load of a LOADNOTE in the books, its record and its event (R159, items 1 to 3). -/
def Part.loadBooked (p : Part) (c : CompId) (origin grant gross standard : Nat) (unexpected : Bool) : Part :=
  ((p.modComp c fun k => k.receive gross).wholeRecord c (.receipt c origin grant) (.receipt gross standard unexpected)).event
    (.loadnoteTaken c gross (!unexpected))

theorem Part.rsc_loadBooked (p : Part) (c : CompId) (origin grant gross standard : Nat) (u : Bool) :
    (p.loadBooked c origin grant gross standard u).rsc = p.rsc := (SameRest.of_wholeRecord _ _ _ _).rsc

theorem Part.cfl_loadBooked (p : Part) (c : CompId) (origin grant gross standard : Nat) (u : Bool) :
    (p.loadBooked c origin grant gross standard u).cfl = p.cfl := (SameRest.of_wholeRecord _ _ _ _).cfl

section ReceiveLoad

variable {p : Part} {c : CompId}

/-- Whether a load leaves something to wait for, in terms of the other compartment (R159). -/
theorem awaited_left (awaited : ByComp Bool) (c : CompId) (hw : awaited.get c = false ∨ ∃ k, k ≠ c ∧ awaited.get k = true) :
    ¬ (awaited.get c = true ∧ (awaited.set c false).a = false ∧ (awaited.set c false).b = false) := by
  rintro ⟨hc, ha, hb⟩
  rcases hw with hw | ⟨k, hk, hw⟩
  · exact absurd (hc.symm.trans hw) (by decide)
  · have other : (awaited.set c false).get k = true := (ByComp.get_set_ne awaited false hk).trans hw
    cases k with
    | a => exact absurd (other.symm.trans ha) (by decide)
    | b => exact absurd (other.symm.trans hb) (by decide)

theorem Part.receiveLoad_last {st : Settings} (hs : p.cfl.settings = some st) (hc : p.rsc.awaited.get c = true)
    (hk : ∀ k, k ≠ c → p.rsc.awaited.get k = false) : p.receiveLoad c =
      ((p.setRsc { p.rsc with state := .normal, repeatTimer := none, grant := none, awaited := ⟨false, false⟩ }).event
        (.restockState .normal)).offer (bayreqNotice p st true) false := by
  have emptied (k : CompId) : (p.rsc.awaited.set c false).get k = false := by
    by_cases hkc : k = c
    · rw [hkc, ByComp.get_set_same]
    · rw [ByComp.get_set_ne _ _ hkc, hk k hkc]
  unfold Part.receiveLoad
  exact (if_pos ⟨hc, emptied .a, emptied .b⟩).trans (Part.returnNormal_eq (p := p.setRsc { p.rsc with awaited := _ }) hs)

variable (hw : p.rsc.awaited.get c = false ∨ ∃ k, k ≠ c ∧ p.rsc.awaited.get k = true)
include hw

theorem Part.receiveLoad_first (hs : p.rsc.state = .granted) : p.receiveLoad c =
    (p.setRsc { p.rsc with awaited := p.rsc.awaited.set c false, state := .receiving }).event (.restockState .receiving) := by
  unfold Part.receiveLoad
  simp only [if_neg (awaited_left _ c hw), hs, if_true]
  rfl

theorem Part.receiveLoad_more (hs : p.rsc.state = .receiving) :
    p.receiveLoad c = p.setRsc { p.rsc with awaited := p.rsc.awaited.set c false } := by
  unfold Part.receiveLoad
  simp only [if_neg (awaited_left _ c hw), hs, reduceCtorEq, if_false]

end ReceiveLoad

section Loadnote

variable {p : Part} {i : Identity} (hi : p.identity = some i) {origin station compartment grant : Nat}
include hi

theorem Part.takeLoadnote_ignored
    (hn : i.role = .depot ∨ origin ≠ i.depotStation ∨ station ≠ p.station ∨ compartment ≠ 1 ∧ compartment ≠ 2)
    (gross standard : Nat) : p.takeLoadnote origin station compartment grant gross standard = p := by
  unfold Part.takeLoadnote
  rw [hi]
  cases hc : compOfCode compartment with
  | none => rfl
  | some c =>
    have known : ¬ (compartment ≠ 1 ∧ compartment ≠ 2) := fun ⟨h1, h2⟩ => by
      rw [compOfCode_none h1 h2] at hc
      exact Option.some_ne_none c hc.symm
    refine if_pos ?_
    rcases hn with h | h | h | h
    · exact .inl (by rw [h]; decide)
    · exact .inr (.inl h)
    · exact .inr (.inr h)
    · exact absurd h known

variable {c : CompId} (hc : compOfCode compartment = some c)
  (hv : ¬ (i.role ≠ .bowser ∨ origin ≠ i.depotStation ∨ station ≠ p.station))
include hc hv

theorem Part.takeLoadnote_unexpected (he : p.expects grant = false) (gross standard : Nat) :
    p.takeLoadnote origin station compartment grant gross standard = p.loadBooked c origin grant gross standard true := by
  unfold Part.takeLoadnote
  simp only [hi, hc, if_neg hv, he, Bool.false_eq_true, if_false]
  rfl

theorem Part.takeLoadnote_expected (he : p.expects grant = true) (gross standard : Nat) :
    p.takeLoadnote origin station compartment grant gross standard =
      (p.loadBooked c origin grant gross standard false).receiveLoad c := by
  unfold Part.takeLoadnote
  simp only [hi, hc, if_neg hv, he, if_true]
  rfl

section Expected

variable (hg : p.rsc.grant.map (·.2) = some grant) (gross standard : Nat)
include hg

/-- The load that empties the awaited set (09 R160). -/
theorem Part.takeLoadnote_last {st : Settings} (hst : p.cfl.settings = some st)
    (hs : p.rsc.state = .granted ∨ p.rsc.state = .receiving) (hw : p.rsc.awaited.get c = true)
    (hk : ∀ k, k ≠ c → p.rsc.awaited.get k = false) :
    p.takeLoadnote origin station compartment grant gross standard =
      (((p.loadBooked c origin grant gross standard false).setRsc
        { p.rsc with state := .normal, repeatTimer := none, grant := none, awaited := ⟨false, false⟩ }).event
        (.restockState .normal)).offer (bayreqNotice (p.loadBooked c origin grant gross standard false) st true) false := by
  have same := p.rsc_loadBooked c origin grant gross standard false
  rw [Part.takeLoadnote_expected hi hc hv ((p.expects_iff grant).mpr ⟨hs, hg⟩),
    Part.receiveLoad_last ((p.cfl_loadBooked ..).symm ▸ hst) (same.symm ▸ hw) (same.symm ▸ hk), same]

variable (hw : p.rsc.awaited.get c = false ∨ ∃ k, k ≠ c ∧ p.rsc.awaited.get k = true)
include hw

/-- The first load of a grant, with more to wait for. -/
theorem Part.takeLoadnote_first (hs : p.rsc.state = .granted) :
    p.takeLoadnote origin station compartment grant gross standard =
      ((p.loadBooked c origin grant gross standard false).setRsc
        { p.rsc with awaited := p.rsc.awaited.set c false, state := .receiving }).event (.restockState .receiving) := by
  have same := p.rsc_loadBooked c origin grant gross standard false
  rw [Part.takeLoadnote_expected hi hc hv ((p.expects_iff grant).mpr ⟨.inl hs, hg⟩),
    Part.receiveLoad_first (same.symm ▸ hw) (same.symm ▸ hs), same]

/-- A later load of a grant, with more to wait for. -/
theorem Part.takeLoadnote_more (hs : p.rsc.state = .receiving) :
    p.takeLoadnote origin station compartment grant gross standard =
      (p.loadBooked c origin grant gross standard false).setRsc { p.rsc with awaited := p.rsc.awaited.set c false } := by
  have same := p.rsc_loadBooked c origin grant gross standard false
  rw [Part.takeLoadnote_expected hi hc hv ((p.expects_iff grant).mpr ⟨.inr hs, hg⟩),
    Part.receiveLoad_more (same.symm ▸ hw) (same.symm ▸ hs), same]

end Expected

end Loadnote

end Sys2Proof.Machine
end

section
/-! What a depot's restock coordinator makes of the BAYREQs and STOCKs it hears (09 R161, R162, R164), and the restock notices
as a whole. -/

namespace Sys2Proof.Machine

open Sys2Proof

/-! ## The restock queue -/

/-- An entry takes its place between those before it and those after it (09 R161). -/
theorem insertEntry_between (e : QueueEntry) (front back : List QueueEntry)
    (hf : ∀ q ∈ front, e.urgency < q.urgency ∨ q.urgency = e.urgency ∧ q.arrival ≤ e.arrival)
    (hb : ∀ q ∈ back, q.urgency < e.urgency ∨ q.urgency = e.urgency ∧ e.arrival < q.arrival) :
    insertEntry e (front ++ back) = front ++ e :: back := by
  induction front with
  | nil =>
    cases back with
    | nil => rfl
    | cons q rest => exact if_pos (hb q List.mem_cons_self)
  | cons q front ih =>
    have before : ¬ (q.urgency < e.urgency ∨ q.urgency = e.urgency ∧ e.arrival < q.arrival) := by
      have := hf q List.mem_cons_self
      omega
    have tail := ih fun r hr => hf r (List.mem_cons_of_mem _ hr)
    exact (if_neg before).trans (congrArg (q :: ·) tail)

section Entry

variable {origin : Nat} {front back : List QueueEntry} {e : QueueEntry} (he : e.station = origin)
  (hn : ∀ q ∈ front ++ back, q.station ≠ origin)
include he hn

theorem find_entry : (front ++ e :: back).find? (fun q => q.station == origin) = some e := by
  have front_others : front.find? (fun q => q.station == origin) = none :=
    List.find?_eq_none.mpr fun q hq => by simpa using hn q (List.mem_append_left _ hq)
  rw [List.find?_append, front_others, Option.none_or]
  exact List.find?_cons_of_pos (by simpa using he)

theorem filter_entry : (front ++ e :: back).filter (fun q => !(q.station == origin)) = front ++ back := by
  have others (l : List QueueEntry) (hl : ∀ q ∈ l, q.station ≠ origin) : l.filter (fun q => !(q.station == origin)) = l :=
    List.filter_eq_self.mpr fun q hq => by simpa using hl q hq
  rw [List.filter_append, List.filter_cons_of_neg (by simpa using he), others front fun q hq => hn q (List.mem_append_left _ hq),
    others back fun q hq => hn q (List.mem_append_right _ hq)]

end Entry

/-! ## BAYREQ and STOCK -/

section Depot

variable {p : Part} {origin : Nat}

/-- A holder that leaves while nobody waits (09 R164). -/
theorem Part.removeStation_freed {b : BayId} (hb : p.bayOf origin = some b) (hq : p.rsc.queue = []) :
    p.removeStation origin = p.setRsc { p.rsc with bays := p.rsc.bays.set b none } :=
  (Part.removeStation_holder hb).trans (Part.grantStep_empty 2 (p.setBay b none) hq)

theorem Part.takeStock_other {code : Nat}
    (hn : p.role ≠ some .depot ∨ code ≠ restockCode .normal ∧ code ≠ restockCode .draining) : p.takeStock origin code = p :=
  if_neg fun ⟨hr, hc⟩ => hn.elim (· hr) fun ⟨h1, h2⟩ => hc.elim h1 h2

theorem Part.takeBayreq_ignored (hr : p.role ≠ some .depot) (spaceA spaceB urgency cancel : Nat) :
    p.takeBayreq origin spaceA spaceB urgency cancel = p := if_pos (.inl hr)

variable (hr : p.role = some .depot)
include hr

theorem Part.takeStock_removes {code : Nat} (hc : code = restockCode .normal ∨ code = restockCode .draining) :
    p.takeStock origin code = p.removeStation origin := if_pos ⟨hr, hc⟩

variable {urgency : Nat} (hu : urgency ≤ 1)
include hu

theorem Part.takeBayreq_cancel (spaceA spaceB : Nat) : p.takeBayreq origin spaceA spaceB urgency 1 = p.removeStation origin := by
  have valid : ¬ (p.role ≠ some .depot ∨ 1 < urgency ∨ 1 < 1) := by simp [hr, hu]
  unfold Part.takeBayreq
  rw [if_neg valid, if_pos rfl]

theorem Part.takeBayreq_holder {b : BayId} {e : BayEntry} (hb : p.bayOf origin = some b) (he : p.rsc.bays.get b = some e)
    (spaceA spaceB : Nat) : p.takeBayreq origin spaceA spaceB urgency 0 =
      (p.setRsc { p.rsc with bays := p.rsc.bays.set b (some { e with spaces := ⟨spaceA, spaceB⟩ }) }).offer
        (.baygrant origin (bayNumber b) e.grant 0) false := by
  have valid : ¬ (p.role ≠ some .depot ∨ 1 < urgency ∨ 1 < 0) := by simp [hr, hu]
  unfold Part.takeBayreq
  rw [if_neg valid, if_neg Nat.zero_ne_one, hb]
  simp only [he]
  rfl

variable (hb : p.bayOf origin = none)
include hb

theorem Part.takeBayreq_waiting {e : QueueEntry} (he : p.rsc.queue.find? (fun e => e.station == origin) = some e)
    (spaceA spaceB : Nat) : p.takeBayreq origin spaceA spaceB urgency 0 = p.setRsc { p.rsc with
      queue := insertEntry { e with urgency := urgency, spaces := ⟨spaceA, spaceB⟩ }
        (p.rsc.queue.filter fun e => !(e.station == origin)) } := by
  have valid : ¬ (p.role ≠ some .depot ∨ 1 < urgency ∨ 1 < 0) := by simp [hr, hu]
  unfold Part.takeBayreq
  rw [if_neg valid, if_neg Nat.zero_ne_one, hb]
  simp only [he]

theorem Part.takeBayreq_new (hn : ∀ e ∈ p.rsc.queue, e.station ≠ origin) (spaceA spaceB : Nat) :
    p.takeBayreq origin spaceA spaceB urgency 0 = (p.insertStation origin urgency ⟨spaceA, spaceB⟩).grantStep 2 := by
  have valid : ¬ (p.role ≠ some .depot ∨ 1 < urgency ∨ 1 < 0) := by simp [hr, hu]
  have absent : p.rsc.queue.find? (fun e => e.station == origin) = none :=
    List.find?_eq_none.mpr fun e he => by simpa using hn e he
  unfold Part.takeBayreq
  rw [if_neg valid, if_neg Nat.zero_ne_one, hb]
  simp only [absent]

end Depot

/-- A cancel and a STOCK of NORMAL or DRAINING all take the station away (09 R164). -/
theorem Part.cancels_removed {p removed : Part} {origin : Nat} (hr : p.role = some .depot)
    (gone : p.removeStation origin = removed) (spaceA spaceB : Nat) :
    (∀ u, u ≤ 1 → p.takeBayreq origin spaceA spaceB u 1 = removed)
    ∧ p.takeStock origin (restockCode .normal) = removed ∧ p.takeStock origin (restockCode .draining) = removed :=
  ⟨fun _ hu => (Part.takeBayreq_cancel hr hu spaceA spaceB).trans gone, (Part.takeStock_removes hr (.inl rfl)).trans gone,
    (Part.takeStock_removes hr (.inr rfl)).trans gone⟩

/-- A station that asks where nobody waits and a bay is free is granted it at once (09 R162). -/
theorem Part.grantStep_insertStation {p : Part} {b : BayId} (hq : p.rsc.queue = []) (hb : p.freeBay = some b)
    (station urgency : Nat) (spaces : ByComp Nat) :
    (p.insertStation station urgency spaces).grantStep 2 = (p.insertStation station urgency spaces).grantBay b
      { station := station, urgency := urgency, arrival := p.rsc.arrival + 1, spaces := spaces } p.rsc.queue := by
  have alone : (p.insertStation station urgency spaces).rsc.queue =
      [{ station := station, urgency := urgency, arrival := p.rsc.arrival + 1, spaces := spaces }] :=
    congrArg (insertEntry _) hq
  rw [hq]
  exact Part.grantStep_one (p := p.insertStation station urgency spaces) hb alone (.inl rfl)

/-! ## The obligation -/

/-- A BAYGRANT or a LOADNOTE that is for this bowser from its depot. -/
theorem heard_of_depot {p : Part} {i : Identity} {origin station : Nat} (hr : i.role = .bowser) (ho : origin = i.depotStation)
    (hst : station = p.station) : ¬ (i.role ≠ .bowser ∨ origin ≠ i.depotStation ∨ station ≠ p.station) := by
  simp [hr, ho, hst]

theorem granted_of_depot {p : Part} {i : Identity} {origin station bay grant : Nat} (hr : i.role = .bowser)
    (ho : origin = i.depotStation) (hst : station = p.station) (h1 : 1 ≤ bay) (h2 : bay ≤ 2) (hg : 1 ≤ grant) :
    ¬ (i.role ≠ .bowser ∨ origin ≠ i.depotStation ∨ station ≠ p.station ∨ bay < 1 ∨ 2 < bay ∨ grant = 0) := by
  simp only [hr, ho, hst, ne_eq, not_true_eq_false, false_or]
  omega

/-- Settles O48: each notice in each state by its equation, through the queue's insertion and the one grant that can follow. -/
theorem restockNotices : Obligations.RestockNotices := by
  refine ⟨?_, ?_, ?_, ?_, ?_, ?_, insertEntry_between, ?_, ?_, ?_, ?_⟩
  · intro p i origin station bay grant revoke hi
    refine ⟨fun hn => Part.takeBaygrant_ignored hi ?_ revoke, fun hr ho hst h1 h2 hg => ?_⟩
    · rcases hn with h | h | h | h | h | h
      · exact .inl (by rw [h]; decide)
      · exact .inr (.inl h)
      · exact .inr (.inr (.inl h))
      · exact .inr (.inr (.inr (.inl (by omega))))
      · exact .inr (.inr (.inr (.inr (.inl h))))
      · exact .inr (.inr (.inr (.inr (.inr h))))
    · have hv := granted_of_depot (p := p) hr ho hst h1 h2 hg
      refine ⟨?_, ?_, ?_, fun hs => Part.takeBaygrant_unasked hi hv hs revoke⟩
      · rintro hs rfl
        exact Part.takeBaygrant_requested hi hv hs
      · rintro hs hsame rfl
        exact Part.takeBaygrant_repeated hi hv hs hsame
      · rintro hs hsame rfl
        obtain ⟨st, hst, _⟩ := Part.settings_of_identity hi
        rw [Part.takeBaygrant_revoked hi hv hs hsame, Part.rsc_enterRequested (p := p.setRsc { p.rsc with grant := none }) hst]
        exact ⟨rfl, rfl, rfl⟩
  · intro p i origin station compartment grant gross standard c hi hc hr ho hst booked
    have hv := heard_of_depot (p := p) hr ho hst
    refine ⟨fun hn => Part.takeLoadnote_unexpected hi hc hv ?_ gross standard, fun hs hg ha => ?_⟩
    · refine Bool.eq_false_iff.mpr fun he => ?_
      obtain ⟨hs, hg⟩ := (p.expects_iff grant).mp he
      rcases hn with h | h | h | h
      · simp [h] at hs
      · simp [h] at hs
      · simp [h] at hs
      · exact h hg
    · refine Part.takeLoadnote_first hi hc hv hg gross standard (.inr ?_) hs
      rw [ha]
      cases c with
      | a => exact ⟨.b, by decide, rfl⟩
      | b => exact ⟨.a, by decide, rfl⟩
  · intro p origin spaceA spaceB urgency
    refine ⟨fun hr cancel => Part.takeBayreq_ignored hr _ _ _ _, fun hr hu hb hn hf => ?_,
      fun hr hu b e hb he => Part.takeBayreq_holder hr hu hb he spaceA spaceB, fun hr hb => ?_⟩
    · rw [Part.takeBayreq_new hr hu hb hn]
      exact Part.grantStep_full 2 (p.insertStation origin urgency ⟨spaceA, spaceB⟩) hf
    · exact Part.cancels_removed hr (Part.removeStation_waiting hb) spaceA spaceB
  · intro p i bay grant hi hr h1 h2 hg
    have hv := granted_of_depot (p := p) hr rfl rfl h1 h2 hg
    exact ⟨fun hs hother => ⟨Part.takeBaygrant_another hi hv hs hother, Part.takeBaygrant_unrevoked hi hv fun h => hother h.2⟩,
      fun hs => Part.takeBaygrant_unrevoked hi hv fun h => by simp [hs] at h⟩
  · intro p i st compartment grant gross standard c hi hst hc hr hs hg booked
    have hv := heard_of_depot (p := p) hr rfl rfl
    exact ⟨fun hw hk => Part.takeLoadnote_last hi hc hv hg gross standard hst hs hw hk,
      fun hs hw => Part.takeLoadnote_more hi hc hv hg gross standard hw hs⟩
  · intro p origin spaceA spaceB urgency front e back hr hu hb hq he hn
    rw [Part.takeBayreq_waiting hr hu hb (hq ▸ find_entry he hn), hq, filter_entry he hn]
  · exact fun p origin station compartment grant gross standard =>
      ⟨fun i hi hn => Part.takeLoadnote_ignored hi hn gross standard, fun code hn => Part.takeStock_other hn⟩
  · exact fun p i compartment grant gross standard c hi hc hr hs hg hw =>
      Part.takeLoadnote_first hi hc (heard_of_depot (p := p) hr rfl rfl) hg gross standard hw hs
  · refine fun p origin => ⟨fun _ _ _ _ => rfl, fun _ _ _ _ => rfl, fun _ _ _ _ _ => rfl, fun role code a b e he => ?_⟩
    exact congrArg (·.takeStock origin code) (p.modPeer_of_entry origin e he _)
  · intro p origin spaceA spaceB urgency b hr hq
    refine ⟨fun hu hb hf => ?_, fun hb => ?_⟩
    · rw [Part.takeBayreq_new hr hu hb (by simp [hq]), Part.grantStep_insertStation hq hf]
      rfl
    · exact (Part.cancels_removed hr (Part.removeStation_freed hb hq) spaceA spaceB).imp_left (· urgency)

end Sys2Proof.Machine
end

section
/-! The requests that only read (11 R178, R182, R183): each report figure by figure, and a request that finds the line busy. -/

namespace Sys2Proof.Machine

open Sys2Proof

/-! ## The line -/

theorem Part.lineBusy_iff (p : Part) : p.lineBusy = true ↔
    p.cfl.stage ≠ .running ∨ p.cnl.response ≠ none ∨ p.cnl.reloading = true ∨ 0 < p.cnl.busyWaiting := by
  simp [Part.lineBusy, Option.isSome_iff_ne_none, or_assoc]

/-- A request that finds the line busy touches the line alone (R178). -/
theorem Part.request_busy {p : Part} (hb : p.lineBusy = true) (act : Part → Part) :
    p.request act = p.setCnl p.cnl.refuseBusy := if_pos hb

theorem Cnl.events_refuseBusy (c : Cnl) : c.refuseBusy.events = c.events ∧ c.refuseBusy.lost = c.lost := by
  unfold Cnl.refuseBusy
  split <;> exact ⟨rfl, rfl⟩

/-! ## HOSE -/

/-- The total of a machine that HOSE shows, 0 for a machine no entry has (03 R41). -/
theorem Part.drawn_eq (p : Part) (number : Nat) : p.drawn number =
    ((p.machines.find? fun r => r.entry.number == number).map fun r => r.drawn.sum).getD 0 := by
  unfold Part.drawn
  cases p.machines.find? fun r => r.entry.number == number <;> rfl

theorem Vsq.reportOf_trim (q : Vsq) : q.reportOf .trim =
    { command := if q.phase ∈ [Phase.trim, .full, .taper] then .opened else .closed, switch := q.trim.switch
      latch := q.trim.latch } := by
  unfold Vsq.reportOf
  cases q.phase <;> rfl

theorem Vsq.reportOf_main (q : Vsq) : q.reportOf .main =
    { command := if q.phase ∈ [Phase.full] then .opened else .closed, switch := q.main.switch, latch := q.main.latch } := by
  unfold Vsq.reportOf
  cases q.phase <;> rfl

/-! ## STATUS -/

theorem Part.eligible_eq (p : Part) (r : Request) :
    p.eligible r = !((p.hose r.hose).valves.trim.latch || (p.hose r.hose).valves.main.latch) := (Bool.not_or _ _).symm

theorem Part.presetDepot_of_role {p : Part} {r : Role} (hr : p.role = some r) : p.presetDepot = (r == .depot) := by
  unfold Part.presetDepot
  rw [hr]

theorem Part.showsBay_of_identity {p : Part} {i : Identity} (hi : p.identity = some i) (b : BayId) :
    p.showsBay b = decide (bayNumber b ≤ i.bays) := by
  unfold Part.showsBay Part.hasBay
  simp only [hi]

theorem Part.restockReport_bowser {p : Part} (hr : p.role = some .bowser) : p.restockReport =
    .bowser p.rsc.state p.rsc.grant p.rsc.awaited (p.rsc.repeatTimer.map (secondsLeft (p.rsc.frozenAt.getD p.now))) := by
  unfold Part.restockReport
  rw [Part.presetDepot_of_role hr]
  rfl

theorem Part.restockReport_depot {p : Part} {st : Settings} (hs : p.cfl.settings = some st) (hr : st.identity.role = .depot) :
    p.restockReport = .depot p.rsc.queue
      (([.b1, .b2].filter fun b => decide (bayNumber b ≤ st.identity.bays)).map fun b => (b, p.rsc.bays.get b)) := by
  have identity := Part.identity_of_settings hs
  have depot : p.role = some .depot := (Part.role_of_identity identity).trans (congrArg some hr)
  unfold Part.restockReport
  rw [Part.presetDepot_of_role depot, funext (Part.showsBay_of_identity identity)]
  rfl

/-- A broken second is rounded as the free value says (log 9). -/
theorem secondsLeft_cases (now due : Nat) : secondsLeft now due = (due - now) / 100000
    ∨ (due - now) % 100000 ≠ 0 ∧ secondsLeft now due = (due - now) / 100000 + 1 := by
  unfold secondsLeft
  by_cases whole : (due - now) % 100000 = 0
  · exact .inl (by rw [if_pos whole]; rfl)
  · rw [if_neg whole]
    cases Config.secondsRoundUp (due - now) with
    | true => exact .inr ⟨whole, rfl⟩
    | false => exact .inl rfl

/-- A pump as STATUS shows it (05 R94, R101). -/
theorem Part.pumpReport_spec (p : Part) (i : PumpId) :
    (p.pumpReport i).state = (p.pumps.get i).state ∧ (p.pumpReport i).grants = (p.pumps.get i).grants
    ∧ (p.pumpReport i).limit = p.cfl.settings.map (fun st => st.identity.limits.get i)
    ∧ (p.pumpReport i).requests = (grantOrder (p.pumps.get i).requests).map fun t =>
      (t.hose, t.priority, !((p.hose t.hose).valves.trim.latch || (p.hose t.hose).valves.main.latch)) := by
  refine ⟨rfl, rfl, Option.map_map .., ?_⟩
  unfold Part.pumpReport
  simp only [Part.eligible_eq]

/-- A compartment as STATUS shows it (08 R154). -/
theorem Part.compReport_eq (p : Part) (c : CompId) : p.compReport c =
    { figures := p.comp c, gaugeLitres := (p.comp c).gauge.map (· / 100)
      available := p.cfl.settings.map fun st => (p.comp c).book - (((st.comps.get c).reserve * 100 : Nat) : Int) } := by
  unfold Part.compReport Part.compSettings
  rw [Option.map_map]
  rfl

theorem Part.pumps_statusReport (p : Part) (i : PumpId) : p.statusReport.pumps.get i = p.pumpReport i := by cases i <;> rfl

theorem Part.comps_statusReport (p : Part) (c : CompId) : p.statusReport.comps.get c = p.compReport c := by cases c <;> rfl

/-! ## The obligation -/

/-- A context as HOSE shows it (06 R123). -/
theorem Part.contextReport_eq (p : Part) (u : Hose) : p.contextReport u = fun x =>
    { machine := x.machine, account := x.account, method := x.method, preset := x.preset, claim := x.claim
      claimStatus := u.claim.map (·.status), shift := x.shift, sequence := x.sequence, metered := x.metered
      cause := x.cause, faults := x.faults
      drawn := ((p.machines.find? fun r => r.entry.number == x.machine).map fun r => r.drawn.sum).getD 0
      hold := p.machines[x.position]?.map (·.hold) } := by
  funext x
  unfold Part.contextReport
  rw [Part.drawn_eq]

/-- Settles O57: a free line takes each request, a busy one keeps the events, and every report is read off its definition. -/
theorem readOnlyRequests : Obligations.ReadOnlyRequests := by
  refine ⟨fun s free => ?_, fun s busy => ?_, ?_, ?_, ?_, secondsLeft_cases⟩
  · refine ⟨?_, ?_, ?_, ?_, fun field h hh => ?_, ?_⟩
    · exact congrArg s.goesTo (free.request _)
    · exact congrArg s.goesTo (free.request _)
    · exact congrArg s.goesTo (free.request _)
    · exact congrArg s.goesTo (free.request _)
    · refine congrArg s.goesTo ((free.request _).trans ?_)
      unfold Part.hoseRequest
      rw [hh]
      rfl
    · exact ⟨congrArg s.goesTo (free.request _), rfl, fun e => ⟨rfl, rfl, rfl, rfl⟩⟩
  · obtain ⟨events, lost⟩ := s.part.cnl.events_refuseBusy
    have refused := congrArg s.goesTo (Part.request_busy (s.part.lineBusy_iff.mpr busy) Part.takeEvents)
    exact ⟨s.part.setCnl s.part.cnl.refuseBusy, refused, events, lost, congrArg (fun l : List Event => !l.isEmpty) events⟩
  · intro p h u m valve
    unfold Part.hoseReport
    dsimp only
    congr 1
    · show u.reader.readTag.isSome = decide (u.reader.readTag ≠ none)
      cases u.reader.readTag <;> rfl
    · rw [Part.contextReport_eq]
    · show (match u.context with | some _ => none | none => u.summary) = _
      cases u.context <;> rfl
    · exact Vsq.reportOf_trim _
    · exact Vsq.reportOf_main _
  · refine fun p => ⟨rfl, fun a => rfl, fun i => ?_⟩
    have own : (p.cfl.station == some (i + 1)) = decide (p.cfl.station = some (i + 1)) := beq_eq_decide _ _
    unfold Part.peerReport
    rw [own]
    rfl
  · intro p r count
    refine ⟨rfl, fun i => ?_, rfl, fun n hn => ?_, fun n hn => newest_some hn, ?_, rfl, fun c => ?_,
      fun hr => Part.restockReport_bowser hr, fun st hs hr => Part.restockReport_depot hs hr, rfl⟩
    · obtain ⟨state, grants, limit, requests⟩ := p.pumpReport_spec i
      rw [Part.pumps_statusReport]
      exact ⟨state, grants, limit, grantOrder (p.pumps.get i).requests, grantOrder_perm _, requests,
        fun base hl hb => grantOrder_sorted base hb _ hl⟩
    · obtain ⟨_, ⟨u, hu, o, ho, hon⟩, least⟩ := nextAbove_some hn
      exact ⟨⟨u, hu, by rw [ho, ← hon]; rfl⟩, least⟩
    · rintro ⟨u, hu, o, ho, hpos⟩
      refine ⟨fun none_above => ?_, fun no_record => ?_⟩
      · exact absurd (nextAbove_none none_above u hu o ho) (Nat.not_le.mpr hpos)
      · exact absurd (ho.symm.trans (newest_none no_record u hu)) (Option.some_ne_none o)
    · rw [Part.comps_statusReport, Part.compReport_eq]

end Sys2Proof.Machine
end

section
/-! Keyed entry (02 R29) and tag reports (02 R22 to R24, R31): how the line and the reader take them. -/

namespace Sys2Proof.Machine

open Sys2Proof

/-! ## Keyed entry -/

section Requests

variable {s : State} {h : HoseId} {field number : Nat} (free : s.part.LineFree) (hh : hoseField (some field) = some h)
include free hh

theorem exec_keyed_refused {code : Code} (hc : s.part.keyedRefusal h number = some code) :
    exec (.keyed (some field) (some number)) s = s.goesTo (s.part.refuse code) := by
  refine congrArg s.goesTo ((free.request _).trans ?_)
  unfold Part.keyed
  simp only [hh, hc]

/-- KEYED that no check of R29 refuses. -/
theorem exec_keyed_identified (hc : s.part.keyedRefusal h number = none) :
    exec (.keyed (some field) (some number)) s = s.goesTo
      (settle s.part ((s.part.respond .ok).identify h .keyed (s.part.lookupNumber number))) := by
  refine congrArg s.goesTo ((free.request _).trans ?_)
  unfold Part.keyed
  simp only [hh, hc]

end Requests

/-- The checks of KEYED in the words of R29. -/
theorem Part.keyedRefusal_eq (p : Part) (h : HoseId) (number : Nat) : p.keyedRefusal h number =
    if p.cfl.load = .fault then some .configFault
    else if (p.hose h).dsc ≠ .lifted then some .notLifted
    else if (p.hose h).reader.readTag ≠ none then some .tagPresent
    else match (p.lookupNumber number).bind fun i => p.machines[i]? with
      | none => some .unknownMachine
      | some m => if m.entry.keyed = false then some .keyedNotAllowed else none := by
  unfold Part.keyedRefusal
  cases (p.lookupNumber number).bind fun i => p.machines[i]? with
  | none => simp only [Option.isSome_iff_ne_none]
  | some m => cases hk : m.entry.keyed <;> simp [Option.isSome_iff_ne_none, hk]

/-- Settles O17: the checks as R29 lists them, and a refused request at a free line. -/
theorem keyedRefusals : Obligations.KeyedRefusals := by
  intro s h field number free hh code c hc
  exact exec_keyed_refused free hh ((s.part.keyedRefusal_eq h number).trans hc)

/-! ## The end of an event of one hose -/

/-- With nothing to arbitrate, an event that changes one hose, starts no flow on it and reaches no boundary ends as it is. -/
theorem Part.Quiet.settle_one {p q : Part} (hp : p.Quiet) (h : HoseId) (hpumps : q.pumps = p.pumps)
    (hrsc : q.rsc.state = p.rsc.state) (hne : ∀ k, k ≠ h → q.hose k = p.hose k)
    (hb : (q.hose h).begun = true → (p.hose h).begun = true)
    (hm : (q.hose h).meter.boundary ≤ (p.hose h).meter.boundary) : settle p q = q := by
  refine (hp.of_pumps hpumps).settle_eq hrsc (fun k => ?_) fun k => ?_
  · by_cases hk : k = h
    · subst hk; exact hb
    · rw [hne k hk]; exact id
  · by_cases hk : k = h
    · subst hk; exact hm
    · rw [hne k hk]

/-- A hose is flowing or stopping by its state alone. -/
theorem Hose.begun_of_dsc {u v : Hose} (h : u.dsc = v.dsc) : u.begun = v.begun := by
  unfold Hose.begun
  rw [h]

/-! ## The reader -/

/-- A change of a reader is known by what it makes of the reader that stands there. -/
theorem Part.modReader_congr {p : Part} {h : HoseId} {f g : Reader → Reader}
    (hfg : f (p.hose h).reader = g (p.hose h).reader) : p.modReader h f = p.modReader h g :=
  congrArg (fun r => p.setHose h { p.hose h with reader := r }) hfg

theorem Part.modReader_modReader (p : Part) (h : HoseId) (f g : Reader → Reader) :
    (p.modReader h f).modReader h g = p.modReader h (g ∘ f) := by
  cases h <;> rfl

theorem Reader.startGrace_unsupervised {r : Reader} (hs : r.supervised = none) (now : Nat) : r.startGrace now = r := by
  unfold Reader.startGrace
  rw [if_neg (by simp [hs])]

/-- Under supervision the grace timer runs from now, or runs on (R31). -/
theorem Reader.startGrace_supervised {r : Reader} {c : TagCode} (hs : r.supervised = some c) (now : Nat) :
    r.startGrace now = { r with grace := some (r.grace.getD (now + 300000)) } := by
  obtain ⟨fault, run, badChecks, readTag, supervised, grace⟩ := r
  cases hs
  cases grace <;> rfl

/-! ## The check of a PRESENT report (R22) -/

/-- The eight bytes of a code, the lowest first. -/
theorem byteSum_eq (code : TagCode) : ((List.range 8).map fun i => (code.extractLsb' (8 * i) 8).toNat).sum =
    (code.extractLsb' 0 8).toNat + (code.extractLsb' 8 8).toNat + (code.extractLsb' 16 8).toNat
      + (code.extractLsb' 24 8).toNat + (code.extractLsb' 32 8).toNat + (code.extractLsb' 40 8).toNat
      + (code.extractLsb' 48 8).toNat + (code.extractLsb' 56 8).toNat := by
  simp only [List.range_succ, List.range_zero, List.map_append, List.map_cons, List.map_nil, List.sum_append, List.sum_cons,
    List.sum_nil, List.nil_append, Nat.add_zero, Nat.mul_zero, Nat.reduceMul]

theorem goodPresent_iff (code : TagCode) (check : Byte) : goodPresent code check = true ↔
    code ≠ 0 ∧ ((List.range 8).map fun i => (code.extractLsb' (8 * i) 8).toNat).sum + check.toNat ≡ 0 [MOD 256] := by
  unfold goodPresent
  rw [Bool.and_eq_true, decide_eq_true_eq, decide_eq_true_eq, byteSum_eq]
  refine and_congr_right fun _ => ?_
  rw [← BitVec.toNat_inj]
  simp only [BitVec.toNat_add, Nat.ModEq, BitVec.toNat_ofNat]
  omega

end Sys2Proof.Machine
end

section
/-! Tag reports and tag supervision (02 R22 to R24, R28, R30 to R32): what each report makes of a reader and of its hose. -/

namespace Sys2Proof.Machine

open Sys2Proof

/-! ## TAG_REPORT -/

/-- A report after the start sequence (R22). -/
theorem exec_tagReport (s : State) (h : HoseId) (report : TagReport) (hrun : s.part.cfl.stage = .running) :
    exec (.tagReport h report) s = s.goesTo (settle s.part (s.part.tagReport h report)) := congrArg s.goesTo (if_pos hrun)

/-- A report that changes one hose, starts no flow on it and reaches no boundary. -/
theorem exec_tagReport_settled (s : State) {h : HoseId} {report : TagReport} {q : Part} (hrun : s.part.cfl.stage = .running)
    (hquiet : s.part.Quiet) (hq : s.part.tagReport h report = q) (hpumps : q.pumps = s.part.pumps)
    (hrsc : q.rsc.state = s.part.rsc.state) (hne : ∀ k, k ≠ h → q.hose k = s.part.hose k)
    (hb : (q.hose h).begun = true → (s.part.hose h).begun = true)
    (hm : (q.hose h).meter.boundary ≤ (s.part.hose h).meter.boundary) : exec (.tagReport h report) s = s.goesTo q := by
  rw [exec_tagReport s h report hrun, hq, hquiet.settle_one h hpumps hrsc hne hb hm]

/-- A report that changes the reader alone. -/
theorem exec_tagReport_reader (s : State) {h : HoseId} {report : TagReport} {f : Reader → Reader}
    (hrun : s.part.cfl.stage = .running) (hquiet : s.part.Quiet)
    (hq : s.part.tagReport h report = s.part.modReader h f) :
    exec (.tagReport h report) s = s.goesTo (s.part.modReader h f) :=
  exec_tagReport_settled s hrun hquiet hq rfl rfl (fun _ hk => Part.hose_modReader_ne _ f hk)
    (by rw [Part.hose_modReader_same, Hose.begun_of_dsc rfl]; exact id) (by rw [Part.hose_modReader_same])

/-- A report that changes the reader and is told. -/
theorem exec_tagReport_told (s : State) {h : HoseId} {report : TagReport} {f : Reader → Reader} {e : Event}
    (hrun : s.part.cfl.stage = .running) (hquiet : s.part.Quiet)
    (hq : s.part.tagReport h report = (s.part.modReader h f).event e) :
    exec (.tagReport h report) s = s.goesTo ((s.part.modReader h f).event e) :=
  exec_tagReport_settled s hrun hquiet hq rfl rfl (fun _ hk => Part.hose_modReader_ne _ f hk)
    (by rw [Part.hose_event, Part.hose_modReader_same, Hose.begun_of_dsc rfl]; exact id)
    (by rw [Part.hose_event, Part.hose_modReader_same])

section Reports

variable {p : Part} {h : HoseId}

theorem Part.tagReport_bad {report : TagReport}
    (hr : report = .malformed ∨ ∃ code check, report = .present code check ∧ goodPresent code check = false) :
    p.tagReport h report = p.badPresent h := by
  rcases hr with rfl | ⟨code, check, rfl, bad⟩
  · rfl
  · exact if_neg (by simp [bad])

theorem Part.tagReport_good {code : TagCode} {check : Byte} (hg : goodPresent code check = true) :
    p.tagReport h (.present code check) = p.takePresent h code := if_pos hg

/-! ### Bad reports and the reader's own fault (R23, R31) -/

theorem Part.badPresent_faulted (hf : (p.hose h).reader.fault = true) : p.badPresent h =
    p.modReader h fun r => { r with badChecks := min ((p.hose h).reader.badChecks + 1) 65535 } := by
  unfold Part.badPresent
  exact (if_pos hf).trans (Part.modReader_congr rfl)

theorem Part.badPresent_counted (hf : (p.hose h).reader.fault = false) (hr : (p.hose h).reader.run < 4) : p.badPresent h =
    p.modReader h fun r =>
      { r with badChecks := min ((p.hose h).reader.badChecks + 1) 65535, run := r.run + 1 } := by
  have early : (p.hose h).reader.run + 1 ≠ 5 := by omega
  unfold Part.badPresent
  simp only [hf, Bool.false_eq_true, if_false, if_neg early]
  exact Part.modReader_congr rfl

/-- An entry into FAULT: the run and the read tag end, and the grace timer starts where it may (R23, R31). -/
theorem Part.readerFault_eq (p : Part) (h : HoseId) : p.readerFault h = (p.modReader h fun r =>
    ({ r with fault := true, run := 0, readTag := none } : Reader).startGrace p.now).event (.readerFault h) := rfl

/-- The fifth bad PRESENT in a row (R23). -/
theorem Part.badPresent_fifth (hs : (p.hose h).reader.supervised = none) (hf : (p.hose h).reader.fault = false)
    (hr : (p.hose h).reader.run = 4) : p.badPresent h = (p.modReader h fun r =>
      { r with
        badChecks := min ((p.hose h).reader.badChecks + 1) 65535, run := 0, fault := true
        readTag := none }).event (.readerFault h) := by
  have fifth : (p.hose h).reader.run + 1 = 5 := by omega
  unfold Part.badPresent
  simp only [hf, Bool.false_eq_true, if_false, if_pos fifth]
  rw [Part.readerFault_eq, Part.modReader_modReader]
  exact congrArg (Part.event · (.readerFault h)) (Part.modReader_congr (by exact Reader.startGrace_unsupervised (by exact hs) _))

theorem Part.tagReport_fault (hf : (p.hose h).reader.fault = false) : p.tagReport h .readerFault = p.readerFault h :=
  if_neg (by simp [hf])

/-- A reader in FAULT is told of no fault again (R23). -/
theorem Part.tagReport_fault_again (hf : (p.hose h).reader.fault = true) : p.tagReport h .readerFault = p := if_pos hf

theorem Part.readerFault_unsupervised (hs : (p.hose h).reader.supervised = none) : p.readerFault h =
    (p.modReader h fun r => { r with fault := true, run := 0, readTag := none }).event (.readerFault h) :=
  (p.readerFault_eq h).trans
    (congrArg (Part.event · (.readerFault h)) (Part.modReader_congr (by exact Reader.startGrace_unsupervised (by exact hs) _)))

theorem Part.readerFault_supervised {c : TagCode} (hs : (p.hose h).reader.supervised = some c) : p.readerFault h =
    (p.modReader h fun r =>
      { r with
        fault := true, run := 0, readTag := none
        grace := some (r.grace.getD (p.now + 300000)) }).event (.readerFault h) :=
  (p.readerFault_eq h).trans
    (congrArg (Part.event · (.readerFault h)) (Part.modReader_congr (by exact Reader.startGrace_supervised (by exact hs) _)))

/-! ### ABSENT and good PRESENT (R24, R31, R32) -/

theorem Part.tagReport_absent (p : Part) (h : HoseId) : p.tagReport h .absent = p.modReader h fun r =>
    ({ r with fault := false, run := 0, readTag := none } : Reader).startGrace p.now := rfl

theorem Part.takeAbsent_unsupervised (hs : (p.hose h).reader.supervised = none) : p.tagReport h .absent =
    p.modReader h fun r => { r with fault := false, run := 0, readTag := none } :=
  (p.tagReport_absent h).trans (Part.modReader_congr (by exact Reader.startGrace_unsupervised (by exact hs) _))

theorem Part.takeAbsent_supervised {c : TagCode} (hs : (p.hose h).reader.supervised = some c) : p.tagReport h .absent =
    p.modReader h fun r =>
      { r with fault := false, run := 0, readTag := none, grace := some (r.grace.getD (p.now + 300000)) } :=
  (p.tagReport_absent h).trans (Part.modReader_congr (by exact Reader.startGrace_supervised (by exact hs) _))

/-- The reader of a hose after a good PRESENT: GOOD, with the code as its read tag and no grace timer (R24, R31). -/
def Part.tagRead (p : Part) (h : HoseId) (code : TagCode) : Part :=
  p.modReader h fun r => { r with fault := false, run := 0, readTag := some code, grace := none }

theorem Part.takePresent_unsupervised (hs : (p.hose h).reader.supervised = none) (hd : (p.hose h).dsc ≠ .lifted)
    (code : TagCode) : p.takePresent h code = p.tagRead h code := by
  unfold Part.takePresent
  simp only [hs, if_neg hd]
  rfl

theorem Part.takePresent_lifted (hs : (p.hose h).reader.supervised = none) (hd : (p.hose h).dsc = .lifted)
    (code : TagCode) : p.takePresent h code = (p.tagRead h code).identify h .tag (p.lookupTag code) := by
  unfold Part.takePresent
  simp only [hs, if_pos hd]
  rfl

theorem Part.takePresent_same {code : TagCode} (hs : (p.hose h).reader.supervised = some code) :
    p.takePresent h code = p.tagRead h code := by
  unfold Part.takePresent
  simp only [hs, if_true]
  rfl

theorem Part.takePresent_changed {c code : TagCode} (hs : (p.hose h).reader.supervised = some c) (hc : code ≠ c) :
    p.takePresent h code = (p.tagRead h code).takeCause h .tagChanged := by
  unfold Part.takePresent
  simp only [hs, if_neg (Ne.symm hc)]
  rfl

end Reports

/-! ## TAG_CHANGED (R32) -/

theorem FaultSet.union_tag (f : FaultSet) : f.union (Cause.flag .tagChanged) = { f with tag := true } := by
  simp [FaultSet.union, Cause.flag]

@[simp] theorem Part.hose_tagRead_same (p : Part) (h : HoseId) (code : TagCode) : (p.tagRead h code).hose h =
    { p.hose h with
      reader := { (p.hose h).reader with fault := false, run := 0, readTag := some code, grace := none } } := by
  unfold Part.tagRead
  rw [Part.hose_modReader_same]

theorem Part.hose_tagRead_ne (p : Part) {h k : HoseId} (code : TagCode) (hk : k ≠ h) :
    (p.tagRead h code).hose k = p.hose k := Part.hose_modReader_ne p _ hk

theorem Part.modHose_modReader (p : Part) (h : HoseId) (f : Reader → Reader) (g : Hose → Hose) :
    (p.modReader h f).modHose h g = p.modHose h fun u => g { u with reader := f u.reader } := by
  cases h <;> rfl

theorem Part.modHose_congr {p : Part} {h : HoseId} {f g : Hose → Hose} (hfg : f (p.hose h) = g (p.hose h)) :
    p.modHose h f = p.modHose h g := congrArg (p.setHose h) hfg

end Sys2Proof.Machine
end

section
/-! Identification (03 R53 to R56): what a hose in LIFTED makes of it, and what an authorisation leaves, with a claim or
without. -/

namespace Sys2Proof.Machine

open Sys2Proof

/-! ## The outcomes of an identification (03 R53, R55) -/

section Outcomes

variable {p : Part} {h : HoseId} {method : EntryMethod} {i slot : Nat} {st : HoseSettings} {m : MachineRow}

theorem Part.identify_refused {found : Option Nat} {code : Code} (hc : p.refusalOf h method found = some code) :
    p.identify h method found = p.event (.refused h code) := by
  unfold Part.identify
  rw [hc]

variable (hc : p.refusalOf h method (some i) = none) (hst : p.hoseSettings h = some st) (hm : p.machines[i]? = some m)
  (hslot : p.reservable = some slot)
include hc hst hm hslot

theorem Part.identify_small (ht : (p.terms h st m).least < 200) :
    p.identify h method (some i) = p.event (.refused h (p.terms h st m).refusal) := by
  unfold Part.identify
  simp only [hc, hst, Option.bind_some, hm, hslot, if_pos ht]

theorem Part.identify_authorised (ht : 200 ≤ (p.terms h st m).least) :
    p.identify h method (some i) = p.authorise h st method i m slot (p.terms h st m).least.toNat := by
  unfold Part.identify
  simp only [hc, hst, Option.bind_some, hm, hslot, if_neg (Int.not_lt.mpr ht)]

end Outcomes

/-! ## A reader has no part in the terms -/

theorem Part.hose_modReader (p : Part) (h : HoseId) (f : Reader → Reader) (k : HoseId) :
    (p.modReader h f).hose k = { p.hose k with reader := ((p.modReader h f).hose k).reader } := by
  cases h <;> cases k <;> rfl

theorem Part.terms_modReader (p : Part) (h : HoseId) (f : Reader → Reader) (g : HoseId) (st : HoseSettings)
    (m : MachineRow) : (p.modReader h f).terms g st m = p.terms g st m := by
  have valves k : ((p.modReader h f).hose k).valves = (p.hose k).valves := by rw [Part.hose_modReader]
  have claim k : ((p.modReader h f).hose k).claim = (p.hose k).claim := by rw [Part.hose_modReader]
  have context k : ((p.modReader h f).hose k).context = (p.hose k).context := by rw [Part.hose_modReader]
  have dsc k : ((p.modReader h f).hose k).dsc = (p.hose k).dsc := by rw [Part.hose_modReader]
  have standing k : ((p.modReader h f).hose k).standing = (p.hose k).standing := by rw [Part.hose_modReader]
  have holds : (p.modReader h f).holdsClaim = p.holdsClaim := by
    funext pick k
    unfold Part.holdsClaim
    rw [claim]
  have unmetered : (p.modReader h f).unmetered = p.unmetered := by
    funext c k
    unfold Part.unmetered
    simp only [context, dsc, valves]
  have reserved : (p.modReader h f).ownReserved = p.ownReserved := by
    funext hoses pick
    unfold Part.ownReserved
    simp only [holds, valves]
  unfold Part.terms Part.requestedTerm Part.machineTerm Part.accountTerm Part.stockTerm
  rw [standing, reserved, unmetered]
  rfl

/-! ## What an authorisation leaves (03 R56, 09 R163, R165) -/

theorem Part.issueClaim_none {p : Part} {e : MachineEntry} (hn : p.needsClaim e = false) (h : HoseId) (preset : Nat) :
    p.issueClaim h e preset = (p, 0) := by
  unfold Part.issueClaim
  rw [if_neg (by simp [hn])]

/-- A claim issued: its number, the hose that holds it, and its CLAIM offered (R48, R56). -/
theorem Part.issueClaim_some {p : Part} {e : MachineEntry} (hn : p.needsClaim e = true) (h : HoseId) (preset : Nat) :
    p.issueClaim h e preset =
      (((p.setAlc { p.alc with claimCounter := nextClaim p.ownNumbers 5 p.alc.claimCounter }).modHose h fun u =>
        { u with
          claim := some
            { number := nextClaim p.ownNumbers 5 p.alc.claimCounter, machine := e.number, account := e.account
              status := .active, renewal := p.after (sec 30) }
          holdOff := p.after (sec 2) }).offerClaim p.alc.shift e.number (nextClaim p.ownNumbers 5 p.alc.claimCounter) preset,
        nextClaim p.ownNumbers 5 p.alc.claimCounter) := by
  unfold Part.issueClaim
  rw [if_pos hn]

/-- What the issue of a claim leaves alone. -/
theorem Part.issueClaim_keeps (p : Part) (h : HoseId) (e : MachineEntry) (preset : Nat) :
    let q := (p.issueClaim h e preset).1
    (q.pumps = p.pumps ∧ q.rsc = p.rsc ∧ q.cfl = p.cfl ∧ q.requestOrder = p.requestOrder ∧ q.now = p.now
      ∧ q.pins = p.pins ∧ q.cnl.response = p.cnl.response)
    ∧ (∀ k, k ≠ h → q.hose k = p.hose k)
    ∧ q.hose h = { p.hose h with claim := (q.hose h).claim, holdOff := (q.hose h).holdOff } := by
  cases hn : p.needsClaim e with
  | false =>
    rw [Part.issueClaim_none hn]
    exact ⟨⟨rfl, rfl, rfl, rfl, rfl, rfl, rfl⟩, fun _ _ => rfl, rfl⟩
  | true =>
    rw [Part.issueClaim_some hn]
    refine ⟨?_, fun k hk => ?_, ?_⟩
    · dsimp only
      rw [Part.offerClaim_shape]
      exact ⟨rfl, rfl, rfl, rfl, rfl, rfl, rfl⟩
    · rw [Part.hose_offerClaim, Part.hose_modHose_ne _ _ hk, Part.hose_setAlc]
    · simp only [Part.hose_offerClaim, Part.hose_modHose_same, Part.hose_setAlc]

/-- The start of a loadout touches the restock coordinator's bays alone. -/
theorem Part.beginLoadout_shape (p : Part) (e : MachineEntry) :
    ∃ bays, (p.beginLoadout e).1 = p.setRsc { p.rsc with bays := bays } := by
  unfold Part.beginLoadout
  split
  · split
    · exact ⟨p.rsc.bays, rfl⟩
    · split
      · exact ⟨p.rsc.bays, rfl⟩
      · exact ⟨_, rfl⟩
  · exact ⟨p.rsc.bays, rfl⟩

/-- A loadout to a station that holds a bay (09 R163, R165). -/
theorem Part.beginLoadout_bay {p : Part} {e : MachineEntry} {station : Nat} {c : CompId} {b : BayId} {x : BayEntry}
    (hr : p.role = some .depot) (hi : e.inlet = some (station, c)) (hb : p.bayOf station = some b)
    (hx : p.rsc.bays.get b = some x) :
    p.beginLoadout e = (p.setBay b (some { x with active := x.active + 1, timer := .stopped }), x.grant) := by
  unfold Part.beginLoadout
  simp only [hr, hi, hb, hx]

/-- The claim of an authorisation and its slot: the first two effects of R56. -/
def Part.claimed (p : Part) (h : HoseId) (m : MachineRow) (slot preset : Nat) : Part × Nat :=
  (p.modSlot slot fun s => { s with state := .reserved, opening := none, closing := none }).issueClaim h m.entry preset

/-- The preset in force and the loadout begun: the next two. -/
def Part.loading (p : Part) (h : HoseId) (m : MachineRow) (slot preset : Nat) : Part × Nat :=
  ((p.claimed h m slot preset).1.modValves h fun v => { v with active := preset, pending := none }).beginLoadout m.entry

/-- The context of an authorisation (06 R104). -/
def Part.newContext (p : Part) (h : HoseId) (st : HoseSettings) (method : EntryMethod) (position : Nat) (m : MachineRow)
    (slot preset : Nat) : Context :=
  { position := position, machine := m.entry.number, account := m.entry.account
    grade := (((p.loading h m slot preset).1.compSettings st.compartment).map (·.grade)).getD 0
    compartment := st.compartment, method := method, preset := preset, claim := (p.claimed h m slot preset).2
    shift := (p.loading h m slot preset).1.alc.shift, authTime := (p.loading h m slot preset).1.alc.shiftSeconds, elapsed := 0
    elapsedAtFlow := 0, slot := slot, sequence := none, startTime := none, metered := 0, cause := none, faults := {}
    powerFail := false
    target := if (p.loading h m slot preset).1.role = some .depot then m.entry.inlet else none
    grant := (p.loading h m slot preset).2, committed := false }

/-- The part in AUTHORISING, before a hose without a claim asks for its pump. -/
def Part.authorised (p : Part) (h : HoseId) (st : HoseSettings) (method : EntryMethod) (position : Nat) (m : MachineRow)
    (slot preset : Nat) : Part :=
  (p.loading h m slot preset).1.modHose h fun u =>
    { u with dsc := .authorising, context := some (p.newContext h st method position m slot preset), standing := none
             reader := match method with
               | .tag => { u.reader with supervised := some m.entry.tag, grace := none }
               | .keyed => u.reader }

theorem Part.authorise_eq (p : Part) (h : HoseId) (st : HoseSettings) (method : EntryMethod) (position : Nat)
    (m : MachineRow) (slot preset : Nat) : p.authorise h st method position m slot preset =
      if (p.claimed h m slot preset).2 = 0 then (p.authorised h st method position m slot preset).awaitPump h
      else p.authorised h st method position m slot preset := rfl

theorem Part.claimed_keeps (p : Part) (h : HoseId) (m : MachineRow) (slot preset : Nat) :
    let q := (p.claimed h m slot preset).1
    (q.pumps = p.pumps ∧ q.rsc = p.rsc ∧ q.cfl = p.cfl ∧ q.requestOrder = p.requestOrder ∧ q.now = p.now
      ∧ q.pins = p.pins ∧ q.cnl.response = p.cnl.response)
    ∧ (∀ k, k ≠ h → q.hose k = p.hose k)
    ∧ q.hose h = { p.hose h with claim := (q.hose h).claim, holdOff := (q.hose h).holdOff } :=
  Part.issueClaim_keeps _ h m.entry preset

theorem Part.loading_keeps (p : Part) (h : HoseId) (m : MachineRow) (slot preset : Nat) :
    let q := (p.loading h m slot preset).1
    (q.pumps = p.pumps ∧ q.rsc.state = p.rsc.state ∧ q.cfl = p.cfl ∧ q.requestOrder = p.requestOrder ∧ q.now = p.now
      ∧ q.pins = p.pins ∧ q.cnl.response = p.cnl.response ∧ q.alc = (p.claimed h m slot preset).1.alc)
    ∧ (∀ k, k ≠ h → q.hose k = p.hose k)
    ∧ q.hose h = { p.hose h with
        claim := ((p.claimed h m slot preset).1.hose h).claim, holdOff := ((p.claimed h m slot preset).1.hose h).holdOff
        valves := { (p.hose h).valves with active := preset, pending := none } } := by
  obtain ⟨⟨pumps, rsc, cfl, order, now, pins, response⟩, others, own⟩ := p.claimed_keeps h m slot preset
  obtain ⟨bays, shape⟩ := ((p.claimed h m slot preset).1.modValves h fun v =>
    { v with active := preset, pending := none }).beginLoadout_shape m.entry
  unfold Part.loading
  rw [shape]
  refine ⟨⟨pumps, congrArg (·.state) rsc, cfl, order, now, pins, response, rfl⟩, fun k hk => ?_, ?_⟩
  · rw [Part.hose_setRsc, Part.hose_modValves_ne _ _ hk, others k hk]
  · rw [Part.hose_setRsc, Part.hose_modValves_same, own]

/-- The grant number a loadout goes on record with, and what it leaves of the bays (09 R163, R165). -/
theorem Part.loading_bays (p : Part) (h : HoseId) (m : MachineRow) (slot preset : Nat) :
    let q := p.loading h m slot preset
    (m.entry.inlet = none → q.2 = 0 ∧ q.1.rsc = p.rsc)
    ∧ ∀ station c b e, p.role = some .depot → m.entry.inlet = some (station, c) → p.bayOf station = some b →
        p.rsc.bays.get b = some e → q.2 = e.grant ∧ q.1.rsc =
          { p.rsc with bays := p.rsc.bays.set b (some { e with active := e.active + 1, timer := .stopped }) } := by
  obtain ⟨⟨-, rsc, cfl, -⟩, -⟩ := p.claimed_keeps h m slot preset
  unfold Part.loading
  generalize hq : ((p.claimed h m slot preset).1.modValves h fun v => { v with active := preset, pending := none }) = q
  have q_rsc : q.rsc = p.rsc := hq ▸ rsc
  have q_cfl : q.cfl = p.cfl := hq ▸ cfl
  refine ⟨fun hi => ?_, fun station c b e hr hi hb he => ?_⟩
  · rw [Part.beginLoadout_of_inlet _ hi]
    exact ⟨rfl, q_rsc⟩
  · have held : q.bayOf station = some b := by
      unfold Part.bayOf
      rw [q_rsc]
      exact hb
    rw [Part.beginLoadout_bay ((Part.role_of_cfl q_cfl).trans hr) hi held (q_rsc ▸ he)]
    refine ⟨rfl, ?_⟩
    unfold Part.setBay
    rw [Part.rsc_setRsc, q_rsc]

/-- What stands before the pump is asked for. -/
theorem Part.authorised_keeps (p : Part) (h : HoseId) (st : HoseSettings) (method : EntryMethod) (position : Nat)
    (m : MachineRow) (slot preset : Nat) :
    let q := p.authorised h st method position m slot preset
    (q.pumps = p.pumps ∧ q.rsc = (p.loading h m slot preset).1.rsc ∧ q.rsc.state = p.rsc.state ∧ q.cfl = p.cfl
      ∧ q.requestOrder = p.requestOrder ∧ q.now = p.now ∧ q.pins = p.pins ∧ q.cnl.response = p.cnl.response
      ∧ q.alc = (p.claimed h m slot preset).1.alc)
    ∧ (∀ k, k ≠ h → q.hose k = p.hose k)
    ∧ (q.hose h).dsc = .authorising ∧ (q.hose h).context = some (p.newContext h st method position m slot preset)
    ∧ (q.hose h).claim = ((p.claimed h m slot preset).1.hose h).claim
    ∧ (q.hose h).valves = { (p.hose h).valves with active := preset, pending := none }
    ∧ (q.hose h).meter = (p.hose h).meter := by
  obtain ⟨⟨pumps, state, cfl, order, now, pins, response, alc⟩, others, own⟩ := p.loading_keeps h m slot preset
  unfold Part.authorised
  refine ⟨⟨pumps, rfl, state, cfl, order, now, pins, response, alc⟩, fun k hk => ?_, ?_⟩
  · rw [Part.hose_modHose_ne _ _ hk, others k hk]
  · rw [Part.hose_modHose_same, own]
    exact ⟨rfl, rfl, rfl, rfl, rfl⟩

/-- What the context says of the loadout (09 R165). -/
theorem Part.newContext_target (p : Part) (h : HoseId) (st : HoseSettings) (method : EntryMethod) (position : Nat)
    (m : MachineRow) (slot preset : Nat) :
    let x := p.newContext h st method position m slot preset
    let q := (p.authorised h st method position m slot preset)
    (m.entry.inlet = none → x.target = none ∧ x.grant = 0 ∧ q.rsc = p.rsc)
    ∧ ∀ station c b e, p.role = some .depot → m.entry.inlet = some (station, c) → p.bayOf station = some b →
        p.rsc.bays.get b = some e → x.target = some (station, c) ∧ x.grant = e.grant ∧ q.rsc =
          { p.rsc with bays := p.rsc.bays.set b (some { e with active := e.active + 1, timer := .stopped }) } := by
  have role : (p.loading h m slot preset).1.role = p.role := Part.role_of_cfl (p.loading_keeps h m slot preset).1.2.2.1
  have target : (p.newContext h st method position m slot preset).target =
      if p.role = some .depot then m.entry.inlet else none := by rw [← role]; rfl
  obtain ⟨no_bay, bay⟩ := p.loading_bays h m slot preset
  refine ⟨fun hi => ⟨?_, no_bay hi⟩, fun station c b e hr hi hb he => ⟨?_, bay station c b e hr hi hb he⟩⟩
  · rw [target, hi, ite_self]
  · rw [target, if_pos hr, hi]

end Sys2Proof.Machine
end

section
/-! A pump that is asked for (05 R93 to R97): the arbitration of one request at a stopped pump. -/

namespace Sys2Proof.Machine

open Sys2Proof

theorem ByPump.set_set (m : ByPump Pump) (i : PumpId) (x y : Pump) : (m.set i x).set i y = m.set i y := by cases i <;> rfl

/-- A loop that grants the only request of its pump grants no more. -/
theorem grantLoop_last {p : Part} {i : PumpId} {r : Request} (n : Nat) (l : List HoseId)
    (hst : (p.pumps.get i).state = .priming) (hr : (p.pumps.get i).requests = [r]) (hn : p.nextGrantee i = some r) :
    grantLoop i (n + 1) p l = (p.grantPump i r, l) := by
  have no_more : (p.grantPump i r).nextGrantee i = none := by
    refine Part.nextGrantee_nil _ _ ?_
    rw [Part.grantPump_get, if_pos rfl, hr]
    simp
  unfold grantLoop
  rw [if_neg (by rw [hst]; decide), hn]
  dsimp only
  rw [if_pos hst]
  exact grantLoop_none _ _ _ _ no_more

section Woken

variable {p : Part} {i : PumpId} {r : Request} (hc : p.inputsClear) (hst : (p.pumps.get i).state = .stopped)
  (hr : (p.pumps.get i).requests = [r]) (hg : (p.pumps.get i).grants = []) (he : p.eligible r = true) (hl : 1 ≤ p.limit i)
  (ho : ∀ j, j ≠ i → (p.pumps.get j).requests = [])

/-- A pump after the arbitration that wakes it: priming, with its one request granted (R93, R95). -/
def Pump.woken (m : Pump) (now : Nat) (h : HoseId) : Pump :=
  { m with state := .priming, requests := [], grants := [h], prime := some (now + 200000), primes := min (m.primes + 1) 65535 }

include hst hr he in
theorem Part.wakePump_asked : p.wakePump i = p.modPump i fun m =>
    { m with state := .priming, prime := some (p.now + 200000), primes := min (m.primes + 1) 65535 } := by
  unfold Part.wakePump
  rw [if_pos ⟨hst, by rw [hr]; simp [he]⟩]
  rfl

include hr hg he hl in
/-- The only request of a pump with a free place is the next to be granted (R95). -/
theorem Part.nextGrantee_only : p.nextGrantee i = some r := by
  unfold Part.nextGrantee
  rw [hg, hr, if_pos (show ([] : List HoseId).length < p.limit i from hl)]
  simp [he, grantOrder, insertRequest]

include hc hst hr hg he hl ho in
theorem Part.arbitrate_woken :
    p.arbitrate = (p.setPumps (p.pumps.set i ((p.pumps.get i).woken p.now r.hose)), []) := by
  generalize hw : (p.modPump i fun m =>
    { m with state := .priming, prime := some (p.now + 200000), primes := min (m.primes + 1) 65535 }) = w
  have own : w.pumps.get i = { p.pumps.get i with
      state := .priming, prime := some (p.now + 200000), primes := min ((p.pumps.get i).primes + 1) 65535 } := by
    rw [← hw]; exact ByPump.get_set_same ..
  have others (j : PumpId) (hj : j ≠ i) : (w.pumps.get j).requests = [] := by
    rw [← hw]
    exact (congrArg Pump.requests (ByPump.get_set_ne _ _ hj)).trans (ho j hj)
  have woken : (p.wakePump .p1).wakePump .p2 = w := by
    cases i with
    | p1 => rw [Part.wakePump_asked hst hr he, hw, Part.wakePump_none _ _ (others .p2 (by decide))]
    | p2 => rw [Part.wakePump_none _ _ (ho .p1 (by decide)), Part.wakePump_asked hst hr he, hw]
  have next : w.nextGrantee i = some r := by
    refine Part.nextGrantee_only (by rw [own]; exact hr) (by rw [own]; exact hg) ?_ ?_ <;> rw [← hw]
    · exact he
    · exact hl
  have loop (l : List HoseId) : grantLoop i 4 w l = (w.grantPump i r, l) :=
    grantLoop_last 3 l (by rw [own]) (by rw [own]; exact hr) next
  have granted : w.grantPump i r = p.setPumps (p.pumps.set i ((p.pumps.get i).woken p.now r.hose)) := by
    show w.setPumps (w.grantPump i r).pumps = _
    rw [Part.grantPump_pumps w i r (.inl (by rw [own])), own, ← hw]
    simp [Part.modPump, ByPump.set_set, Pump.woken, hr, hg]
  unfold Part.arbitrate
  rw [hc.1, hc.2]
  simp only [Bool.or_self, Bool.false_eq_true, if_false, woken]
  cases i with
  | p1 =>
    rw [loop]
    refine (grantLoop_none _ _ _ _ (Part.nextGrantee_nil _ _ ?_)).trans (by rw [granted])
    rw [Part.grantPump_get, if_neg (by decide)]
    exact others .p2 (by decide)
  | p2 => rw [grantLoop_none _ _ _ _ (Part.nextGrantee_nil _ _ (others .p1 (by decide))), loop, granted]

include hc hst hr hg he hl in
/-- With nothing else to arbitrate the pump that is asked for primes, and no flow starts yet (R93, R96). -/
theorem settlePumps_woken (ho : ∀ j, j ≠ i →
      (p.pumps.get j).requests = [] ∧ ((p.pumps.get j).state = .running → (p.pumps.get j).grants ≠ [])) (n : Nat) :
    settlePumps (n + 1) p = p.setPumps (p.pumps.set i ((p.pumps.get i).woken p.now r.hose)) := by
  unfold settlePumps
  rw [Part.arbitrate_woken hc hst hr hg he hl fun j hj => (ho j hj).1]
  simp only [if_true]
  have busy (j : PumpId) : ((p.setPumps (p.pumps.set i ((p.pumps.get i).woken p.now r.hose))).pumps.get j).state = .running →
      ((p.setPumps (p.pumps.set i ((p.pumps.get i).woken p.now r.hose))).pumps.get j).grants ≠ [] := by
    rw [Part.pumps_setPumps, ByPump.get_set_pump]
    split
    · exact fun hs => absurd hs (by unfold Pump.woken; simp)
    · rename_i hj; exact (ho j hj).2
  rw [Part.restPump_id _ busy, Part.restPump_id _ busy]

end Woken

end Sys2Proof.Machine
end

section
/-! The end of an authorisation (03 R51, R56): AUTHORISING under a claim, or the pump asked for at once. -/

namespace Sys2Proof.Machine

open Sys2Proof

/-! ## Under a claim -/

theorem Part.claimed_number {p : Part} {m : MachineRow} (hn : p.needsClaim m.entry = true) (h : HoseId) (slot preset : Nat) :
    (p.claimed h m slot preset).2 ≠ 0
    ∧ (p.claimed h m slot preset).1.alc.claimCounter = (p.claimed h m slot preset).2 := by
  unfold Part.claimed
  rw [Part.issueClaim_some (show (p.modSlot slot _).needsClaim m.entry = true from hn)]
  refine ⟨Nat.one_le_iff_ne_zero.mp (nextClaim_pos _ 4 _), ?_⟩
  dsimp only
  rw [Part.offerClaim_shape]
  rfl

theorem Part.authorise_under_claim {p : Part} {m : MachineRow} (hn : p.needsClaim m.entry = true) (h : HoseId)
    (st : HoseSettings) (method : EntryMethod) (i slot preset : Nat) :
    p.authorise h st method i m slot preset = p.authorised h st method i m slot preset := by
  rw [Part.authorise_eq, if_neg (Part.claimed_number hn h slot preset).1]

/-- An authorisation under a claim leaves nothing to settle. -/
theorem Part.Quiet.settle_authorised {b p : Part} {h : HoseId} (hb : b.Quiet) (hpumps : p.pumps = b.pumps)
    (hrsc : p.rsc.state = b.rsc.state) (hne : ∀ k, k ≠ h → p.hose k = b.hose k) (hm : (p.hose h).meter = (b.hose h).meter)
    (st : HoseSettings) (method : EntryMethod) (i : Nat) (m : MachineRow) (slot preset : Nat) :
    settle b (p.authorised h st method i m slot preset) = p.authorised h st method i m slot preset := by
  obtain ⟨⟨pumps, -, state, -⟩, others, dsc, -, -, -, meter⟩ := p.authorised_keeps h st method i m slot preset
  refine hb.settle_one h (pumps.trans hpumps) (state.trans hrsc) (fun k hk => (others k hk).trans (hne k hk)) ?_ ?_
  · unfold Hose.begun
    rw [dsc]
    exact fun hf => absurd hf Bool.false_ne_true
  · rw [meter, hm]

/-! ## Without a claim -/

theorem Part.authorise_without_claim {p : Part} {m : MachineRow} (hn : p.needsClaim m.entry = false) (h : HoseId)
    (st : HoseSettings) (method : EntryMethod) (i slot preset : Nat) :
    p.authorise h st method i m slot preset = (p.authorised h st method i m slot preset).awaitPump h
    ∧ (p.claimed h m slot preset).2 = 0 ∧ (p.claimed h m slot preset).1.alc = p.alc
    ∧ ((p.claimed h m slot preset).1.hose h).claim = (p.hose h).claim := by
  have unclaimed : p.claimed h m slot preset =
      (p.modSlot slot fun s => { s with state := .reserved, opening := none, closing := none }, 0) :=
    Part.issueClaim_none (p := p.modSlot slot _) hn h preset
  rw [Part.authorise_eq, unclaimed]
  exact ⟨if_pos rfl, rfl, rfl, rfl⟩

section Asked

variable {p : Part} {h : HoseId} {st : HoseSettings} (hst : p.hoseSettings h = some st)
include hst

theorem Part.awaitPump_eq : p.awaitPump h = ((p.modHose h fun u =>
      { u with dsc := .awaitPump, pumpWait := some (p.now + 18000000), holdOff := none }).setRequestOrder
        ((p.requestOrder + 1) % 4294967296)).modPump st.pump fun m =>
      { m with requests := m.requests ++ [{ hose := h, priority := st.priority, order := p.requestOrder }] } := by
  unfold Part.awaitPump
  rw [hst]
  rfl

/-- What asking for the pump leaves beside the pumps and the request order. -/
theorem Part.awaitPump_keeps :
    let q := p.awaitPump h
    (q.cnl = p.cnl ∧ q.alc = p.alc ∧ q.rsc = p.rsc ∧ q.cfl = p.cfl ∧ q.pins = p.pins ∧ q.now = p.now)
    ∧ (∀ k, k ≠ h → q.hose k = p.hose k)
    ∧ q.hose h = { p.hose h with dsc := .awaitPump, pumpWait := some (p.now + 18000000), holdOff := none } := by
  rw [Part.awaitPump_eq hst]
  refine ⟨⟨rfl, rfl, rfl, rfl, rfl, rfl⟩, fun k hk => ?_, ?_⟩
  · rw [Part.hose_modPump, Part.hose_setRequestOrder, Part.hose_modHose_ne _ _ hk]
  · rw [Part.hose_modPump, Part.hose_setRequestOrder, Part.hose_modHose_same]

/-- Where nothing else is to arbitrate, a hose that asks for a stopped pump is granted it at once, and the pump primes (05 R93 to
R95). -/
theorem Part.Quiet.settle_awaitPump {b : Part} (hb : b.Quiet) (hpumps : p.pumps = b.pumps) (hrsc : p.rsc.state = b.rsc.state)
    (hne : ∀ k, k ≠ h → p.hose k = b.hose k) (hm : (p.hose h).meter = (b.hose h).meter) (hc : p.inputsClear)
    (htrim : (p.hose h).valves.trim.latch = false) (hmain : (p.hose h).valves.main.latch = false)
    (hstop : (b.pumps.get st.pump).state = .stopped) (hg : (b.pumps.get st.pump).grants = []) (hl : 1 ≤ p.limit st.pump) :
    settle b (p.awaitPump h) =
      (p.awaitPump h).setPumps (b.pumps.set st.pump ((b.pumps.get st.pump).woken p.now h)) := by
  obtain ⟨⟨-, -, rsc, cfl, pins, now⟩, others, own⟩ := Part.awaitPump_keeps hst
  have shape := Part.awaitPump_eq hst
  generalize p.awaitPump h = q at rsc cfl pins now others own shape ⊢
  have pumps : q.pumps = b.pumps.set st.pump { b.pumps.get st.pump with
      requests := [{ hose := h, priority := st.priority, order := p.requestOrder }] } := by
    rw [shape, ← hpumps]
    have none_waits := hb.requests st.pump
    rw [← hpumps] at none_waits
    simp [Part.modPump, none_waits]
  have asked : q.pumps.get st.pump = { b.pumps.get st.pump with
      requests := [{ hose := h, priority := st.priority, order := p.requestOrder }] } := by
    rw [pumps]; exact ByPump.get_set_same ..
  have eligible : q.eligible { hose := h, priority := st.priority, order := p.requestOrder } = true := by
    unfold Part.eligible
    rw [own]
    simp [htrim, hmain]
  have settled : Machine.settlePumps 5 q = q.setPumps (b.pumps.set st.pump ((b.pumps.get st.pump).woken p.now h)) := by
    rw [settlePumps_woken (i := st.pump) (by unfold Part.inputsClear; rw [pins]; exact hc)
      (by rw [asked]; exact hstop) (by rw [asked]) (by rw [asked]; exact hg) eligible
      (by unfold Part.limit; rw [Part.identity_of_cfl cfl]; exact hl) fun j hj => ?_, asked, pumps, ByPump.set_set, now]
    · rfl
    · rw [pumps, ByPump.get_set_ne _ _ hj]
      exact ⟨hb.requests j, hb.running j⟩
  have no_flow : (q.hose h).begun = false := by
    unfold Hose.begun
    rw [own]
  unfold settle settleHoses
  rw [settled, Part.Quiet.joinRequests_eq b (fun k => ?_) fun k => ?_]
  · exact finish_same ((congrArg (·.state) rsc).trans hrsc)
  · rw [Part.hose_setPumps]
    by_cases hk : k = h
    · subst hk
      rw [no_flow]
      exact fun hf => absurd hf Bool.false_ne_true
    · rw [others k hk, hne k hk]
      exact id
  · rw [Part.hose_setPumps]
    by_cases hk : k = h
    · subst hk
      rw [own, hm]
    · rw [others k hk, hne k hk]

end Asked

/-! ## KEYED -/

/-- The response has no part in the terms. -/
theorem Part.terms_respond (p : Part) (r : Response) (h : HoseId) (st : HoseSettings) (m : MachineRow) :
    (p.respond r).terms h st m = p.terms h st m := rfl

theorem Part.Quiet.settle_respond_event {p : Part} (hp : p.Quiet) (r : Response) (e : Event) :
    settle p ((p.respond r).event e) = (p.respond r).event e :=
  Part.Quiet.settle_hoses (q := (p.respond r).event e) (hp.of_pumps rfl) rfl rfl

section Keyed

variable {s : State} {h : HoseId} {field number i slot : Nat} {st : HoseSettings} {m : MachineRow} (free : s.part.LineFree)
  (hh : hoseField (some field) = some h) (hk : s.part.keyedRefusal h number = none) (hst : s.part.hoseSettings h = some st)
  (hi : s.part.lookupNumber number = some i) (hm : s.part.machines[i]? = some m) (hslot : s.part.reservable = some slot)
  (hc : s.part.refusalOf h .keyed (some i) = none)
include free hh hk hst hi hm hslot hc

/-- KEYED below 200 cL (03 R55). -/
theorem exec_keyed_small (ht : (s.part.terms h st m).least < 200) : exec (.keyed (some field) (some number)) s =
    s.goesTo (settle s.part ((s.part.respond .ok).event (.refused h (s.part.terms h st m).refusal))) := by
  have terms := s.part.terms_respond .ok h st m
  have passes : (s.part.respond .ok).refusalOf h .keyed (some i) = none := hc
  have settings : (s.part.respond .ok).hoseSettings h = some st := hst
  have row : (s.part.respond .ok).machines[i]? = some m := hm
  have free_slot : (s.part.respond .ok).reservable = some slot := hslot
  rw [exec_keyed_identified free hh hk, hi, Part.identify_small passes settings row free_slot (by rw [terms]; exact ht), terms]

/-- KEYED from 200 cL on (03 R56). -/
theorem exec_keyed_authorised (ht : 200 ≤ (s.part.terms h st m).least) : exec (.keyed (some field) (some number)) s =
    s.goesTo (settle s.part
      ((s.part.respond .ok).authorise h st .keyed i m slot (s.part.terms h st m).least.toNat)) := by
  have terms := s.part.terms_respond .ok h st m
  have passes : (s.part.respond .ok).refusalOf h .keyed (some i) = none := hc
  have settings : (s.part.respond .ok).hoseSettings h = some st := hst
  have row : (s.part.respond .ok).machines[i]? = some m := hm
  have free_slot : (s.part.respond .ok).reservable = some slot := hslot
  rw [exec_keyed_identified free hh hk, hi, Part.identify_authorised passes settings row free_slot (by rw [terms]; exact ht),
    terms]

/-- KEYED from 200 cL on, where it calls for a claim (03 R56). -/
theorem exec_keyed_claimed (quiet : s.part.Quiet) (ht : 200 ≤ (s.part.terms h st m).least)
    (hn : s.part.needsClaim m.entry = true) : exec (.keyed (some field) (some number)) s =
      s.goesTo ((s.part.respond .ok).authorise h st .keyed i m slot (s.part.terms h st m).least.toNat) := by
  rw [exec_keyed_authorised free hh hk hst hi hm hslot hc ht, Part.authorise_under_claim (p := s.part.respond .ok) hn,
    Part.Quiet.settle_authorised (p := s.part.respond .ok) quiet rfl rfl (fun _ _ => rfl) rfl]

end Keyed

/-! ## The obligation -/

/-- Settles O20: the outcomes of the identification; AUTHORISING under a claim; and the pump asked for without one. -/
theorem keyedIdentification : Obligations.KeyedIdentification := by
  constructor
  · intro s h field number i slot st m free quiet hh hk hst hi hm hslot hc t
    refine ⟨fun ht => ?_, fun ht hn hin => ?_⟩
    · rw [exec_keyed_small free hh hk hst hi hm hslot hc ht, quiet.settle_respond_event]
    · have taken := exec_keyed_claimed free hh hk hst hi hm hslot hc quiet ht hn
      obtain ⟨alc, ⟨x, own, position, machine, account, method, preset, claim, shift, xslot, compartment, sequence, metered,
        cause, -⟩, others, log, response, rest⟩ :=
        (s.part.respond .ok).authorise_claimed h st .keyed i m slot t.toNat hn hin
      refine ⟨_, taken, response, ?_⟩
      simp only [Prod.mk.injEq] at rest
      obtain ⟨pumps, machines, inv, totals, -, cfl, pins⟩ := rest
      rw [own]
      exact ⟨rfl, rfl, rfl, rfl, rfl, ⟨x, rfl, position, machine, account, method, preset, claim, shift, xslot, compartment,
        sequence, metered, cause⟩, rfl, others, pumps, machines, inv, totals, cfl, pins, log⟩
  · intro s h field number i slot st m free quiet hh hk hst hi hm hslot hc t loading
    obtain ⟨⟨pumps, rsc, state, cfl, order, now, pins, response, alc⟩, others, dsc, context, claim, valves, meter⟩ :=
      (s.part.respond .ok).authorised_keeps h st .keyed i m slot t.toNat
    obtain ⟨no_bay, bay⟩ := (s.part.respond .ok).newContext_target h st .keyed i m slot t.toNat
    refine ⟨fun ht hn => ?_, fun ht hn hclear htrim hmain hstop hg hl => ?_⟩
    · have taken := exec_keyed_claimed free hh hk hst hi hm hslot hc quiet ht hn
      rw [Part.authorise_under_claim (p := s.part.respond .ok) hn] at taken
      refine ⟨_, _, taken, response, dsc, by rw [valves], context, rfl, ?_, ⟨no_bay, bay⟩, others⟩
      rw [alc]
      exact (Part.claimed_number (p := s.part.respond .ok) hn h slot t.toNat).2.symm
    · have taken := exec_keyed_authorised free hh hk hst hi hm hslot hc ht
      obtain ⟨asks, number, unchanged, own_claim⟩ :=
        Part.authorise_without_claim (p := s.part.respond .ok) hn h st .keyed i slot t.toNat
      have settings := (Part.hoseSettings_of_cfl cfl h).trans hst
      have inputs : ((s.part.respond .ok).authorised h st .keyed i m slot t.toNat).inputsClear := by
        unfold Part.inputsClear
        rw [pins]
        exact hclear
      have places : 1 ≤ ((s.part.respond .ok).authorised h st .keyed i m slot t.toNat).limit st.pump := by
        unfold Part.limit
        rw [Part.identity_of_cfl cfl]
        exact hl
      rw [asks, Part.Quiet.settle_awaitPump settings quiet pumps state others (by rw [meter]; rfl) inputs
        (by rw [valves]; exact htrim) (by rw [valves]; exact hmain) hstop hg places] at taken
      obtain ⟨⟨cnl, alc', rsc', -⟩, others', own⟩ := Part.awaitPump_keeps settings
      refine ⟨_, (s.part.respond .ok).newContext h st .keyed i m slot t.toNat, taken,
        (congrArg (·.response) cnl).trans response, ?_⟩
      simp only [Part.hose_setPumps, Part.alc_setPumps, Part.pumps_setPumps, own, now, valves, loading, Part.rsc_setPumps, rsc']
      refine ⟨trivial, rfl, trivial, claim.trans own_claim, alc'.trans (alc.trans unchanged), context, rfl, number,
        ⟨no_bay, bay⟩, ?_, fun k hk => (others' k hk).trans (others k hk)⟩
      unfold Pump.woken
      rw [quiet.requests]
      rfl

end Sys2Proof.Machine
end

section
/-! The obligations of the tag reader (02 R22 to R24, R28, R30 to R32). -/

namespace Sys2Proof.Machine

open Sys2Proof

/-! ## Identification by tag (R28, R30) -/

/-- An entry found by a tag has that tag (02 R27). -/
theorem Part.tag_of_lookupTag {p : Part} {code : TagCode} {i : Nat} {m : MachineRow} (hf : p.lookupTag code = some i)
    (hm : p.machines[i]? = some m) : m.entry.tag = code := by
  unfold Part.lookupTag at hf
  split at hf
  · cases hf
  · obtain ⟨hlt, match_, -⟩ := List.findIdx?_eq_some_iff_getElem.mp hf
    have row : p.machines[i] = m := Option.some.inj ((List.getElem?_eq_getElem hlt).symm.trans hm)
    rw [row, Bool.and_eq_true, beq_iff_eq] at match_
    exact match_.2

/-- A good PRESENT in LIFTED is handed to the hose as an identification (R28). -/
theorem Part.tagReport_lifted {p : Part} {h : HoseId} {code : TagCode} {check : Byte}
    (hs : (p.hose h).reader.supervised = none) (hd : (p.hose h).dsc = .lifted) (hg : goodPresent code check = true) :
    p.tagReport h (.present code check) = (p.tagRead h code).identify h .tag (p.lookupTag code) := by
  rw [Part.tagReport_good hg, Part.takePresent_lifted hs hd]

section Lifted

variable {s : State} {h : HoseId} {code : TagCode} {check : Byte} (hrun : s.part.cfl.stage = .running)
  (hs : (s.part.hose h).reader.supervised = none) (hd : (s.part.hose h).dsc = .lifted) (hg : goodPresent code check = true)
  (quiet : s.part.Quiet)
include hrun hs hd hg quiet

theorem exec_tagReport_refused {c : Code} (hc : s.part.refusalOf h .tag (s.part.lookupTag code) = some c) :
    exec (.tagReport h (.present code check)) s = s.goesTo ((s.part.tagRead h code).event (.refused h c)) := by
  have refused : (s.part.tagRead h code).refusalOf h .tag (s.part.lookupTag code) = some c := hc
  refine exec_tagReport_told s hrun quiet ?_
  rw [Part.tagReport_lifted hs hd hg, Part.identify_refused refused]
  rfl

variable {i slot : Nat} {st : HoseSettings} {m : MachineRow} (hf : s.part.lookupTag code = some i)
  (hm : s.part.machines[i]? = some m) (hst : s.part.hoseSettings h = some st) (hslot : s.part.reservable = some slot)
  (hc : s.part.refusalOf h .tag (some i) = none)
include hf hm hst hslot hc

theorem exec_tagReport_small (ht : (s.part.terms h st m).least < 200) : exec (.tagReport h (.present code check)) s =
    s.goesTo ((s.part.tagRead h code).event (.refused h (s.part.terms h st m).refusal)) := by
  have terms : (s.part.tagRead h code).terms h st m = s.part.terms h st m := s.part.terms_modReader h _ h st m
  have passes : (s.part.tagRead h code).refusalOf h .tag (some i) = none := hc
  have settings : (s.part.tagRead h code).hoseSettings h = some st := hst
  have row : (s.part.tagRead h code).machines[i]? = some m := hm
  have free_slot : (s.part.tagRead h code).reservable = some slot := hslot
  refine exec_tagReport_told s hrun quiet ?_
  rw [Part.tagReport_lifted hs hd hg, hf, Part.identify_small passes settings row free_slot (by rw [terms]; exact ht), terms]
  rfl

/-- From 200 cL on, where the entry calls for a claim (03 R56). -/
theorem exec_tagReport_claimed (ht : 200 ≤ (s.part.terms h st m).least) (hn : s.part.needsClaim m.entry = true) :
    exec (.tagReport h (.present code check)) s =
      s.goesTo ((s.part.tagRead h code).authorise h st .tag i m slot (s.part.terms h st m).least.toNat) := by
  have terms : (s.part.tagRead h code).terms h st m = s.part.terms h st m := s.part.terms_modReader h _ h st m
  have passes : (s.part.tagRead h code).refusalOf h .tag (some i) = none := hc
  have settings : (s.part.tagRead h code).hoseSettings h = some st := hst
  have row : (s.part.tagRead h code).machines[i]? = some m := hm
  have free_slot : (s.part.tagRead h code).reservable = some slot := hslot
  have needs : (s.part.tagRead h code).needsClaim m.entry = true := hn
  rw [exec_tagReport s h _ hrun, Part.tagReport_lifted hs hd hg, hf,
    Part.identify_authorised passes settings row free_slot (by rw [terms]; exact ht), terms, Part.authorise_under_claim needs,
    Part.Quiet.settle_authorised (p := s.part.tagRead h code) quiet rfl rfl (fun _ hk => s.part.hose_tagRead_ne code hk) (by rw [Part.hose_tagRead_same])]

end Lifted

/-- Settles O13: each report by what it makes of the reader; the check by its bytes; and the identification's outcomes. -/
theorem tagReports : Obligations.TagReports := by
  refine ⟨?_, goodPresent_iff, ?_⟩
  · intro s h hrun quiet hs hd r counted
    refine ⟨fun report hr => ⟨fun hf hrun4 => ?_, fun hf hrun4 => ?_, fun hf => ?_⟩, ?_, fun code check hg => ?_, fun hf => ?_,
      fun hf => ?_⟩
    · exact exec_tagReport_reader s hrun quiet ((Part.tagReport_bad hr).trans (Part.badPresent_counted hf hrun4))
    · exact exec_tagReport_told s hrun quiet ((Part.tagReport_bad hr).trans (Part.badPresent_fifth hs hf hrun4))
    · exact exec_tagReport_reader s hrun quiet ((Part.tagReport_bad hr).trans (Part.badPresent_faulted hf))
    · exact exec_tagReport_reader s hrun quiet (Part.takeAbsent_unsupervised hs)
    · exact exec_tagReport_reader s hrun quiet ((Part.tagReport_good hg).trans (Part.takePresent_unsupervised hs hd code))
    · exact exec_tagReport_told s hrun quiet ((Part.tagReport_fault hf).trans (Part.readerFault_unsupervised hs))
    · rw [exec_tagReport s h _ hrun, Part.tagReport_fault_again hf, quiet.settle_hoses rfl rfl]
  · intro s h code check hrun quiet hs hd hg found read
    refine ⟨fun c hc => exec_tagReport_refused hrun hs hd hg quiet hc, ?_⟩
    intro i slot st m hf hm hst hslot hc t
    have passes : s.part.refusalOf h .tag (some i) = none := hf ▸ hc
    refine ⟨fun ht => exec_tagReport_small hrun hs hd hg quiet hf hm hst hslot passes ht, fun ht hn hin => ?_⟩
    obtain ⟨-, ⟨x, own, position, machine, -, method, preset, claim, -, xslot, -⟩, others, -⟩ :=
      (s.part.tagRead h code).authorise_claimed h st .tag i m slot t.toNat hn hin
    refine ⟨_, exec_tagReport_claimed hrun hs hd hg quiet hf hm hst hslot passes ht hn, ?_⟩
    rw [own, Part.hose_tagRead_same, Part.tag_of_lookupTag hf hm]
    exact ⟨rfl, rfl, rfl, rfl, ⟨x, rfl, position, machine, method, preset, xslot, claim⟩,
      fun k hk => (others k hk).trans (s.part.hose_tagRead_ne code hk)⟩

/-! ## Supervision (R31, R32) -/

/-- A good PRESENT of another code than the supervised one (R32). -/
theorem Part.tagReport_changed {p : Part} {h : HoseId} {c code : TagCode} {check : Byte}
    (hs : (p.hose h).reader.supervised = some c) (hne : code ≠ c) (hg : goodPresent code check = true) :
    p.tagReport h (.present code check) = (p.tagRead h code).takeCause h .tagChanged := by
  rw [Part.tagReport_good hg, Part.takePresent_changed hs hne]

/-- The reader of a hose after a good PRESENT. -/
def Hose.readerOf (u : Hose) (code : TagCode) : Reader :=
  { u.reader with fault := false, run := 0, readTag := some code, grace := none }

section Changed

variable {s : State} {h : HoseId} {c code : TagCode} {check : Byte} {x : Context} (hrun : s.part.cfl.stage = .running)
  (hs : (s.part.hose h).reader.supervised = some c) (hne : code ≠ c) (hg : goodPresent code check = true)
  (quiet : s.part.Quiet) (hx : (s.part.hose h).context = some x)
include hrun hs hne hg quiet hx

/-- In STOPPING it adds the TAG flag (06 R109, R111). -/
theorem exec_tagReport_changed_stopping (hd : (s.part.hose h).dsc = .stopping) :
    exec (.tagReport h (.present code check)) s = s.goesTo (s.part.modHose h fun u =>
      { u with
        reader := (s.part.hose h).readerOf code
        context := some { x with faults := { x.faults with tag := true } } }) := by
  refine exec_tagReport_settled s hrun quiet ?_ rfl rfl (fun _ hk => Part.hose_modHose_ne _ _ hk)
    (by rw [Part.hose_modHose_same, Hose.begun_of_dsc rfl]; exact id) (by rw [Part.hose_modHose_same])
  rw [Part.tagReport_changed hs hne hg, Part.takeCause_late _ (.inl (by rw [Part.hose_tagRead_same]; exact hd))]
  unfold Part.tagRead Part.addFaults Part.modContext
  rw [Part.modHose_modReader]
  refine Part.modHose_congr ?_
  dsimp only
  rw [hx, Option.map_some, FaultSet.union_tag]
  rfl

/-- In flow it is the end cause, and the valves shut (06 R109, R110). -/
theorem exec_tagReport_changed_flowing (hd : (s.part.hose h).dsc = .flowing)
    (hflow : (s.part.hose h).valves.phase.flowing = true) (hopen : (s.part.hose h).valves.trim.switch = .opened)
    (hlatch : (s.part.hose h).valves.trim.latch = false) :
    exec (.tagReport h (.present code check)) s = s.goesTo (((s.part.tagRead h code).event (.stopped h .tagChanged)).modHose h
      fun u =>
      { u with
        dsc := .stopping, context := some { x with cause := some .tagChanged }
        valves := u.valves.enter s.part.now ((s.part.hoseSettings h).map (·.settleTime)) .shutting
        meter := { u.meter with noFlow := none } }) := by
  have begun : (s.part.hose h).begun = true := by
    unfold Hose.begun
    rw [hd]
  refine exec_tagReport_settled s hrun quiet ?_ rfl rfl
    (fun k hk => (Part.hose_modHose_ne _ _ hk).trans (s.part.hose_tagRead_ne code hk)) (fun _ => begun)
    (by rw [Part.hose_modHose_same, Part.hose_event, Part.hose_tagRead_same])
  rw [Part.tagReport_changed hs hne hg, Part.takeCause_open _ .tagChanged (by rw [Part.hose_tagRead_same]; exact hd)
    (by rw [Part.hose_tagRead_same]; exact hflow) (by rw [Part.hose_tagRead_same]; exact hopen)
    (by rw [Part.hose_tagRead_same]; exact hlatch)]
  refine Part.modHose_congr ?_
  rw [Part.hose_event, Part.hose_tagRead_same]
  dsimp only
  rw [hx]
  rfl

end Changed

/-- The end of an event that has stopped a hose before flow leaves the hoses as the stop left them. -/
theorem Part.Quiet.hose_settle_stopBeforeFlow {b p : Part} {h : HoseId} {x : Context} (hb : b.Quiet) (hpumps : p.pumps = b.pumps)
    (hne : ∀ k, k ≠ h → p.hose k = b.hose k) (hx : (p.hose h).context = some x) (c : Cause) (k : HoseId) :
    (settle b (p.stopBeforeFlow h c)).hose k = (p.stopBeforeFlow h c).hose k := by
  have none_waits (i : PumpId) : ((p.stopBeforeFlow h c).pumps.get i).requests = [] := by
    have none_before := hb.requests i
    rw [Part.pumps_stopBeforeFlow _ _ _ hx, ← hpumps] at *
    cases i <;> exact (congrArg (List.filter _) none_before).trans rfl
  refine hose_settle_idle b _ none_waits ?_
  by_cases hk : k = h
  · subst hk
    rw [Part.hose_stopBeforeFlow _ _ _ hx]
    unfold Hose.begun
    dsimp only
    cases (p.hose k).nozzle <;> exact fun hf => absurd hf Bool.false_ne_true
  · rw [Part.hose_stopBeforeFlow_ne _ hk, hne k hk]
    exact id

/-- Settles O14: the grace timer by the reader's equations; TAG_CHANGED by the state the hose is in. -/
theorem tagSupervision : Obligations.TagSupervision := by
  refine ⟨?_, ?_, ?_⟩
  · intro s h c hrun quiet hs
    refine ⟨fun hg => ?_, fun due hg => ?_, fun check hgood => ?_⟩
    · refine exec_tagReport_reader s hrun quiet ((Part.takeAbsent_supervised hs).trans (Part.modReader_congr ?_))
      rw [hg]
      rfl
    · refine exec_tagReport_reader s hrun quiet ((Part.takeAbsent_supervised hs).trans (Part.modReader_congr ?_))
      rw [hg]
      rfl
    · exact exec_tagReport_reader s hrun quiet ((Part.tagReport_good hgood).trans (Part.takePresent_same hs))
  · intro s h c hrun quiet hs hf
    exact exec_tagReport_told s hrun quiet ((Part.tagReport_fault hf).trans (Part.readerFault_supervised hs))
  · intro s h c code check x hrun quiet hs hne hg hx read
    refine ⟨fun hd => exec_tagReport_changed_stopping hrun hs hne hg quiet hx hd, fun hd hflow hopen hlatch => ?_, fun hd => ?_⟩
    · refine ⟨_, exec_tagReport_changed_flowing hrun hs hne hg quiet hx hd hflow hopen hlatch, ?_⟩
      rw [Part.hose_modHose_same, Part.hose_event, Part.hose_tagRead_same]
      exact ⟨rfl, rfl, rfl, rfl, rfl, rfl, fun k hk => (Part.hose_modHose_ne _ _ hk).trans (s.part.hose_tagRead_ne code hk)⟩
    · have context : ((s.part.tagRead h code).hose h).context = some x := by rw [Part.hose_tagRead_same]; exact hx
      have others (k : HoseId) (hk : k ≠ h) := s.part.hose_tagRead_ne code hk
      have settled := Part.Quiet.hose_settle_stopBeforeFlow (p := s.part.tagRead h code) quiet rfl others context .tagChanged
      refine ⟨_, exec_tagReport s h _ hrun, ?_⟩
      rw [Part.tagReport_changed hs hne hg, Part.takeCause_before _ (by rw [Part.hose_tagRead_same]; exact hd), settled, Part.hose_stopBeforeFlow _ _ _ context,
        Part.hose_tagRead_same]
      exact ⟨rfl, rfl, rfl, rfl, rfl, fun k hk => (settled k).trans
        ((Part.hose_stopBeforeFlow_ne _ hk _).trans (others k hk))⟩

end Sys2Proof.Machine
end

section
/-! HOLD and UNHOLD requests (02 R34, R36): the hold state they write, the notice they offer, and the transactions a HOLD stops. -/

namespace Sys2Proof.Machine

open Sys2Proof

/-! ## The hold state a request writes (R34) -/

/-- A new hold state under the own station's authorship, and its notice. -/
def Part.holdWritten (p : Part) (i : Nat) (m : MachineRow) (held : Bool) (reason : Nat) : Part :=
  (p.setMachines (p.machines.set i
    { m with hold := { held := held, reason := reason, version := nextVersion m.hold.version, author := p.station } })).offer
    (.hold m.entry.number (flagCode held) reason (nextVersion m.hold.version)) false

section Written

variable {p : Part} {i : Nat} {m : MachineRow} (held : Bool) (reason : Nat)

theorem Part.machines_holdWritten : (p.holdWritten i m held reason).machines = p.machines.set i
    { m with hold := { held := held, reason := reason, version := nextVersion m.hold.version, author := p.station } } := by
  unfold Part.holdWritten
  rw [Part.offer_shape]
  rfl

theorem Part.hose_holdWritten (h : HoseId) : (p.holdWritten i m held reason).hose h = p.hose h := by
  unfold Part.holdWritten
  rw [Part.hose_offer, Part.hose_setMachines]

/-- A request changes nothing that is to be settled at its end. -/
theorem Part.Quiet.settle_holdWritten {b : Part} (hb : b.Quiet) (hpumps : p.pumps = b.pumps) (hrsc : p.rsc = b.rsc)
    (hhoses : p.hoses = b.hoses) : settle b (p.holdWritten i m held reason) = p.holdWritten i m held reason := by
  obtain ⟨hoses, pumps, rsc, -⟩ := SameRest.of_offer (p.setMachines (p.machines.set i
    { m with hold := { held := held, reason := reason, version := nextVersion m.hold.version, author := p.station } }))
    (.hold m.entry.number (flagCode held) reason (nextVersion m.hold.version)) false
  exact (hb.of_pumps (pumps.trans hpumps)).settle_hoses (congrArg (·.state) (rsc.trans hrsc)) (hoses.trans hhoses)

theorem Part.setHold_eq (hm : p.machines[i]? = some m) : p.setHold i held reason =
    if held then (p.holdWritten i m held reason).holdStops i else p.holdWritten i m held reason := by
  unfold Part.setHold Part.modMachine Part.holdWritten
  simp only [hm, modify_of_getElem _ _ _ hm]

end Written

/-! ## The requests -/

section Requests

variable {s : State} (free : s.part.LineFree) {number i : Nat}
include free

theorem exec_hold_unknown (hf : s.part.findMachine number = none) (reason : Nat) :
    exec (.hold (some number) (some reason)) s = s.goesTo (s.part.refuse .unknownMachine) := by
  refine congrArg s.goesTo ((free.request _).trans ?_)
  unfold Part.holdRequest
  simp only [hf]

theorem exec_unhold_unknown (hf : s.part.findMachine number = none) :
    exec (.unhold (some number)) s = s.goesTo (s.part.refuse .unknownMachine) := by
  refine congrArg s.goesTo ((free.request _).trans ?_)
  unfold Part.unholdRequest
  simp only [hf]

variable (hf : s.part.findMachine number = some i)
include hf

theorem exec_hold_reason {reason : Nat} (hr : 15 < reason) :
    exec (.hold (some number) (some reason)) s = s.goesTo (s.part.refuse .badValue) := by
  refine congrArg s.goesTo ((free.request _).trans ?_)
  unfold Part.holdRequest
  simp only [hf, if_pos hr]

variable {m : MachineRow} (hm : s.part.machines[i]? = some m)
include hm

theorem exec_hold_taken {reason : Nat} (hr : reason ≤ 15) : exec (.hold (some number) (some reason)) s =
    s.goesTo (settle s.part (((s.part.respond .ok).holdWritten i m true reason).holdStops i)) := by
  have row : (s.part.respond .ok).machines[i]? = some m := hm
  refine congrArg s.goesTo ((free.request _).trans ?_)
  unfold Part.holdRequest
  simp only [hf, if_neg (Nat.not_lt.mpr hr)]
  rw [Part.setHold_eq true reason row, if_pos rfl]

theorem exec_unhold_taken : exec (.unhold (some number)) s =
    s.goesTo ((s.part.respond .ok).holdWritten i m false 0) := by
  have row : (s.part.respond .ok).machines[i]? = some m := hm
  refine congrArg s.goesTo ((free.request _).trans ?_)
  unfold Part.unholdRequest
  simp only [hf]
  rw [Part.setHold_eq false 0 row]
  rfl

end Requests

/-- The end of an event leaves a hose alone that the event has not left waiting for its pump or newly begun. -/
theorem hose_settle_left {b p : Part} {h : HoseId} (hd : (p.hose h).dsc ≠ .awaitPump)
    (hb : (p.hose h).dsc = .stopping → (b.hose h).begun = true) (hf : (p.hose h).dsc ≠ .flowing) :
    (settle b p).hose h = p.hose h := by
  refine hose_settle b p hd fun hp => ?_
  unfold Hose.begun at hp
  split at hp
  · exact absurd ‹_› hf
  · exact hb ‹_›
  · exact absurd hp Bool.false_ne_true

/-- Settles O15: the requests' equations, and hose by hose what a hold stops. -/
theorem holdRequests : Obligations.HoldRequests := by
  refine ⟨?_, fun s number reason free hf => ⟨exec_hold_unknown free hf reason, exec_unhold_unknown free hf⟩, ?_⟩
  · intro s i number m free quiet hf hm hn version
    refine ⟨fun reason hr => ?_, exec_unhold_taken free hf hm, fun reason hr => exec_hold_reason free hf hr⟩
    have unused := Part.holdStops_unused (p := (s.part.respond .ok).holdWritten i m true reason) (i := i) fun h x hx => by
      rw [Part.hose_holdWritten] at hx
      exact hn h x hx
    rw [exec_hold_taken free hf hm hr, unused, Part.Quiet.settle_holdWritten (p := s.part.respond .ok) true reason quiet rfl rfl rfl]
    rfl
  · intro s i number m free hf hm version
    refine ⟨exec_unhold_taken free hf hm, fun reason hr => ⟨_, exec_hold_taken free hf hm hr, ?_, fun h x hx => ?_⟩⟩
    · have kept := (Stays.refl (free := True) (p := ((s.part.respond .ok).holdWritten i m true reason).holdStops i)).settle
        (fun _ => trivial) s.part
      rw [kept.machines_eq, Part.machines_holdStops, Part.machines_holdWritten]
      rfl
    · have written : ((s.part.respond .ok).holdWritten i m true reason).hose h = s.part.hose h :=
        Part.hose_holdWritten true reason h
      obtain ⟨flowing, before, left⟩ := Part.holdStops_spec ((s.part.respond .ok).holdWritten i m true reason) i h x
        (by rw [written]; exact hx)
      rw [written] at flowing before left
      refine ⟨fun hi hd => ?_, fun hi hd => ?_, fun hd => ?_⟩
      · obtain ⟨stopping, context⟩ := flowing hi hd
        have begun : (s.part.hose h).begun = true := by
          unfold Hose.begun
          rw [hd]
        rw [hose_settle_left (by rw [stopping]; decide) (fun _ => begun) (by rw [stopping]; decide)]
        exact ⟨stopping, context⟩
      · obtain ⟨rest, outcome⟩ := before hi hd
        have at_rest : restState (s.part.hose h).nozzle = .idle ∨ restState (s.part.hose h).nozzle = .lifted := by
          cases (s.part.hose h).nozzle
          · exact .inl rfl
          · exact .inr rfl
        rw [← rest] at at_rest
        rw [hose_settle_left (by rcases at_rest with e | e <;> rw [e] <;> decide)
          (fun hs => by rcases at_rest with e | e <;> rw [e] at hs <;> exact absurd hs (by decide))
          (by rcases at_rest with e | e <;> rw [e] <;> decide)]
        exact ⟨rest, outcome⟩
      · have same := left (.inr hd)
        rw [hose_settle_left (by rw [same]; rcases hd with e | e <;> rw [e] <;> decide)
          (fun hs => by unfold Hose.begun; rw [← same, hs]) (by rw [same]; rcases hd with e | e <;> rw [e] <;> decide), same]

end Sys2Proof.Machine
end

section
/-! The commit completion step (06 R114): the write that ends, and each item of the step where one case of it applies. -/

namespace Sys2Proof.Machine

open Sys2Proof

/-! ## WRITE_COMPLETE of a closing part (07 R128) -/

theorem exec_writeComplete (s : State) {r : WriteReq} {due : Nat} (hw : s.part.tlg.writing = some r)
    (ht : s.part.tlg.writeTimer = some due) : exec .writeComplete s = s.goesTo
      (settle (s.part.reach due) ((s.part.reach due).endWrite r)).takeWrite := by
  simp only [exec, execWriteComplete, exec_next, hw, ht]

/-- With nothing waiting no write is taken. -/
theorem Part.takeWrite_empty {p : Part} (hq : p.tlg.queue = []) : p.takeWrite = p := by
  unfold Part.takeWrite
  rw [hq]
  cases p.tlg.writing <;> rfl

/-- The log after a write that has left a slot's record as `u`: the write is counted, and none is in progress (07 R128). -/
def Part.written (p : Part) (i : Nat) (u : Slot) : Part := p.setTlg
  { p.tlg with
    slots := p.tlg.slots.set i u, writing := none, writeTimer := none, writes := min (p.tlg.writes + 1) 4294967295 }

theorem Part.getElem?_written {p : Part} {i : Nat} (hlt : i < p.tlg.slots.length) (u : Slot) :
    (p.written i u).tlg.slots[i]? = some u := List.getElem?_set_self hlt

theorem Part.slot_written {p : Part} {i : Nat} (hlt : i < p.tlg.slots.length) (u : Slot) : (p.written i u).slot i = u := by
  unfold Part.slot
  rw [List.getD_eq_getElem?_getD, Part.getElem?_written hlt]
  rfl

/-- Item 1 of R114. -/
theorem Part.closeSlot_written {p : Part} {i : Nat} (hlt : i < p.tlg.slots.length) (u : Slot) :
    (p.written i u).closeSlot i = p.written i { u with state := .closed } := by
  unfold Part.closeSlot Part.modSlot
  rw [modify_of_getElem _ _ _ (Part.getElem?_written hlt u)]
  unfold Part.written
  simp only [Part.tlg_setTlg, Part.setTlg_setTlg, List.set_set]

/-- The other items of R114, for a record with the closing fields of a fill. -/
def Part.commitRecord (p : Part) (h : HoseId) (x : Context) (loadout : Bool) (gross standard amount : Nat) : Part :=
  (((((p.countRecord x loadout gross standard amount).tallyClaim h x gross).cutOthers h x loadout).offerLoadnote x gross
    standard).event (.done h (x.sequence.getD 0))).endCommit h

section Closing

variable {p : Part} {i : Nat} {u : Slot} {k : Closing} (hu : p.tlg.slots[i]? = some u) (hk : u.closing = some k)
include hu hk

/-- The write of a closing part is followed by the commit of its record. -/
theorem Part.endWrite_closing_commits (h : HoseId) :
    p.endWrite (.closing h i) = (p.written i { u with nvClosing := .valid k }).commit h i := by
  have memory : p.memoryWrite (.closing h i) = p.setTlg
      { p.tlg with slots := p.tlg.slots.set i { u with nvClosing := .valid k } } := by
    unfold Part.memoryWrite Part.modSlot
    dsimp only
    rw [modify_of_getElem _ _ _ hu, hk]
    rfl
  unfold Part.endWrite
  rw [memory]
  rfl

theorem Part.endWrite_closing {h : HoseId} {x : Context} {final gross standard amount : Nat} {temperature : Int}
    {cause : Cause} {faults : FaultSet} (hf : k.fields = .fill final gross standard temperature amount cause faults)
    (hx : (p.hose h).context = some x) : p.endWrite (.closing h i) =
      (p.written i { u with state := .closed, nvClosing := .valid k }).commitRecord h x u.isLoadout gross standard amount := by
  have hlt : i < p.tlg.slots.length := (List.getElem?_eq_some_iff.mp hu).1
  have context : ((p.written i { u with state := .closed, nvClosing := .valid k }).hose h).context = some x := hx
  rw [Part.endWrite_closing_commits hu hk]
  have fields : u.closing.map Closing.fields = some (.fill final gross standard temperature amount cause faults) := by
    rw [hk, Option.map_some, hf]
  unfold Part.commit
  simp only [Part.slot_written hlt, Part.closeSlot_written hlt, context, fields]
  rfl

end Closing

/-! ## The items of the step -/

section Items

variable {p : Part} {h : HoseId} {x : Context}

/-- A record of another shift is not counted. -/
theorem Part.countRecord_other (hs : x.shift ≠ p.alc.shift) (loadout : Bool) (gross standard amount : Nat) :
    p.countRecord x loadout gross standard amount = p := if_neg hs

/-- A DISPENSE record of the current shift counts in the own column and in the account's totals (03 R42, 07 R141). -/
theorem Part.countRecord_dispense {m : MachineRow} (hs : x.shift = p.alc.shift) (hm : p.machines[x.position]? = some m)
    {gross : Nat} (hfit : m.column p.station + gross ≤ 4294967295) (standard amount : Nat) :
    p.countRecord x false gross standard amount = (p.setMachines (p.machines.set x.position
      (m.setColumn p.station (m.column p.station + gross)))).setTotals (addTotals p.totals x.account standard amount) := by
  have grown : grow32 (m.column p.station) gross = m.column p.station + gross := by
    unfold grow32 fit32
    rw [if_pos (show _ ≤ max32 from hfit), Nat.max_eq_right (Nat.le_add_right _ _)]
  unfold Part.countRecord Part.modMachine
  simp only [if_pos hs, Bool.false_eq_true, if_false, modify_of_getElem _ _ _ hm, grown]
  rfl

/-- A LOADOUT counts in the account's totals alone (09 R166). -/
theorem Part.countRecord_loadout (p : Part) (x : Context) (gross standard amount : Nat) :
    p.countRecord x true gross standard amount = p.setTotals
      (if x.shift = p.alc.shift then addTotals p.totals x.account standard amount else p.totals) := by
  unfold Part.countRecord
  split <;> rfl

theorem Part.tallyClaim_none (hc : (p.hose h).claim = none) (gross : Nat) : p.tallyClaim h x gross = p := by
  unfold Part.tallyClaim
  rw [hc]

/-- No other transaction is there to be cut. -/
theorem Part.cutOthers_alone (hn : ∀ j, j ≠ h → (p.hose j).context = none) (loadout : Bool) :
    p.cutOthers h x loadout = p := by
  have cuts : p.runCuts (some h) x.machine x.account = p := by
    unfold Part.runCuts
    refine List.foldlRecOn (motive := (· = p)) allHoses _ rfl fun q hq j _ => ?_
    rw [hq]
    by_cases hj : j = h
    · exact if_pos (congrArg some hj)
    · rw [if_neg (by simpa using hj), hn j hj]
  unfold Part.cutOthers
  split
  · exact cuts
  · rfl

theorem Part.cutOthers_loadout (p : Part) (h : HoseId) (x : Context) : p.cutOthers h x true = p := if_neg (by simp)

theorem Part.cutOthers_other (hs : x.shift ≠ p.alc.shift) (loadout : Bool) : p.cutOthers h x loadout = p :=
  if_neg fun hn => hs hn.1

theorem Part.offerLoadnote_none (ht : x.target = none) (gross standard : Nat) : p.offerLoadnote x gross standard = p := by
  unfold Part.offerLoadnote
  rw [ht]

/-- A hose that has left COMMITTING (06 R104, R114). -/
def Hose.afterCommit (v : Hose) (x : Context) : Hose :=
  { v with
    context := none, summary := some { sequence := x.sequence, cause := x.cause, faults := x.faults }
    kept := if v.nozzle = .onHook then none else some x.position
    dsc := if v.nozzle = .onHook then .idle else .done
    valves := { v.valves with pending := if v.nozzle = .onHook then none else v.valves.pending } }

theorem Hose.begun_afterCommit (v : Hose) (x : Context) : (v.afterCommit x).begun = false := by
  unfold Hose.begun Hose.afterCommit
  cases v.nozzle <;> rfl

theorem Part.drainTest_not_draining (hr : p.rsc.state ≠ .draining) : p.drainTest = p := if_neg fun hd => hr hd.1

theorem Part.leaveCommitting_eq (hx : (p.hose h).context = some x) :
    p.leaveCommitting h = (p.modHose h fun v => v.afterCommit x).drainTest := by
  unfold Part.leaveCommitting
  rw [hx]
  refine congrArg Part.drainTest (Part.modHose_congr ?_)
  unfold Hose.afterCommit
  cases (p.hose h).nozzle <;> rfl

theorem Part.endCommit_shut (hx : (p.hose h).context = some x) (hph : (p.hose h).valves.phase = .shut)
    (hr : p.rsc.state ≠ .draining) : p.endCommit h = p.modHose h fun v => v.afterCommit x := by
  unfold Part.endCommit
  rw [if_pos hph, Part.leaveCommitting_eq hx]
  exact Part.drainTest_not_draining hr

/-- With nothing to arbitrate, a hose that leaves COMMITTING leaves nothing to settle, and with nothing waiting no write follows. -/
theorem Part.Quiet.settle_afterCommit {b : Part} (hb : b.Quiet) (hpumps : p.pumps = b.pumps)
    (hrsc : p.rsc.state = b.rsc.state) (hhoses : ∀ k, p.hose k = b.hose k) (hq : p.tlg.queue = []) :
    (settle b (p.modHose h fun v => v.afterCommit x)).takeWrite = p.modHose h fun v => v.afterCommit x := by
  rw [hb.settle_one (q := p.modHose h fun v => v.afterCommit x) h hpumps hrsc
    (fun k hk => (Part.hose_modHose_ne _ _ hk).trans (hhoses k))
    (by rw [Part.hose_modHose_same, Hose.begun_afterCommit]; exact fun hf => absurd hf Bool.false_ne_true)
    (by rw [Part.hose_modHose_same, hhoses]; exact le_rfl)]
  exact Part.takeWrite_empty hq

end Items

end Sys2Proof.Machine
end

section
/-! O42 (06 R114): the commit completion step where the event ends at it, with no own claim. -/

namespace Sys2Proof.Machine

open Sys2Proof

section Completed

variable {s : State} {h : HoseId} {i : Nat} {x : Context} {u : Slot} {k : Closing} {final gross standard amount due : Nat}
  {temperature : Int} {cause : Cause} {faults : FaultSet}

/-- The completion of the write of a fill's closing part is the commit step of its record and the end of the event. -/
theorem exec_writeComplete_closing (hw : s.part.tlg.writing = some (.closing h i)) (ht : s.part.tlg.writeTimer = some due)
    (hu : s.part.tlg.slots[i]? = some u) (hk : u.closing = some k)
    (hf : k.fields = .fill final gross standard temperature amount cause faults) (hx : (s.part.hose h).context = some x) :
    exec .writeComplete s = s.goesTo (settle (s.part.reach due)
      (((s.part.reach due).written i { u with state := .closed, nvClosing := .valid k }).commitRecord h x u.isLoadout gross
        standard amount)).takeWrite := by
  rw [exec_writeComplete s hw ht, Part.endWrite_closing (p := s.part.reach due) hu hk hf hx]

end Completed

section Ended

variable {b p q : Part} {h : HoseId} {x : Context} {gross standard amount : Nat}

/-- Where the items before the DONE event leave hoses, pumps and the restock state alone, the hose leaves COMMITTING and no more. -/
theorem Part.Quiet.settle_commitRecord {loadout : Bool} (hb : b.Quiet)
    (items : (((p.countRecord x loadout gross standard amount).tallyClaim h x gross).cutOthers h x loadout).offerLoadnote x gross
      standard = q)
    (hpumps : q.pumps = b.pumps) (hrsc : q.rsc.state = b.rsc.state) (hhoses : ∀ j, q.hose j = b.hose j) (hq : q.tlg.queue = [])
    (hx : (b.hose h).context = some x) (hph : (b.hose h).valves.phase = .shut) (hr : b.rsc.state ≠ .draining) :
    (settle b (p.commitRecord h x loadout gross standard amount)).takeWrite
      = (q.event (.done h (x.sequence.getD 0))).modHose h fun v => v.afterCommit x := by
  have atHose : (q.event (.done h (x.sequence.getD 0))).hose h = b.hose h := hhoses h
  unfold Part.commitRecord
  rw [items, Part.endCommit_shut (p := q.event _) (by rw [atHose]; exact hx) (by rw [atHose]; exact hph) (hrsc.trans_ne hr)]
  exact hb.settle_afterCommit hpumps hrsc hhoses hq

/-- No own claim, no other transaction and no loadout target: a DISPENSE record of the current shift is counted and no more. -/
theorem Part.items_dispense {m : MachineRow} (hs : x.shift = p.alc.shift) (hm : p.machines[x.position]? = some m)
    (hfit : m.column p.station + gross ≤ 4294967295) (hc : (p.hose h).claim = none)
    (hn : ∀ j, j ≠ h → (p.hose j).context = none) (ht : x.target = none) :
    (((p.countRecord x false gross standard amount).tallyClaim h x gross).cutOthers h x false).offerLoadnote x gross standard
      = (p.setMachines (p.machines.set x.position (m.setColumn p.station (m.column p.station + gross)))).setTotals
          (addTotals p.totals x.account standard amount) := by
  rw [Part.countRecord_dispense hs hm hfit]
  generalize hq : Part.setTotals _ _ = q
  have hoses : ∀ j, q.hose j = p.hose j := fun j => by rw [← hq]; rfl
  rw [Part.tallyClaim_none ((congrArg Hose.claim (hoses h)).trans hc),
    Part.cutOthers_alone fun j hj => (congrArg Hose.context (hoses j)).trans (hn j hj), Part.offerLoadnote_none ht]

/-- A record of another shift changes nothing before the DONE event. -/
theorem Part.items_other (hs : x.shift ≠ p.alc.shift) (hc : (p.hose h).claim = none) (ht : x.target = none) (loadout : Bool) :
    (((p.countRecord x loadout gross standard amount).tallyClaim h x gross).cutOthers h x loadout).offerLoadnote x gross standard
      = p := by
  rw [Part.countRecord_other hs, Part.tallyClaim_none hc, Part.cutOthers_other hs, Part.offerLoadnote_none ht]

end Ended

/-! ## The LOADNOTE -/

section Loadnote

variable {p : Part} {x : Context} {station : Nat} {c : CompId}

/-- The note of a committed LOADOUT and its event (09 R166). -/
def Part.loadnoted (p : Part) (station : Nat) (c : CompId) (grant gross standard : Nat) : Part :=
  (p.offer (.loadnote station (compCode c) grant gross standard) false).event (.loadnoteOffered station c gross)

theorem Part.rsc_loadnoted (p : Part) (station : Nat) (c : CompId) (grant gross standard : Nat) :
    (p.loadnoted station c grant gross standard).rsc = p.rsc :=
  (Part.rsc_event _ _).trans (RestockKept.rsc_offer _ _ _)

theorem Part.now_loadnoted (p : Part) (station : Nat) (c : CompId) (grant gross standard : Nat) :
    (p.loadnoted station c grant gross standard).now = p.now :=
  (((Stays.refl (free := False)).offer _ _).event _).now_eq

theorem Part.hose_loadnoted (p : Part) (station : Nat) (c : CompId) (grant gross standard : Nat) (j : HoseId) :
    (p.loadnoted station c grant gross standard).hose j = p.hose j := Part.hose_offer _ _ _ _

theorem Part.pumps_loadnoted (p : Part) (station : Nat) (c : CompId) (grant gross standard : Nat) :
    (p.loadnoted station c grant gross standard).pumps = p.pumps := Part.pumps_offer _ _ _

theorem Part.tlg_loadnoted (p : Part) (station : Nat) (c : CompId) (grant gross standard : Nat) :
    (p.loadnoted station c grant gross standard).tlg = p.tlg := by
  unfold Part.loadnoted
  rw [Part.event_shape, Part.offer_shape]
  rfl

/-- The bay is found by the restock coordinator's state alone. -/
theorem Part.bayUnderGrant_of_rsc {q : Part} (hr : q.rsc = p.rsc) : q.bayUnderGrant x = p.bayUnderGrant x := by
  unfold Part.bayUnderGrant Part.bayOf
  rw [hr]

variable (ht : x.target = some (station, c))
include ht

/-- The station holds no bay. -/
theorem Part.bayUnderGrant_unheld (hb : p.bayOf station = none) : p.bayUnderGrant x = none := by
  unfold Part.bayUnderGrant
  simp only [ht, hb]

/-- The station holds a bay, under the grant of the loadout or under another. -/
theorem Part.bayUnderGrant_held {b : BayId} {e : BayEntry} (hb : p.bayOf station = some b) (he : p.rsc.bays.get b = some e) :
    p.bayUnderGrant x = if e.grant = x.grant then some (b, e) else none := by
  unfold Part.bayUnderGrant
  simp only [ht, hb, he]

/-- No bay is held under the grant: the note is offered and no more. -/
theorem Part.offerLoadnote_ungranted (hb : p.bayUnderGrant x = none) (gross standard : Nat) :
    p.offerLoadnote x gross standard = p.loadnoted station c x.grant gross standard := by
  have found := (Part.bayUnderGrant_of_rsc (x := x) (p.rsc_loadnoted station c x.grant gross standard)).trans hb
  unfold Part.loadnoted at found ⊢
  unfold Part.offerLoadnote
  simp only [ht, found]

/-- A bay held under the grant: its entry takes the volume, and its timer the release rule (09 R163). -/
theorem Part.offerLoadnote_granted {b : BayId} {e : BayEntry} (hb : p.bayUnderGrant x = some (b, e)) (gross standard : Nat) :
    p.offerLoadnote x gross standard = (p.loadnoted station c x.grant gross standard).setBay b (some
      { e with
        loaded := e.loaded.set c (e.loaded.get c + gross), noteOffered := true, active := e.active - 1
        timer := if e.active - 1 = 0 then .release (p.now + 12000000) else e.timer }) := by
  have found := (Part.bayUnderGrant_of_rsc (x := x) (p.rsc_loadnoted station c x.grant gross standard)).trans hb
  have time := p.now_loadnoted station c x.grant gross standard
  unfold Part.loadnoted at found time ⊢
  unfold Part.offerLoadnote
  simp only [ht, found, BayEntry.loadoutEnded, time]
  rfl

end Loadnote

/-! ## A LOADOUT -/

/-- With no own claim a LOADOUT is counted in the totals, and its note follows (09 R166). -/
theorem Part.items_loadout {p : Part} {h : HoseId} {x : Context} (hc : (p.hose h).claim = none) (gross standard amount : Nat) :
    (((p.countRecord x true gross standard amount).tallyClaim h x gross).cutOthers h x true).offerLoadnote x gross standard
      = (p.setTotals (if x.shift = p.alc.shift then addTotals p.totals x.account standard amount else p.totals)).offerLoadnote x
          gross standard := by
  rw [Part.countRecord_loadout, Part.tallyClaim_none (by exact hc), Part.cutOthers_loadout]

/-! ## The command, with no own claim -/

section Alone

variable {s : State} {h : HoseId} {i : Nat} {x : Context} {u : Slot} {k : Closing} {final gross standard amount due : Nat}
  {temperature : Int} {cause : Cause} {faults : FaultSet} (quiet : s.part.Quiet)
  (hw : s.part.tlg.writing = some (.closing h i)) (ht : s.part.tlg.writeTimer = some due) (hq : s.part.tlg.queue = [])
  (hu : s.part.tlg.slots[i]? = some u) (hk : u.closing = some k)
  (hf : k.fields = .fill final gross standard temperature amount cause faults) (hx : (s.part.hose h).context = some x)
  (hc : (s.part.hose h).claim = none) (hr : s.part.rsc.state ≠ .draining) (hph : (s.part.hose h).valves.phase = .shut)
include quiet hw ht hq hu hk hf hx hc hr hph

theorem exec_writeComplete_dispense {m : MachineRow} (hn : ∀ j, j ≠ h → (s.part.hose j).context = none) (hg : x.target = none)
    (hs : x.shift = s.part.alc.shift) (hl : u.isLoadout = false) (hm : s.part.machines[x.position]? = some m)
    (hfit : m.column s.part.station + gross ≤ 4294967295) :
    let p := (s.part.reach due).written i { u with state := .closed, nvClosing := .valid k }
    exec .writeComplete s = s.goesTo ((((p.setMachines (s.part.machines.set x.position
      (m.setColumn s.part.station (m.column s.part.station + gross)))).setTotals
        (addTotals s.part.totals x.account standard amount)).event (.done h (x.sequence.getD 0))).modHose h
          fun v => v.afterCommit x) := by
  intro p
  rw [exec_writeComplete_closing hw ht hu hk hf hx, hl]
  exact congrArg s.goesTo (Part.Quiet.settle_commitRecord (b := s.part.reach due) (quiet.of_pumps rfl)
    (Part.items_dispense (p := p) hs hm hfit hc hn hg) rfl rfl (fun _ => rfl) hq hx hph hr)

theorem exec_writeComplete_otherShift (hg : x.target = none) (hs : x.shift ≠ s.part.alc.shift) :
    exec .writeComplete s = s.goesTo ((((s.part.reach due).written i { u with state := .closed, nvClosing := .valid k }).event
      (.done h (x.sequence.getD 0))).modHose h fun v => v.afterCommit x) := by
  rw [exec_writeComplete_closing hw ht hu hk hf hx]
  exact congrArg s.goesTo (Part.Quiet.settle_commitRecord (b := s.part.reach due) (quiet.of_pumps rfl)
    (Part.items_other (p := (s.part.reach due).written i _) hs hc hg _) rfl rfl (fun _ => rfl) hq hx hph hr)

section Loadout

variable {station : Nat} {c : CompId} (hl : u.isLoadout = true) (hg : x.target = some (station, c))
include hl hg

theorem exec_writeComplete_granted {b : BayId} {e : BayEntry} (hb : s.part.bayOf station = some b)
    (he : s.part.rsc.bays.get b = some e) (hgrant : e.grant = x.grant) :
    let p := (s.part.reach due).written i { u with state := .closed, nvClosing := .valid k }
    let told := (p.setTotals (if x.shift = s.part.alc.shift then addTotals s.part.totals x.account standard amount
      else s.part.totals)).loadnoted station c x.grant gross standard
    exec .writeComplete s = s.goesTo (((told.setBay b (some
      { e with
        loaded := e.loaded.set c (e.loaded.get c + gross), noteOffered := true, active := e.active - 1
        timer := if e.active - 1 = 0 then .release (max s.part.now due + 12000000) else e.timer })).event
          (.done h (x.sequence.getD 0))).modHose h fun v => v.afterCommit x) := by
  intro p told
  have restock : told.rsc.state = s.part.rsc.state := congrArg Rsc.state (Part.rsc_loadnoted ..)
  have held : s.part.bayUnderGrant x = some (b, e) := by rw [Part.bayUnderGrant_held hg hb he, if_pos hgrant]
  rw [exec_writeComplete_closing hw ht hu hk hf hx, hl]
  have items := (Part.items_loadout (p := p) (x := x) hc gross standard amount).trans
    (Part.offerLoadnote_granted (p := p.setTotals _) hg held gross standard)
  exact congrArg s.goesTo (Part.Quiet.settle_commitRecord (b := s.part.reach due) (quiet.of_pumps rfl) items (Part.pumps_loadnoted ..)
    restock (fun _ => Part.hose_loadnoted ..)
    ((congrArg Tlg.queue (Part.tlg_loadnoted ..)).trans hq) hx hph hr)

theorem exec_writeComplete_ungranted (hb : s.part.bayUnderGrant x = none) :
    let p := (s.part.reach due).written i { u with state := .closed, nvClosing := .valid k }
    let told := (p.setTotals (if x.shift = s.part.alc.shift then addTotals s.part.totals x.account standard amount
      else s.part.totals)).loadnoted station c x.grant gross standard
    exec .writeComplete s = s.goesTo ((told.event (.done h (x.sequence.getD 0))).modHose h fun v => v.afterCommit x) := by
  intro p told
  rw [exec_writeComplete_closing hw ht hu hk hf hx, hl]
  have items := (Part.items_loadout (p := p) (x := x) hc gross standard amount).trans
    (Part.offerLoadnote_ungranted (p := p.setTotals _) hg hb gross standard)
  exact congrArg s.goesTo (Part.Quiet.settle_commitRecord (b := s.part.reach due) (quiet.of_pumps rfl) items (Part.pumps_loadnoted ..)
    (congrArg Rsc.state (Part.rsc_loadnoted ..)) (fun _ => Part.hose_loadnoted ..)
    ((congrArg Tlg.queue (Part.tlg_loadnoted ..)).trans hq) hx hph hr)

end Loadout

end Alone

end Sys2Proof.Machine
end

section
/-! What stands through the commit step of a hose and the end of its event: the hose, the record it has committed, and the note of
its own claim (06 R114). -/

namespace Sys2Proof.Machine

open Sys2Proof

/-! ## Two further facts of the shared operations -/

/-- A notice that neither gives way at a full queue (R15) nor leaves with a claim's CLAIMs (R17). -/
def Queued.Firm (n : Queued) : Prop := n.yielding = false ∧ ∀ number, isClaimOf number n = false

theorem mem_withoutOldestYielding {l rest : List Queued} (hl : withoutOldestYielding l = some rest) {n : Queued} (hn : n ∈ l)
    (hy : n.yielding = false) : n ∈ rest := by
  induction l generalizing rest with
  | nil => cases hn
  | cons q l ih =>
    unfold withoutOldestYielding at hl
    split at hl
    case isTrue hq =>
      cases hl
      exact (List.mem_cons.mp hn).resolve_left fun e => by simp [← e, hy] at hq
    case isFalse =>
      obtain ⟨tail, htail, rfl⟩ := Option.map_eq_some_iff.mp hl
      rcases List.mem_cons.mp hn with rfl | hn
      · exact List.mem_cons_self
      · exact List.mem_cons_of_mem _ (ih htail hn)

theorem mem_admission_displaced {l rest : List Queued} {y : Bool} (hl : admission l y = .displaced rest) {n : Queued} (hn : n ∈ l)
    (hy : n.yielding = false) : n ∈ rest := by
  unfold admission at hl
  split at hl
  · cases hl
  · split at hl
    · cases hl
    · split at hl
      · cases hl
        exact mem_withoutOldestYielding ‹_› hn hy
      · cases hl

@[simp] theorem Tlg.slots_append (t : Tlg) (r : WriteReq) : (t.append r).slots = t.slots := by
  unfold Tlg.append
  split
  · rfl
  · split <;> rfl

@[simp] theorem Tlg.slots_join (t : Tlg) (r : WriteReq) : (t.join r).slots = t.slots := by
  unfold Tlg.join
  split
  · rfl
  · exact t.slots_append r

theorem Part.refill_shape (p : Part) (c : CompId) : ∃ t : Tlg, p.refill c = p.setTlg t ∧ t.slots = p.tlg.slots := by
  unfold Part.refill
  split
  · exact ⟨_, rfl, rfl⟩
  · exact ⟨_, rfl, Tlg.slots_append _ _⟩

/-- A write taken touches the log's write and its waiting requests alone. -/
theorem Part.takeWrite_shape (p : Part) : ∃ t : Tlg, p.takeWrite = p.setTlg t ∧ t.slots = p.tlg.slots := by
  unfold Part.takeWrite
  split
  · dsimp only
    split
    · obtain ⟨t, ht, hslots⟩ := Part.refill_shape _ _
      exact ⟨t, ht, hslots⟩
    · exact ⟨_, rfl, rfl⟩
  · exact ⟨_, rfl, rfl⟩

/-! ## What stands -/

/-- The hose `h` is `v`, slot `i` holds `u`, no other transaction has that slot, and the notice `n` waits. -/
structure Part.Stands (h : HoseId) (v : Hose) (i : Nat) (u : Slot) (n : Queued) (p : Part) : Prop where
  firm : n.Firm
  own : p.hose h = v
  slot : p.slot i = u
  others : ∀ j y, j ≠ h → (p.hose j).context = some y → y.slot ≠ i
  queued : n ∈ p.snc.queue

namespace Part.Stands

variable {h j : HoseId} {v : Hose} {i : Nat} {u : Slot} {n : Queued} {p q : Part}

theorem congr (hp : p.Stands h v i u n) (hh : q.hoses = p.hoses) (hs : q.tlg.slots = p.tlg.slots)
    (hq : q.snc.queue = p.snc.queue) : q.Stands h v i u n := by
  have hose : ∀ k, q.hose k = p.hose k := fun k => by unfold Part.hose; rw [hh]
  refine ⟨hp.firm, (hose h).trans hp.own, ?_, fun j y hj hy => hp.others j y hj (by rw [← hose]; exact hy), hq ▸ hp.queued⟩
  unfold Part.slot
  rw [hs]
  exact hp.slot

theorem requeue (hp : p.Stands h v i u n) (c : Snc) (hc : n ∈ c.queue) : (p.setSnc c).Stands h v i u n :=
  ⟨hp.firm, hp.own, hp.slot, hp.others, hc⟩

/-- A change of the hose itself that brings it no other record's slot. -/
theorem modOwn (hp : p.Stands h v i u n) (f : Hose → Hose) : (p.modHose h f).Stands h (f v) i u n := by
  refine ⟨hp.firm, by rw [Part.hose_modHose_same, hp.own], hp.slot, fun j y hj hy => ?_, hp.queued⟩
  rw [Part.hose_modHose_ne _ _ hj] at hy
  exact hp.others j y hj hy

/-- A change of another hose that keeps the slot of its transaction. -/
theorem modHose (hp : p.Stands h v i u n) (hj : j ≠ h) (f : Hose → Hose)
    (hf : ∀ y, (f (p.hose j)).context = some y → ∃ z, (p.hose j).context = some z ∧ z.slot = y.slot) :
    (p.modHose j f).Stands h v i u n := by
  refine ⟨hp.firm, (Part.hose_modHose_ne _ _ hj.symm).trans hp.own, hp.slot, fun k y hk hy => ?_, hp.queued⟩
  by_cases hkj : k = j
  · subst hkj
    rw [Part.hose_modHose_same] at hy
    obtain ⟨z, hz, hs⟩ := hf y hy
    exact hs ▸ hp.others k z hk hz
  · rw [Part.hose_modHose_ne _ _ hkj] at hy
    exact hp.others k y hk hy

/-- A change of another hose that leaves its transaction alone. -/
theorem modShell (hp : p.Stands h v i u n) (hj : j ≠ h) (f : Hose → Hose) (hf : (f (p.hose j)).context = (p.hose j).context) :
    (p.modHose j f).Stands h v i u n := hp.modHose hj f fun y hy => ⟨y, hf.symm.trans hy, rfl⟩

/-- A change of another hose that clears its transaction. -/
theorem modCleared (hp : p.Stands h v i u n) (hj : j ≠ h) (f : Hose → Hose) (hf : (f (p.hose j)).context = none) :
    (p.modHose j f).Stands h v i u n := hp.modHose hj f fun y hy => by rw [hf] at hy; cases hy

theorem modContext (hp : p.Stands h v i u n) (hj : j ≠ h) (f : Context → Context) (hf : ∀ z, (f z).slot = z.slot) :
    (p.modContext j f).Stands h v i u n := hp.modHose hj _ fun y hy => by
  obtain ⟨z, hz, rfl⟩ := Option.map_eq_some_iff.mp hy
  exact ⟨z, hz, (hf z).symm⟩

theorem modValves (hp : p.Stands h v i u n) (hj : j ≠ h) (f : Vsq → Vsq) : (p.modValves j f).Stands h v i u n :=
  hp.modShell hj _ rfl

theorem modSlot (hp : p.Stands h v i u n) {l : Nat} (hl : l ≠ i) (f : Slot → Slot) : (p.modSlot l f).Stands h v i u n := by
  refine ⟨hp.firm, hp.own, ?_, hp.others, hp.queued⟩
  rw [← hp.slot]
  unfold Part.modSlot Part.slot
  rw [Part.tlg_setTlg, List.getD_eq_getElem?_getD, List.getD_eq_getElem?_getD, List.getElem?_modify_ne _ _ hl]

theorem ite {c : Prop} [Decidable c] (hp : p.Stands h v i u n) (hq : q.Stands h v i u n) :
    (if c then p else q).Stands h v i u n := by
  split
  · exact hp
  · exact hq

theorem foldHoses (hp : p.Stands h v i u n) (f : Part → HoseId → Part)
    (hf : ∀ r k, r.Stands h v i u n → (f r k).Stands h v i u n) : (allHoses.foldl f p).Stands h v i u n :=
  List.foldlRecOn (motive := fun r => r.Stands h v i u n) allHoses f hp fun r hr k _ => hf r k hr

/-! ## Notices and events -/

theorem event (hp : p.Stands h v i u n) (e : Event) : (p.event e).Stands h v i u n := hp.congr rfl rfl rfl

theorem offer (hp : p.Stands h v i u n) (m : Notice) (y : Bool) : (p.offer m y).Stands h v i u n := by
  unfold Part.offer
  split
  · split
    · exact hp.requeue _ (List.mem_append_left _ hp.queued)
    · exact hp.requeue _ (List.mem_append_left _ (mem_admission_displaced ‹_› hp.queued hp.firm.1))
    · exact hp.requeue _ hp.queued
    · refine Stands.event ?_ _
      exact hp.requeue _ hp.queued
  · exact hp

theorem offerClosing (hp : p.Stands h v i u n) (number : Nat) (m : Notice) : (p.offerClosing number m).Stands h v i u n :=
  (hp.requeue _ (List.mem_filter.mpr ⟨hp.queued, by rw [hp.firm.2]; rfl⟩)).offer _ _

theorem finish (hp : p.Stands h v i u n) (b : Part) : (finish b p).Stands h v i u n := by
  unfold Machine.finish Part.offerStock
  refine hp.ite ?_
  split
  · exact hp.offer _ _
  · exact hp

/-! ## The restock coordinator -/

theorem drainTest (hp : p.Stands h v i u n) : p.drainTest.Stands h v i u n := by
  unfold Part.drainTest Part.enterRequested Part.requestBay
  have requested : (p.setRestock .requested).Stands h v i u n := hp.congr rfl rfl rfl
  refine Stands.ite ?_ hp
  split
  · refine Stands.offer ?_ _ _
    exact requested.congr rfl rfl rfl
  · exact requested

theorem endLoadout (hp : p.Stands h v i u n) (x : Context) : (p.endLoadout x).Stands h v i u n := by
  unfold Part.endLoadout
  split
  · exact hp.congr rfl rfl rfl
  · exact hp

theorem offerLoadnote (hp : p.Stands h v i u n) (x : Context) (gross standard : Nat) :
    (p.offerLoadnote x gross standard).Stands h v i u n := by
  unfold Part.offerLoadnote
  split
  · exact hp
  · have told := fun station c => (hp.offer (.loadnote station (compCode c) x.grant gross standard) false).event
      (.loadnoteOffered station c gross)
    dsimp only
    split
    · exact (told _ _).congr rfl rfl rfl
    · exact told _ _

/-! ## The stop of another hose -/

theorem beginShutting (hp : p.Stands h v i u n) (hj : j ≠ h) : (p.beginShutting j).Stands h v i u n :=
  Stands.ite (hp.modShell hj _ rfl) hp

theorem dropClaim (hp : p.Stands h v i u n) (hj : j ≠ h) : (p.dropClaim j).Stands h v i u n := by
  unfold Part.dropClaim
  split
  · exact (hp.modShell hj _ rfl).offerClosing _ _
  · exact hp

theorem stopBeforeFlow (hp : p.Stands h v i u n) (hj : j ≠ h) (c : Cause) : (p.stopBeforeFlow j c).Stands h v i u n := by
  unfold Part.stopBeforeFlow
  split
  · exact hp
  · rename_i x hx
    have off := (hp.event (.stopped j c)).modShell hj (fun u => { u with holdOff := none }) rfl
    have free : Part.Stands h v i u n (((Part.modHose _ j fun u => { u with holdOff := none }).withdraw j).dropGrant j) :=
      off.congr rfl rfl rfl
    have shut := (free.modShell hj (fun u => { u with pumpWait := none }) rfl).modValves hj fun v => { v with pending := none }
    have dropped := (shut.modShell hj (fun u => { u with reader := { u.reader with supervised := none, grace := none } })
      rfl).dropClaim hj
    exact (((dropped.modSlot (hp.others j x hj hx) _).endLoadout x).modCleared hj _ rfl).drainTest

theorem leaveCommitting (hp : p.Stands h v i u n) (hj : j ≠ h) : (p.leaveCommitting j).Stands h v i u n := by
  unfold Part.leaveCommitting
  split
  · exact hp
  · exact (hp.modCleared hj _ rfl).drainTest

theorem enterShut (hp : p.Stands h v i u n) (hj : j ≠ h) : (p.enterShut j).Stands h v i u n := by
  unfold Part.enterShut
  have shut := fun f : Vsq → Vsq => (hp.modValves hj f).modShell hj
    (fun u => { u with reader := { u.reader with supervised := none, grace := none } }) rfl
  have free : ∀ f : Vsq → Vsq, (((p.modValves j f).superviseOff j).dropGrant j).Stands h v i u n :=
    fun f => (shut f).congr rfl rfl rfl
  exact Stands.ite ((free _).leaveCommitting hj) (free _)

theorem shutTest (hp : p.Stands h v i u n) (hj : j ≠ h) : (p.shutTest j).Stands h v i u n := Stands.ite (hp.enterShut hj) hp

theorem addFaults (hp : p.Stands h v i u n) (hj : j ≠ h) (f : FaultSet) : (p.addFaults j f).Stands h v i u n :=
  hp.modContext hj _ fun _ => rfl

theorem takeCause (hp : p.Stands h v i u n) (hj : j ≠ h) (c : Cause) : (p.takeCause j c).Stands h v i u n := by
  unfold Part.takeCause
  split
  · exact hp.stopBeforeFlow hj c
  · exact hp.stopBeforeFlow hj c
  · have stopped := (hp.modContext hj (fun x => { x with cause := some c }) fun _ => rfl).event (.stopped j c)
    exact ((stopped.modShell hj (fun u => { u with dsc := .stopping }) rfl).beginShutting hj).shutTest hj
  · exact hp.addFaults hj _
  · exact hp.addFaults hj _
  all_goals exact hp

theorem moveValves (hp : p.Stands h v i u n) (hj : j ≠ h) : (p.moveValves j).Stands h v i u n := by
  unfold Part.moveValves
  split
  · exact hp
  · have moved := hp.modValves hj
    exact Stands.ite (moved _) (Stands.ite (((moved _).beginShutting hj).takeCause hj _) ((moved _).modValves hj _))

/-! ## The cut rule -/

theorem writePending (hp : p.Stands h v i u n) (hj : j ≠ h) (value : Nat) : (p.writePending j value).1.Stands h v i u n := by
  unfold Part.writePending
  split
  · exact hp
  · dsimp only
    generalize (_ && _) = accepted
    cases accepted
    · exact hp
    · exact (hp.modValves hj _).moveValves hj

theorem cutTo (hp : p.Stands h v i u n) (hj : j ≠ h) (x : Context) (limit : Int) : (p.cutTo j x limit).Stands h v i u n :=
  Stands.ite hp (Stands.ite (hp.writePending hj _) (hp.takeCause hj _))

theorem runCuts (hp : p.Stands h v i u n) (machine account : Nat) : (p.runCuts (some h) machine account).Stands h v i u n := by
  refine hp.foldHoses _ fun r k hr => ?_
  split
  · exact hr
  · have hk : k ≠ h := fun e => ‹¬_› (congrArg some e)
    split
    · exact hr
    · refine Stands.ite ?_ hr
      split
      · exact hr.cutTo hk _ _
      · exact hr

theorem cutOthers (hp : p.Stands h v i u n) (x : Context) (loadout : Bool) : (p.cutOthers h x loadout).Stands h v i u n :=
  Stands.ite (hp.runCuts _ _) hp

/-! ## The end of the event -/

theorem wakePump (hp : p.Stands h v i u n) (k : PumpId) : (p.wakePump k).Stands h v i u n := Stands.ite (hp.congr rfl rfl rfl) hp

theorem restPump (hp : p.Stands h v i u n) (k : PumpId) : (p.restPump k).Stands h v i u n := Stands.ite (hp.congr rfl rfl rfl) hp

theorem grantLoop (hp : p.Stands h v i u n) (k : PumpId) (fuel : Nat) (starts : List HoseId) :
    (grantLoop k fuel p starts).1.Stands h v i u n := by
  induction fuel generalizing p starts with
  | zero => exact hp
  | succ fuel ih =>
    unfold Machine.grantLoop
    split
    · exact hp
    · split
      · exact hp
      · exact ih (p := p.grantPump k _) (hp.congr rfl rfl rfl) _

theorem arbitrate (hp : p.Stands h v i u n) : p.arbitrate.1.Stands h v i u n := by
  unfold Part.arbitrate
  split
  · exact hp
  · exact (((hp.wakePump .p1).wakePump .p2).grantLoop .p1 4 []).grantLoop .p2 4 _

theorem joinWrite (hp : p.Stands h v i u n) (r : WriteReq) : (p.joinWrite r).Stands h v i u n :=
  hp.congr rfl (Tlg.slots_join _ _) rfl

theorem queueOpening (hp : p.Stands h v i u n) (hj : j ≠ h) : (p.queueOpening j).Stands h v i u n := by
  unfold Part.queueOpening
  split
  · exact hp
  · rename_i x hx
    have numbered := hp.modContext hj (fun z => { z with sequence := some p.tlg.nextSequence }) fun _ => rfl
    refine Stands.joinWrite (p := Part.takeSequence _) ?_ _
    exact (numbered.modSlot (hp.others j x hj hx) _).congr rfl rfl rfl

theorem queueCheckpoint (hp : p.Stands h v i u n) (k : HoseId) : (p.queueCheckpoint k).Stands h v i u n := by
  unfold Part.queueCheckpoint Part.checkpoint
  dsimp only
  repeat' split
  all_goals exact hp.congr rfl rfl rfl

section Settled

variable (hd : v.dsc ≠ .awaitPump) (hb : v.begun = false)

include hd in
theorem startFlow (hp : p.Stands h v i u n) (j : HoseId) : (p.startFlow j).Stands h v i u n := by
  unfold Part.startFlow
  split
  · rename_i x hwait _ hx
    have hj : j ≠ h := by
      rintro rfl
      exact hd (hp.own ▸ hwait)
    exact (hp.modHose hj _ fun y hy => by cases hy; exact ⟨x, hx, rfl⟩).moveValves hj
  · exact hp

include hd in
theorem settlePumps (hp : p.Stands h v i u n) (fuel : Nat) : (settlePumps fuel p).Stands h v i u n := by
  induction fuel generalizing p with
  | zero => exact (hp.restPump _).restPump _
  | succ fuel ih =>
    unfold Machine.settlePumps
    refine Stands.ite ((hp.arbitrate.restPump _).restPump _) (ih (hp.arbitrate.foldHoses _ fun r k hr => ?_))
    exact Stands.ite (hr.startFlow hd k) hr

include hb in
theorem joinRequest (hp : p.Stands h v i u n) (b : Part) (j : HoseId) : (b.joinRequest p j).Stands h v i u n := by
  unfold Part.joinRequest
  split
  case isTrue hbegins =>
    refine hp.queueOpening ?_
    rintro rfl
    rw [hp.own, hb] at hbegins
    cases hbegins
  case isFalse => exact Stands.ite (hp.queueCheckpoint j) hp

include hd hb in
theorem settle (hp : p.Stands h v i u n) (b : Part) : (settle b p).Stands h v i u n :=
  ((hp.settlePumps hd 5).foldHoses _ fun _ j hr => hr.joinRequest hb b j).finish b

end Settled

theorem takeWrite (hp : p.Stands h v i u n) : p.takeWrite.Stands h v i u n := by
  obtain ⟨t, ht, hslots⟩ := p.takeWrite_shape
  rw [ht]
  exact hp.congr rfl hslots rfl

end Part.Stands

end Sys2Proof.Machine
end

section
/-! O42 (06 R114): the commit completion step with an active own claim. -/

namespace Sys2Proof.Machine

open Sys2Proof

/-! ## The count and the tally -/

section Tally

variable {p : Part} {h : HoseId} {x : Context} {c : OwnClaim} {m : MachineRow}

/-- The tally of an active claim carries the own column (02 R55). -/
theorem Part.tallyClaim_active (hc : (p.hose h).claim = some c) (ha : c.status = .active) (gross : Nat) :
    p.tallyClaim h x gross = (p.modHose h fun v => { v with claim := none }).offerClosing c.number
      (.tally p.alc.shift c.machine (p.ownColumn x.position) c.number) := by
  unfold Part.tallyClaim
  simp only [hc, ha]

/-- With room for it a closing notice joins the queue. -/
theorem Part.mem_offerClosing (hj : p.snc.joined = true) (hl : p.snc.queue.length < 16) (number : Nat) (n : Notice) :
    ⟨n, false⟩ ∈ (p.offerClosing number n).snc.queue := by
  unfold Part.offerClosing
  rw [Part.offer_appended (by exact hj) _ _ (Nat.lt_of_le_of_lt (List.length_filter_le _ _) hl)]
  exact List.mem_append_right _ List.mem_cons_self

theorem Part.ownColumn_of_getElem (hm : p.machines[x.position]? = some m) : p.ownColumn x.position = m.column p.station := by
  unfold Part.ownColumn
  rw [hm]

theorem MachineRow.column_setColumn (m : MachineRow) {station : Nat} (h1 : 1 ≤ station) (hs : station ≤ m.drawn.length)
    (value : Nat) : (m.setColumn station value).column station = value := by
  unfold MachineRow.column MachineRow.setColumn
  rw [List.getD_eq_getElem?_getD, List.getElem?_set_self (by omega)]
  rfl

end Tally

/-- What the count and the tally make of the part (items 2 to 4 of R114). -/
def Part.claimTallied (p : Part) (h : HoseId) (x : Context) (c : OwnClaim) (m : MachineRow) (gross standard amount : Nat) : Part :=
  (((p.setMachines (p.machines.set x.position (m.setColumn p.station (m.column p.station + gross)))).setTotals
    (addTotals p.totals x.account standard amount)).modHose h fun v => { v with claim := none }).offerClosing c.number
      (.tally p.alc.shift c.machine (m.column p.station + gross) c.number)

section Tallied

variable {p : Part} {h : HoseId} {x : Context} {c : OwnClaim} {m : MachineRow} {gross : Nat}

theorem Part.countRecord_tallyClaim (hs : x.shift = p.alc.shift) (hm : p.machines[x.position]? = some m)
    (hd : m.drawn.length = 14) (h1 : 1 ≤ p.station) (h14 : p.station ≤ 14) (hfit : m.column p.station + gross ≤ 4294967295)
    (hc : (p.hose h).claim = some c) (ha : c.status = .active) (standard amount : Nat) :
    (p.countRecord x false gross standard amount).tallyClaim h x gross = p.claimTallied h x c m gross standard amount := by
  have row : (p.machines.set x.position (m.setColumn p.station (m.column p.station + gross)))[x.position]?
      = some (m.setColumn p.station (m.column p.station + gross)) :=
    List.getElem?_set_self (List.getElem?_eq_some_iff.mp hm).1
  rw [Part.countRecord_dispense hs hm hfit, Part.tallyClaim_active (p := Part.setTotals _ _) (by exact hc) ha,
    Part.ownColumn_of_getElem (p := Part.setTotals (Part.setMachines _ _) _) row]
  unfold Part.claimTallied
  exact congrArg (fun column => Part.offerClosing _ c.number (.tally p.alc.shift c.machine column c.number))
    (m.column_setColumn h1 (hd ▸ h14) _)

theorem Part.tlg_offerClosing (p : Part) (number : Nat) (n : Notice) : (p.offerClosing number n).tlg = p.tlg := by
  rw [Part.offerClosing_shape]
  rfl

/-- After the tally the record stands, the hose has no claim, and the tally waits. -/
theorem Part.claimTallied_stands {i : Nat} {u : Slot} (hslot : p.slot i = u)
    (hothers : ∀ j y, j ≠ h → (p.hose j).context = some y → y.slot ≠ i) (hj : p.snc.joined = true)
    (hl : p.snc.queue.length < 16) (standard amount : Nat) :
    (p.claimTallied h x c m gross standard amount).Stands h { p.hose h with claim := none } i u
      ⟨.tally p.alc.shift c.machine (m.column p.station + gross) c.number, false⟩ := by
  unfold Part.claimTallied
  refine ⟨⟨rfl, fun _ => rfl⟩, ?_, ?_, fun j y hne hy => ?_, Part.mem_offerClosing (by exact hj) (by exact hl) _ _⟩
  · rw [Part.hose_offerClosing, Part.hose_modHose_same]
    rfl
  · rw [← hslot]
    unfold Part.slot
    rw [Part.tlg_offerClosing]
    rfl
  · rw [Part.hose_offerClosing, Part.hose_modHose_ne _ _ hne] at hy
    exact hothers j y hne hy

end Tallied

/-! ## The rest of the step and the end of the event -/

theorem Stays.offerLoadnote {free : Prop} {p q : Part} (hq : Stays free p q) (x : Context) (gross standard : Nat) :
    Stays free p (q.offerLoadnote x gross standard) := by
  unfold Part.offerLoadnote
  split
  · exact hq
  · rename_i station c _
    have told := (hq.offer (.loadnote station (compCode c) x.grant gross standard) false).event (.loadnoteOffered station c gross)
    dsimp only
    split
    · refine told.setBay _ _ fun y hy => ?_
      rw [Stays.bayUnderGrant_holds ‹_›]
      cases hy
      rfl
    · exact told

theorem Stays.cutOthers {free : Prop} {p q : Part} (hq : Stays free p q) (h : HoseId) (x : Context) (loadout : Bool) :
    Stays free p (q.cutOthers h x loadout) := Stays.ite (hq.runCuts _ _ _) hq

theorem Stays.endCommit {free : Prop} {p q : Part} (hq : Stays free p q) (h : HoseId) : Stays free p (q.endCommit h) :=
  Stays.ite (hq.leaveCommitting h) (hq.modContext h _)

theorem Hose.dsc_afterCommit_ne (v : Hose) (x : Context) : (v.afterCommit x).dsc ≠ .awaitPump := by
  unfold Hose.afterCommit
  dsimp only
  split <;> decide

/-- The hose leaves COMMITTING or stays in it: it keeps its claim, waits for no pump and has no flow begun. -/
theorem Part.Stands.endCommit {h : HoseId} {v : Hose} {i : Nat} {u : Slot} {n : Queued} {p : Part} (hp : p.Stands h v i u n)
    (hd : v.dsc = .committing) :
    ∃ w : Hose, (p.endCommit h).Stands h w i u n ∧ w.claim = v.claim ∧ w.dsc ≠ .awaitPump ∧ w.begun = false := by
  have begun : v.begun = false := by
    unfold Hose.begun
    rw [hd]
  have waits : v.dsc ≠ .awaitPump := hd.trans_ne (by decide)
  unfold Part.endCommit
  split
  · cases hx : (p.hose h).context with
    | none =>
      unfold Part.leaveCommitting
      rw [hx]
      exact ⟨v, hp, rfl, waits, begun⟩
    | some x =>
      rw [Part.leaveCommitting_eq hx]
      exact ⟨v.afterCommit x, (hp.modOwn fun v => v.afterCommit x).drainTest, rfl, v.dsc_afterCommit_ne x, v.begun_afterCommit x⟩
  · exact ⟨_, hp.modOwn _, rfl, waits, begun⟩

/-- What follows the tally in an event that completes a write (items 5 to 8 of R114, 07 R128). -/
def Part.afterTally (p b : Part) (h : HoseId) (x : Context) (gross standard : Nat) : Part :=
  (settle b ((((p.cutOthers h x false).offerLoadnote x gross standard).event (.done h (x.sequence.getD 0))).endCommit h)).takeWrite

section AfterTally

variable {p : Part} {h : HoseId}

theorem Part.Stands.afterTally {v : Hose} {i : Nat} {u : Slot} {n : Queued} (hp : p.Stands h v i u n) (hd : v.dsc = .committing)
    (b : Part) (x : Context) (gross standard : Nat) :
    ∃ w : Hose, (p.afterTally b h x gross standard).Stands h w i u n ∧ w.claim = v.claim := by
  obtain ⟨w, hw, hclaim, hwaits, hbegun⟩ :=
    (((hp.cutOthers x false).offerLoadnote x gross standard).event (.done h (x.sequence.getD 0))).endCommit hd
  exact ⟨w, (hw.settle hwaits hbegun b).takeWrite, hclaim⟩

/-- What follows the tally keeps what a hose event keeps; the write that is taken changes the log alone. -/
theorem Part.afterTally_stays (p b : Part) (h : HoseId) (x : Context) (gross standard : Nat) :
    ∃ (q : Part) (t : Tlg), p.afterTally b h x gross standard = q.setTlg t ∧ Stays True p q := by
  obtain ⟨t, ht, -⟩ := Part.takeWrite_shape (settle b ((((p.cutOthers h x false).offerLoadnote x gross standard).event
    (.done h (x.sequence.getD 0))).endCommit h))
  have stays := ((((Stays.refl (free := True) (p := p)).cutOthers h x false).offerLoadnote x gross standard).event
    (.done h (x.sequence.getD 0))).endCommit h
  exact ⟨_, t, ht, stays.settle (fun _ => trivial) b⟩

variable {x : Context} {c : OwnClaim} {m : MachineRow} {gross standard amount : Nat}

/-- The table, the totals and the stock after the tally. -/
theorem Part.afterTally_kept (p b : Part) (h : HoseId) :
    let q := (p.claimTallied h x c m gross standard amount).afterTally b h x gross standard
    q.machines = p.machines.set x.position (m.setColumn p.station (m.column p.station + gross))
      ∧ q.totals = addTotals p.totals x.account standard amount ∧ (q.inv, q.pins, q.cfl) = (p.inv, p.pins, p.cfl) := by
  intro q
  obtain ⟨r, t, hr, stays⟩ := (p.claimTallied h x c m gross standard amount).afterTally_stays b h x gross standard
  have kept : Stays True _ (p.claimTallied h x c m gross standard amount) := (Stays.refl (p := _)).offerClosing _ _
  have all := kept.trans stays
  have hq : q = r.setTlg t := hr
  rw [hq]
  exact ⟨all.machines_eq, all.totals_eq, Prod.ext all.inv_eq (Prod.ext all.pins_eq all.cfl_eq)⟩

/-- The hose, the record and the tally at the end of the event. -/
theorem Part.afterTally_stands {i : Nat} {u : Slot} (hslot : p.slot i = u)
    (hothers : ∀ j y, j ≠ h → (p.hose j).context = some y → y.slot ≠ i) (hj : p.snc.joined = true)
    (hroom : p.snc.queue.length < 16) (hd : (p.hose h).dsc = .committing) (b : Part) :
    let q := (p.claimTallied h x c m gross standard amount).afterTally b h x gross standard
    (q.hose h).claim = none ∧ q.slot i = u
      ∧ ⟨.tally p.alc.shift c.machine (m.column p.station + gross) c.number, false⟩ ∈ q.snc.queue := by
  obtain ⟨w, stands, hclaim⟩ := (Part.claimTallied_stands (x := x) (c := c) (m := m) (gross := gross) hslot hothers hj hroom
    standard amount).afterTally hd b x gross standard
  exact ⟨(congrArg Hose.claim stands.own).trans hclaim, stands.slot, stands.queued⟩

end AfterTally

/-- A column set in one row leaves the entries, the holds and the other rows' columns. -/
theorem getElem?_set_setColumn {l : List MachineRow} {position : Nat} {m : MachineRow} (hm : l[position]? = some m)
    {station value j : Nat} {n : MachineRow} (hn : (l.set position (m.setColumn station value))[j]? = some n) :
    ∃ o, l[j]? = some o ∧ n.entry = o.entry ∧ n.hold = o.hold ∧ (j ≠ position → n.drawn = o.drawn) := by
  by_cases hj : j = position
  · subst hj
    rw [List.getElem?_set_self (List.getElem?_eq_some_iff.mp hm).1] at hn
    cases hn
    exact ⟨m, hm, rfl, rfl, fun hne => absurd rfl hne⟩
  · rw [List.getElem?_set_ne (Ne.symm hj)] at hn
    exact ⟨n, hn, rfl, rfl, fun _ => rfl⟩

/-! ## The command -/

section Claimed

variable {s : State} {h : HoseId} {i : Nat} {x : Context} {c : OwnClaim} {m : MachineRow} {u : Slot} {k : Closing}
  {final gross standard amount due : Nat} {temperature : Int} {cause : Cause} {faults : FaultSet}
  (hw : s.part.tlg.writing = some (.closing h i)) (ht : s.part.tlg.writeTimer = some due)
  (hu : s.part.tlg.slots[i]? = some u) (hk : u.closing = some k) (hl : u.isLoadout = false)
  (hf : k.fields = .fill final gross standard temperature amount cause faults)
  (hx : (s.part.hose h).context = some x) (hs : x.shift = s.part.alc.shift) (hc : (s.part.hose h).claim = some c)
  (ha : c.status = .active) (hm : s.part.machines[x.position]? = some m) (hdrawn : m.drawn.length = 14)
  (h1 : 1 ≤ s.part.station) (h14 : s.part.station ≤ 14) (hfit : m.column s.part.station + gross ≤ 4294967295)
include hw ht hu hk hl hf hx hs hc ha hm hdrawn h1 h14 hfit

/-- With an active own claim the record is counted and tallied, and the rest of the event follows. -/
theorem exec_writeComplete_claimed : exec .writeComplete s = s.goesTo
    ((((s.part.reach due).written i { u with state := .closed, nvClosing := .valid k }).claimTallied h x c m gross standard
      amount).afterTally (s.part.reach due) h x gross standard) := by
  rw [exec_writeComplete_closing hw ht hu hk hf hx, hl]
  unfold Part.commitRecord Part.afterTally
  rw [Part.countRecord_tallyClaim (p := (s.part.reach due).written i _) hs hm hdrawn h1 h14 hfit hc ha]

end Claimed

end Sys2Proof.Machine
end

section
/-! O42: the commit completion step (06 R114). -/

namespace Sys2Proof.Machine

open Sys2Proof

/-- Settles O42: with no own claim by the items of the step that apply, and with an active own claim by what the end of the event
leaves alone. -/
theorem commitCompletion : Obligations.CommitCompletion := by
  unfold Obligations.CommitCompletion
  refine ⟨?alone, ?claimed, ?loadout⟩
  case alone =>
    intro s h i x u k final gross standard amount due temperature cause faults quiet hw ht hq hu hk hf hx hc hn hg hr hph p left
    exact ⟨fun m hs hl hm hfit => exec_writeComplete_dispense quiet hw ht hq hu hk hf hx hc hr hph hn hg hs hl hm hfit,
      fun hs => exec_writeComplete_otherShift quiet hw ht hq hu hk hf hx hc hr hph hg hs⟩
  case claimed =>
    intro s h i x c m u k final gross standard amount due temperature cause faults hw ht hu hk hl hf hd hx hs hc ha hm hdrawn h1 h14
      hfit hj hroom hothers
    have hlt : i < s.part.tlg.slots.length := (List.getElem?_eq_some_iff.mp hu).1
    have hslot := Part.slot_written (p := s.part.reach due) hlt { u with state := .closed, nvClosing := .valid k }
    obtain ⟨hclaim, hkept, tally⟩ := Part.afterTally_stands (x := x) (c := c) (m := m) (gross := gross) (standard := standard)
      (amount := amount) hslot hothers hj hroom hd (s.part.reach due)
    obtain ⟨machines, totals, kept⟩ := Part.afterTally_kept (x := x) (c := c) (m := m) (gross := gross) (standard := standard)
      (amount := amount) ((s.part.reach due).written i { u with state := .closed, nvClosing := .valid k }) (s.part.reach due) h
    refine ⟨_, exec_writeComplete_claimed hw ht hu hk hl hf hx hs hc ha hm hdrawn h1 h14 hfit, hclaim,
      congrArg Slot.state hkept, congrArg Slot.nvClosing hkept, tally, ?_, totals, kept⟩
    intro j n hn
    exact getElem?_set_setColumn hm (machines ▸ hn)
  case loadout =>
    intro s h i x u k station c final gross standard amount due temperature cause faults quiet hw ht hq hu hl hk hf hx hc hg hr hph
      p counted told left
    refine ⟨fun b e hb he hgrant => exec_writeComplete_granted quiet hw ht hq hu hk hf hx hc hr hph hl hg hb he hgrant,
      fun hb => exec_writeComplete_ungranted quiet hw ht hq hu hk hf hx hc hr hph hl hg ?_⟩
    rcases hb with hb | ⟨b, e, hb, he, hgrant⟩
    · exact Part.bayUnderGrant_unheld hg hb
    · rw [Part.bayUnderGrant_held hg hb he, if_neg hgrant]

end Sys2Proof.Machine
end

section
/-! The checks of an identification (03 R53). -/

namespace Sys2Proof.Machine

open Sys2Proof

theorem ListenState.ne_ready {l : ListenState} : l ≠ .ready ↔ l = .listen := by cases l <;> simp

/-- Check 9 (09 R165) fails at a depot alone, for an entry whose inlet's station holds no bay. -/
theorem Part.grantHeld_false (p : Part) (e : MachineEntry) :
    p.grantHeld e = false ↔ p.role = some .depot ∧ (e.inlet.bind fun t => p.bayOf t.1) = none := by
  unfold Part.grantHeld
  cases hr : p.role with
  | none => simp
  | some r =>
    cases r with
    | bowser => simp
    | depot => cases hi : e.inlet <;> simp

theorem Compartment.ready_false (c : Compartment) : c.ready = false ↔ c.openingBook = none ∨ c.low = true := by
  unfold Compartment.ready
  cases c.openingBook <;> simp

/-- The checks from the seventh on, with each test as R53 words it. -/
theorem Part.entryRefusal_eq (p : Part) (st : HoseSettings) (m : MachineRow) : p.entryRefusal st m =
    if m.hold.held = true then some .held
    else if m.entry.permits (((p.compSettings st.compartment).map (·.grade)).getD 0) = false then some .wrongGrade
    else if p.role = some .depot ∧ (m.entry.inlet.bind fun t => p.bayOf t.1) = none then some .noGrant
    else if (p.comp st.compartment).openingBook = none ∨ (p.comp st.compartment).low = true then some .noStock
    else if p.reservable = none then some .logFull
    else none := by
  unfold Part.entryRefusal
  simp only [Bool.not_eq_true', Part.grantHeld_false, Compartment.ready_false, Option.isNone_iff_eq_none]

/-- Settles O18: the checks of a hose with a section, and those of the entry that the lookup found. -/
theorem authorisationChecks : Obligations.AuthorisationChecks := by
  intro p h method found st hst
  unfold Part.refusalOf
  simp only [hst, Bool.not_eq_true', ListenState.ne_ready, Part.entryRefusal_eq]
  cases method <;> rfl

end Sys2Proof.Machine
end

section
/-! The volumes that claims reserve (03 R49, R54, R57), each as the sum over the tables that the statements write out. -/

namespace Sys2Proof.Machine

open Sys2Proof

/-- A sum over the members that a test picks counts 0 for the others. -/
theorem sum_map_filter_eq {α : Type} (l : List α) (test : α → Bool) (f : α → Nat) :
    ((l.filter test).map f).sum = (l.map fun a => if test a = true then f a else 0).sum := by
  induction l with
  | nil => rfl
  | cons a l ih =>
    cases ht : test a <;> simp [ht, ih]

/-- What a hose reserves under an ACTIVE own claim that a test picks: its active preset (R49). -/
def Part.claimedVolume (p : Part) (pick : OwnClaim → Bool) (k : HoseId) : Nat :=
  match (p.hose k).claim with
  | some c => if c.status = .active ∧ pick c = true then (p.hose k).valves.active else 0
  | none => 0

theorem Part.claimedVolume_eq (p : Part) (pick : OwnClaim → Bool) (k : HoseId) :
    p.claimedVolume pick k = if p.holdsClaim pick k = true then (p.hose k).valves.active else 0 := by
  unfold Part.claimedVolume Part.holdsClaim
  cases (p.hose k).claim <;> simp

theorem Part.ownReserved_eq (p : Part) (hoses : List HoseId) (pick : OwnClaim → Bool) :
    p.ownReserved hoses pick = (hoses.map (p.claimedVolume pick)).sum := by
  unfold Part.ownReserved
  rw [sum_map_filter_eq]
  simp only [← Part.claimedVolume_eq]

theorem otherHoses_eq (h : HoseId) : otherHoses h = allHoses.filter fun k => decide (k ≠ h) := by
  cases h <;> rfl

theorem Part.drawnAccount_eq (p : Part) (account : Nat) : p.drawnAccount account =
    ((p.machines.filter fun r => decide (r.entry.account = account)).map fun r => r.drawn.sum).sum := rfl

theorem MachineEntry.limit_none {e : MachineEntry} (h : e.inlet ≠ none ∨ e.allowance = none) : e.limit = none := by
  unfold MachineEntry.limit
  cases hi : e.inlet with
  | none => simpa [hi] using h
  | some t => rfl

theorem MachineEntry.limit_some {e : MachineEntry} {allowance : Nat} (hi : e.inlet = none) (ha : e.allowance = some allowance) :
    e.limit = some allowance := by
  unfold MachineEntry.limit
  rw [hi, ha]
  rfl

end Sys2Proof.Machine
end

section
/-! The terms of an identification (03 R54, R55, 09 R165). -/

namespace Sys2Proof.Machine

open Sys2Proof

/-! ## The least of the terms and the refusal it names (R55) -/

section Least

variable (t : Terms)

theorem Terms.least_le : t.least ≤ t.requested ∧ t.least ≤ t.stock ∧ (∀ x, t.machine = some x → t.least ≤ x)
    ∧ ∀ x, t.account = some x → t.least ≤ x := by
  unfold Terms.least
  refine ⟨by omega, by omega, fun x hx => ?_, fun x hx => ?_⟩ <;> rw [hx, Option.getD_some] <;> omega

/-- A missing term stands for the requested one, so the least is the value of a term that is present. -/
theorem Terms.least_mem : t.least = t.requested ∨ t.least = t.stock ∨ t.machine = some t.least ∨ t.account = some t.least := by
  obtain ⟨requested, machine, account, stock⟩ := t
  unfold Terms.least
  cases machine <;> cases account <;>
    simp only [Option.getD_none, Option.getD_some, Option.some.injEq, reduceCtorEq] <;> omega

theorem Terms.refusal_eq : t.refusal = if t.machine = some t.least ∨ t.requested = t.least then .noAllotment
    else if t.account = some t.least then .accountCeiling else .noStock := by
  unfold Terms.refusal
  simp only [or_comm]

end Least

/-! ## The value of each term (R54) -/

section Values

variable {p : Part} {h : HoseId} {m : MachineRow}

theorem Part.requestedTerm_of_not_depot (hr : p.role ≠ some .depot) (e : MachineEntry) :
    p.requestedTerm h e = (((p.hose h).standing.getD (e.capacity * 100) : Nat) : Int) := by
  unfold Part.requestedTerm
  split
  · exact absurd ‹_› hr
  · rfl

theorem Part.machineTerm_none (hn : m.entry.inlet ≠ none ∨ m.entry.allowance = none) : p.machineTerm h m = none := by
  unfold Part.machineTerm
  rw [MachineEntry.limit_none hn]
  rfl

theorem Part.machineTerm_some {allowance : Nat} (hi : m.entry.inlet = none) (ha : m.entry.allowance = some allowance) :
    p.machineTerm h m = some ((allowance * 100 : Int) - m.drawn.sum
      - (p.peerReserved fun c => decide (c.machine = m.entry.number) : Nat)
      - (((allHoses.filter fun k => decide (k ≠ h)).map
          (p.claimedVolume fun c => decide (c.machine = m.entry.number))).sum : Nat)) := by
  unfold Part.machineTerm
  rw [MachineEntry.limit_some hi ha, Part.ownReserved_eq, otherHoses_eq]
  simp only [Option.map_some, MachineRow.total, Nat.cast_mul, Nat.cast_ofNat]
  rfl

theorem Part.accountTerm_none {account : Nat} (hc : p.ceiling account = 0) : p.accountTerm h account = none := if_pos hc

theorem Part.accountTerm_some {account : Nat} (hc : p.ceiling account ≠ 0) : p.accountTerm h account = some
    ((p.ceiling account * 100 : Int)
      - (((p.machines.filter fun r => decide (r.entry.account = account)).map fun r => r.drawn.sum).sum : Nat)
      - (p.peerReserved fun c => decide (c.account = account) : Nat)
      - (((allHoses.filter fun k => decide (k ≠ h)).map
          (p.claimedVolume fun c => decide (c.account = account))).sum : Nat)) := by
  unfold Part.accountTerm
  rw [if_neg hc, Part.ownReserved_eq, otherHoses_eq, Part.drawnAccount_eq]
  simp only [Nat.cast_mul, Nat.cast_ofNat]
  rfl

theorem DscState.fillable_iff (d : DscState) : d.fillable = true ↔ d = .authorising ∨ d = .awaitPump ∨ d = .flowing := by
  cases d <;> decide

/-- What a hose has still to meter from a compartment, by the three states in which it may (R54). -/
def Part.toMeter (p : Part) (c : CompId) (k : HoseId) : Nat :=
  match (p.hose k).context with
  | some x =>
    if ((p.hose k).dsc = .authorising ∨ (p.hose k).dsc = .awaitPump ∨ (p.hose k).dsc = .flowing) ∧ x.compartment = c
    then (p.hose k).valves.active - x.metered else 0
  | none => 0

theorem Part.unmetered_eq (p : Part) (c : CompId) (k : HoseId) : p.unmetered c k = p.toMeter c k := by
  unfold Part.unmetered Part.toMeter
  cases (p.hose k).context with
  | none => rfl
  | some x => simp only [Bool.and_eq_true, decide_eq_true_eq, DscState.fillable_iff]

theorem Part.stockTerm_eq (p : Part) (h : HoseId) (c : CompId) : p.stockTerm h c =
    (p.comp c).book - ((((p.compSettings c).map (·.reserve)).getD 0 * 100 : Nat) : Int)
      - (((allHoses.filter fun k => decide (k ≠ h)).map (p.toMeter c)).sum : Nat) := by
  unfold Part.stockTerm
  rw [otherHoses_eq, funext (p.unmetered_eq c)]

end Values

/-! ## The requested term of a loadout (09 R165) -/

section Loadout

variable {p : Part} {station : Nat} {c : CompId} {b : BayId} {e : BayEntry}

theorem Part.requestedTerm_depot {h : HoseId} {entry : MachineEntry} (hr : p.role = some .depot)
    (hi : entry.inlet = some (station, c)) : p.requestedTerm h entry = p.loadoutTerm station c := by
  unfold Part.requestedTerm
  rw [hr, hi]

variable (hb : p.bayOf station = some b) (he : p.rsc.bays.get b = some e)
include hb he

theorem Part.loadoutTerm_told (hs : 0 < e.spaces.get c) :
    p.loadoutTerm station c = max 0 ((e.spaces.get c * 100 : Int) - e.loaded.get c) := by
  unfold Part.loadoutTerm
  simp only [hb, Option.bind_some, he, if_pos hs, Nat.cast_mul, Nat.cast_ofNat]

theorem Part.loadoutTerm_figures (hs : e.spaces.get c = 0) {a : StockFigures × StockFigures}
    (ha : (p.snc.peers[station - 1]?).bind (·.figures) = some a) : p.loadoutTerm station c =
      max 0 ((((if c = .a then a.1 else a.2).capacity : Int) - (if c = .a then a.1 else a.2).gauge) * 100) := by
  unfold Part.loadoutTerm
  simp only [hb, Option.bind_some, he, hs, lt_irrefl, if_false, ha]
  cases c <;> rfl

theorem Part.loadoutTerm_unheard (hs : e.spaces.get c = 0) (ha : (p.snc.peers[station - 1]?).bind (·.figures) = none) :
    p.loadoutTerm station c = 0 := by
  unfold Part.loadoutTerm
  simp only [hb, Option.bind_some, he, hs, lt_irrefl, if_false, ha]

end Loadout

/-- Settles O19: the least of the terms, and each term by its equation. -/
theorem leastTermNamesTheRefusal : Obligations.LeastTermNamesTheRefusal := by
  refine ⟨fun t => ?_, fun p h st m => ?_⟩
  · obtain ⟨requested, stock, machine, account⟩ := t.least_le
    exact ⟨requested, stock, machine, account, t.least_mem, t.refusal_eq⟩
  · refine ⟨fun hr => Part.requestedTerm_of_not_depot hr _, ?_, Part.machineTerm_none, ?_, Part.accountTerm_none, ?_, ?_⟩
    · intro station c b e hr hi hb he
      have asked : (p.terms h st m).requested = p.loadoutTerm station c := Part.requestedTerm_depot hr hi
      rw [asked]
      exact ⟨Part.loadoutTerm_told hb he, fun hs a ha => Part.loadoutTerm_figures hb he hs ha, Part.loadoutTerm_unheard hb he⟩
    · exact fun allowance hi ha => Part.machineTerm_some hi ha
    · exact fun hc => Part.accountTerm_some hc
    · exact p.stockTerm_eq h st.compartment

end Sys2Proof.Machine
end

section
/-! The cut rule (03 R57 to R59): the limits, the transactions it runs for, and what a run leaves. -/

namespace Sys2Proof.Machine

open Sys2Proof

/-! ## The effect of a limit (R59) -/

section Cut

variable {p : Part} {h : HoseId} {x : Context} {limit : Int}

theorem Part.cutTo_above (hl : ((p.hose h).valves.active : Int) ≤ limit) : p.cutTo h x limit = p := if_pos hl

theorem Part.cutTo_lowers (hl : limit < (p.hose h).valves.active) (hm : (x.metered : Int) < limit) :
    p.cutTo h x limit = (p.writePending h limit.toNat).1 := by
  unfold Part.cutTo
  rw [if_neg (Int.not_le.mpr hl), if_pos hm]

theorem Part.cutTo_stops (hl : limit < (p.hose h).valves.active) (hm : limit ≤ x.metered) :
    p.cutTo h x limit = p.takeCause h .claimCut := by
  unfold Part.cutTo
  rw [if_neg (Int.not_le.mpr hl), if_neg (Int.not_lt.mpr hm)]

end Cut

/-! ## The limits (R57) -/

section Limits

variable {p : Part} {h : HoseId} {x : Context}

theorem Part.machineLimit_some {m : MachineRow} {allowance : Nat} (hm : p.machines[x.position]? = some m)
    (hi : m.entry.inlet = none) (ha : m.entry.allowance = some allowance) : p.machineLimit h x = some
      ((allowance * 100 : Int) - m.drawn.sum
        - (p.peerReserved fun c => decide (c.origin < p.station) && decide (c.machine = x.machine) : Nat)
        - (((allHoses.filter fun k => decide (hoseNumber k < hoseNumber h)).map
            (p.claimedVolume fun c => decide (c.machine = x.machine))).sum : Nat)) := by
  unfold Part.machineLimit
  simp only [hm, MachineEntry.limit_some hi ha, Part.ownReserved_eq, MachineRow.total, Nat.cast_mul, Nat.cast_ofNat]
  rfl

theorem Part.machineLimit_none {m : MachineRow} (hm : p.machines[x.position]? = some m)
    (hn : m.entry.inlet ≠ none ∨ m.entry.allowance = none) : p.machineLimit h x = none := by
  unfold Part.machineLimit
  simp only [hm, MachineEntry.limit_none hn]

theorem Part.accountLimit_some (hc : p.ceiling x.account ≠ 0) : p.accountLimit h x = some
    ((p.ceiling x.account * 100 : Int)
      - (((p.machines.filter fun r => decide (r.entry.account = x.account)).map fun r => r.drawn.sum).sum : Nat)
      - (p.peerReserved fun c => decide (c.origin < p.station) && decide (c.account = x.account) : Nat)
      - (((allHoses.filter fun k => decide (hoseNumber k < hoseNumber h)).map
          (p.claimedVolume fun c => decide (c.account = x.account))).sum : Nat)) := by
  unfold Part.accountLimit
  rw [if_neg hc, Part.ownReserved_eq, Part.drawnAccount_eq]
  simp only [Nat.cast_mul, Nat.cast_ofNat]
  rfl

theorem Part.accountLimit_none (hc : p.ceiling x.account = 0) : p.accountLimit h x = none := if_pos hc

theorem Part.cutLimit_of_limits {machine account : Option Int} (hm : p.machineLimit h x = machine)
    (ha : p.accountLimit h x = account) : p.cutLimit h x = leastOf machine account := by
  unfold Part.cutLimit
  rw [hm, ha]

end Limits

/-! ## The transactions the rule runs for (R58) -/

theorem Part.cutRuns_iff (p : Part) (machine account : Nat) (h : HoseId) (x : Context) :
    p.cutRuns machine account h x = true ↔
      ((p.hose h).dsc = .authorising ∨ (p.hose h).dsc = .awaitPump ∨ (p.hose h).dsc = .flowing)
      ∧ x.shift = p.alc.shift ∧ (∀ c, (p.hose h).claim = some c → c.status = .active)
      ∧ (x.machine = machine ∨ x.account = account ∧ p.ceiling x.account ≠ 0) := by
  unfold Part.cutRuns
  cases (p.hose h).claim <;>
    simp only [Bool.and_eq_true, Bool.or_eq_true, decide_eq_true_eq, beq_iff_eq, DscState.fillable_iff, Option.some.injEq,
      forall_eq', reduceCtorEq, false_implies, implies_true, and_true, true_and, and_assoc]

/-! ## A run over the hoses -/

section Run

variable (p : Part) (except : Option HoseId) (machine account : Nat)

/-- What a run of the rule does at one hose: the limit is taken from the part before any cut (log 25). -/
def Part.cutAt (q : Part) (h : HoseId) : Part :=
  if some h = except then q
  else match (p.hose h).context with
    | none => q
    | some x =>
      if p.cutRuns machine account h x then
        match p.cutLimit h x with
        | some limit => q.cutTo h x limit
        | none => q
      else q

theorem Part.runCuts_eq : p.runCuts except machine account = allHoses.foldl (p.cutAt except machine account) p := rfl

variable {p except machine account}

/-- A hose for whose transaction the rule does not run, or for which no limit is present, is passed over. -/
theorem Part.cutAt_passes {h : HoseId} (hn : ∀ x, some h ≠ except → (p.hose h).context = some x →
      p.cutRuns machine account h x = true → p.cutLimit h x = none) (q : Part) :
    p.cutAt except machine account q h = q := by
  unfold Part.cutAt
  by_cases he : some h = except
  · rw [if_pos he]
  · rw [if_neg he]
    cases hx : (p.hose h).context with
    | none => rfl
    | some x =>
      dsimp only
      split
      · rw [hn x he hx ‹_›]
      · rfl

theorem Part.cutAt_cuts {h : HoseId} {x : Context} {limit : Int} (he : some h ≠ except) (hx : (p.hose h).context = some x)
    (hr : p.cutRuns machine account h x = true) (hl : p.cutLimit h x = some limit) (q : Part) :
    p.cutAt except machine account q h = q.cutTo h x limit := by
  unfold Part.cutAt
  simp only [if_neg he, hx, hr, if_true, hl]

/-- A fold over the hoses of which all but one leave every part alone. -/
theorem foldl_allHoses_one {f : Part → HoseId → Part} (h : HoseId) (hf : ∀ q k, k ≠ h → f q k = q) (p : Part) :
    allHoses.foldl f p = f p h := by
  cases h <;> simp [allHoses, hf]

theorem Part.runCuts_one {h : HoseId} {x : Context} {limit : Int} (he : some h ≠ except) (hx : (p.hose h).context = some x)
    (hr : p.cutRuns machine account h x = true) (hl : p.cutLimit h x = some limit)
    (ho : ∀ k y, k ≠ h → some k ≠ except → (p.hose k).context = some y → p.cutRuns machine account k y = false) :
    p.runCuts except machine account = p.cutTo h x limit := by
  have passed (q : Part) (k : HoseId) (hk : k ≠ h) : p.cutAt except machine account q k = q :=
    Part.cutAt_passes (fun y hke hy hrun => absurd hrun (by simp [ho k y hk hke hy])) q
  rw [Part.runCuts_eq, foldl_allHoses_one h passed, Part.cutAt_cuts he hx hr hl]

theorem Part.runCuts_none (hn : ∀ h x, some h ≠ except → (p.hose h).context = some x →
      p.cutRuns machine account h x = true → p.cutLimit h x = none) : p.runCuts except machine account = p := by
  rw [Part.runCuts_eq]
  exact List.foldl_fixed' (fun h => Part.cutAt_passes (hn h) p) allHoses

end Run

theorem Part.cutOthers_current {p : Part} {x : Context} (hs : x.shift = p.alc.shift) (h : HoseId) :
    p.cutOthers h x false = p.runCuts (some h) x.machine x.account := if_pos ⟨hs, rfl⟩

/-- Settles O25: the effect of a limit, each limit by its equation, and the runs that cut nothing or one hose. -/
theorem cutRule : Obligations.CutRule := by
  refine ⟨fun p h x limit => ⟨Part.cutTo_above, Part.cutTo_lowers, Part.cutTo_stops⟩, fun p h x => ?_,
    fun p machine account except => ⟨Part.runCuts_none, ?_, ?_⟩⟩
  · exact ⟨fun m allowance hm hi ha => Part.machineLimit_some hm hi ha, fun m hm hn => Part.machineLimit_none hm hn,
      fun hc => Part.accountLimit_some hc, Part.accountLimit_none, fun l hm ha => Part.cutLimit_of_limits hm ha,
      fun l hm ha => Part.cutLimit_of_limits hm ha, fun l k hm ha => Part.cutLimit_of_limits hm ha,
      fun hm ha => Part.cutLimit_of_limits hm ha, fun machine account => p.cutRuns_iff machine account h x⟩
  · exact fun h x limit he hx hr hl ho => Part.runCuts_one he hx hr hl ho
  · exact fun h x => ⟨fun hs => Part.cutOthers_current hs h, p.cutOthers_loadout h x,
      fun hs => Part.cutOthers_other hs false⟩

end Sys2Proof.Machine
end

section
/-! Claim numbers and the claims' timers (03 R46, R48, R49, R52). -/

namespace Sys2Proof.Machine

open Sys2Proof

/-! ## Claim numbers (R48) -/

/-- The value after one of the claim counter, from 65535 to 1. -/
def claimAfter (n : Nat) : Nat := if n = 65535 then 1 else n + 1

theorem claimAfter_range {n : Nat} (hn : n ≤ 65535) : 1 ≤ claimAfter n ∧ claimAfter n ≤ 65535 := by
  unfold claimAfter
  split <;> omega

theorem nextClaim_free {held : List Nat} {n : Nat} (hf : claimAfter n ∉ held) (fuel : Nat) :
    nextClaim held (fuel + 1) n = claimAfter n := if_neg hf

theorem nextClaim_held {held : List Nat} {n : Nat} (hh : claimAfter n ∈ held) (fuel : Nat) :
    nextClaim held (fuel + 1) n = nextClaim held fuel (claimAfter n) := if_pos hh

theorem nextClaim_le (held : List Nat) (fuel : Nat) {n : Nat} (hn : n ≤ 65535) : nextClaim held fuel n ≤ 65535 := by
  induction fuel generalizing n with
  | zero => exact hn
  | succ fuel ih =>
    by_cases hh : claimAfter n ∈ held
    · rw [nextClaim_held hh]
      exact ih (claimAfter_range hn).2
    · rw [nextClaim_free hh]
      exact (claimAfter_range hn).2

/-- The numbers that the search for the next claim number tries, in order. -/
def claimsTried : Nat → Nat → List Nat
  | 0, _ => []
  | fuel + 1, n => claimAfter n :: claimsTried fuel (claimAfter n)

/-- Where the search ends at a number that is held, every number it tried is held. -/
theorem claimsTried_subset {held : List Nat} {fuel n : Nat} (hh : nextClaim held fuel n ∈ held) : claimsTried fuel n ⊆ held := by
  induction fuel generalizing n with
  | zero => exact List.nil_subset _
  | succ fuel ih =>
    by_cases hn : claimAfter n ∈ held
    · rw [nextClaim_held hn] at hh
      exact List.cons_subset.mpr ⟨hn, ih hh⟩
    · rw [nextClaim_free hn] at hh
      exact absurd hh hn

theorem claimAfter_cases (n : Nat) : n = 65535 ∧ claimAfter n = 1 ∨ n ≠ 65535 ∧ claimAfter n = n + 1 := by
  unfold claimAfter
  split <;> simp [*]

/-- The counter goes from 65535 to 1 at most once in five numbers, so it meets none of them twice. -/
theorem claimsTried_five_nodup (n : Nat) : (claimsTried 5 n).Nodup := by
  simp only [claimsTried, List.nodup_cons, List.mem_cons, List.not_mem_nil, or_false, not_false_eq_true, List.nodup_nil,
    and_true]
  have h1 := claimAfter_cases n
  have h2 := claimAfter_cases (claimAfter n)
  have h3 := claimAfter_cases (claimAfter (claimAfter n))
  have h4 := claimAfter_cases (claimAfter (claimAfter (claimAfter n)))
  have h5 := claimAfter_cases (claimAfter (claimAfter (claimAfter (claimAfter n))))
  omega

/-- Five numbers tried are more than four held, so the number reached is free (R48). -/
theorem nextClaim_not_mem {held : List Nat} (hl : held.length ≤ 4) (n : Nat) : nextClaim held 5 n ∉ held := by
  intro hh
  have five : 5 ≤ held.length := ((claimsTried_five_nodup n).subperm (claimsTried_subset hh)).length_le
  omega

theorem Part.length_ownNumbers (p : Part) : p.ownNumbers.length ≤ 4 := List.length_filterMap_le ..

theorem Part.mem_ownNumbers {p : Part} {h : HoseId} {c : OwnClaim} (hc : (p.hose h).claim = some c) : c.number ∈ p.ownNumbers :=
  List.mem_filterMap.mpr ⟨h, mem_allHoses h, by rw [hc]; rfl⟩

/-! ## The timers -/

theorem exec_peerClaimExpiry (s : State) {origin number : Nat} {c : PeerClaim}
    (hc : s.part.alc.peerClaims.find? (fun d => d.origin == origin && d.number == number) = some c) :
    exec (.peerClaimExpiry origin number) s = s.goesTo ((s.part.reach c.life).removeClaim origin number) := by
  show execPeerClaimExpiry origin number s = _
  unfold execPeerClaimExpiry
  rw [exec_next, hc]

theorem exec_claimRenewalExpiry (s : State) {h : HoseId} {c : OwnClaim} {due : Nat} (hc : (s.part.hose h).claim = some c)
    (ha : c.status = .active) (hd : c.renewal = some due) : exec (.claimRenewalExpiry h) s = s.goesTo
      (((s.part.reach due).modHose h fun u => { u with claim := some { c with renewal := some (due + 3000000) } }).offerClaim
        s.part.alc.shift c.machine c.number (s.part.hose h).valves.active) := by
  show execClaimRenewalExpiry h s = _
  unfold execClaimRenewalExpiry
  rw [exec_next]
  simp only [hc, ha, hd]
  rfl

theorem exec_listenTimerExpiry (s : State) {due : Nat} (hd : s.part.alc.listenTimer = some due) :
    exec .listenTimerExpiry s = s.goesTo
      ((s.part.reach due).setAlc { s.part.alc with listen := .ready, listenTimer := none }) := by
  show execListenTimerExpiry s = _
  unfold execListenTimerExpiry
  rw [exec_next, hd]
  rfl

/-- Settles O21: the search for a number step by step, and each timer's expiry by its equation. -/
theorem claimTimers : Obligations.ClaimTimers := by
  refine ⟨fun n held hn => ?_, fun s c hc => exec_peerClaimExpiry s hc,
    fun s h c due hc ha hd => exec_claimRenewalExpiry s hc ha hd,
    fun s due hd => exec_listenTimerExpiry s hd, fun n held hl => nextClaim_not_mem hl n, fun p h c hc he => ?_⟩
  · exact ⟨fun hf => nextClaim_free hf 4, fun hh => nextClaim_held hh 4, nextClaim_pos held 4 n, nextClaim_le held 5 hn⟩
  · exact nextClaim_not_mem p.length_ownNumbers p.alc.claimCounter (he ▸ Part.mem_ownNumbers hc)

end Sys2Proof.Machine
end

section
/-! The shift (03 R38 to R40): what its adoption leaves, and the request that adopts the next. -/

namespace Sys2Proof.Machine

open Sys2Proof

/-! ## The adoption (R39) -/

section Adopted

variable (p : Part) (n : Nat)

/-- Every figure of the draw table starts anew. -/
theorem Part.adopt_drawn {m : MachineRow} (hm : m ∈ (p.adopt n).machines) : m.total = 0 := by
  obtain ⟨r, -, rfl⟩ := List.mem_map.mp hm
  simp [MachineRow.total]

theorem Part.adopt_entries : (p.adopt n).machines.map (·.entry) = p.machines.map (·.entry) := by
  show (p.machines.map _).map _ = _
  rw [List.map_map]
  rfl

theorem Part.adopt_holds : (p.adopt n).machines.map (·.hold) = p.machines.map (·.hold) := by
  show (p.machines.map _).map _ = _
  rw [List.map_map]
  rfl

theorem Part.adopt_totals {t : Totals} (ht : t ∈ (p.adopt n).totals) : t = ⟨0, 0⟩ := by
  obtain ⟨r, -, rfl⟩ := List.mem_map.mp ht
  rfl

theorem Part.adopt_totals_length : (p.adopt n).totals.length = p.totals.length := List.length_map _

/-- Every own claim becomes OLD-SHIFT, and its renewal timer stops. -/
theorem Part.hose_adopt (h : HoseId) : (p.adopt n).hose h = { p.hose h with
    claim := (p.hose h).claim.map fun c => { c with status := .oldShift, renewal := none } } :=
  Quad.get_map _ p.hoses h

end Adopted

/-! ## SHIFT (R38) -/

section Request

variable {s : State} (free : s.part.LineFree)
include free

theorem exec_shift_taken : exec .shift s = s.goesTo s.part.newShift := congrArg s.goesTo (free.request Part.newShift)

theorem exec_shift_fault (hl : s.part.cfl.load = .fault) : exec .shift s = s.goesTo (s.part.refuse .configFault) :=
  (exec_shift_taken free).trans (congrArg s.goesTo (if_pos hl))

theorem exec_shift_last (hl : s.part.cfl.load ≠ .fault) (hs : 65535 ≤ s.part.alc.shift) :
    exec .shift s = s.goesTo (s.part.refuse .limit) :=
  (exec_shift_taken free).trans (congrArg s.goesTo ((if_neg hl).trans (if_pos hs)))

theorem exec_shift_next (hl : s.part.cfl.load ≠ .fault) (hs : s.part.alc.shift < 65535) : exec .shift s = s.goesTo
    (((s.part.adopt (s.part.alc.shift + 1)).offer (.shift (s.part.alc.shift + 1)) false).respond
      (.okShift (s.part.alc.shift + 1))) :=
  (exec_shift_taken free).trans (congrArg s.goesTo ((if_neg hl).trans (if_neg (Nat.not_le.mpr hs))))

end Request

/-- Settles O23: the request's three outcomes, the adoption field by field, and the comparison of a notice's shift. -/
theorem shifts : Obligations.Shifts := by
  refine ⟨fun s free => ⟨exec_shift_fault free, fun hl hs => exec_shift_last free hl hs.ge, exec_shift_next free⟩,
    fun p n => ?_, fun p n => ⟨Part.compareShift_stale, Part.compareShift_current, Part.compareShift_later⟩⟩
  exact ⟨rfl, fun m hm => p.adopt_drawn n hm, p.adopt_entries n, p.adopt_holds n, fun t ht => p.adopt_totals n ht,
    p.adopt_totals_length n, p.hose_adopt n, rfl, rfl, rfl⟩

end Sys2Proof.Machine
end

section
/-! The end of the hold-off, and the release of a pump's place for which other hoses wait (03 R51, 05 R93 to R97). -/

namespace Sys2Proof.Machine

open Sys2Proof

/-! ## The end of the hold-off (03 R51) -/

theorem exec_claimHoldOffExpiry (s : State) {h : HoseId} {due : Nat} (hd : (s.part.hose h).dsc = .authorising)
    (hh : (s.part.hose h).holdOff = some due) :
    exec (.claimHoldOffExpiry h) s = s.goesTo (settle s.part ((s.part.reach due).awaitPump h)) := by
  show execClaimHoldOffExpiry h s = _
  unfold execClaimHoldOffExpiry
  rw [exec_next, hd, hh]

/-- A hose that has asked for a stopped pump and was granted it at once: its wait, the request order, and the pump priming. -/
theorem Part.awaitPump_setPumps {p : Part} {h : HoseId} {st : HoseSettings} (hst : p.hoseSettings h = some st) (m : ByPump Pump) :
    (p.awaitPump h).setPumps m = ((p.setHose h
      { p.hose h with dsc := .awaitPump, holdOff := none, pumpWait := some (p.now + 18000000) }).setRequestOrder
        ((p.requestOrder + 1) % 4294967296)).setPumps m := by
  rw [Part.awaitPump_eq hst]
  rfl

/-- At a pump for which no request waited the grant leaves the request list as it was. -/
theorem Pump.woken_of_unasked {m : Pump} (hr : m.requests = []) (now : Nat) (h : HoseId) : m.woken now h =
    { m with state := .priming, grants := [h], prime := some (now + 200000), primes := min (m.primes + 1) 65535 } := by
  unfold Pump.woken
  rw [hr]

theorem exec_claimHoldOffExpiry_quiet {s : State} {h : HoseId} {due : Nat} {st : HoseSettings} (quiet : s.part.Quiet)
    (hc : s.part.inputsClear) (hd : (s.part.hose h).dsc = .authorising) (hh : (s.part.hose h).holdOff = some due)
    (hst : s.part.hoseSettings h = some st) (htrim : (s.part.hose h).valves.trim.latch = false)
    (hmain : (s.part.hose h).valves.main.latch = false) (hstop : (s.part.pumps.get st.pump).state = .stopped)
    (hg : (s.part.pumps.get st.pump).grants = []) (hl : 1 ≤ s.part.limit st.pump) :
    exec (.claimHoldOffExpiry h) s = s.goesTo ((((s.part.reach due).setHose h
      { s.part.hose h with
        dsc := .awaitPump, holdOff := none, pumpWait := some (max s.part.now due + 18000000) }).setRequestOrder
      ((s.part.requestOrder + 1) % 4294967296)).setPumps (s.part.pumps.set st.pump
        { s.part.pumps.get st.pump with
          state := .priming, grants := [h], prime := some (max s.part.now due + 200000)
          primes := min ((s.part.pumps.get st.pump).primes + 1) 65535 })) := by
  have settings : (s.part.reach due).hoseSettings h = some st := hst
  have clear : (s.part.reach due).inputsClear := hc
  have place : 1 ≤ (s.part.reach due).limit st.pump := hl
  rw [exec_claimHoldOffExpiry s hd hh, Part.Quiet.settle_awaitPump (p := s.part.reach due) settings quiet rfl rfl (fun _ _ => rfl)
    rfl clear htrim hmain hstop hg place, Part.awaitPump_setPumps settings,
    Pump.woken_of_unasked (quiet.requests st.pump)]
  rfl

/-! ## A release that others wait for (05 R95, R96) -/

/-- Pump i, every place of it taken and one by hose h, with requests of other hoses waiting, of which r is the best. -/
structure Part.Contended (p : Part) (i : PumpId) (h : HoseId) (r : Request) (fore back : List HoseId) : Prop where
  clear : p.inputsClear
  others : ∀ j, j ≠ i → (p.pumps.get j).requests = [] ∧ ((p.pumps.get j).state = .running → (p.pumps.get j).grants ≠ [])
  ungranted : ∀ j, j ≠ i → h ∉ (p.pumps.get j).grants
  grants : (p.pumps.get i).grants = fore ++ h :: back
  once : h ∉ fore ++ back
  full : (p.pumps.get i).grants.length = p.limit i
  requests : ∀ t ∈ (p.pumps.get i).requests, t.hose ≠ h ∧ t.order < 4294967296
  best : p.Best i r

/-- The part q when hose h has given up its place of pump i, before the arbitration. -/
structure Part.Released (p : Part) (i : PumpId) (h : HoseId) (fore back : List HoseId) (q : Part) : Prop where
  pumps : q.pumps = p.pumps.set i { p.pumps.get i with grants := fore ++ back }
  clear : q.inputsClear
  cfl : q.cfl = p.cfl
  hoses : ∀ k, k ≠ h → q.hose k = p.hose k

/-- A hose in STOPPING has no commit to wait for, so its entry into SHUT leaves the pumps but for its grant (05 R87,
06 R114). -/
theorem Part.pumps_enterShut_stopping {p : Part} {h : HoseId} (hd : (p.hose h).dsc = .stopping) :
    (p.enterShut h).pumps = (p.dropGrant h).pumps := by
  unfold Part.enterShut
  dsimp only
  rw [if_neg]
  · rfl
  · simp [Part.superviseOff, hd]

theorem Part.inputsClear_of_pins {p q : Part} (hq : q.pins = p.pins) (hc : p.inputsClear) : q.inputsClear := by
  unfold Part.inputsClear
  rwa [hq]

section Release

variable {p q : Part} {i : PumpId} {h : HoseId} {r : Request} {fore back : List HoseId} (hp : p.Contended i h r fore back)
include hp

theorem Part.Contended.hose_ne : r.hose ≠ h := (hp.requests r hp.best.mem).1

/-- No request is hose h's, so its withdrawal leaves the lists, and its release leaves the other places. -/
theorem Part.Contended.pumps_withdraw_dropGrant :
    ((p.withdraw h).dropGrant h).pumps = p.pumps.set i { p.pumps.get i with grants := fore ++ back } := by
  have unasked (j : PumpId) (t : Request) (ht : t ∈ (p.pumps.get j).requests) : t.hose ≠ h := by
    by_cases hj : j = i
    · subst hj; exact (hp.requests t ht).1
    · rw [(hp.others j hj).1] at ht
      exact absurd ht List.not_mem_nil
  rw [p.withdraw_id h unasked]
  exact p.dropGrant_pumps i h fore back hp.ungranted hp.grants hp.once

/-- A stop before flow releases the place and withdraws no request. -/
theorem Part.Contended.released_stopBeforeFlow (hpumps : q.pumps = p.pumps) (hclear : q.inputsClear) (hcfl : q.cfl = p.cfl)
    (hhoses : ∀ k, k ≠ h → q.hose k = p.hose k) {x : Context} (hx : (q.hose h).context = some x) (c : Cause) :
    p.Released i h fore back (q.stopBeforeFlow h c) := by
  have stays : Stays False q (q.stopBeforeFlow h c) := Stays.refl.stopBeforeFlow h c
  refine ⟨?_, Part.inputsClear_of_pins stays.pins_eq hclear, stays.cfl_eq.trans hcfl,
    fun k hk => (q.hose_stopBeforeFlow_ne hk c).trans (hhoses k hk)⟩
  rw [q.pumps_stopBeforeFlow h c hx, ← hp.pumps_withdraw_dropGrant]
  simp [Part.withdraw, Part.dropGrant, hpumps]

/-- The entry into SHUT of a hose in STOPPING releases the place. -/
theorem Part.Contended.released_enterShut (hpumps : q.pumps = p.pumps) (hclear : q.inputsClear) (hcfl : q.cfl = p.cfl)
    (hhoses : ∀ k, k ≠ h → q.hose k = p.hose k) (hd : (q.hose h).dsc = .stopping) :
    p.Released i h fore back (q.enterShut h) := by
  have stays : Stays False q (q.enterShut h) := Stays.refl.enterShut h
  refine ⟨?_, Part.inputsClear_of_pins stays.pins_eq hclear, stays.cfl_eq.trans hcfl,
    fun k hk => (q.hose_enterShut_ne hk).trans (hhoses k hk)⟩
  rw [q.pumps_enterShut_stopping hd, ← p.dropGrant_pumps i h fore back hp.ungranted hp.grants hp.once]
  simp [Part.dropGrant, hpumps]

end Release

/-! ## The arbitration after the release -/

section Regranted

variable {p q : Part} {i : PumpId} {h : HoseId} {r : Request} {fore back : List HoseId} (hq : p.Released i h fore back q)
include hq

theorem Part.Released.pump_own : q.pumps.get i = { p.pumps.get i with grants := fore ++ back } := by
  rw [hq.pumps]; exact ByPump.get_set_same ..

theorem Part.Released.pump_other {j : PumpId} (hj : j ≠ i) : q.pumps.get j = p.pumps.get j := by
  rw [hq.pumps]; exact ByPump.get_set_ne _ _ hj

theorem Part.Released.limit (j : PumpId) : q.limit j = p.limit j := by
  unfold Part.limit
  rw [Part.identity_of_cfl hq.cfl]

/-- The pumps when the released place has gone to a request (05 R95, R96). -/
theorem Part.Released.pumps_granted (hst : (p.pumps.get i).state = .priming ∨ (p.pumps.get i).state = .running) :
    (q.grantPump i r).pumps = p.pumps.set i { p.pumps.get i with
      grants := fore ++ back ++ [r.hose], requests := (p.pumps.get i).requests.filter fun t => !(t.hose == r.hose) } := by
  rw [q.grantPump_pumps i r (by rw [hq.pump_own]; exact hst), hq.pump_own, hq.pumps, ByPump.set_set]

variable (hp : p.Contended i h r fore back)
include hp

theorem Part.Contended.one_place : (q.pumps.get i).grants.length + 1 = q.limit i := by
  rw [hq.pump_own, hq.limit, ← hp.full, hp.grants]
  simp only [List.length_append, List.length_cons]
  omega

/-- The request that was the best of those that wait is the one that the arbitration grants. -/
theorem Part.Contended.next : q.nextGrantee i = some r := by
  have eligible (t : Request) (ht : t ∈ (p.pumps.get i).requests) : q.eligible t = p.eligible t := by
    unfold Part.eligible
    rw [hq.hoses _ (hp.requests t ht).1]
  have place := hp.one_place hq
  refine q.nextGrantee_best i r ⟨?_, ?_, ?_⟩ ?_ (by omega)
  · rw [hq.pump_own]; exact hp.best.mem
  · rw [eligible r hp.best.mem]; exact hp.best.eligible
  · rw [hq.pump_own]
    exact fun t ht he => hp.best.before t ht ((eligible t ht).symm.trans he)
  · rw [hq.pump_own]
    exact fun t ht => (hp.requests t ht).2

theorem Part.Contended.settlePumps (hst : (p.pumps.get i).state = .priming ∨ (p.pumps.get i).state = .running) :
    ((p.pumps.get i).state = .priming → settlePumps 5 q = q.grantPump i r)
    ∧ ((p.pumps.get i).state = .running → ((q.grantPump i r).startFlow r.hose).pumps = (q.grantPump i r).pumps →
        settlePumps 5 q = (q.grantPump i r).startFlow r.hose) := by
  have state : (q.pumps.get i).state = (p.pumps.get i).state := by rw [hq.pump_own]
  have released := settlePumps_release q i r hq.clear (state ▸ hst) (hp.one_place hq) (hp.next hq)
    fun j hj => by rw [hq.pump_other hj]; exact hp.others j hj
  rwa [state] at released

/-! ### On a PRIMING pump -/

/-- The end of an event that has released a place of a PRIMING pump: the grant, and no flow yet (05 R96). -/
theorem Part.Contended.settle_priming (hst : (p.pumps.get i).state = .priming) (b : Part) :
    (settle b q).pumps = p.pumps.set i { p.pumps.get i with
      grants := fore ++ back ++ [r.hose], requests := (p.pumps.get i).requests.filter fun t => !(t.hose == r.hose) }
    ∧ ∀ k, ((q.hose k).begun = true → (b.hose k).begun = true) → (settle b q).hose k = q.hose k := by
  have settled := (hp.settlePumps hq (.inl hst)).1 hst
  have granted (k : HoseId) : (q.grantPump i r).hose k = q.hose k := Part.hose_modPump ..
  unfold settle settleHoses
  rw [settled]
  refine ⟨?_, fun k hk => ?_⟩
  · rw [pumps_finish, Part.pumps_joinRequests, hq.pumps_granted (.inl hst)]
  · rw [Part.hose_finish, Part.hose_joinRequests _ _ (by rw [granted]; exact hk), granted]

/-! ### On a RUNNING pump -/

/-- The end of an event that has released a place of a RUNNING pump: the grant, and the flow that starts at it (05 R83, R96). -/
theorem Part.Contended.settle_running (hst : (p.pumps.get i).state = .running) {st : HoseSettings} {y : Context}
    (hs : p.hoseSettings r.hose = some st) (hd : (p.hose r.hose).dsc = .awaitPump) (hy : (p.hose r.hose).context = some y)
    (hph : (p.hose r.hose).valves.phase = .shut) (hpend : (p.hose r.hose).valves.pending = none)
    (hact : 0 < (p.hose r.hose).valves.active) (htrim : (p.hose r.hose).valves.trim.switch = .closed) (b : Part) :
    (settle b q).pumps = p.pumps.set i { p.pumps.get i with
      grants := fore ++ back ++ [r.hose], requests := (p.pumps.get i).requests.filter fun t => !(t.hose == r.hose) }
    ∧ (((settle b q).hose r.hose).dsc = .flowing ∧ ((settle b q).hose r.hose).valves.phase = .trim
      ∧ ((settle b q).hose r.hose).meter.window = true ∧ ((settle b q).hose r.hose).pumpWait = none)
    ∧ ∀ k, k ≠ r.hose → ((q.hose k).begun = true → (b.hose k).begun = true) → (settle b q).hose k = q.hose k := by
  have own : (q.grantPump i r).hose r.hose = p.hose r.hose := (Part.hose_modPump ..).trans (hq.hoses _ hp.hose_ne)
  have settings : (q.grantPump i r).hoseSettings r.hose = some st := (Part.hoseSettings_of_cfl hq.cfl r.hose).trans hs
  obtain ⟨pumps, dsc, phase, window, wait⟩ := (q.grantPump i r).startFlow_trim r.hose st y (by rw [own]; exact hd) settings
    (by rw [own]; exact hy) (by rw [own]; exact hph) (by rw [own]; exact hpend) (by rw [own]; exact hact)
    (by rw [own]; exact htrim)
  have settled := (hp.settlePumps hq (.inr hst)).2 hst pumps
  have others (k : HoseId) (hk : k ≠ r.hose) : ((q.grantPump i r).startFlow r.hose).hose k = q.hose k :=
    (Part.hose_startFlow_ne _ hk).trans (Part.hose_modPump ..)
  have shell := b.shell_joinRequests ((q.grantPump i r).startFlow r.hose) r.hose
  unfold settle settleHoses
  rw [settled]
  refine ⟨?_, ?_, fun k hk hb => ?_⟩
  · rw [pumps_finish, Part.pumps_joinRequests, pumps, hq.pumps_granted (.inr hst)]
  · rw [Part.hose_finish]
    exact ⟨(congrArg Hose.dsc shell).trans dsc, (congrArg (·.valves.phase) shell).trans phase,
      (congrArg (·.meter.window) shell).trans window, (congrArg Hose.pumpWait shell).trans wait⟩
  · rw [Part.hose_finish, Part.hose_joinRequests _ _ (by rw [others k hk]; exact hb), others k hk]

end Regranted

end Sys2Proof.Machine
end

section
/-! O22: the hold-off, the arbitration, and the two releases (03 R51, 05 R93 to R97). -/

namespace Sys2Proof.Machine

open Sys2Proof

/-! ## The pump wait stop -/

theorem exec_pumpWaitExpiry_waiting {s : State} {h : HoseId} {due : Nat} (hw : (s.part.hose h).pumpWait = some due)
    (hd : (s.part.hose h).dsc = .awaitPump) : exec (.pumpWaitExpiry h) s = s.goesTo (settle (s.part.reach due)
      (((s.part.reach due).modHose h fun u => { u with pumpWait := none }).stopBeforeFlow h .pumpWait)) := by
  show execPumpWaitExpiry h s = _
  unfold execPumpWaitExpiry
  rw [exec_next, hw]
  dsimp only
  rw [Part.takeCause_before _ (.inr (by simpa using hd))]

/-! ## The last valve to close -/

/-- In SHUTTING the sequencer has no move of its own but the entry into SHUT (05 R85, R87). -/
theorem Part.moveValves_shutting {p : Part} {h : HoseId} (hp : (p.hose h).valves.phase = .shutting) : p.moveValves h = p := by
  unfold Part.moveValves
  split
  · rfl
  · have move (st : HoseSettings) : (p.hose h).valves.move st (p.hose h).meter.gross = ((p.hose h).valves, .shutting) := by
      unfold Vsq.move
      rw [hp]
    simp only [move, hp, if_true]
    cases h <;> rfl

theorem Vsq.settled_iff (q : Vsq) : q.settled = true ↔ ∀ w, (q.valve w).settled = true := by
  unfold Vsq.settled
  rw [Bool.and_eq_true]
  exact ⟨fun ⟨trim, main⟩ w => by cases w <;> assumption, fun hw => ⟨hw .trim, hw .main⟩⟩

theorem Vsq.valve_setValve (q : Vsq) (v w : ValveId) (x : Valve) : (q.setValve v x).valve w = if w = v then x else q.valve w := by
  cases v <;> cases w <;> rfl

theorem Vsq.phase_setValve (q : Vsq) (v : ValveId) (x : Valve) : (q.setValve v x).phase = q.phase := by cases v <;> rfl

/-- The part with a valve's switch report taken, before what follows from it (05 R81). -/
def Part.reported (p : Part) (h : HoseId) (v : ValveId) (position : Position) : Part :=
  p.modValves h fun u =>
    u.setValve v ((u.valve v).report p.now ((p.hoseSettings h).map (·.settleTime)) (commandOf v u.phase) position)

/-- The report of CLOSED from the last valve of a hose in SHUTTING (05 R87). -/
theorem Part.takeSwitch_last {p : Part} {h : HoseId} {v : ValveId} (hp : (p.hose h).valves.phase = .shutting)
    (hw : ∀ w, w ≠ v → ((p.hose h).valves.valve w).switch = .closed) :
    p.takeSwitch h v .closed = (p.reported h v .closed).enterShut h := by
  have phase : ((p.reported h v .closed).hose h).valves.phase = .shutting := by
    unfold Part.reported
    rw [Part.hose_modValves_same, Vsq.phase_setValve, hp]
  have settled : ((p.reported h v .closed).hose h).valves.settled = true := by
    unfold Part.reported
    rw [Part.hose_modValves_same, Vsq.settled_iff]
    intro w
    rw [Vsq.valve_setValve]
    split
    · simp [Valve.settled, Valve.report, Valve.supervise]
    · simp [Valve.settled, hw w ‹_›]
  show ((p.reported h v .closed).moveValves h).shutTest h = _
  rw [Part.moveValves_shutting phase, Part.shutTest, if_pos ⟨phase, settled⟩]

/-- The part with a switch line at a level, before the report is taken. -/
def Part.switched (p : Part) (h : HoseId) (v : ValveId) (position : Position) : Part :=
  p.modPins h fun k => k.setSwitch v position

theorem exec_switchChange_last {s : State} {h : HoseId} {v : ValveId} (hg : s.part.cfl.stage ≠ .imageLoad)
    (hp : (s.part.hose h).valves.phase = .shutting) (hv : ((s.part.hose h).valves.valve v).switch = .opened)
    (hw : ∀ w, w ≠ v → ((s.part.hose h).valves.valve w).switch = .closed) :
    exec (.switchChange h v .closed) s = s.goesTo (settle (s.part.switched h v .closed)
      (((s.part.switched h v .closed).reported h v .closed).enterShut h)) := by
  have changed : ¬ (s.part.cfl.stage = .imageLoad ∨ ((s.part.hose h).valves.valve v).switch = .closed) := by
    rintro (hl | hc)
    · exact hg hl
    · rw [hv] at hc
      exact absurd hc (by decide)
  rw [← Part.takeSwitch_last (p := s.part.switched h v .closed) hp hw]
  exact congrArg s.goesTo (if_neg changed)

/-! ## The two releases -/

section Releases

variable {s : State} {i : PumpId} {h : HoseId} {r : Request} {fore back : List HoseId} {x : Context}
  (contended : s.part.Contended i h r fore back) (hx : (s.part.hose h).context = some x)
include contended hx

/-- A pump wait stop in PRIMING gives the hose's place on (05 R96, R97). -/
theorem exec_pumpWaitExpiry_passes_on {due : Nat} (hst : (s.part.pumps.get i).state = .priming)
    (hd : (s.part.hose h).dsc = .awaitPump) (hw : (s.part.hose h).pumpWait = some due) :
    ∃ q : Part, exec (.pumpWaitExpiry h) s = s.goesTo q
      ∧ q.pumps = s.part.pumps.set i { s.part.pumps.get i with
          grants := fore ++ back ++ [r.hose]
          requests := (s.part.pumps.get i).requests.filter fun t => !(t.hose == r.hose) }
      ∧ (q.hose h).summary = some { sequence := none, cause := some .pumpWait, faults := x.faults }
      ∧ ∀ k, k ≠ h → q.hose k = s.part.hose k := by
  have taken := exec_pumpWaitExpiry_waiting hw hd
  generalize hp : (s.part.reach due).modHose h (fun u => { u with pumpWait := none }) = p at taken
  have context : (p.hose h).context = some x := by rw [← hp, Part.hose_modHose_same]; exact hx
  have same (k : HoseId) (hk : k ≠ h) : p.hose k = s.part.hose k := by rw [← hp, Part.hose_modHose_ne _ _ hk, Part.hose_reach]
  have released := contended.released_stopBeforeFlow (q := p) (by rw [← hp]; rfl) (by rw [← hp]; exact contended.clear)
    (by rw [← hp]; rfl) same context .pumpWait
  have stopped := p.hose_stopBeforeFlow h .pumpWait context
  obtain ⟨pumps, hoses⟩ := contended.settle_priming released hst (s.part.reach due)
  refine ⟨_, taken, pumps, ?_, fun k hk => ?_⟩
  · have at_rest : ((p.stopBeforeFlow h .pumpWait).hose h).begun = false := by
      rw [stopped]
      unfold Hose.begun restState
      cases (p.hose h).nozzle <;> rfl
    rw [hoses h (by simp [at_rest]), stopped]
  · have unchanged := released.hoses k hk
    rw [hoses k (by rw [unchanged, Part.hose_reach]; exact id), unchanged]

/-- The entry into SHUT at the end of a flow on a RUNNING pump gives the hose's place on, and the flow of the hose that takes it
starts (05 R83, R87, R96). -/
theorem exec_switchChange_passes_on {v : ValveId} {st : HoseSettings} {y : Context} (hst : (s.part.pumps.get i).state = .running)
    (hg : s.part.cfl.stage ≠ .imageLoad) (hd : (s.part.hose h).dsc = .stopping)
    (hph : (s.part.hose h).valves.phase = .shutting) (hv : ((s.part.hose h).valves.valve v).switch = .opened)
    (hw : ∀ w, w ≠ v → ((s.part.hose h).valves.valve w).switch = .closed) (hs : s.part.hoseSettings r.hose = some st)
    (hrd : (s.part.hose r.hose).dsc = .awaitPump) (hy : (s.part.hose r.hose).context = some y)
    (hrph : (s.part.hose r.hose).valves.phase = .shut) (hpend : (s.part.hose r.hose).valves.pending = none)
    (hact : 0 < (s.part.hose r.hose).valves.active) (htrim : (s.part.hose r.hose).valves.trim.switch = .closed) :
    ∃ q : Part, exec (.switchChange h v .closed) s = s.goesTo q
      ∧ q.pumps = s.part.pumps.set i { s.part.pumps.get i with
          grants := fore ++ back ++ [r.hose]
          requests := (s.part.pumps.get i).requests.filter fun t => !(t.hose == r.hose) }
      ∧ (q.hose h).valves.phase = .shut
      ∧ (q.hose r.hose).dsc = .flowing ∧ (q.hose r.hose).valves.phase = .trim ∧ (q.hose r.hose).meter.window = true
      ∧ (q.hose r.hose).pumpWait = none
      ∧ ∀ k, k ≠ h → k ≠ r.hose → q.hose k = s.part.hose k := by
  have taken := exec_switchChange_last hg hph hv hw
  have before (k : HoseId) : (s.part.switched h v .closed).hose k = s.part.hose k := Part.hose_modPins ..
  have hb : (s.part.switched h v .closed).pumps = s.part.pumps ∧ (s.part.switched h v .closed).inputsClear
      ∧ (s.part.switched h v .closed).cfl = s.part.cfl := ⟨rfl, contended.clear, rfl⟩
  generalize s.part.switched h v .closed = b at taken before hb
  generalize hp : b.reported h v .closed = p at taken
  have own : p.hose h = { s.part.hose h with valves := (p.hose h).valves } := by
    rw [← hp, Part.reported, Part.hose_modValves_same, before]
  have same (k : HoseId) (hk : k ≠ h) : p.hose k = s.part.hose k := by
    rw [← hp, Part.reported, Part.hose_modValves_ne _ _ hk, before]
  have dsc : (p.hose h).dsc = .stopping := by rw [own]; exact hd
  have released := contended.released_enterShut (q := p) (by rw [← hp]; exact hb.1) (by rw [← hp]; exact hb.2.1)
    (by rw [← hp]; exact hb.2.2) same dsc
  have shut := (p.hose_enterShut h x (by rw [own]; exact hx)).1
  dsimp only at shut
  rw [if_neg (by simp [dsc])] at shut
  obtain ⟨pumps, ⟨flowing, trim, window, wait⟩, hoses⟩ :=
    contended.settle_running released hst hs hrd hy hrph hpend hact htrim b
  refine ⟨_, taken, pumps, ?_, flowing, trim, window, wait, fun k hk hkr => ?_⟩
  · have still : ((p.enterShut h).hose h).begun = true → (b.hose h).begun = true := by
      rw [shut, before]
      exact fun _ => by simp [Hose.begun, hd]
    rw [hoses h contended.hose_ne.symm still, shut]
  · have unchanged := released.hoses k hk
    rw [hoses k hkr (by rw [unchanged, before]; exact id), unchanged]

end Releases

/-! ## The obligation -/

/-- Settles O22: the hold-off's end at a quiet part, the choice of the arbitration, and a place given on at each of the two
releases. -/
theorem holdOffExpires : Obligations.HoldOffExpires := by
  refine ⟨?_, fun p i => ⟨fun hn => hn.elim (p.nextGrantee_full i) (p.nextGrantee_none i), ?_⟩, ?_⟩
  · intro s h due st quiet hc hd hh hst htrim hmain hstop hg hl now
    exact exec_claimHoldOffExpiry_quiet quiet hc hd hh hst htrim hmain hstop hg hl
  · exact fun r hr he hl ho hb => p.nextGrantee_best i r ⟨hr, he, hb⟩ ho hl
  · intro s h i x r fore back clear others ungranted grants once full requests hx hr he hb rest
    have contended : s.part.Contended i h r fore back :=
      ⟨clear, others, ungranted, grants, once, full, requests, hr, he, hb⟩
    exact ⟨fun due hst hd hw => exec_pumpWaitExpiry_passes_on contended hx hst hd hw,
      fun v st y hst hg hd hph hv hw hs hrd hy hrph hpend hact htrim =>
        exec_switchChange_passes_on contended hx hst hg hd hph hv hw hs hrd hy hrph hpend hact htrim⟩

end Sys2Proof.Machine
end

section
/-! Meter arithmetic and the timers of the rate (04 R62, R65, R70, R71, R76, R77). -/

namespace Sys2Proof.Machine

open Sys2Proof

/-! ## Volumes and temperatures (R65, R76) -/

/-- The gross of a count that is not below 0 (R65). -/
theorem grossOf_natCast (st : HoseSettings) (n : Nat) :
    grossOf st n = n * 100 * st.calibration / (st.stepsPerLitre * 10000) := rfl

theorem grossOf_negative (st : HoseSettings) {net : Int} (hn : net < 0) : grossOf st net = 0 := by
  unfold grossOf stepVolume
  rw [Int.toNat_of_nonpos hn.le]
  simp

/-- The bands are 2 degrees wide from -20.0 degrees on (R76). -/
theorem bandOf_within {t : Int} {k : Nat} (hk : k ≤ 35) (low : -200 + 20 * (k : Int) ≤ t) (high : t < -180 + 20 * (k : Int)) :
    bandOf t = k := by
  unfold bandOf
  omega

theorem bandOf_below {t : Int} (ht : t < -200) : bandOf t = 0 := by
  unfold bandOf
  omega

theorem bandOf_above {t : Int} (ht : 500 ≤ t) : bandOf t = 35 := by
  unfold bandOf
  omega

/-- Settles O26: the classes by their sixteen cases, the volumes and bands by their equations. -/
theorem meterArithmetic : Obligations.MeterArithmetic := by
  refine ⟨by decide, fun st net settings grade gross t => ⟨grossOf_negative st, ?_, bandOf_below, bandOf_above, ?_, rfl⟩⟩
  · rintro n rfl
    exact grossOf_natCast st n
  · exact fun k hk low high => bandOf_within hk low high

/-! ## The timers (R70, R71) -/

/-- Settles O30: at each expiry the branch of the command is the one its timer and the overrate flag select. -/
theorem rateTimers : Obligations.RateTimers := by
  intro s h due
  refine ⟨fun ht => ?_, fun ht ho => ?_, fun ht ho => ?_⟩
  · simp only [exec, execRateTimeout, exec_next, ht]
  · simp only [exec, execOverrateExpiry, exec_next, ht, ho, Bool.false_eq_true, if_false]
  · simp only [exec, execOverrateExpiry, exec_next, ht, ho, if_true]

end Sys2Proof.Machine
end

section
/-! PHASE_CHANGE (04 R61 to R67): how the pair is decoded, what each class of step does to the channel, and how the event ends. -/

namespace Sys2Proof.Machine

open Sys2Proof

/-! ## Changes of one meter -/

theorem Part.modMeter_modMeter (p : Part) (h : HoseId) (f g : Meter → Meter) :
    (p.modMeter h f).modMeter h g = p.modMeter h fun m => g (f m) := by
  cases h <;> rfl

/-- A change of a meter is known by what it makes of the meter that stands there. -/
theorem Part.modMeter_congr {p : Part} {h : HoseId} {f g : Meter → Meter} (hfg : f (p.hose h).meter = g (p.hose h).meter) :
    p.modMeter h f = p.modMeter h g := congrArg (fun m => p.setHose h { p.hose h with meter := m }) hfg

theorem Part.modMeter_event (p : Part) (h : HoseId) (f : Meter → Meter) (e : Event) :
    (p.modMeter h f).event e = (p.event e).modMeter h f := rfl

/-! ## Decoding (R62, R63) -/

theorem classify_both_changed {lastA lastB a b : Bool} (ha : lastA ≠ a) (hb : lastB ≠ b) :
    classify lastA lastB a b = some .error := by
  unfold classify
  rw [if_neg fun h => ha h.1.symm, if_pos ⟨ha.symm, hb.symm⟩]

/-- The channel with a new last pair. -/
def Meter.paired (m : Meter) (a b : Bool) : Meter := { m with lastA := a, lastB := b }

section Decoding

variable {p : Part} {h : HoseId} {st : HoseSettings} {a b : Bool} (hswap : st.phaseSwap = false)
include hswap

theorem Part.decode_good {cls : StepClass} (hc : classify (p.hose h).meter.lastA (p.hose h).meter.lastB a b = some cls)
    (hg : cls ≠ .error) : p.decode h st a b = (p.modMeter h fun m => m.paired a b).goodStep h st cls := by
  unfold Part.decode swapped
  rw [hswap, if_neg (by decide)]
  dsimp only
  rw [hc]
  cases cls with
  | error => exact absurd rfl hg
  | forward => rfl
  | reverse => rfl

theorem Part.decode_error (ha : (p.hose h).meter.lastA ≠ a) (hb : (p.hose h).meter.lastB ≠ b) :
    p.decode h st a b = (p.modMeter h fun m => m.paired a b).errorStep h := by
  unfold Part.decode swapped
  rw [hswap, if_neg (by decide)]
  dsimp only
  rw [classify_both_changed ha hb]
  rfl

end Decoding

/-- With the phase swap flag set, the levels are decoded in the other order (R63). -/
theorem Part.decode_swapped (p : Part) (h : HoseId) {st : HoseSettings} (hswap : st.phaseSwap = true) (a b : Bool) :
    p.decode h st a b = p.decode h { st with phaseSwap := false } b a := by
  unfold Part.decode swapped
  rw [hswap]
  rfl

/-! ## Steps of the channel -/

section Steps

variable {p : Part} {h : HoseId} {st : HoseSettings}

/-- A good step short of the 64th leaves LIVE as it is (R67). -/
theorem Meter.goodStep_short {m : Meter} (hr : m.goodRun < 63) : m.goodStep = { m with goodRun := m.goodRun + 1 } := by
  unfold Meter.goodStep bump
  rw [show min (m.goodRun + 1) 64 = m.goodRun + 1 by omega, if_neg (by omega)]

/-- A forward step in the window is a transaction step (R64, R65). -/
theorem Part.goodStep_forward (hw : (p.hose h).meter.window = true) : p.goodStep h st .forward =
    (p.modMeter h fun m => m.goodStep.forwardStep p.now st).regross h st := by
  unfold Part.goodStep
  dsimp only
  rw [Part.hose_modMeter_same, ← Part.modMeter_modMeter p h Meter.goodStep]
  exact if_pos hw

/-- So is a reverse step, and the reverse limit is tested after it (R65, R69). -/
theorem Part.goodStep_reverse (hw : (p.hose h).meter.window = true) : p.goodStep h st .reverse =
    ((p.modMeter h fun m => m.goodStep.reverseStep).regross h st).reverseTest h st := by
  unfold Part.goodStep
  dsimp only
  rw [Part.hose_modMeter_same, ← Part.modMeter_modMeter p h Meter.goodStep]
  exact if_pos hw

section Creep

variable (hw : (p.hose h).meter.window = false) (cls : StepClass)
include hw

/-- Out of the window a good step is a creep step; below 20 cL, or once told, it is no event (R73). -/
theorem Part.goodStep_creep_untold
    (hv : stepVolume st (bump max32 (p.hose h).meter.creep) < 20 ∨ (p.hose h).meter.creepSent = true) :
    p.goodStep h st cls = p.modMeter h fun m => m.goodStep.creepStep cls := by
  have untold : ¬ (20 ≤ stepVolume st (bump max32 (p.hose h).meter.creep) ∧ (p.hose h).meter.creepSent = false) := by
    rintro ⟨reached, unsent⟩
    rcases hv with below | sent
    · omega
    · rw [unsent] at sent; exact Bool.false_ne_true sent
  unfold Part.goodStep
  dsimp only
  rw [Part.hose_modMeter_same]
  dsimp only
  rw [if_neg (by rw [Meter.goodStep, hw]; decide), Part.modMeter_modMeter, Part.hose_modMeter_same]
  exact if_neg untold

/-- The creep step that reaches 20 cL is told once (R73). -/
theorem Part.goodStep_creep_told (hv : 20 ≤ stepVolume st (bump max32 (p.hose h).meter.creep))
    (hs : (p.hose h).meter.creepSent = false) : p.goodStep h st cls =
    (p.event (.creep h (stepVolume st (bump max32 (p.hose h).meter.creep)))).modMeter h fun m =>
      { m.goodStep.creepStep cls with creepSent := true, creepMark := true } := by
  unfold Part.goodStep
  dsimp only
  rw [Part.hose_modMeter_same]
  dsimp only
  rw [if_neg (by rw [Meter.goodStep, hw]; decide), Part.modMeter_modMeter, Part.hose_modMeter_same, Part.modMeter_event,
    Part.modMeter_modMeter]
  exact if_pos ⟨hv, hs⟩

end Creep

/-- Every sequence error but the eighth changes the channel alone (R67, R68). -/
theorem Part.errorStep_untold (he : (p.hose h).meter.errorCount ≠ 7) : p.errorStep h = p.modMeter h Meter.sequenceError :=
  if_neg he

/-- The eighth is a meter fault (R68). -/
theorem Part.errorStep_eighth (he : (p.hose h).meter.errorCount = 7) :
    p.errorStep h = (p.modMeter h Meter.sequenceError).meterFault h := if_pos he

end Steps

/-! ## Meter faults (R68, R69) -/

section MeterFault

variable {p : Part} {h : HoseId}

theorem FaultSet.union_meter (f : FaultSet) : f.union (Cause.flag .meterFault) = { f with meter := true } := by
  simp [FaultSet.union, Cause.flag]

theorem Part.meterFault_flowing (hd : (p.hose h).dsc = .flowing) : p.meterFault h = p.takeCause h .meterFault := by
  unfold Part.meterFault
  rw [hd]

/-- In STOPPING it adds the METER flag (06 R109, R111). -/
theorem Part.meterFault_stopping (hd : (p.hose h).dsc = .stopping) :
    p.meterFault h = p.modContext h fun x => { x with faults := { x.faults with meter := true } } := by
  unfold Part.meterFault
  rw [hd]
  dsimp only
  rw [Part.takeCause_late p (.inl hd)]
  unfold Part.addFaults
  simp only [FaultSet.union_meter]

theorem Part.meterFault_other (hf : (p.hose h).dsc ≠ .flowing) (hs : (p.hose h).dsc ≠ .stopping) : p.meterFault h = p := by
  unfold Part.meterFault
  split
  · exact absurd ‹_› hf
  · exact absurd ‹_› hs
  · rfl

end MeterFault

/-! ## The end of the event -/

/-- The requests of an event at which one hose alone has changed are that hose's. -/
theorem Part.joinRequests_one {b q : Part} (h : HoseId) (hne : ∀ k, k ≠ h → q.hose k = b.hose k)
    (hb : (q.hose h).begun = true → (b.hose h).begun = true) : b.joinRequests q =
    if (b.hose h).meter.boundary < (q.hose h).meter.boundary then q.queueCheckpoint h else q := by
  have asks : b.joinRequest q h =
      if (b.hose h).meter.boundary < (q.hose h).meter.boundary then q.queueCheckpoint h else q := by
    unfold Part.joinRequest
    rw [if_neg (by simpa using hb)]
  have others {r : Part} (hr : ∀ k, r.hose k = q.hose k) {k : HoseId} (hk : k ≠ h) : b.joinRequest r k = r :=
    Part.Quiet.joinRequest_eq b k (by rw [hr, hne k hk]; exact id) (by rw [hr, hne k hk])
  have kept (k : HoseId) : (b.joinRequest q h).hose k = q.hose k := by
    rw [asks]
    split
    · exact Part.hose_queueCheckpoint q h k
    · rfl
  have one : b.joinRequests q = b.joinRequest q h := by
    unfold Part.joinRequests
    simp only [allHoses, List.foldl_cons, List.foldl_nil]
    cases h with
    | h1 => rw [others kept (by decide), others kept (by decide), others kept (by decide)]
    | h2 => rw [others (fun _ => rfl) (by decide), others kept (by decide), others kept (by decide)]
    | h3 => rw [others (fun _ => rfl) (by decide), others (fun _ => rfl) (by decide), others kept (by decide)]
    | h4 => rw [others (fun _ => rfl) (by decide), others (fun _ => rfl) (by decide), others (fun _ => rfl) (by decide)]
  rw [one, asks]

theorem Part.queueCheckpoint_shape (p : Part) (h : HoseId) : p.queueCheckpoint h = p.setTlg (p.queueCheckpoint h).tlg := by
  unfold Part.queueCheckpoint Part.checkpoint
  dsimp only
  repeat' split
  all_goals rfl

/-- The log at the end of an event: the checkpoint of a boundary that the hose has newly reached is asked of it (R66, 07 R130). -/
def Part.logAfter (b q : Part) (h : HoseId) : Tlg :=
  if (b.hose h).meter.boundary < (q.hose h).meter.boundary then (q.queueCheckpoint h).tlg else q.tlg

/-- With nothing to arbitrate, an event that changes one hose and starts no flow on it ends with what it asks of the log. -/
theorem Part.Quiet.settle_logged {b q : Part} (hb : b.Quiet) (h : HoseId) (hpumps : q.pumps = b.pumps)
    (hrsc : q.rsc.state = b.rsc.state) (hne : ∀ k, k ≠ h → q.hose k = b.hose k)
    (hbegun : (q.hose h).begun = true → (b.hose h).begun = true) : settle b q = q.setTlg (b.logAfter q h) := by
  have joined : b.joinRequests q = q.setTlg (b.logAfter q h) := by
    rw [Part.joinRequests_one h hne hbegun]
    unfold Part.logAfter
    split
    · exact q.queueCheckpoint_shape h
    · rfl
  rw [settle, settleHoses, (hb.of_pumps hpumps).settlePumps, joined]
  exact finish_same hrsc

/-! ## The command -/

/-- The part when a change on the phase lines of a hose has come in (R61). -/
def Part.phased (p : Part) (h : HoseId) (a b : Bool) (elapsed : Nat) : Part :=
  (p.reach (p.now + elapsed)).modPins h fun k => { k with phaseA := a, phaseB := b }

/-- With nothing to arbitrate, a change on the lines that changes its hose, beside blocks that no arbitration reads, ends
with what it asks of the log. -/
theorem Part.Quiet.settle_phased {p q : Part} (hp : p.Quiet) {h : HoseId} {a b : Bool} {elapsed : Nat}
    (hpumps : q.pumps = p.pumps) (hrsc : q.rsc = p.rsc) (hne : ∀ k, k ≠ h → q.hose k = p.hose k)
    (hbegun : (q.hose h).begun = true → (p.hose h).begun = true) :
    settle (p.phased h a b elapsed) q = q.setTlg (p.logAfter q h) :=
  (hp.of_pumps (q := p.phased h a b elapsed) rfl).settle_logged h hpumps (congrArg _ hrsc) hne hbegun

/-- Where it reaches no boundary it asks nothing. -/
theorem Part.Quiet.settle_unlogged {p q : Part} (hp : p.Quiet) {h : HoseId} {a b : Bool} {elapsed : Nat}
    (hpumps : q.pumps = p.pumps) (hrsc : q.rsc = p.rsc) (hne : ∀ k, k ≠ h → q.hose k = p.hose k)
    (hbegun : (q.hose h).begun = true → (p.hose h).begun = true)
    (hm : (q.hose h).meter.boundary = (p.hose h).meter.boundary) : settle (p.phased h a b elapsed) q = q := by
  rw [hp.settle_phased hpumps hrsc hne hbegun, Part.logAfter, hm, if_neg (lt_irrefl _)]
  rfl

theorem exec_phaseChange {s : State} {h : HoseId} {a b : Bool} {elapsed : Nat} {st : HoseSettings}
    (hst : s.part.hoseSettings h = some st) : exec (.phaseChange h a b elapsed) s = s.goesTo
    (settle (s.part.phased h a b elapsed) ((s.part.phased h a b elapsed).decode h st a b)) := by
  have settings : (s.part.phased h a b elapsed).hoseSettings h = some st := hst
  unfold Part.phased at settings
  simp only [exec, execPhaseChange, exec_next, settings]
  rfl

end Sys2Proof.Machine
end

section
/-! Creep steps (04 R73, R79): a good step on a channel whose window is CLOSED. -/

namespace Sys2Proof.Machine

open Sys2Proof

/-- The channel after a creep step short of the 64th good step in a row. -/
theorem Meter.creepStep_short {m : Meter} (hr : m.goodRun < 63) (cls : StepClass) : m.goodStep.creepStep cls =
    { m with
      goodRun := m.goodRun + 1, creep := min (m.creep + 1) 4294967295, totalCreep := min (m.totalCreep + 1) 4294967295
      totalForward := if cls = .forward then min (m.totalForward + 1) 4294967295 else m.totalForward
      totalReverse := if cls = .reverse then min (m.totalReverse + 1) 4294967295 else m.totalReverse } := by
  rw [Meter.goodStep_short hr]
  rfl

section Creeping

variable {s : State} {h : HoseId} {a b : Bool} {elapsed : Nat} {st : HoseSettings} {cls : StepClass} (quiet : s.part.Quiet)
  (hst : s.part.hoseSettings h = some st) (hswap : st.phaseSwap = false) (hw : (s.part.hose h).meter.window = false)
  (hc : classify (s.part.hose h).meter.lastA (s.part.hose h).meter.lastB a b = some cls) (hg : cls ≠ .error)
include quiet hst hswap hw hc hg

theorem exec_phaseChange_creep_untold
    (hv : stepVolume st (bump max32 (s.part.hose h).meter.creep) < 20 ∨ (s.part.hose h).meter.creepSent = true) :
    exec (.phaseChange h a b elapsed) s = s.goesTo
      ((s.part.phased h a b elapsed).modMeter h fun m => (m.paired a b).goodStep.creepStep cls) := by
  rw [exec_phaseChange hst, Part.decode_good (p := s.part.phased h a b elapsed) hswap hc hg,
    Part.goodStep_creep_untold (by rw [Part.hose_modMeter_same]; exact hw) cls
    (by rw [Part.hose_modMeter_same]; exact hv), Part.modMeter_modMeter]
  exact congrArg s.goesTo (quiet.settle_unlogged rfl rfl (fun k hk => Part.hose_modMeter_ne _ _ hk)
    (by rw [Part.hose_modMeter_same]; exact id) (by rw [Part.hose_modMeter_same]; rfl))

theorem exec_phaseChange_creep_told (hv : 20 ≤ stepVolume st (bump max32 (s.part.hose h).meter.creep))
    (hs : (s.part.hose h).meter.creepSent = false) : exec (.phaseChange h a b elapsed) s = s.goesTo
      (((s.part.phased h a b elapsed).event (.creep h (stepVolume st (bump max32 (s.part.hose h).meter.creep)))).modMeter h
        fun m => { (m.paired a b).goodStep.creepStep cls with creepSent := true, creepMark := true }) := by
  rw [exec_phaseChange hst, Part.decode_good (p := s.part.phased h a b elapsed) hswap hc hg,
    Part.goodStep_creep_told (by rw [Part.hose_modMeter_same]; exact hw) cls
    (by rw [Part.hose_modMeter_same]; exact hv) (by rw [Part.hose_modMeter_same]; exact hs), Part.modMeter_event,
    Part.modMeter_modMeter, Part.hose_modMeter_same]
  exact congrArg s.goesTo (quiet.settle_unlogged rfl rfl (fun k hk => Part.hose_modMeter_ne _ _ hk)
    (by rw [Part.hose_modMeter_same]; exact id) (by rw [Part.hose_modMeter_same]; rfl))

end Creeping

/-- Settles O27: the step is good in one of two classes, and its creep volume is told or not. -/
theorem creepSteps : Obligations.CreepSteps := by
  intro s h a b elapsed st quiet hst hswap hw m forward reverse hgood hr p volume after
  obtain ⟨cls, hc, hg⟩ : ∃ cls, classify m.lastA m.lastB a b = some cls ∧ cls ≠ .error :=
    hgood.elim (fun hf => ⟨_, hf, by decide⟩) fun hf => ⟨_, hf, by decide⟩
  have stepped : (m.paired a b).goodStep.creepStep cls = after := by
    have class_iff (c : StepClass) : classify m.lastA m.lastB a b = some c ↔ cls = c := by rw [hc, Option.some.injEq]
    rw [Meter.creepStep_short (m := m.paired a b) hr]
    simp only [after, forward, reverse, class_iff]
    rfl
  refine ⟨fun hv => ?_, fun hv hs => ?_⟩
  · rw [exec_phaseChange_creep_untold quiet hst hswap hw hc hg hv]
    exact congrArg s.goesTo (Part.modMeter_congr stepped)
  · rw [exec_phaseChange_creep_told quiet hst hswap hw hc hg hv hs]
    refine congrArg s.goesTo (Part.modMeter_congr ?_)
    exact congrArg (fun x : Meter => { x with creepSent := true, creepMark := true }) stepped

end Sys2Proof.Machine
end

section
/-! The hand-over of a gross change (04 R65, R66; 05 R84, R85): what it leaves where no preset waits, and the checkpoint that a
boundary newly reached asks of the log (07 R128, R130). -/

namespace Sys2Proof.Machine

open Sys2Proof

/-! ## The hand-over (R65, R66) -/

/-- The channel with a new gross, and the boundary it reaches (R66). -/
def Meter.handed (m : Meter) (gross : Nat) : Meter :=
  { m with gross := gross, boundary := if gross % 1000 = 0 ∧ m.boundary < gross then gross else m.boundary }

/-- The gross of a hose handed to its transaction and to the book of its compartment, before the valves move. -/
def Part.handed (p : Part) (h : HoseId) (gross : Nat) : Part :=
  (p.setInv (p.meterOut h ((gross : Int) - (p.hose h).meter.gross)).inv).modHose h fun u =>
    { u with meter := u.meter.handed gross, context := u.context.map fun x => { x with metered := gross } }

@[simp] theorem Part.hose_handed_same (p : Part) (h : HoseId) (gross : Nat) : (p.handed h gross).hose h =
    { p.hose h with
      meter := (p.hose h).meter.handed gross, context := (p.hose h).context.map fun x => { x with metered := gross } } := by
  unfold Part.handed
  rw [Part.hose_modHose_same, Part.hose_setInv]

theorem Part.hose_handed_ne (p : Part) {h k : HoseId} (hk : k ≠ h) (gross : Nat) : (p.handed h gross).hose k = p.hose k :=
  Part.hose_modHose_ne _ _ hk

/-- The book of a compartment takes a gross change whatever else has changed. -/
theorem Part.inv_meterOut_of {p q : Part} (hc : q.cfl = p.cfl) (hi : q.inv = p.inv) {h : HoseId} {delta : Int} :
    (q.meterOut h delta).inv = (p.meterOut h delta).inv := by
  have comp : q.hoseComp h = p.hoseComp h := congrArg (Option.map _) (Part.hoseSettings_of_cfl hc h)
  unfold Part.meterOut
  rw [comp]
  cases p.hoseComp h with
  | none => exact hi
  | some c => simp only [Part.modComp, Part.inv_setInv, hi]

theorem Part.meterOut_shape (p : Part) (h : HoseId) (delta : Int) : p.meterOut h delta = p.setInv (p.meterOut h delta).inv := by
  unfold Part.meterOut
  split <;> rfl

/-- A change of the valves that leaves them as they stand. -/
theorem Part.modValves_self {p : Part} {h : HoseId} {f : Vsq → Vsq} (hf : f (p.hose h).valves = (p.hose h).valves) :
    p.modValves h f = p :=
  (congrArg (fun v => p.setHose h { p.hose h with valves := v }) hf).trans (by cases h <;> rfl)

/-- A load point without a pending preset is nothing (05 R91). -/
theorem Vsq.loads_none {v : Vsq} (hp : v.pending = none) (st : HoseSettings) (gross : Nat) :
    (v.loadAtHundred gross).loadIfDue st gross = v := by
  have load : v.load = v := by
    unfold Vsq.load
    rw [hp]
  have hundred : v.loadAtHundred gross = v := by
    unfold Vsq.loadAtHundred
    rw [load, ite_self]
  rw [hundred]
  unfold Vsq.loadIfDue
  rw [load, ite_self]

/-- Without a pending preset the hand-over ends with the moves of the valves. -/
theorem Part.handOver_eq {p : Part} {h : HoseId} (hp : (p.hose h).valves.pending = none) (st : HoseSettings) (gross : Nat) :
    p.handOver h st gross = (p.handed h gross).moveValves h := by
  have boundary (m : Meter) : (if m.gross % 1000 = 0 ∧ m.boundary < m.gross then { m with boundary := m.gross } else m) =
      { m with boundary := if m.gross % 1000 = 0 ∧ m.boundary < m.gross then m.gross else m.boundary } := by
    split <;> rfl
  have valves (q : Part) (hq : (q.hose h).valves = (p.hose h).valves) :
      (q.modValves h fun v => (v.loadAtHundred gross).loadIfDue st gross) = q :=
    Part.modValves_self (Vsq.loads_none ((congrArg Vsq.pending hq).trans hp) st gross)
  unfold Part.handOver
  dsimp only
  rw [valves]
  · refine congrArg (Part.moveValves · h) ?_
    rw [Part.meterOut_shape, Part.inv_meterOut_of (p := p)
      (q := (p.modMeter h fun m => { m with gross := gross }).modContext h fun x => { x with metered := gross }) rfl rfl]
    unfold Part.reachBoundary Part.handed
    simp only [boundary]
    cases h <;> rfl
  · unfold Part.reachBoundary
    rw [Part.hose_modMeter_same, Part.meterOut_shape, Part.hose_setInv, Part.hose_modContext_same, Part.hose_modMeter_same]

/-! ## The moves of the valves (05 R84 to R86) -/

section Moves

variable {p : Part} {h : HoseId} {st : HoseSettings} (hst : p.hoseSettings h = some st)
include hst

theorem Part.moveValves_of_move {ph : Phase}
    (hm : (p.hose h).valves.move st (p.hose h).meter.gross = ((p.hose h).valves, ph)) : p.moveValves h =
    if ph = (p.hose h).valves.phase then p
    else if ph = .shutting then (p.beginShutting h).takeCause h .preset
    else p.modValves h fun v => v.enter p.now (some st.settleTime) ph := by
  have same : (p.modValves h fun _ => (p.hose h).valves) = p := Part.modValves_self rfl
  unfold Part.moveValves
  rw [hst]
  dsimp only
  rw [hm]
  dsimp only
  rw [same]

/-- In FULL, below the slowdown (R84). -/
theorem Part.moveValves_full (hf : (p.hose h).valves.phase = .full)
    (hg : (p.hose h).meter.gross + st.slowdown < (p.hose h).valves.active) : p.moveValves h = p := by
  have still : (p.hose h).valves.move st (p.hose h).meter.gross = ((p.hose h).valves, .full) := by
    unfold Vsq.move
    rw [hf]
    dsimp only
    rw [if_neg (by omega), if_neg (by omega)]
  rw [Part.moveValves_of_move hst still, if_pos hf.symm]

/-- With no valve commanded open. -/
theorem Part.moveValves_shut (hf : (p.hose h).valves.phase.flowing = false) : p.moveValves h = p := by
  have still : (p.hose h).valves.move st (p.hose h).meter.gross = ((p.hose h).valves, (p.hose h).valves.phase) := by
    unfold Vsq.move
    cases hph : (p.hose h).valves.phase with
    | shut => rfl
    | shutting => rfl
    | trim => rw [hph] at hf; exact absurd hf (by decide)
    | full => rw [hph] at hf; exact absurd hf (by decide)
    | taper => rw [hph] at hf; exact absurd hf (by decide)
  rw [Part.moveValves_of_move hst still, if_pos rfl]

/-- The active preset reached (R85): the valves shut and the hose stops with PRESET. -/
theorem Part.moveValves_preset (hf : (p.hose h).valves.phase.flowing = true)
    (hg : (p.hose h).valves.active ≤ (p.hose h).meter.gross) (hd : (p.hose h).dsc = .flowing)
    (hs : (p.hose h).valves.trim.switch = .opened) (hl : (p.hose h).valves.trim.latch = false) :
    p.moveValves h = (p.event (.stopped h .preset)).modHose h fun u =>
      { u with
        dsc := .stopping, context := u.context.map fun x => { x with cause := some .preset }
        valves := u.valves.enter p.now (some st.settleTime) .shutting
        meter := { u.meter with noFlow := none } } := by
  have reached : (p.hose h).valves.move st (p.hose h).meter.gross = ((p.hose h).valves, .shutting) := by
    unfold Vsq.move
    cases hph : (p.hose h).valves.phase with
    | shut => rw [hph] at hf; exact absurd hf (by decide)
    | shutting => rfl
    | trim => exact if_pos hg
    | full => exact if_pos hg
    | taper => exact if_pos hg
  have shutting : p.beginShutting h = p.modHose h fun u =>
      { u with valves := u.valves.enter p.now (some st.settleTime) .shutting, meter := { u.meter with noFlow := none } } := by
    unfold Part.beginShutting
    rw [if_pos hf, hst]
    rfl
  have hph : Phase.shutting ≠ (p.hose h).valves.phase := by
    intro hph
    rw [← hph] at hf
    exact absurd hf (by decide)
  have trim := Vsq.enter_trim p.now (some st.settleTime) .shutting (p.hose h).valves
  rw [Part.moveValves_of_move hst reached, if_neg hph, if_pos rfl, Part.takeCause_shutting, shutting]
  · cases h <;> rfl
  all_goals rw [shutting, Part.hose_modHose_same]
  · exact hd
  · rfl
  · exact trim.1.trans hs
  · exact trim.2.trans hl

end Moves

/-! ## The checkpoint of a boundary (07 R128, R130) -/

theorem replaceWaiting_split {r o : WriteReq} {front : List WriteReq} (ho : o.kind = r.kind)
    (hf : ∀ q ∈ front, q.kind ≠ r.kind) (back : List WriteReq) : replaceWaiting r (front ++ o :: back) = front ++ r :: back := by
  induction front with
  | nil => exact if_pos ho
  | cons q front ih =>
    rw [List.cons_append, replaceWaiting, if_neg (hf q (List.mem_cons_self ..)),
      ih fun k hk => hf k (List.mem_cons_of_mem _ hk)]
    rfl

theorem Tlg.waits_iff (t : Tlg) (k : WriteKind) : t.waits k = true ↔ ∃ r ∈ t.queue, r.kind = k := by
  simp [Tlg.waits]

section Checkpoint

variable {p : Part} {h : HoseId} {n gross : Nat}

/-- Under a power-fail warning a checkpoint is dropped and counted (R128). -/
theorem Part.checkpoint_powerFail (hp : p.pins.powerFail = true) : (p.checkpoint h n gross).tlg =
    { p.tlg with ckptDropped := min (p.tlg.ckptDropped + 1) 65535 } := by
  unfold Part.checkpoint
  rw [if_pos hp]
  rfl

variable (hp : p.pins.powerFail = false)
include hp

/-- It takes the place of the hose's waiting one. -/
theorem Part.checkpoint_waiting {front back : List WriteReq} {m g : Nat} (hq : p.tlg.queue = front ++ .checkpoint h m g :: back)
    (hf : ∀ r ∈ front, r.kind ≠ .checkpoint h) : (p.checkpoint h n gross).tlg =
    { p.tlg with queue := front ++ .checkpoint h n gross :: back } := by
  have waits : p.tlg.waits (WriteReq.checkpoint h n gross).kind = true :=
    (p.tlg.waits_iff _).mpr ⟨.checkpoint h m g, by rw [hq]; simp, rfl⟩
  have replaced : replaceWaiting (.checkpoint h n gross) p.tlg.queue = front ++ .checkpoint h n gross :: back := by
    rw [hq]
    exact replaceWaiting_split (r := .checkpoint h n gross) (o := .checkpoint h m g) rfl hf back
  unfold Part.checkpoint
  rw [if_neg (by rw [hp]; decide), if_pos waits, replaced]
  rfl

variable (hn : ∀ r ∈ p.tlg.queue, r.kind ≠ .checkpoint h)
include hn

theorem Part.checkpoint_new : p.checkpoint h n gross =
    if p.tlg.queue.length < 8 then p.setTlg { p.tlg with queue := p.tlg.queue ++ [.checkpoint h n gross] }
    else p.setTlg { p.tlg with ckptDropped := min (p.tlg.ckptDropped + 1) 65535 } := by
  have waits_not : ¬ p.tlg.waits (WriteReq.checkpoint h n gross).kind = true := by
    rw [Tlg.waits_iff]
    rintro ⟨r, hr, hk⟩
    exact hn r hr hk
  unfold Part.checkpoint
  rw [if_neg (by rw [hp]; decide), if_neg waits_not]
  rfl

theorem Part.checkpoint_room (hl : p.tlg.queue.length < 8) : (p.checkpoint h n gross).tlg =
    { p.tlg with queue := p.tlg.queue ++ [.checkpoint h n gross] } := by
  rw [Part.checkpoint_new hp hn, if_pos hl, Part.tlg_setTlg]

/-- A full queue drops and counts it. -/
theorem Part.checkpoint_full (hl : 8 ≤ p.tlg.queue.length) : (p.checkpoint h n gross).tlg =
    { p.tlg with ckptDropped := min (p.tlg.ckptDropped + 1) 65535 } := by
  rw [Part.checkpoint_new hp hn, if_neg (by omega), Part.tlg_setTlg]

end Checkpoint

/-- The checkpoint of a hose that has its sequence number. -/
theorem Part.queueCheckpoint_eq {p : Part} {h : HoseId} {x : Context} {n : Nat} (hx : (p.hose h).context = some x)
    (hn : x.sequence = some n) : p.queueCheckpoint h = p.checkpoint h n (p.hose h).meter.boundary := by
  unfold Part.queueCheckpoint
  rw [hx, Option.bind_some, hn, Option.getD_some]

end Sys2Proof.Machine
end

section
/-! Forward transaction steps (04 R64 to R66, 05 R85, 06 R108): far from the marks of the fill, at a
boundary, and at the active preset. -/

namespace Sys2Proof.Machine

open Sys2Proof

/-! ## The channel -/

/-- The rate run touches the rate figures and the overrate timer alone (R70, R71). -/
theorem Meter.rateStep_shape (m : Meter) (now : Nat) (st : HoseSettings) : m.rateStep now st =
    { m with
      rateStart := (m.rateStep now st).rateStart, rateRun := (m.rateStep now st).rateRun
      heldRate := (m.rateStep now st).heldRate, overrateTimer := (m.rateStep now st).overrateTimer } := by
  unfold Meter.rateStep
  split
  · rfl
  · split <;> rfl

/-- The channel after a forward transaction step to a pair, before its gross is handed over. -/
def Meter.advanced (m : Meter) (now : Nat) (st : HoseSettings) (a b : Bool) : Meter :=
  (m.paired a b).goodStep.forwardStep now st

theorem Meter.advanced_eq (m : Meter) (now : Nat) (st : HoseSettings) (a b : Bool) :
    (m.advanced now st a b).netSteps = fitSigned32 (m.netSteps + 1) ∧ (m.advanced now st a b).gross = m.gross
      ∧ (m.advanced now st a b).boundary = m.boundary ∧ (m.advanced now st a b).lastA = a
      ∧ (m.advanced now st a b).lastB = b := by
  unfold Meter.advanced Meter.forwardStep
  rw [Meter.rateStep_shape]
  exact ⟨rfl, rfl, rfl, rfl, rfl⟩

theorem fitSigned32_fits {x : Int} (low : -2147483648 ≤ x) (high : x ≤ 2147483647) : fitSigned32 x = x := if_pos ⟨low, high⟩

/-! ## The step and its hand-over -/

/-- The part after a forward transaction step of a hose that brings its gross to a new figure, before the valves move. -/
def Part.advanced (p : Part) (h : HoseId) (st : HoseSettings) (a b : Bool) (gross : Nat) : Part :=
  (p.modMeter h fun m => m.advanced p.now st a b).handed h gross

section Fields

variable (p : Part) (h : HoseId) (st : HoseSettings) (a b : Bool) (gross : Nat)

theorem Part.hose_advanced_same : (p.advanced h st a b gross).hose h =
    { p.hose h with
      meter := ((p.hose h).meter.advanced p.now st a b).handed gross
      context := (p.hose h).context.map fun x => { x with metered := gross } } := by
  unfold Part.advanced
  rw [Part.hose_handed_same, Part.hose_modMeter_same]

theorem Part.hose_advanced_ne {k : HoseId} (hk : k ≠ h) : (p.advanced h st a b gross).hose k = p.hose k :=
  (Part.hose_handed_ne _ hk gross).trans (Part.hose_modMeter_ne p _ hk)

/-- The book of the hose's compartment loses what the gross has gained (08 R147). -/
theorem Part.inv_advanced :
    (p.advanced h st a b gross).inv = (p.meterOut h ((gross : Int) - (p.hose h).meter.gross)).inv := by
  have gross_before := ((p.hose h).meter.advanced_eq p.now st a b).2.1
  unfold Part.advanced Part.handed
  rw [Part.inv_modHose, Part.inv_setInv, Part.hose_modMeter_same, gross_before]
  exact Part.inv_meterOut_of (by rfl) (by rfl)

/-- The boundary it notes (R66). -/
theorem Part.boundary_advanced : ((p.advanced h st a b gross).hose h).meter.boundary =
    if gross % 1000 = 0 ∧ (p.hose h).meter.boundary < gross then gross else (p.hose h).meter.boundary := by
  obtain ⟨-, -, boundary, -, -⟩ := (p.hose h).meter.advanced_eq p.now st a b
  rw [Part.hose_advanced_same, ← boundary]
  rfl

end Fields

section Forward

variable {p : Part} {h : HoseId} {st : HoseSettings} {a b : Bool} {net : Nat} (hswap : st.phaseSwap = false)
  (hw : (p.hose h).meter.window = true)
  (hc : classify (p.hose h).meter.lastA (p.hose h).meter.lastB a b = some .forward)
  (hn : (p.hose h).meter.netSteps = net) (hlt : net < 2147483647) (hp : (p.hose h).valves.pending = none)
  (hg : (p.hose h).meter.gross ≠ grossOf st (net + 1 : Nat))
include hswap hw hc hn hlt hp hg

theorem Part.decode_forward : p.decode h st a b = (p.advanced h st a b (grossOf st (net + 1 : Nat))).moveValves h := by
  obtain ⟨steps, gross, -⟩ := (p.hose h).meter.advanced_eq p.now st a b
  have counted : ((p.hose h).meter.advanced p.now st a b).netSteps = ((net + 1 : Nat) : Int) := by
    rw [steps, hn, fitSigned32_fits (by omega) (by omega)]
    rfl
  rw [Part.decode_good hswap hc (by decide), Part.goodStep_forward (by rw [Part.hose_modMeter_same]; exact hw),
    Part.modMeter_modMeter]
  show (p.modMeter h fun m => m.advanced p.now st a b).regross h st = _
  unfold Part.regross
  rw [Part.hose_modMeter_same]
  dsimp only
  rw [counted, gross, if_neg hg.symm]
  exact Part.handOver_eq (by rw [Part.hose_modMeter_same]; exact hp) st _

end Forward

/-! ## The log after it -/

theorem Part.logAfter_unreached {b q : Part} {h : HoseId} (hm : (q.hose h).meter.boundary = (b.hose h).meter.boundary) :
    b.logAfter q h = q.tlg := by
  unfold Part.logAfter
  rw [hm, if_neg (lt_irrefl _)]

theorem Part.logAfter_reached {b q : Part} {h : HoseId} {x : Context} {n : Nat}
    (hm : (b.hose h).meter.boundary < (q.hose h).meter.boundary) (hx : (q.hose h).context = some x) (hn : x.sequence = some n) :
    b.logAfter q h = (q.checkpoint h n (q.hose h).meter.boundary).tlg := by
  unfold Part.logAfter
  rw [if_pos hm, Part.queueCheckpoint_eq hx hn]

/-! ## The command -/

theorem Hose.begun_flowing {u : Hose} (hd : u.dsc = .flowing) : u.begun = true := by
  unfold Hose.begun
  rw [hd]

section Command

variable {s : State} {h : HoseId} {a b : Bool} {elapsed : Nat} {st : HoseSettings} {net : Nat} (quiet : s.part.Quiet)
  (hst : s.part.hoseSettings h = some st) (hswap : st.phaseSwap = false) (hw : (s.part.hose h).meter.window = true)
  (hc : classify (s.part.hose h).meter.lastA (s.part.hose h).meter.lastB a b = some .forward)
  (hn : (s.part.hose h).meter.netSteps = net) (hlt : net < 2147483647) (hp : (s.part.hose h).valves.pending = none)
  (hg : (s.part.hose h).meter.gross ≠ grossOf st (net + 1 : Nat))
include quiet hst hswap hw hc hn hlt hp hg

/-- In FULL, below the slowdown, the valves do not move (05 R84). -/
theorem exec_phaseChange_advanced (hf : (s.part.hose h).valves.phase = .full)
    (hs : grossOf st (net + 1 : Nat) + st.slowdown < (s.part.hose h).valves.active) :
    ∃ q, q = (s.part.phased h a b elapsed).advanced h st a b (grossOf st (net + 1 : Nat))
      ∧ exec (.phaseChange h a b elapsed) s = s.goesTo (q.setTlg (s.part.logAfter q h)) := by
  have stepped := Part.decode_forward (p := s.part.phased h a b elapsed) hswap hw hc hn hlt hp hg
  have own := (s.part.phased h a b elapsed).hose_advanced_same h st a b (grossOf st (net + 1 : Nat))
  generalize hq : (s.part.phased h a b elapsed).advanced h st a b (grossOf st (net + 1 : Nat)) = q at stepped own
  have still : q.moveValves h = q :=
    Part.moveValves_full (by rw [← hq]; exact hst) (by rw [own]; exact hf) (by rw [own]; exact hs)
  refine ⟨q, rfl, ?_⟩
  rw [exec_phaseChange hst, stepped.trans still]
  subst hq
  exact congrArg s.goesTo (quiet.settle_phased rfl rfl (fun k hk => Part.hose_advanced_ne _ h st a b _ hk)
    (by rw [own]; exact id))

/-- At the active preset the valves shut and the hose stops (05 R85). -/
theorem exec_phaseChange_preset (hf : (s.part.hose h).valves.phase.flowing = true) (hd : (s.part.hose h).dsc = .flowing)
    (hs : (s.part.hose h).valves.trim.switch = .opened) (hl : (s.part.hose h).valves.trim.latch = false)
    (ha : (s.part.hose h).valves.active ≤ grossOf st (net + 1 : Nat)) :
    ∃ q, q = (((s.part.phased h a b elapsed).advanced h st a b (grossOf st (net + 1 : Nat))).event
          (.stopped h .preset)).modHose h (fun u =>
        { u with
          dsc := .stopping, context := u.context.map fun x => { x with cause := some .preset }
          valves := u.valves.enter (s.part.phased h a b elapsed).now (some st.settleTime) .shutting
          meter := { u.meter with noFlow := none } })
      ∧ exec (.phaseChange h a b elapsed) s = s.goesTo (q.setTlg (s.part.logAfter q h)) := by
  have stepped := Part.decode_forward (p := s.part.phased h a b elapsed) hswap hw hc hn hlt hp hg
  have own := (s.part.phased h a b elapsed).hose_advanced_same h st a b (grossOf st (net + 1 : Nat))
  have stops := Part.moveValves_preset (p := (s.part.phased h a b elapsed).advanced h st a b (grossOf st (net + 1 : Nat)))
    hst (by rw [own]; exact hf) (by rw [own]; exact ha) (by rw [own]; exact hd) (by rw [own]; exact hs) (by rw [own]; exact hl)
  refine ⟨_, rfl, ?_⟩
  rw [exec_phaseChange hst, stepped.trans stops]
  exact congrArg s.goesTo (quiet.settle_phased rfl rfl
    (fun k hk => (Part.hose_modHose_ne _ _ hk).trans (Part.hose_advanced_ne _ h st a b _ hk)) fun _ => Hose.begun_flowing hd)

end Command

/-! ## The obligation -/

/-- Settles O28: the step as `exec_phaseChange_advanced` and `exec_phaseChange_preset` say, its fields read off the part after it,
and the log by the boundary it reaches. -/
theorem forwardStep : Obligations.ForwardStep := by
  refine ⟨?_, ?_, ?_⟩
  · intro s h a b elapsed st net quiet hst hswap hw hc hn hlt hf hp gross hs hg
    obtain ⟨_, rfl, runs⟩ := exec_phaseChange_advanced (elapsed := elapsed) quiet hst hswap hw hc hn hlt hp hg hf hs
    have boundary := (s.part.phased h a b elapsed).boundary_advanced h st a b gross
    obtain ⟨steps, -, -, lastA, lastB⟩ := (s.part.hose h).meter.advanced_eq (s.part.phased h a b elapsed).now st a b
    refine ⟨_, runs, ?_⟩
    rw [Part.hose_setTlg, Part.hose_advanced_same]
    refine ⟨steps.trans ?_, rfl, lastA, lastB, rfl, rfl, rfl, ?_, fun hm => ?_,
      fun k hk => Part.hose_advanced_ne _ h st a b _ hk, rfl⟩
    · rw [hn]
      exact fitSigned32_fits (by omega) (by omega)
    · exact (Part.inv_advanced ..).trans (Part.inv_meterOut_of (by rfl) (by rfl))
    · exact Part.logAfter_unreached (boundary.trans (if_neg fun both => hm both.1))
  · intro s h a b elapsed st net n x quiet hst hswap hw hc hn hlt hf hp hx hseq gross hs hg hm t dropped
    obtain ⟨q, hq, runs⟩ := exec_phaseChange_advanced (elapsed := elapsed) quiet hst hswap hw hc hn hlt hp hg hf hs
    have boundary := (s.part.phased h a b elapsed).boundary_advanced h st a b (grossOf st (net + 1 : Nat))
    have context : (q.hose h).context = some { x with metered := gross } := by
      rw [hq, Part.hose_advanced_same]
      exact (congrArg (Option.map _) hx).trans rfl
    have log : q.tlg = t := by rw [hq]; rfl
    have warned : q.pins.powerFail = s.part.pins.powerFail := by rw [hq]; rfl
    rw [← hq] at boundary
    refine ⟨_, runs, fun hle => ?_, fun hlt => ?_⟩
    · have unreached : (q.hose h).meter.boundary = (s.part.hose h).meter.boundary :=
        boundary.trans (if_neg fun both => absurd both.2 (Nat.not_lt.mpr hle))
      rw [Part.hose_setTlg, Part.tlg_setTlg, Part.logAfter_unreached unreached]
      exact ⟨log, unreached⟩
    · have reached : (q.hose h).meter.boundary = gross := boundary.trans (if_pos ⟨hm, hlt⟩)
      have asked := Part.logAfter_reached (b := s.part) (by rw [reached]; exact hlt) context hseq
      rw [reached] at asked
      rw [Part.hose_setTlg, Part.tlg_setTlg, asked, reached, ← warned]
      refine ⟨rfl, fun hpf => ?_, fun hpf => ⟨fun front m g back hqueue hfront => ?_, fun hnone => ⟨fun hl => ?_, fun hl => ?_⟩⟩⟩
      · rw [Part.checkpoint_powerFail hpf, log]
      · rw [Part.checkpoint_waiting hpf (by rw [log]; exact hqueue) hfront, log]
      · rw [Part.checkpoint_room hpf (by rw [log]; exact hnone) (by rw [log]; exact hl), log]
      · rw [Part.checkpoint_full hpf (by rw [log]; exact hnone) (by rw [log]; exact hl), log]
  · intro s h a b elapsed st net x quiet hst hswap hw hc hn hlt hf hp hd hx hs hl gross ha hg
    obtain ⟨_, rfl, runs⟩ :=
      exec_phaseChange_preset (elapsed := elapsed) quiet hst hswap hw hc hn hlt hp hg hf hd hs hl ha
    refine ⟨_, runs, ?_⟩
    rw [Part.hose_setTlg, Part.hose_modHose_same, Part.hose_event, Part.hose_advanced_same]
    refine ⟨rfl, rfl, rfl, ?_, rfl, rfl, rfl, ?_, fun k hk => ?_⟩
    · show ((s.part.hose h).context.map _).map _ = _
      rw [hx]
      rfl
    · exact (Part.inv_advanced ..).trans (Part.inv_meterOut_of (by rfl) (by rfl))
    · rw [Part.hose_setTlg, Part.hose_modHose_ne _ _ hk, Part.hose_event]
      exact Part.hose_advanced_ne _ h st a b _ hk

end Sys2Proof.Machine
end

section
/-! Sequence errors, reverse transaction steps and the phase swap (04 R63, R65, R67 to R69; 06 R109, R111). -/

namespace Sys2Proof.Machine

open Sys2Proof

/-! ## Sequence errors (R67, R68) -/

/-- The part after a sequence error to a pair, before the fault it may be. -/
def Part.misread (p : Part) (h : HoseId) (a b : Bool) : Part := p.modMeter h fun m => (m.paired a b).sequenceError

section Errors

variable {p : Part} {h : HoseId} {st : HoseSettings} {a b : Bool} {elapsed : Nat}

@[simp] theorem Part.hose_misread_same : (p.misread h a b).hose h =
    { p.hose h with meter := ((p.hose h).meter.paired a b).sequenceError } := Part.hose_modMeter_same ..

theorem Part.hose_misread_ne {k : HoseId} (hk : k ≠ h) : (p.misread h a b).hose k = p.hose k := Part.hose_modMeter_ne _ _ hk

/-- The channel after the error that brings the count to 8. -/
theorem Meter.sequenceError_eighth {m : Meter} (he : m.errorCount = 7) : (m.paired a b).sequenceError =
    { m with
      lastA := a, lastB := b, live := true, goodRun := 0, sticky := true, errorCount := 8
      totalErrors := min (m.totalErrors + 1) 4294967295
      rateStart := if m.window then none else m.rateStart, rateRun := if m.window then 0 else m.rateRun } := by
  unfold Meter.paired Meter.sequenceError
  rw [he]
  rfl

variable (hswap : st.phaseSwap = false) (ha : (p.hose h).meter.lastA ≠ a) (hb : (p.hose h).meter.lastB ≠ b)
include hswap ha hb

theorem Part.decode_error_untold (he : (p.hose h).meter.errorCount ≠ 7) : p.decode h st a b = p.misread h a b := by
  rw [Part.decode_error hswap ha hb, Part.errorStep_untold (by rw [Part.hose_modMeter_same]; exact he), Part.modMeter_modMeter]
  rfl

theorem Part.decode_error_eighth (he : (p.hose h).meter.errorCount = 7) :
    p.decode h st a b = (p.misread h a b).meterFault h := by
  rw [Part.decode_error hswap ha hb, Part.errorStep_eighth (by rw [Part.hose_modMeter_same]; exact he), Part.modMeter_modMeter]
  rfl

end Errors

/-! ## Reverse steps (R65, R69) -/

/-- The channel after a reverse transaction step to a pair, before its gross is handed over. -/
def Meter.receded (m : Meter) (a b : Bool) : Meter := (m.paired a b).goodStep.reverseStep

theorem Meter.netSteps_receded {m : Meter} (low : -2147483648 < m.netSteps) (high : m.netSteps ≤ 2147483647) (a b : Bool) :
    (m.receded a b).netSteps = m.netSteps - 1 :=
  fitSigned32_fits (x := m.netSteps - 1) (by omega) (by omega)

/-- The part after a reverse transaction step of a hose that brings its gross to a figure: a figure that it had already is not
handed over (R66). -/
def Part.receded (p : Part) (h : HoseId) (a b : Bool) (gross : Nat) : Part :=
  if gross = (p.hose h).meter.gross then p.modMeter h fun m => m.receded a b
  else (p.modMeter h fun m => m.receded a b).handed h gross

section Receded

variable {p : Part} {h : HoseId} {a b : Bool} {gross : Nat}

/-- The gross is the figure in either case, and the transaction counts it. -/
theorem Part.hose_receded_same {x : Context} (hx : (p.hose h).context = some x) :
    ∃ boundary, (p.receded h a b gross).hose h =
    { p.hose h with
      meter := { (p.hose h).meter.receded a b with gross := gross, boundary := boundary }
      context := some (if gross = (p.hose h).meter.gross then x else { x with metered := gross }) } := by
  unfold Part.receded
  by_cases same : gross = (p.hose h).meter.gross
  · refine ⟨(p.hose h).meter.boundary, ?_⟩
    rw [if_pos same, if_pos same, Part.hose_modMeter_same, ← hx, same]
    rfl
  · refine ⟨((p.hose h).meter.handed gross).boundary, ?_⟩
    rw [if_neg same, if_neg same, Part.hose_handed_same, Part.hose_modMeter_same]
    dsimp only
    rw [hx]
    rfl

theorem Part.hose_receded_ne {k : HoseId} (hk : k ≠ h) : (p.receded h a b gross).hose k = p.hose k := by
  unfold Part.receded
  split
  · exact Part.hose_modMeter_ne _ _ hk
  · exact (Part.hose_handed_ne _ hk gross).trans (Part.hose_modMeter_ne _ _ hk)

theorem Part.inv_receded : (p.receded h a b gross).inv =
    if gross = (p.hose h).meter.gross then p.inv
    else (p.meterOut h ((gross : Int) - (p.hose h).meter.gross)).inv := by
  unfold Part.receded
  split
  · rfl
  · unfold Part.handed
    rw [Part.inv_modHose, Part.inv_setInv, Part.hose_modMeter_same]
    exact Part.inv_meterOut_of (by rfl) (by rfl)

end Receded

section Reverse

variable {p : Part} {h : HoseId} {st : HoseSettings}

/-- The valves stay where they are: in FULL below the slowdown, or with no valve commanded open (05 R84, R85). -/
theorem Part.moveValves_still (hst : p.hoseSettings h = some st)
    (hs : (p.hose h).valves.phase = .full ∧ (p.hose h).meter.gross + st.slowdown < (p.hose h).valves.active
      ∨ (p.hose h).valves.phase.flowing = false) : p.moveValves h = p :=
  hs.elim (fun hf => Part.moveValves_full hst hf.1 hf.2) (Part.moveValves_shut hst)

theorem Part.decode_reverse {a b : Bool} {gross : Nat} (hst : p.hoseSettings h = some st) (hswap : st.phaseSwap = false)
    (hw : (p.hose h).meter.window = true)
    (hc : classify (p.hose h).meter.lastA (p.hose h).meter.lastB a b = some .reverse)
    (low : -2147483648 < (p.hose h).meter.netSteps) (high : (p.hose h).meter.netSteps ≤ 2147483647)
    (hp : (p.hose h).valves.pending = none) (hg : gross = grossOf st ((p.hose h).meter.netSteps - 1))
    (hs : (p.hose h).valves.phase = .full ∧ gross + st.slowdown < (p.hose h).valves.active
      ∨ (p.hose h).valves.phase.flowing = false) :
    p.decode h st a b = (p.receded h a b gross).reverseTest h st := by
  have counted := Meter.netSteps_receded low high a b
  rw [Part.decode_good hswap hc (by decide), Part.goodStep_reverse (by rw [Part.hose_modMeter_same]; exact hw),
    Part.modMeter_modMeter]
  show ((p.modMeter h fun m => m.receded a b).regross h st).reverseTest h st = _
  refine congrArg (fun q : Part => q.reverseTest h st) ?_
  unfold Part.regross Part.receded
  rw [Part.hose_modMeter_same]
  dsimp only
  rw [counted, ← hg]
  refine if_congr Iff.rfl rfl ?_
  rw [Part.handOver_eq (by rw [Part.hose_modMeter_same]; exact hp)]
  refine Part.moveValves_still (st := st) hst ?_
  rw [Part.hose_handed_same, Part.hose_modMeter_same]
  exact hs

/-- At or below 50 cL, or once told, the reverse volume is no fault (R69). -/
theorem Part.reverseTest_within
    (hl : ¬ (50 < stepVolume st (p.hose h).meter.deficit ∧ (p.hose h).meter.reverseReported = false)) :
    p.reverseTest h st = p := by
  unfold Part.reverseTest
  exact if_neg fun all => hl ⟨all.1, all.2.1⟩

/-- Beyond 50 cL it is told once a transaction (R69). -/
theorem Part.reverseTest_beyond (hl : 50 < stepVolume st (p.hose h).meter.deficit ∧ (p.hose h).meter.reverseReported = false)
    (hd : (p.hose h).dsc = .flowing ∨ (p.hose h).dsc = .stopping) :
    p.reverseTest h st = (p.modMeter h fun m => { m with reverseReported := true }).meterFault h := by
  unfold Part.reverseTest
  exact if_pos ⟨hl.1, hl.2, hd⟩

end Reverse

/-! ## The end of the event, with a fault and without -/

/-- q comes from p by a step on the meter of a hose: beside its meter and its context, the log and the inventory it is p. -/
structure Part.Stepped (p : Part) (h : HoseId) (q : Part) : Prop where
  pumps : q.pumps = p.pumps
  rsc : q.rsc = p.rsc
  cnl : q.cnl = p.cnl
  others : ∀ k, k ≠ h → q.hose k = p.hose k
  dsc : (q.hose h).dsc = (p.hose h).dsc
  valves : (q.hose h).valves = (p.hose h).valves

section Ends

variable {p q : Part} {h : HoseId} {a b : Bool} {elapsed : Nat}

theorem Part.stepped_misread : p.Stepped h ((p.phased h a b elapsed).misread h a b) where
  pumps := rfl
  rsc := rfl
  cnl := rfl
  others _ hk := Part.hose_misread_ne hk
  dsc := by rw [Part.hose_misread_same]; rfl
  valves := by rw [Part.hose_misread_same]; rfl

theorem Part.stepped_receded {gross : Nat} : p.Stepped h ((p.phased h a b elapsed).receded h a b gross) := by
  generalize hq : (p.phased h a b elapsed).receded h a b gross = q
  obtain ⟨pumps, rsc, cnl, dsc, valves⟩ : q.pumps = p.pumps ∧ q.rsc = p.rsc ∧ q.cnl = p.cnl
      ∧ (q.hose h).dsc = (p.hose h).dsc ∧ (q.hose h).valves = (p.hose h).valves := by
    rw [← hq, Part.receded]
    split
    · rw [Part.hose_modMeter_same]
      exact ⟨rfl, rfl, rfl, rfl, rfl⟩
    · rw [Part.hose_handed_same, Part.hose_modMeter_same]
      exact ⟨rfl, rfl, rfl, rfl, rfl⟩
  exact ⟨pumps, rsc, cnl, fun k hk => by rw [← hq]; exact Part.hose_receded_ne hk, dsc, valves⟩

/-- The note of a reported reverse volume is one more change of the meter. -/
theorem Part.Stepped.modMeter (hq : p.Stepped h q) (f : Meter → Meter) : p.Stepped h (q.modMeter h f) where
  pumps := hq.pumps
  rsc := hq.rsc
  cnl := hq.cnl
  others k hk := (Part.hose_modMeter_ne q f hk).trans (hq.others k hk)
  dsc := (congrArg Hose.dsc (q.hose_modMeter_same h f)).trans hq.dsc
  valves := (congrArg Hose.valves (q.hose_modMeter_same h f)).trans hq.valves

variable (quiet : p.Quiet) (hq : p.Stepped h q)
include quiet hq

/-- Without a fault the event ends with what it asks of the log. -/
theorem Part.Stepped.settle : settle (p.phased h a b elapsed) q = q.setTlg (p.logAfter q h) :=
  quiet.settle_phased hq.pumps hq.rsc hq.others (by rw [Hose.begun_of_dsc hq.dsc]; exact id)

/-- A meter fault in flow is the end cause, and the valves shut (06 R109, R110). -/
theorem Part.Stepped.settle_fault_flowing (hd : (p.hose h).dsc = .flowing) (hf : (p.hose h).valves.phase.flowing = true)
    (hs : (p.hose h).valves.trim.switch = .opened) (hl : (p.hose h).valves.trim.latch = false) :
    ∃ r, Machine.settle (p.phased h a b elapsed) (q.meterFault h) = r
      ∧ (∃ valves : Vsq, valves.phase = .shutting ∧ r.hose h = { q.hose h with
          dsc := .stopping, context := (q.hose h).context.map fun x => { x with cause := some .meterFault }
          valves := valves, meter := { (q.hose h).meter with noFlow := none } })
      ∧ (∀ k, k ≠ h → r.hose k = p.hose k) ∧ r.cnl = p.cnl.offer (.stopped h .meterFault) ∧ r.inv = q.inv := by
  have stops := (Part.meterFault_flowing (hq.dsc.trans hd)).trans (q.takeCause_open .meterFault (hq.dsc.trans hd)
    (by rw [hq.valves]; exact hf) (by rw [hq.valves]; exact hs) (by rw [hq.valves]; exact hl))
  have others (k : HoseId) (hk : k ≠ h) : (q.meterFault h).hose k = p.hose k := by
    rw [stops, Part.hose_modHose_ne _ _ hk]
    exact hq.others k hk
  refine ⟨_, quiet.settle_phased (by rw [stops]; exact hq.pumps) (by rw [stops]; exact hq.rsc) others
    fun _ => Hose.begun_flowing hd, ?_⟩
  rw [stops, Part.hose_setTlg, Part.hose_modHose_same, Part.hose_event]
  refine ⟨⟨_, rfl, rfl⟩, fun k hk => (congrArg (fun r : Part => r.hose k) stops).symm.trans (others k hk), ?_, rfl⟩
  exact congrArg (fun c : Cnl => c.offer (.stopped h .meterFault)) hq.cnl

/-- In STOPPING it adds the METER flag (06 R109, R111). -/
theorem Part.Stepped.settle_fault_stopping (hd : (p.hose h).dsc = .stopping) :
    ∃ r, Machine.settle (p.phased h a b elapsed) (q.meterFault h) = r
      ∧ r.hose h = { q.hose h with
          context := (q.hose h).context.map fun x => { x with faults := { x.faults with meter := true } } }
      ∧ (∀ k, k ≠ h → r.hose k = p.hose k) ∧ r.cnl = p.cnl ∧ r.inv = q.inv := by
  have flags := Part.meterFault_stopping (hq.dsc.trans hd)
  have own : (q.meterFault h).hose h = { q.hose h with
      context := (q.hose h).context.map fun x => { x with faults := { x.faults with meter := true } } } := by
    rw [flags, Part.hose_modContext_same]
  have others (k : HoseId) (hk : k ≠ h) : (q.meterFault h).hose k = p.hose k := by
    rw [flags, Part.hose_modContext_ne _ _ hk]
    exact hq.others k hk
  refine ⟨_, quiet.settle_phased (by rw [flags]; exact hq.pumps) (by rw [flags]; exact hq.rsc) others
    (by rw [Hose.begun_of_dsc (v := p.hose h) (by rw [own]; exact hq.dsc)]; exact id), own, others, ?_, ?_⟩
  · rw [flags]
    exact hq.cnl
  · rw [flags]
    rfl

end Ends

/-! ## The obligation -/

/-- Settles O29: the eighth error and the reverse volume beyond its limit are meter faults, taken by the state of the hose. -/
theorem sequenceErrors : Obligations.SequenceErrors := by
  refine ⟨?_, ?_, ?_, ?_⟩
  · intro s h a b elapsed st quiet hst hswap ha hb he m
    have stepped := Part.stepped_misread (p := s.part) (h := h) (a := a) (b := b) (elapsed := elapsed)
    have unlogged : settle (s.part.phased h a b elapsed) _ = _ :=
      quiet.settle_unlogged stepped.pumps stepped.rsc stepped.others (by rw [Hose.begun_of_dsc stepped.dsc]; exact id)
        (by rw [Part.hose_misread_same]; rfl)
    rw [exec_phaseChange hst, Part.decode_error_untold (p := s.part.phased h a b elapsed) hswap ha hb he, unlogged]
    exact congrArg s.goesTo (Part.modMeter_congr rfl)
  · intro s h a b elapsed st quiet hst hswap ha hb he m eighth
    have stepped := Part.stepped_misread (p := s.part) (h := h) (a := a) (b := b) (elapsed := elapsed)
    have own : ((s.part.phased h a b elapsed).misread h a b).hose h = { s.part.hose h with meter := eighth } :=
      Part.hose_misread_same.trans
        (congrArg (fun m => ({ s.part.hose h with meter := m } : Hose)) (Meter.sequenceError_eighth he))
    refine ⟨_, exec_phaseChange hst, ?_⟩
    rw [Part.decode_error_eighth (p := s.part.phased h a b elapsed) hswap ha hb he]
    refine ⟨fun hd hf hs hl => ?_, fun hd => ?_, fun hf hs => ?_⟩
    · obtain ⟨_, rfl, ⟨valves, shutting, after⟩, others, told, -⟩ :=
        stepped.settle_fault_flowing (a := a) (b := b) (elapsed := elapsed) quiet hd hf hs hl
      rw [after, own, told]
      exact ⟨others, rfl, rfl, rfl, shutting, rfl⟩
    · obtain ⟨_, rfl, after, others, told, -⟩ :=
        stepped.settle_fault_stopping (a := a) (b := b) (elapsed := elapsed) quiet hd
      rw [after, own]
      exact ⟨rfl, others, told⟩
    · rw [Part.meterFault_other (by rw [stepped.dsc]; exact hf) (by rw [stepped.dsc]; exact hs), stepped.settle quiet]
      exact ⟨own, stepped.others, stepped.cnl⟩
  · intro s h a b elapsed st x quiet hst hswap hw hc low high hp hx gross m volume hg limit metered
    have stepped := Part.stepped_receded (p := s.part) (h := h) (a := a) (b := b) (elapsed := elapsed) (gross := gross)
    obtain ⟨boundary, own⟩ : ∃ boundary, ((s.part.phased h a b elapsed).receded h a b gross).hose h =
        { s.part.hose h with
          meter := { m.receded a b with gross := gross, boundary := boundary }, context := some metered } :=
      Part.hose_receded_same (p := s.part.phased h a b elapsed) hx
    have steps : (m.receded a b).netSteps = m.netSteps - 1 := Meter.netSteps_receded low high a b
    have book := Part.inv_receded (p := s.part.phased h a b elapsed) (h := h) (a := a) (b := b) (gross := gross)
    have changed (hne : gross ≠ m.gross) := (book.trans (if_neg hne)).trans
      (Part.inv_meterOut_of (p := s.part) (by rfl) (by rfl))
    have unchanged (heq : gross = m.gross) := book.trans (if_pos heq)
    have decoded := Part.decode_reverse (p := s.part.phased h a b elapsed) hst hswap hw hc low high hp hg
    have within (hl : ¬ limit) := Part.reverseTest_within (st := st) (by rw [own]; exact hl)
    have beyond (hl : limit) := Part.reverseTest_beyond (st := st) (by rw [own]; exact hl)
    refine ⟨_, exec_phaseChange hst, fun hd hf hs htrim hlatch => ?_, fun hd hf => ?_⟩
    · rw [decoded (.inl ⟨hf, hs⟩)]
      by_cases hl : limit
      · obtain ⟨r, ended, ⟨valves, shutting, after⟩, -, told, inv⟩ :=
          (stepped.modMeter fun m => { m with reverseReported := true }).settle_fault_flowing (a := a) (b := b)
            (elapsed := elapsed) quiet hd (by rw [hf]; rfl) htrim hlatch
        rw [beyond hl (.inl (stepped.dsc.trans hd)), ended, after, Part.hose_modMeter_same, own, inv, told]
        exact ⟨steps, rfl, rfl, rfl, changed, unchanged, fun hn => absurd hl hn, fun _ => ⟨rfl, rfl, shutting, rfl, rfl, rfl⟩⟩
      · rw [within hl, stepped.settle quiet, Part.hose_setTlg, own]
        exact ⟨steps, rfl, rfl, rfl, changed, unchanged, fun _ => ⟨hd, rfl, rfl, rfl, stepped.cnl⟩, fun hn => absurd hn hl⟩
    · have flags : metered.faults = x.faults := by
        unfold metered
        split <;> rfl
      rw [decoded (.inr hf)]
      by_cases hl : limit
      · obtain ⟨r, ended, after, -, told, -⟩ :=
          (stepped.modMeter fun m => { m with reverseReported := true }).settle_fault_stopping (a := a) (b := b)
            (elapsed := elapsed) quiet hd
        rw [beyond hl (.inr (stepped.dsc.trans hd)), ended, after, Part.hose_modMeter_same, own, told, ← flags]
        exact ⟨steps, rfl, rfl, hd, rfl, rfl, fun hn => absurd hl hn, fun _ => ⟨rfl, rfl⟩⟩
      · rw [within hl, stepped.settle quiet, Part.hose_setTlg, own]
        exact ⟨steps, rfl, rfl, hd, rfl, stepped.cnl, fun _ => ⟨rfl, rfl⟩, fun hn => absurd hn hl⟩
  · intro s h a b elapsed st hst hswap p
    rw [exec_phaseChange hst, Part.decode_swapped _ h hswap]
    rfl

end Sys2Proof.Machine
end

section
/-! The start scan (07 R134 to R137): the boot number it reads, how it classes a slot, and the figures of a recovered record. -/

namespace Sys2Proof.Machine

open Sys2Proof

/-! ## The boot counter (R134) -/

theorem newerBoot_iff {x y : Nat} (hy : y < 256) :
    newerBoot x y = true ↔ 1 ≤ (x + 256 - y) % 256 ∧ (x + 256 - y) % 256 ≤ 127 := by
  unfold newerBoot
  rw [Nat.mod_eq_of_lt hy, Bool.and_eq_true, decide_eq_true_iff, decide_eq_true_iff]

section BootRead

variable {first second : Area Nat}

theorem bootRead_neither (hf : first.value? = none) (hs : second.value? = none) : bootRead first second = (0, true) := by
  unfold bootRead
  rw [hf, hs]

theorem bootRead_first {x : Nat} (hf : first.value? = some x) (hs : second.value? = none) :
    bootRead first second = (x, true) := by
  unfold bootRead
  rw [hf, hs]

theorem bootRead_second {y : Nat} (hf : first.value? = none) (hs : second.value? = some y) :
    bootRead first second = (y, false) := by
  unfold bootRead
  rw [hf, hs]

section Both

variable {x y : Nat} (hf : first.value? = some x) (hs : second.value? = some y) (hx : x < 256) (hy : y < 256)
include hf hs hx hy

theorem bootRead_both : bootRead first second =
    if 1 ≤ (x + 256 - y) % 256 ∧ (x + 256 - y) % 256 ≤ 127 then (x, true)
    else if 1 ≤ (y + 256 - x) % 256 ∧ (y + 256 - x) % 256 ≤ 127 then (y, false)
    else if x < y then (y, false)
    else (x, true) := by
  unfold bootRead
  rw [hf, hs]
  simp only [newerBoot_iff hy, newerBoot_iff hx]

theorem bootRead_first_newer (h1 : 1 ≤ (x + 256 - y) % 256) (h2 : (x + 256 - y) % 256 ≤ 127) :
    bootRead first second = (x, true) := by
  rw [bootRead_both hf hs hx hy, if_pos ⟨h1, h2⟩]

theorem bootRead_second_newer (h1 : 1 ≤ (y + 256 - x) % 256) (h2 : (y + 256 - x) % 256 ≤ 127) :
    bootRead first second = (y, false) := by
  rw [bootRead_both hf hs hx hy, if_neg (by omega), if_pos ⟨h1, h2⟩]

/-- Of two copies of which none is newer the greater is read. -/
theorem bootRead_undecided (h : x = y ∨ (x + 256 - y) % 256 = 128) :
    bootRead first second = (max x y, decide (y ≤ x)) := by
  rw [bootRead_both hf hs hx hy, if_neg (by omega), if_neg (by omega)]
  by_cases hlt : x < y
  · rw [if_pos hlt, max_eq_right hlt.le, decide_eq_false (by omega)]
  · rw [if_neg hlt, max_eq_left (by omega), decide_eq_true (by omega)]

end Both

end BootRead

/-! ## The class of a slot (R135, R136) -/

section Classes

variable {settings : Option Settings} {checkpoints : Quad (Area (Nat × Nat))} {mark : Nat} {u : Slot} {o : Opening}

theorem classifySlot_unread (ho : u.nvOpening = .blank ∨ u.nvOpening = .bad) :
    ((classifySlot settings checkpoints mark u).slot u).state = .free := by
  unfold classifySlot
  rcases ho with ho | ho <;> rw [ho] <;> rfl

theorem classifySlot_released (ho : u.nvOpening = .valid o) (hm : o.sequence ≤ mark) :
    classifySlot settings checkpoints mark u = .free := by
  unfold classifySlot
  rw [ho]
  exact if_pos hm

theorem Slot.belonging_some {k : Closing} (hk : u.nvClosing = .valid k) (hs : k.sequence = o.sequence) :
    u.belonging o = some k := by
  unfold Slot.belonging
  rw [hk]
  exact if_pos hs

theorem Slot.belonging_none (hk : ∀ k, u.nvClosing = .valid k → k.sequence ≠ o.sequence) : u.belonging o = none := by
  unfold Slot.belonging
  cases hc : u.nvClosing with
  | blank => rfl
  | bad => rfl
  | valid k => exact if_neg (hk k hc)

theorem classifySlot_closed {k : Closing} (ho : u.nvOpening = .valid o) (hm : mark < o.sequence)
    (hk : u.nvClosing = .valid k) (hs : k.sequence = o.sequence) :
    classifySlot settings checkpoints mark u = .closed o k := by
  unfold classifySlot
  rw [ho]
  dsimp only
  rw [if_neg (by omega), Slot.belonging_some hk hs]

/-- A whole record or a receipt found open is torn (R135). -/
theorem classifySlot_torn (ho : u.nvOpening = .valid o) (hm : mark < o.sequence)
    (hk : ∀ k, u.nvClosing = .valid k → k.sequence ≠ o.sequence) (hf : ∀ l h a b g m c p t, o.fields ≠ .fill l h a b g m c p t) :
    classifySlot settings checkpoints mark u = .torn := by
  unfold classifySlot
  rw [ho]
  dsimp only
  rw [if_neg (by omega), Slot.belonging_none hk]
  cases hfields : o.fields with
  | fill l h a b g m c p t => exact absurd hfields (hf l h a b g m c p t)
  | receipt => rfl
  | variance => rfl
  | delivery => rfl

end Classes

/-! ## The closing part of a recovered record (R136, 04 R77, R140) -/

section Recovered

variable {checkpoints : Quad (Area (Nat × Nat))} {o : Opening} {hose : HoseId}

/-- The gross of a record found open: that of its hose's checkpoint, where the checkpoint is of the record. -/
def recoveredGross (checkpoints : Quad (Area (Nat × Nat))) (o : Opening) (hose : HoseId) : Nat :=
  match (checkpoints.get hose).value? with
  | some (sequence, gross) => if sequence = o.sequence then gross else 0
  | none => 0

theorem recoveredGross_checkpoint {gross : Nat} (hc : checkpoints.get hose = .valid (o.sequence, gross)) :
    recoveredGross checkpoints o hose = gross := by
  unfold recoveredGross
  rw [hc]
  exact if_pos rfl

theorem recoveredGross_none (hc : ∀ gross, checkpoints.get hose ≠ .valid (o.sequence, gross)) :
    recoveredGross checkpoints o hose = 0 := by
  unfold recoveredGross
  cases hv : checkpoints.get hose with
  | blank => rfl
  | bad => rfl
  | valid c =>
    obtain ⟨sequence, gross⟩ := c
    refine if_neg fun hs => hc gross ?_
    rw [hv, ← hs]

theorem standardOf_unloaded (grade gross : Nat) : standardOf none grade gross 200 = (gross * 10000 + 5000) / 10000 := rfl

/-- With no image in force there is no price (R140). -/
theorem amountOf_unloaded (grade account standard : Nat) : amountOf none grade account standard = 0 := by
  simp [amountOf, priceOf]

/-- The standard volume at 20.0 degrees is of the 20th band (04 R76, R77). -/
theorem standardOf_loaded {st : Settings} {grade factor : Nat} (hf : st.correction[(grade - 1) * 36 + 20]? = some factor)
    (gross : Nat) : standardOf (some st) grade gross 200 = (gross * factor + 5000) / 10000 := by
  have band : factorOf (some st) grade 200 = factor := by
    show st.correction.getD ((grade - 1) * 36 + 20) 10000 = factor
    rw [List.getD_eq_getElem?_getD, hf]
    rfl
  rw [standardOf, band]

theorem amountOf_loaded {st : Settings} {grade account price : Nat} {a : AccountSettings} (ha : st.accounts[account]? = some a)
    (hp : st.tariff[(grade - 1) * 4 + a.band]? = some price) (standard : Nat) :
    amountOf (some st) grade account standard = min ((standard * price + 50) / 100) 4294967295 := by
  have tariff : priceOf (some st) grade account = price := by
    unfold priceOf
    dsimp only
    rw [ha, Option.map_some, Option.getD_some, List.getD_eq_getElem?_getD, hp]
    rfl
  rw [amountOf, tariff]
  rfl

end Recovered

end Sys2Proof.Machine
end

section
/-! The figures of the start scan (07 R137): the greatest numbers read, the own column, and the account totals. -/

namespace Sys2Proof.Machine

open Sys2Proof

/-! ## The greatest read -/

theorem foldl_max_ge (l : List Nat) (a : Nat) : a ≤ l.foldl max a := by
  induction l generalizing a with
  | nil => exact le_rfl
  | cons x l ih => exact (le_max_left a x).trans (ih _)

theorem mem_le_foldl_max {l : List Nat} {n : Nat} (hn : n ∈ l) (a : Nat) : n ≤ l.foldl max a := by
  induction l generalizing a with
  | nil => exact nomatch hn
  | cons x l ih =>
    rcases List.mem_cons.mp hn with rfl | hn
    · exact (le_max_right a n).trans (foldl_max_ge l _)
    · exact ih hn _

/-- The greatest of a list and a number, whichever the fold starts from. -/
theorem max_foldl_max_zero (l : List Nat) (mark : Nat) : max (l.foldl max 0) mark = l.foldl max mark := by
  rw [max_comm, ← List.foldl_assoc (op := max), Nat.max_zero]

theorem mem_readOpenings {slots : List Slot} {u : Slot} {o : Opening} (hu : u ∈ slots) (ho : u.nvOpening = .valid o) :
    o ∈ readOpenings slots := List.mem_filterMap.mpr ⟨u, hu, by rw [ho]; rfl⟩

theorem readOpenings_nil {slots : List Slot} (hn : ∀ u ∈ slots, ∀ o, u.nvOpening ≠ .valid o) : readOpenings slots = [] := by
  refine List.filterMap_eq_nil_iff.mpr fun u hu => ?_
  cases ho : u.nvOpening with
  | blank => rfl
  | bad => rfl
  | valid o => exact absurd ho (hn u hu o)

/-! ## What a slot counts for -/

/-- The CLOSED fill of a shift in a slot: whether it is a LOADOUT, its machine, account, gross, standard volume and amount. -/
def Slot.filled (shift : Nat) (u : Slot) : Option (Bool × Nat × Nat × Nat × Nat × Nat) :=
  match u.state, u.opening, u.closing.map Closing.fields with
  | .closed, some ⟨_, s, _, .fill loadout _ machine account _ _ _ _ _⟩, some (.fill _ gross standard _ amount _ _) =>
    if s = shift then some (loadout, machine, account, gross, standard, amount) else none
  | _, _, _ => none

/-- What a slot adds to the own column of a machine: the gross of a DISPENSE. -/
def Slot.drawnFor (shift number : Nat) (u : Slot) : Nat :=
  match u.filled shift with
  | some (false, machine, _, gross, _, _) => if machine = number then gross else 0
  | _ => 0

/-- What a slot adds to the volume of an account. -/
def Slot.volumeFor (shift account : Nat) (u : Slot) : Nat :=
  match u.filled shift with
  | some (_, _, a, _, standard, _) => if a = account then standard else 0
  | none => 0

/-- What a slot adds to the amount of an account. -/
def Slot.amountFor (shift account : Nat) (u : Slot) : Nat :=
  match u.filled shift with
  | some (_, _, a, _, _, amount) => if a = account then amount else 0
  | none => 0

/-- The own column counts the DISPENSE records (03 R42). -/
theorem Slot.dispensed_eq (shift : Nat) (u : Slot) : u.dispensed shift =
    match u.filled shift with
    | some (false, machine, _, gross, _, _) => some (machine, gross)
    | _ => none := by
  obtain ⟨state, opening, closing, nvOpening, nvClosing⟩ := u
  cases state with
  | free => rfl
  | reserved => rfl
  | opened => rfl
  | closed =>
    rcases opening with _ | ⟨sequence, s, time, fields⟩
    · rfl
    · rcases closing with _ | ⟨number, endTime, result⟩
      · cases fields <;> rfl
      · cases fields with
        | receipt => cases result <;> rfl
        | variance => cases result <;> rfl
        | delivery => cases result <;> rfl
        | fill loadout =>
          cases result with
          | receipt => rfl
          | variance => rfl
          | delivery => rfl
          | fill =>
            by_cases hs : s = shift <;> cases loadout <;> simp [Slot.dispensed, Slot.filled, hs]

/-- The totals count the DISPENSE and LOADOUT records (R137). -/
theorem totalsFromLog_eq (slots : List Slot) (shift : Nat) : totalsFromLog slots shift =
    slots.foldl (fun totals u => match u.filled shift with
      | some (_, _, account, _, standard, amount) => addTotals totals account standard amount
      | none => totals) (List.replicate 64 ⟨0, 0⟩) := by
  unfold totalsFromLog
  refine congrArg (fun f => slots.foldl f (List.replicate 64 (⟨0, 0⟩ : Totals))) (funext fun totals => funext fun u => ?_)
  obtain ⟨state, opening, closing, nvOpening, nvClosing⟩ := u
  cases state with
  | free => rfl
  | reserved => rfl
  | opened => rfl
  | closed =>
    rcases opening with _ | ⟨sequence, s, time, fields⟩
    · rfl
    · rcases closing with _ | ⟨number, endTime, result⟩
      · cases fields <;> rfl
      · cases fields with
        | receipt => cases result <;> rfl
        | variance => cases result <;> rfl
        | delivery => cases result <;> rfl
        | fill =>
          cases result with
          | receipt => rfl
          | variance => rfl
          | delivery => rfl
          | fill => by_cases hs : s = shift <;> simp [Slot.filled, hs]

/-! ## The own column (R137, 03 R41) -/

theorem grow32_fits {n d : Nat} (h : n + d ≤ max32) : grow32 n d = n + d := by
  unfold grow32 fit32
  rw [if_pos h]
  omega

theorem Slot.drawnFor_step {shift number n : Nat} {u : Slot} (h : n + u.drawnFor shift number ≤ max32) :
    (match u.dispensed shift with
      | some (m, gross) => if m = number then grow32 n gross else n
      | none => n) = n + u.drawnFor shift number := by
  rw [Slot.dispensed_eq]
  unfold Slot.drawnFor at *
  revert h
  rcases u.filled shift with _ | ⟨loadout, machine, account, gross, standard, amount⟩
  · exact fun _ => rfl
  · cases loadout with
    | true => exact fun _ => rfl
    | false =>
      dsimp only
      by_cases hm : machine = number
      · rw [if_pos hm, if_pos hm]
        exact grow32_fits
      · rw [if_neg hm, if_neg hm]
        exact fun _ => rfl

/-- While the figure fits in 32 bits it is the sum. -/
theorem ownFromLog_eq {slots : List Slot} {shift number : Nat} (hs : (slots.map (Slot.drawnFor shift number)).sum ≤ max32) :
    ownFromLog slots shift number = (slots.map (Slot.drawnFor shift number)).sum := by
  have fold (n : Nat) (hn : n + (slots.map (Slot.drawnFor shift number)).sum ≤ max32) :
      slots.foldl (fun n u => match u.dispensed shift with
        | some (m, gross) => if m = number then grow32 n gross else n
        | none => n) n = n + (slots.map (Slot.drawnFor shift number)).sum := by
    clear hs
    induction slots generalizing n with
    | nil => rfl
    | cons u slots ih =>
      rw [List.map_cons, List.sum_cons] at *
      rw [List.foldl_cons, Slot.drawnFor_step (by omega), ih _ (by omega)]
      omega
  exact (fold 0 (by omega)).trans (Nat.zero_add _)

/-! ## The account totals (R137, R141) -/

theorem addSat_min (limit v d : Nat) : addSat limit (min v limit) d = min (v + d) limit := by
  unfold addSat
  omega

theorem addTotals_account {totals : List Totals} {account v a : Nat}
    (ht : totals[account]? = some ⟨min v max32, min a max32⟩) (k standard amount : Nat) :
    (addTotals totals k standard amount)[account]? =
      some ⟨min (v + if k = account then standard else 0) max32, min (a + if k = account then amount else 0) max32⟩ := by
  unfold addTotals
  rw [List.getElem?_modify, ht, Option.map_eq_map, Option.map_some]
  by_cases hk : k = account
  · rw [if_pos hk, if_pos hk, if_pos hk, addSat_min, addSat_min]
  · rw [if_neg hk, if_neg hk, if_neg hk]
    rfl

/-- Each figure is the sum over the CLOSED fills, saturated. -/
theorem totalsFromLog_account (slots : List Slot) (shift : Nat) {account : Nat} (ha : account < 64) :
    (totalsFromLog slots shift)[account]? = some
      ⟨min (slots.map (Slot.volumeFor shift account)).sum max32, min (slots.map (Slot.amountFor shift account)).sum max32⟩ := by
  have fold (totals : List Totals) (v a : Nat) (ht : totals[account]? = some ⟨min v max32, min a max32⟩) :
      (slots.foldl (fun totals u => match u.filled shift with
        | some (_, _, account, _, standard, amount) => addTotals totals account standard amount
        | none => totals) totals)[account]? = some
        ⟨min (v + (slots.map (Slot.volumeFor shift account)).sum) max32,
          min (a + (slots.map (Slot.amountFor shift account)).sum) max32⟩ := by
    induction slots generalizing totals v a with
    | nil => exact ht
    | cons u slots ih =>
      rw [List.foldl_cons, List.map_cons, List.map_cons, List.sum_cons, List.sum_cons, ← Nat.add_assoc, ← Nat.add_assoc]
      refine ih _ _ _ ?_
      unfold Slot.volumeFor Slot.amountFor
      rcases u.filled shift with _ | ⟨loadout, machine, k, gross, standard, amount⟩
      · exact ht
      · exact addTotals_account ht k standard amount
  rw [totalsFromLog_eq, fold _ 0 0 (by rw [List.getElem?_replicate, if_pos ha]; rfl), Nat.zero_add, Nat.zero_add]

end Sys2Proof.Machine
end

section
/-! O51 (10 R173, 07 R134 to R137): the end of the image load at start, and the start scan with the writes it waits for. -/

namespace Sys2Proof.Machine

open Sys2Proof

/-! ## The load -/

/-- A load gives settings exactly where its checks pass (10 R170). -/
theorem checkImage_content (station : Nat) (b : List Byte) (h : Header) :
    (checkImage station b h).2.isSome = true ↔ (checkImage station b h).1 = .good := by
  unfold checkImage
  repeat' split
  all_goals simp

theorem loadImage_content (station : Nat) (store : Option (List Byte)) :
    (loadImage station store).content.isSome = true ↔ (loadImage station store).check = .good := by
  unfold loadImage
  cases store with
  | none => simp
  | some b =>
    dsimp only
    split
    · simp
    · split
      · simp
      · exact checkImage_content station b (headerOf b)

/-! ## The scan -/

/-- The class of a slot at the scan of a part. -/
def Part.classOf (p : Part) (u : Slot) : SlotClass :=
  classifySlot p.cfl.settings p.tlg.checkpoints (p.tlg.markArea.value?.getD 0) u

section Scan

variable (p : Part) (entries : List MachineEntry)

theorem Part.slots_startScan : (p.startScan entries).tlg.slots = p.tlg.slots.map fun u => (p.classOf u).slot u := by
  show List.zipWith SlotClass.slot (p.tlg.slots.map p.classOf) p.tlg.slots = _
  rw [List.zipWith_map_left, List.zipWith_self]

theorem Part.slot_startScan {i : Nat} {u : Slot} (hu : p.tlg.slots[i]? = some u) :
    (p.startScan entries).slot i = (p.classOf u).slot u := by
  unfold Part.slot
  rw [Part.slots_startScan, List.getD_eq_getElem?_getD, List.getElem?_map, hu]
  rfl

theorem Part.bootNumber_startScan :
    (p.startScan entries).tlg.bootNumber = ((bootRead p.tlg.bootFirst p.tlg.bootSecond).1 + 1) % 256 := rfl

theorem Part.nextSequence_startScan : (p.startScan entries).tlg.nextSequence =
    ((readOpenings p.tlg.slots).map (·.sequence)).foldl max (p.tlg.markArea.value?.getD 0) + 1 := by
  rw [← max_foldl_max_zero]
  rfl

theorem Part.shift_startScan : (p.startScan entries).alc.shift = ((readOpenings p.tlg.slots).map (·.shift)).foldl max 1 := rfl

theorem Part.scanWrites_startScan : (p.startScan entries).tlg.scanWrites =
    .boot (bootRead p.tlg.bootFirst p.tlg.bootSecond).2 (p.startScan entries).tlg.bootNumber
      :: closingWrites 0 (p.tlg.slots.map p.classOf) := rfl

theorem Part.machines_startScan : (p.startScan entries).machines = entries.map fun e =>
    machineRow p.station (newRow (p.startScan entries).tlg.slots (p.startScan entries).alc.shift p.station e) e := rfl

theorem Part.totals_startScan : (p.startScan entries).totals =
    totalsFromLog (p.startScan entries).tlg.slots (p.startScan entries).alc.shift := rfl

/-- A machine's place as the image gives it, held state and all (02 R33), with its own column from the log (03 R41). -/
theorem Part.machine_startScan {m : MachineRow} (hm : m ∈ (p.startScan entries).machines) :
    m.hold = { held := m.entry.held, reason := m.entry.reason, version := 0, author := p.station }
      ∧ m.drawn = (List.replicate 14 0).set (p.station - 1)
        (ownFromLog (p.startScan entries).tlg.slots (p.startScan entries).alc.shift m.entry.number) := by
  rw [Part.machines_startScan] at hm
  obtain ⟨e, -, rfl⟩ := List.mem_map.mp hm
  exact ⟨rfl, rfl⟩

theorem Part.entries_startScan : (p.startScan entries).machines.map (·.entry) = entries := by
  rw [Part.machines_startScan, List.map_map]
  exact List.map_id entries

variable {p}

/-- A record read is below the next sequence number, and of no later shift (R137). -/
theorem Part.read_startScan {u : Slot} {o : Opening} (hu : u ∈ p.tlg.slots) (ho : u.nvOpening = .valid o) :
    o.sequence < (p.startScan entries).tlg.nextSequence ∧ o.shift ≤ (p.startScan entries).alc.shift := by
  have read := mem_readOpenings hu ho
  rw [Part.nextSequence_startScan, Part.shift_startScan]
  exact ⟨Nat.lt_succ_of_le (mem_le_foldl_max (List.mem_map_of_mem read) _), mem_le_foldl_max (List.mem_map_of_mem read) _⟩

theorem Part.unread_startScan (hn : ∀ u ∈ p.tlg.slots, ∀ o, u.nvOpening ≠ .valid o) :
    (p.startScan entries).tlg.nextSequence = p.tlg.markArea.value?.getD 0 + 1 ∧ (p.startScan entries).alc.shift = 1 := by
  rw [Part.nextSequence_startScan, Part.shift_startScan, readOpenings_nil hn]
  exact ⟨rfl, rfl⟩

/-! ### Slots (R135, R136) -/

/-- A fill found open is closed by the scan (R136). -/
theorem Part.classOf_recovered {u : Slot} {o : Opening} (ho : u.nvOpening = .valid o)
    (hm : p.tlg.markArea.value?.getD 0 < o.sequence) (hk : ∀ k, u.nvClosing = .valid k → k.sequence ≠ o.sequence) {l : Bool}
    {h : HoseId} {machine account grade : Nat} {method : EntryMethod} {claim preset : Nat} {target : Option (Nat × CompId)}
    (hf : o.fields = .fill l h machine account grade method claim preset target) :
    p.classOf u = .recovered o (recoveredClosing p.cfl.settings p.tlg.checkpoints o h account grade preset) :=
  (classifySlot_recovered _ _ _ u o _).mpr ⟨o, ho, hm, hk, rfl, l, h, machine, account, grade, method, claim, preset, target,
    hf, rfl⟩

section Slots

variable {i : Nat} {u : Slot} (hu : p.tlg.slots[i]? = some u)
include hu

theorem Part.slot_unread (ho : u.nvOpening = .blank ∨ u.nvOpening = .bad) : ((p.startScan entries).slot i).state = .free := by
  rw [p.slot_startScan entries hu]
  exact classifySlot_unread ho

variable {o : Opening} (ho : u.nvOpening = .valid o)
include ho

theorem Part.slot_released (hm : o.sequence ≤ p.tlg.markArea.value?.getD 0) : ((p.startScan entries).slot i).state = .free := by
  rw [p.slot_startScan entries hu, Part.classOf, classifySlot_released ho hm]
  rfl

variable (hm : p.tlg.markArea.value?.getD 0 < o.sequence)
include hm

theorem Part.slot_closed {k : Closing} (hk : u.nvClosing = .valid k) (hs : k.sequence = o.sequence) :
    (p.startScan entries).slot i = { u with state := .closed, opening := some o, closing := some k } := by
  rw [p.slot_startScan entries hu, Part.classOf, classifySlot_closed ho hm hk hs]
  rfl

variable (hk : ∀ k, u.nvClosing = .valid k → k.sequence ≠ o.sequence)
include hk

theorem Part.slot_torn (hf : ∀ l h a b g m c p t, o.fields ≠ .fill l h a b g m c p t) :
    ((p.startScan entries).slot i).state = .free := by
  rw [p.slot_startScan entries hu, Part.classOf, classifySlot_torn ho hm hk hf]
  rfl

end Slots

/-- A closing part that waits is that of a record found open, and stands in its slot already (R136; log 19). -/
theorem Part.mem_closings (i : Nat) (k : Closing) : .recovered i k ∈ closingWrites 0 (p.tlg.slots.map p.classOf) ↔
    ∃ u o, p.tlg.slots[i]? = some u ∧ u.nvOpening = .valid o ∧ p.tlg.markArea.value?.getD 0 < o.sequence
      ∧ (∀ k', u.nvClosing = .valid k' → k'.sequence ≠ o.sequence)
      ∧ (∃ l h m a g e c p t, o.fields = .fill l h m a g e c p t) ∧ ((p.startScan entries).slot i).closing = some k := by
  rw [mem_closingWrites]
  constructor
  · rintro ⟨j, o, k', hw, hc⟩
    obtain ⟨rfl, rfl⟩ : i = j ∧ k = k' := by simpa using hw
    rw [List.getElem?_map, Option.map_eq_some_iff] at hc
    obtain ⟨u, hu, hc⟩ := hc
    have closing : ((p.startScan entries).slot i).closing = some k := by
      rw [p.slot_startScan entries hu, hc]
      rfl
    obtain ⟨o', ho, hm, hk, rfl, l, h, m, a, g, e, c, preset, t, hf, -⟩ := (classifySlot_recovered _ _ _ u o k).mp hc
    exact ⟨u, o, hu, ho, hm, hk, ⟨l, h, m, a, g, e, c, preset, t, hf⟩, closing⟩
  · rintro ⟨u, o, hu, ho, hm, hk, ⟨l, h, m, a, g, e, c, preset, t, hf⟩, closing⟩
    have recovered := Part.classOf_recovered (p := p) ho hm hk hf
    rw [p.slot_startScan entries hu, recovered] at closing
    refine ⟨i, o, k, by rw [Nat.zero_add], ?_⟩
    rw [List.getElem?_map, hu, Option.map_some, recovered, ← Option.some.inj closing]

theorem Part.closings_recovered (classes : List SlotClass) (w : ScanWrite) (hw : w ∈ closingWrites 0 classes) :
    ∃ i k, w = .recovered i k := by
  obtain ⟨i, -, k, rfl, -⟩ := (mem_closingWrites classes 0 w).mp hw
  exact ⟨_, k, rfl⟩

end Scan

/-! ## The command -/

/-- The part with the image's outcome in force and its lines read, before the scan (R173). -/
def Part.withImage (p : Part) (r : LoadResult) : Part :=
  Part.readLines { p with
    cfl := { p.cfl.loaded r with stage := .scanWrites }
    rsc := { p.rsc with roleInForce := r.content.map (·.1.identity.role) } }

theorem exec_imageLoadEnd_start {s : State} (hs : s.part.cfl.stage = .imageLoad) (store : Option (List Byte)) (r : Readings) :
    exec (.imageLoadEnd store r) s = s.goesTo ((s.part.withImage (loadFor s.part.cfl.station store)).startScan
      (((loadFor s.part.cfl.station store).content.map (·.2)).getD [])) := by
  simp only [exec, execImageLoadEnd, exec_next]
  rw [if_pos hs]
  rfl

theorem Cfl.loaded_eq (c : Cfl) {r : LoadResult} (hr : r.content.isSome = true ↔ r.check = .good) : c.loaded r =
    { c with
      load := if r.check = .good then .good else .fault, check := some r.check, presence := r.presence.getD c.presence
      header := r.header, settings := r.content.map (·.1) } := by
  unfold Cfl.loaded
  simp only [hr]

/-! ## The obligation -/

/-- Settles O51: the load's outcome stands before the scan, and each figure of the scan is one of its lemmas. -/
theorem startLoad : Obligations.StartLoad := by
  refine ⟨fun s store r hstage hstation => ?_, ?_⟩
  · rw [exec_imageLoadEnd_start hstage, hstation]
    exact ⟨_, rfl, rfl, rfl, rfl, rfl⟩
  · intro s store r n hstage hstation res mark
    have loaded := s.part.cfl.loaded_eq (loadImage_content n store)
    obtain ⟨p, hp⟩ : ∃ p, p = s.part.withImage res := ⟨_, rfl⟩
    obtain ⟨entries, hentries⟩ : ∃ entries, entries = (res.content.map (·.2)).getD [] := ⟨_, rfl⟩
    have runs : exec (.imageLoadEnd store r) s = s.goesTo (p.startScan entries) := by
      rw [exec_imageLoadEnd_start hstage, hstation, hp, hentries]
      rfl
    have log : p.tlg = s.part.tlg := by rw [hp]; rfl
    have station : p.station = n := by
      rw [hp]
      show s.part.cfl.station.getD 0 = n
      rw [hstation]
      rfl
    have hmark : mark = p.tlg.markArea.value?.getD 0 := by rw [log]
    refine ⟨p.startScan entries, runs, ?_⟩
    rw [hmark, ← log, Part.bootNumber_startScan, Part.scanWrites_startScan]
    refine ⟨?_, (p.entries_startScan entries).trans hentries, fun m hm => ?_, by rw [hp]; rfl, ?_, ?_, ?_, ?_, fun i u hu => ?_,
      ?_, fun u hu o ho => Part.read_startScan entries hu ho, fun hn => Part.unread_startScan entries hn, ?_,
      ⟨_, _, rfl, ?_, ?_, ?_, ?_, Part.closings_recovered _, fun i k => Part.mem_closings entries i k⟩⟩
    · rw [hp]
      exact congrArg (fun c : Cfl => { c with stage := .scanWrites }) loaded
    · rw [(p.machine_startScan entries hm).1, station]
    · exact fun hf hs => (congrArg (fun b : Nat × Bool => (b.1 + 1) % 256) (bootRead_neither hf hs)).trans rfl
    · exact fun x hf hs => by rw [bootRead_first hf hs]
    · exact fun x hf hs => by rw [bootRead_second hf hs]
    · exact fun x y hf hs hx hy => ⟨fun h1 h2 => by rw [bootRead_first_newer hf hs hx hy h1 h2],
        fun h1 h2 => by rw [bootRead_second_newer hf hs hx hy h1 h2], fun h => by rw [bootRead_undecided hf hs hx hy h]⟩
    · refine ⟨Part.slot_unread entries hu, fun o ho => ⟨Part.slot_released entries hu ho, fun hm k hk hs => ?_,
        fun hm hk => ⟨Part.slot_torn entries hu ho hm hk, ?_⟩⟩⟩
      · rw [Part.slot_closed entries hu ho hm hk hs]
        exact ⟨rfl, rfl, rfl⟩
      · intro l h machine account grade method claim preset target hf
        rw [p.slot_startScan entries hu, Part.classOf_recovered ho hm hk hf]
        refine ⟨rfl, rfl, recoveredGross p.tlg.checkpoints o h, _, _, rfl, fun g => recoveredGross_checkpoint,
          recoveredGross_none, fun hn => ?_, fun st hst => ⟨fun factor hfactor => ?_, fun a price ha hprice => ?_⟩⟩
        · have unloaded : p.cfl.settings = none := hn
          rw [unloaded]
          exact ⟨standardOf_unloaded _ _, amountOf_unloaded _ _ _⟩
        · have inForce : p.cfl.settings = some st := hst
          rw [inForce]
          exact standardOf_loaded hfactor _
        · have inForce : p.cfl.settings = some st := hst
          rw [inForce]
          exact amountOf_loaded ha hprice _
    · rw [Part.nextSequence_startScan]
      exact Nat.lt_succ_of_le (foldl_max_ge _ _)
    · intro read filled own
      refine ⟨p.nextSequence_startScan entries, p.shift_startScan entries, fun m hm hfits => ?_, fun account ha => ?_⟩
      · rw [(p.machine_startScan entries hm).2, station]
        exact congrArg _ (ownFromLog_eq hfits)
      · exact totalsFromLog_account _ _ ha
    · exact fun x hf hs => by rw [bootRead_first hf hs]
    · exact fun x hf hs => by rw [bootRead_second hf hs]
    · exact fun hf hs => by rw [bootRead_neither hf hs]
    · exact fun x y hf hs hx hy => ⟨fun h1 h2 => by rw [bootRead_first_newer hf hs hx hy h1 h2],
        fun h1 h2 => by rw [bootRead_second_newer hf hs hx hy h1 h2], fun h => by rw [bootRead_undecided hf hs hx hy h]⟩

end Sys2Proof.Machine
end

section
/-! O60: the two inputs (05 R98, R99) keep every valve shut and every grant withdrawn, and so does every step. -/

namespace Sys2Proof.Machine

open Sys2Proof

/-! ## A part with every valve shut and every grant withdrawn -/

/-- No valve is commanded open, and no hose holds a pump's grant. -/
def Part.AllShut (p : Part) : Prop :=
  (∀ h, (p.hose h).valves.phase.flowing = false) ∧ ∀ i, (p.pumps.get i).grants = []

theorem Part.AllShut.safe {p : Part} (hp : p.AllShut) : p.Safe := fun _ => hp

/-- Where no valve may open and no grant may be given, all stay as they are. -/
theorem Part.AllShut.stays {p q : Part} (hp : p.AllShut) (hq : Stays False p q) : q.AllShut := by
  obtain ⟨hflow, hgrants⟩ := hp
  refine ⟨fun h => ?_, fun i => List.eq_nil_iff_forall_not_mem.mpr fun g hg => ?_⟩
  · rw [Bool.eq_false_iff]
    intro hf
    have before := (hq.moves.flow h hf).resolve_right id
    rw [hflow h] at before
    exact Bool.false_ne_true before
  · have before := (hq.moves.grants i g hg).resolve_right id
    rw [hgrants i] at before
    exact List.not_mem_nil before

/-- What the valves and pumps do at the assertion of either input (R98, R99). -/
theorem Part.allShut_shutDown (p : Part) : p.shutDown.AllShut := ⟨shutDown_flow p, shutDown_grants p⟩

theorem Part.allShut_started (p : Part) (straps : Nat) : (p.started straps).AllShut :=
  ⟨fun h => by cases h <;> rfl, fun i => by cases i <;> rfl⟩

/-! ## The four input commands -/

/-- The part at the assertion of the emergency input, before the end of the event (R98, 06 R118). -/
def Part.emergencyStop (p : Part) : Part :=
  allHoses.foldl (fun q h => q.takeCause h .emergency) ((p.setPins { p.pins with emergency := true }).shutDown)

/-- The part at the power-fail warning, before the hoses act on it (R99, 07 R133). -/
def Part.warned (p : Part) : Part :=
  ((p.setPins { p.pins with powerFail := true }).setTlg { p.tlg with queue := p.tlg.queue.filter WriteReq.kept }).shutDown

/-- The part at the power-fail warning, before the end of the event (R99, 06 R119). -/
def Part.powerFailStop (p : Part) : Part := allHoses.foldl (fun q h => q.powerFailHose h) p.warned

theorem exec_emergencyAsserted_again {s : State} (he : s.part.pins.emergency = true) :
    exec .emergencyAsserted s = s.goesTo s.part := congrArg s.goesTo (if_pos he)

theorem exec_emergencyAsserted {s : State} (he : s.part.pins.emergency = false) :
    exec .emergencyAsserted s = s.goesTo (settle s.part s.part.emergencyStop) :=
  congrArg s.goesTo (if_neg (by rw [he]; decide))

theorem exec_powerFailWarning_again {s : State} (hp : s.part.pins.powerFail = true) :
    exec .powerFailWarning s = s.goesTo s.part := congrArg s.goesTo (if_pos hp)

theorem exec_powerFailWarning {s : State} (hp : s.part.pins.powerFail = false) :
    exec .powerFailWarning s = s.goesTo (settle s.part s.part.powerFailStop) :=
  congrArg s.goesTo (if_neg (by rw [hp]; decide))

theorem Part.emergencyStop_stays (p : Part) :
    Stays False (p.setPins { p.pins with emergency := true }).shutDown p.emergencyStop :=
  Stays.refl.foldHoses _ _ fun _ h hr => hr.takeCause h .emergency

theorem Part.powerFailStop_stays (p : Part) : Stays False p.warned p.powerFailStop :=
  Stays.refl.foldHoses _ _ fun _ h hr => powerFailHose_stays hr h

/-- The levels of the inputs stand through the shutting of the valves. -/
theorem Part.pins_shutDown (p : Part) : p.shutDown.pins = p.pins := (shutDown_stays (Stays.refl (free := False))).pins_eq

theorem Part.pins_emergencyStop (p : Part) : p.emergencyStop.pins = { p.pins with emergency := true } := by
  rw [p.emergencyStop_stays.pins_eq, Part.pins_shutDown, Part.pins_setPins]

theorem Part.pins_powerFailStop (p : Part) : p.powerFailStop.pins = { p.pins with powerFail := true } := by
  rw [p.powerFailStop_stays.pins_eq, Part.warned, Part.pins_shutDown, Part.pins_setTlg, Part.pins_setPins]

theorem Part.emergencyStop_asserted (p : Part) : ¬ p.emergencyStop.inputsClear := by
  unfold Part.inputsClear
  rw [p.pins_emergencyStop]
  simp

theorem Part.powerFailStop_asserted (p : Part) : ¬ p.powerFailStop.inputsClear := by
  unfold Part.inputsClear
  rw [p.pins_powerFailStop]
  simp

theorem Part.emergency_allShut (p : Part) : (settle p p.emergencyStop).AllShut :=
  (Part.allShut_shutDown _).stays (p.emergencyStop_stays.settle p.emergencyStop_asserted p)

theorem Part.powerFail_allShut (p : Part) : (settle p p.powerFailStop).AllShut :=
  (Part.allShut_shutDown _).stays (p.powerFailStop_stays.settle p.powerFailStop_asserted p)

/-- The release of an input: the arbitration runs only where the other is not asserted (R95, R98, R99). -/
theorem Part.Safe.settle_released {p : Part} (hp : p.Safe) (pins : Pins)
    (hc : p.inputsClear → (p.setPins pins).inputsClear) : (settle p (p.setPins pins)).Safe :=
  have released : (p.setPins pins).Safe := fun ha => hp fun clear => ha (hc clear)
  (Stays.refl.settle id p).moves.safe released

/-! ## The obligation -/

/-- Every command goes on with a part. -/
theorem exec_goesTo (c : Instr) (s : State) : ∃ q : Part, exec c s = s.goesTo q := by
  cases c <;> exact ⟨_, rfl⟩

/-- START and the commands of the two inputs by what they leave, every other command by what it may move. -/
theorem Part.Safe.exec {s : State} {q : Part} (hs : s.part.Safe) (c : Instr) (hq : exec c s = s.goesTo q) : q.Safe := by
  have goes {r : Part} (hr : Machine.exec c s = s.goesTo r) : q = r := by
    rw [hr] at hq
    simpa [State.goesTo] using hq.symm
  cases c with
  | start straps scanDone fate => exact goes rfl ▸ (Part.allShut_started _ straps).safe
  | emergencyAsserted =>
    cases he : s.part.pins.emergency with
    | true => exact goes (exec_emergencyAsserted_again he) ▸ hs
    | false => exact goes (exec_emergencyAsserted he) ▸ s.part.emergency_allShut.safe
  | powerFailWarning =>
    cases hp : s.part.pins.powerFail with
    | true => exact goes (exec_powerFailWarning_again hp) ▸ hs
    | false => exact goes (exec_powerFailWarning hp) ▸ s.part.powerFail_allShut.safe
  | emergencyDeasserted => exact goes rfl ▸ hs.settle_released _ fun clear => ⟨rfl, clear.2⟩
  | powerFailDeasserted => exact goes rfl ▸ hs.settle_released _ fun clear => ⟨clear.1, rfl⟩
  | _ => exact (exec_moves _ s q id (.inl hs) hq nofun nofun nofun nofun nofun).safe hs

/-- Settles O60: START leaves every valve shut and every grant withdrawn, and so does the assertion of an input; at the release of
one the other still holds the arbitration back; every other command opens a valve or gives a grant only while no input is asserted. -/
theorem stepKeepsSafe : Obligations.StepKeepsSafe := by
  rintro ⟨pending, p⟩ s' hs hstep
  cases pending with
  | nil =>
    cases hstep
    exact hs
  | cons c rest =>
    obtain ⟨q, hq⟩ := exec_goesTo c ⟨rest, p⟩
    have next : s' = { pending := rest, part := q } := by
      simpa [State.goesTo] using hstep.symm.trans hq
    rw [next]
    exact Part.Safe.exec (s := ⟨rest, p⟩) hs c hq

end Sys2Proof.Machine
end

section
/-! Switch reports and position faults (05 R80 to R82, R84, R87): what each leaves of its valve, and how its event ends. -/

namespace Sys2Proof.Machine

open Sys2Proof

/-! ## Commands and reports (R80, R81) -/

theorem trimCommand_opened_iff (ph : Phase) : trimCommand ph = .opened ↔ ph = .trim ∨ ph = .full ∨ ph = .taper := by
  cases ph <;> simp [trimCommand]

theorem mainCommand_opened_iff (ph : Phase) : mainCommand ph = .opened ↔ ph = .full := by
  cases ph <;> simp [mainCommand]

/-- With no valve commanded open both are commanded CLOSED. -/
theorem commandOf_closed {ph : Phase} (hp : ph.flowing = false) (v : ValveId) : commandOf v ph = .closed := by
  cases ph with
  | shut => cases v <;> rfl
  | shutting => cases v <;> rfl
  | trim => exact absurd hp (by decide)
  | full => exact absurd hp (by decide)
  | taper => exact absurd hp (by decide)

section Report

variable (v : Valve) (now : Nat)

/-- OPEN under a CLOSED command starts the settle timer unless it runs (R81). -/
theorem Valve.report_opened (t : Nat) : v.report now (some t) .closed .opened =
    { v with switch := .opened, settle := some (v.settle.getD (now + 100 * t)) } := by
  obtain ⟨switch, settle, latch, faults⟩ := v
  cases settle <;> rfl

/-- CLOSED under a CLOSED command cancels the timer and clears the latch (R81). -/
theorem Valve.report_closed (t : Option Nat) : v.report now t .closed .closed =
    { v with switch := .closed, settle := none, latch := false } := rfl

/-- OPEN under an OPEN command cancels the timer (R81). -/
theorem Valve.report_confirmed (t : Option Nat) : v.report now t .opened .opened =
    { v with switch := .opened, settle := none } := rfl

end Report

/-- A change of the valves is known by what it makes of the valves that stand there. -/
theorem Part.modValves_congr {p : Part} {h : HoseId} {f g : Vsq → Vsq} (hf : f (p.hose h).valves = g (p.hose h).valves) :
    p.modValves h f = p.modValves h g := congrArg (fun q => p.setHose h { p.hose h with valves := q }) hf

theorem Vsq.valve_setValve_same (q : Vsq) (v : ValveId) (x : Valve) : (q.setValve v x).valve v = x := by
  rw [Vsq.valve_setValve, if_pos rfl]

/-- What a report makes of its valve decides the part with the report taken. -/
theorem Part.reported_eq {p : Part} {h : HoseId} {v : ValveId} {position : Position} {x : Valve}
    (hx : ((p.hose h).valves.valve v).report p.now ((p.hoseSettings h).map (·.settleTime))
      (commandOf v (p.hose h).valves.phase) position = x) :
    p.reported h v position = p.modValves h fun q => q.setValve v x := by
  unfold Part.reported
  exact Part.modValves_congr (by rw [hx])

/-- The entry into SHUT is due in SHUTTING alone (R87). -/
theorem Part.shutTest_other {p : Part} {h : HoseId} (hp : (p.hose h).valves.phase ≠ .shutting) : p.shutTest h = p :=
  if_neg fun hs => hp hs.1

theorem Part.shutTest_settled {p : Part} {h : HoseId} (hp : (p.hose h).valves.phase = .shutting)
    (hs : (p.hose h).valves.settled = true) : p.shutTest h = p.enterShut h := if_pos ⟨hp, hs⟩

/-- A change of a switch: the report, the moves of the valves, and the entry into SHUT (R81, R84, R87). -/
theorem exec_switchChange {s : State} {h : HoseId} {v : ValveId} {position : Position} (hg : s.part.cfl.stage ≠ .imageLoad)
    (hv : ((s.part.hose h).valves.valve v).switch ≠ position) : exec (.switchChange h v position) s = s.goesTo
    (settle (s.part.switched h v position) ((((s.part.switched h v position).reported h v position).moveValves h).shutTest h)) :=
  congrArg s.goesTo (if_neg (not_or.mpr ⟨hg, hv⟩))

/-- On a hose with no valve commanded open a report changes its valve alone. -/
theorem Part.Quiet.exec_switchChange_shut {s : State} (quiet : s.part.Quiet) {h : HoseId} {v : ValveId} {position : Position}
    {st : HoseSettings} {x : Valve} (hg : s.part.cfl.stage ≠ .imageLoad) (hst : s.part.hoseSettings h = some st)
    (hp : (s.part.hose h).valves.phase = .shut) (hv : ((s.part.hose h).valves.valve v).switch ≠ position)
    (hx : ((s.part.hose h).valves.valve v).report s.part.now (some st.settleTime) .closed position = x) :
    exec (.switchChange h v position) s = s.goesTo
      ((s.part.modPins h fun k => k.setSwitch v position).modValves h fun q => q.setValve v x) := by
  have reported : (s.part.switched h v position).reported h v position =
      (s.part.switched h v position).modValves h fun q => q.setValve v x := by
    refine Part.reported_eq ?_
    rw [show (s.part.switched h v position).hoseSettings h = some st from hst]
    show ((s.part.hose h).valves.valve v).report s.part.now (some st.settleTime)
      (commandOf v (s.part.hose h).valves.phase) position = x
    rw [hp, commandOf_closed rfl]
    exact hx
  have phase : ((s.part.switched h v position).reported h v position |>.hose h).valves.phase = .shut := by
    rw [reported, Part.hose_modValves_same, Vsq.phase_setValve]
    exact hp
  have settings : ((s.part.switched h v position).reported h v position).hoseSettings h = some st := hst
  rw [exec_switchChange hg hv, Part.moveValves_shut settings (by rw [phase]; rfl),
    Part.shutTest_other (by rw [phase]; decide), reported]
  refine congrArg s.goesTo ((quiet.of_pumps (q := s.part.switched h v position) rfl).settle_one h rfl rfl (fun k hk => ?_) ?_ ?_)
  · exact Part.hose_modValves_ne _ _ hk
  · rw [Part.hose_modValves_same]
    exact id
  · rw [Part.hose_modValves_same]

/-! ## Position faults (R81, R82) -/

theorem exec_settleExpiry {s : State} {h : HoseId} {v : ValveId} {due : Nat}
    (hd : ((s.part.hose h).valves.valve v).settle = some due) :
    exec (.settleExpiry h v) s = s.goesTo (settle (s.part.reach due) ((s.part.reach due).positionFault h v)) := by
  show execSettleExpiry h v s = _
  unfold execSettleExpiry
  rw [exec_next, hd]

/-- A valve with a close fault: counted and latched, its settle timer run out (R81, R82). -/
def Valve.closeFault (x : Valve) : Valve := { x with settle := none, latch := true, faults := min (x.faults + 1) 65535 }

/-- The part with a close fault counted and latched, before it is told to anyone. -/
def Part.closeFault (p : Part) (h : HoseId) (v : ValveId) : Part :=
  p.modValves h fun q => q.setValve v ((p.hose h).valves.valve v).closeFault

/-- A hose that holds no grant has none to release. -/
theorem Part.dropGrant_id {p : Part} {h : HoseId} (hg : ∀ i, h ∉ (p.pumps.get i).grants) : p.dropGrant h = p := by
  have same (i : PumpId) : (p.pumps.get i).grants.filter (fun g => !(g == h)) = (p.pumps.get i).grants :=
    List.filter_eq_self.mpr fun g hm => by simpa using fun e : g = h => hg i (e ▸ hm)
  have first := same .p1
  have second := same .p2
  simp only [ByPump.get] at first second
  unfold Part.dropGrant
  rw [first, second]
  rfl

/-- With no valve commanded open a position fault is a close fault: it releases the hose's grant, and is told to its transaction
(R82). -/
theorem Part.positionFault_closed {p : Part} {h : HoseId} (hp : (p.hose h).valves.phase.flowing = false) (v : ValveId) :
    p.positionFault h v = ((((p.closeFault h v).dropGrant h).takeCause h .valveFault).shutTest h) := by
  have fault : (p.modValves h fun s => s.setValve v { s.valve v with
      settle := none, faults := bump max16 (s.valve v).faults, latch := (s.valve v).latch || Position.closed == .closed }) =
      p.closeFault h v := by
    refine Part.modValves_congr ?_
    rw [show (Position.closed == Position.closed) = true from rfl, Bool.or_true]
    rfl
  have shut : (p.closeFault h v).beginShutting h = p.closeFault h v := by
    refine if_neg ?_
    rw [Part.closeFault, Part.hose_modValves_same, Vsq.phase_setValve, hp]
    decide
  unfold Part.positionFault
  dsimp only
  rw [commandOf_closed hp v, fault, if_pos rfl, shut]

@[simp] theorem Part.hose_closeFault_same (p : Part) (h : HoseId) (v : ValveId) : (p.closeFault h v).hose h =
    { p.hose h with valves := (p.hose h).valves.setValve v ((p.hose h).valves.valve v).closeFault } :=
  Part.hose_modValves_same ..

theorem Part.hose_closeFault_ne (p : Part) {h k : HoseId} (hk : k ≠ h) (v : ValveId) : (p.closeFault h v).hose k = p.hose k :=
  Part.hose_modValves_ne _ _ hk

/-- A close fault on a hose in SHUT without a transaction changes its valve alone. -/
theorem Part.Quiet.exec_settleExpiry_shut {s : State} (quiet : s.part.Quiet) {h : HoseId} {v : ValveId} {due : Nat}
    (hp : (s.part.hose h).valves.phase = .shut)
    (hd : (s.part.hose h).dsc = .idle ∨ (s.part.hose h).dsc = .lifted ∨ (s.part.hose h).dsc = .done)
    (hg : ∀ i, h ∉ (s.part.pumps.get i).grants) (ht : ((s.part.hose h).valves.valve v).settle = some due) :
    exec (.settleExpiry h v) s = s.goesTo ((s.part.reach due).closeFault h v) := by
  have phase : ((s.part.reach due).hose h).valves.phase.flowing = false := by rw [Part.hose_reach, hp]; rfl
  have own := (s.part.reach due).hose_closeFault_same h v
  have untold : ((s.part.reach due).closeFault h v).takeCause h .valveFault = (s.part.reach due).closeFault h v := by
    have dsc : (((s.part.reach due).closeFault h v).hose h).dsc = (s.part.hose h).dsc := by rw [own]; rfl
    unfold Part.takeCause
    rcases hd with hd | hd | hd <;> rw [dsc, hd]
  rw [exec_settleExpiry ht, Part.positionFault_closed phase, Part.dropGrant_id (p := (s.part.reach due).closeFault h v) hg, untold,
    Part.shutTest_other]
  · refine congrArg s.goesTo ((quiet.of_pumps (q := s.part.reach due) rfl).settle_one h rfl rfl
      (fun k hk => Part.hose_closeFault_ne _ hk v) ?_ ?_)
    · rw [own]; exact id
    · rw [own]
  · rw [own, Vsq.phase_setValve, Part.hose_reach, hp]
    decide

/-- Settles O34: the commands by cases of the phase; a report and a close fault on a hose in SHUT leave their valve changed, and
nothing to settle. -/
theorem valveSupervision : Obligations.ValveSupervision := by
  refine ⟨⟨trimCommand_opened_iff, mainCommand_opened_iff, fun ph hm => ?_⟩, ?_, ?_⟩
  · exact (trimCommand_opened_iff ph).mpr (.inr (.inl ((mainCommand_opened_iff ph).mp hm)))
  · intro s h v st hg quiet hst hp x
    refine ⟨fun hv => ?_, fun hv => ?_⟩
    · exact quiet.exec_switchChange_shut hg hst hp (by rw [hv]; decide) (Valve.report_opened x s.part.now st.settleTime)
    · exact quiet.exec_switchChange_shut hg hst hp (by rw [hv]; decide) (Valve.report_closed x s.part.now _)
  · exact fun s h v due quiet hp hd hg ht => quiet.exec_settleExpiry_shut hp hd hg ht

/-! ## The trim valve's confirmation (R84) -/

/-- Behind the start volume the confirmation moves on to the phase that the gross gives (R84). -/
theorem Vsq.move_confirmed {q : Vsq} {st : HoseSettings} {gross : Nat} (hp : q.phase = .trim) (hs : q.trim.switch = .opened)
    (hn : q.pending = none) (hv : st.startVolume ≤ gross) (hg : gross < q.active) :
    q.move st gross = (q, phaseByGross st gross q.active) := by
  have load : q.load = q := by
    unfold Vsq.load
    rw [hn]
  unfold Vsq.move
  rw [hp]
  dsimp only
  rw [if_neg (by omega), if_pos ⟨hs, hv⟩, load]

theorem phaseByGross_full {st : HoseSettings} {gross active : Nat} (hg : gross + st.slowdown < active) :
    phaseByGross st gross active = .full := by
  unfold phaseByGross
  rw [if_neg (by omega), if_neg (by omega)]

theorem phaseByGross_taper {st : HoseSettings} {gross active : Nat} (hg : gross < active) (hs : active ≤ gross + st.slowdown) :
    phaseByGross st gross active = .taper := by
  unfold phaseByGross
  rw [if_neg (by omega), if_pos hs]

/-- Below the active preset it is FULL or TAPER, and either way the trim valve stays commanded OPEN. -/
theorem phaseByGross_open {st : HoseSettings} {gross active : Nat} (hg : gross < active) :
    phaseByGross st gross active = .full ∨ phaseByGross st gross active = .taper := by
  rcases Nat.lt_or_ge (gross + st.slowdown) active with hs | hs
  · exact .inl (phaseByGross_full hs)
  · exact .inr (phaseByGross_taper hg hs)

/-- Between phases that command it alike the trim valve is left as it is (R81). -/
theorem Vsq.trim_enter {q : Vsq} {ph : Phase} (hc : trimCommand q.phase = trimCommand ph) (now : Nat) (t : Option Nat) :
    (q.enter now t ph).trim = q.trim := if_pos hc

section Confirmed

variable {s : State} {h : HoseId} {st : HoseSettings} (quiet : s.part.Quiet) (hst : s.part.hoseSettings h = some st)
  (hp : (s.part.hose h).valves.phase = .trim) (hn : (s.part.hose h).valves.pending = none)
  (hv : st.startVolume ≤ (s.part.hose h).meter.gross) (hg : (s.part.hose h).meter.gross < (s.part.hose h).valves.active)

/-- The valves at the confirmation: the trim valve shows OPEN, and the phase is the one that the gross gives. -/
def Vsq.confirmed (q : Vsq) (now : Nat) (st : HoseSettings) (gross : Nat) : Vsq :=
  ({ q with trim := { q.trim with switch := .opened, settle := none } } : Vsq).enter now (some st.settleTime)
    (phaseByGross st gross q.active)

include hst hp hn hv hg in
theorem Part.moveValves_confirmed : ((s.part.switched h .trim .opened).reported h .trim .opened).moveValves h =
    (s.part.switched h .trim .opened).modValves h fun q => q.confirmed s.part.now st (s.part.hose h).meter.gross := by
  have reported : (s.part.switched h .trim .opened).reported h .trim .opened =
      (s.part.switched h .trim .opened).modValves h fun q => q.setValve .trim
        { (s.part.hose h).valves.trim with switch := .opened, settle := none } := by
    refine Part.reported_eq ?_
    show (s.part.hose h).valves.trim.report _ _ (trimCommand (s.part.hose h).valves.phase) .opened = _
    rw [hp]
    exact Valve.report_confirmed ..
  have own : (((s.part.switched h .trim .opened).reported h .trim .opened).hose h) = { s.part.hose h with
      valves := (s.part.hose h).valves.setValve .trim
        { (s.part.hose h).valves.trim with switch := .opened, settle := none } } := by
    rw [reported, Part.hose_modValves_same]
    rfl
  have settings : ((s.part.switched h .trim .opened).reported h .trim .opened).hoseSettings h = some st := hst
  rw [Part.moveValves_of_move settings (ph := phaseByGross st (s.part.hose h).meter.gross (s.part.hose h).valves.active)]
  · rw [own]
    rcases phaseByGross_open (st := st) hg with hph | hph
    all_goals
      rw [if_neg (by rw [hph, Vsq.phase_setValve, hp]; decide), if_neg (by rw [hph]; decide), reported]
      unfold Vsq.confirmed
      cases h <;> rfl
  · rw [own]
    exact Vsq.move_confirmed (by rw [Vsq.phase_setValve, hp]) rfl hn hv hg

include quiet hst hp hn hv hg in
theorem Part.Quiet.exec_switchChange_confirmed (hl : s.part.cfl.stage ≠ .imageLoad)
    (hs : (s.part.hose h).valves.trim.switch = .closed) : exec (.switchChange h .trim .opened) s = s.goesTo
    ((s.part.switched h .trim .opened).modValves h fun q => q.confirmed s.part.now st (s.part.hose h).meter.gross) := by
  have changed : ((s.part.hose h).valves.valve .trim).switch ≠ .opened := by
    show (s.part.hose h).valves.trim.switch ≠ .opened
    rw [hs]; decide
  rw [exec_switchChange hl changed, Part.moveValves_confirmed hst hp hn hv hg, Part.shutTest_other]
  · refine congrArg s.goesTo ((quiet.of_pumps (q := s.part.switched h .trim .opened) rfl).settle_one h rfl rfl
      (fun k hk => Part.hose_modValves_ne _ _ hk) ?_ ?_)
    · rw [Part.hose_modValves_same]; exact id
    · rw [Part.hose_modValves_same]
  · rw [Part.hose_modValves_same]
    show phaseByGross st (s.part.hose h).meter.gross (s.part.hose h).valves.active ≠ .shutting
    rcases phaseByGross_open (st := st) hg with hph | hph <;> rw [hph] <;> decide

end Confirmed

/-- Settles O35: behind the start volume the confirmation moves the phase on by the gross, and changes the valves of its hose
alone. -/
theorem trimConfirmed : Obligations.TrimConfirmed := by
  intro s h st hl quiet hst hp hs hn hv hg
  have own : ((s.part.switched h .trim .opened).modValves h fun q =>
      q.confirmed s.part.now st (s.part.hose h).meter.gross).hose h = { s.part.hose h with
        valves := (s.part.hose h).valves.confirmed s.part.now st (s.part.hose h).meter.gross } :=
    Part.hose_modValves_same ..
  refine ⟨_, quiet.exec_switchChange_confirmed hst hp hn hv hg hl hs, ?_, ?_, ?_, ?_, ?_, fun k hk => ?_, rfl⟩
  · rw [own]
    refine Vsq.trim_enter ?_ _ _
    show trimCommand (s.part.hose h).valves.phase = trimCommand (phaseByGross st _ (s.part.hose h).valves.active)
    rw [hp]
    rcases phaseByGross_open (st := st) hg with hph | hph <;> rw [hph] <;> rfl
  · rw [own]; exact phaseByGross_full
  · rw [own]; exact phaseByGross_taper hg
  · rw [own]
  · rw [own]
  · rw [Part.hose_modValves_ne _ _ hk]; rfl

end Sys2Proof.Machine
end

section
/-! O36 (05 R82, R87; 06 R114, R119): the valve that is the last to settle takes the sequencer into SHUT. -/

namespace Sys2Proof.Machine

open Sys2Proof

/-! ## The last valve to settle (R87) -/

/-- A valve shows CLOSED or is latched. -/
theorem Valve.settled_iff (v : Valve) : v.settled = true ↔ v.switch = .closed ∨ v.latch = true := by
  simp [Valve.settled]

theorem Vsq.settled_of_last {q : Vsq} {v : ValveId} {x : Valve} (hx : x.switch = .closed ∨ x.latch = true)
    (hw : ∀ w, w ≠ v → (q.valve w).switch = .closed ∨ (q.valve w).latch = true) : (q.setValve v x).settled = true := by
  rw [Vsq.settled_iff]
  intro w
  rw [Vsq.valve_setValve, Valve.settled_iff]
  split
  · exact hx
  · exact hw w ‹_›

/-- A pump at rest holds the same grants. -/
theorem Part.grants_restPump (p : Part) (i j : PumpId) : ((p.restPump i).pumps.get j).grants = (p.pumps.get j).grants := by
  unfold Part.restPump
  split
  · cases i <;> cases j <;> rfl
  · rfl

/-! ## The entry into SHUT (R87, 06 R114) -/

section EnterShut

variable {p : Part} {h : HoseId} {x : Context} (hx : (p.hose h).context = some x)

/-- The overrun timer at the entry into SHUT: the window of 2 s, unless a power-fail warning was taken (R87, R99). -/
def Vsq.windowAt (q : Vsq) (x : Context) (now : Nat) : Timer := if x.powerFail then q.overrun else some (now + 200000)

/-- The hose in SHUT, supervision off (R87, 02 R30). -/
def Hose.shut (u : Hose) (x : Context) (now : Nat) : Hose :=
  { u with
    valves := { u.valves with phase := .shut, overrun := u.valves.windowAt x now }
    reader := { u.reader with supervised := none, grace := none } }

/-- The hose that leaves COMMITTING at the entry into SHUT (06 R104, R114). -/
def Hose.left (u : Hose) (x : Context) : Hose :=
  { u with
    context := none, summary := some { sequence := x.sequence, cause := x.cause, faults := x.faults }
    dsc := match u.nozzle with
      | .onHook => .idle
      | .offHook => .done
    kept := match u.nozzle with
      | .onHook => none
      | .offHook => some x.position
    valves := match u.nozzle with
      | .onHook => { u.valves with pending := none }
      | .offHook => u.valves }

/-- With the nozzle off hook it is in DONE, where its table position is kept (02 R27). -/
theorem Hose.left_offHook {u : Hose} {x : Context} (hn : u.nozzle = .offHook) :
    (u.left x).dsc = .done ∧ (u.left x).kept = some x.position := by
  unfold Hose.left
  rw [hn]
  exact ⟨rfl, rfl⟩

theorem Hose.left_onHook {u : Hose} {x : Context} (hn : u.nozzle = .onHook) :
    (u.left x).dsc = .idle ∧ (u.left x).kept = none := by
  unfold Hose.left
  rw [hn]
  exact ⟨rfl, rfl⟩

include hx

theorem Part.hose_enterShut_waits (hn : (p.hose h).dsc = .committing → x.committed = false) :
    (p.enterShut h).hose h = (p.hose h).shut x p.now := by
  have shut := (p.hose_enterShut h x hx).1
  dsimp only at shut
  rw [if_neg (by rintro ⟨hd, hc⟩; rw [hn hd] at hc; exact Bool.false_ne_true hc)] at shut
  exact shut

theorem Part.hose_enterShut_leaves (hd : (p.hose h).dsc = .committing) (hc : x.committed = true) :
    (p.enterShut h).hose h = ((p.hose h).shut x p.now).left x := by
  have shut := (p.hose_enterShut h x hx).1
  dsimp only at shut
  rw [if_pos ⟨hd, hc⟩] at shut
  exact shut

/-- In either case: the phase, the window and the valves, supervision off, and no flow begun. -/
theorem Part.hose_enterShut_shut :
    let u := (p.enterShut h).hose h
    u.valves.phase = .shut ∧ (∀ v, u.valves.valve v = (p.hose h).valves.valve v)
    ∧ u.valves.overrun = (p.hose h).valves.windowAt x p.now
    ∧ u.reader = { (p.hose h).reader with supervised := none, grace := none }
    ∧ (u.begun = true → (p.hose h).begun = true) := by
  by_cases hl : (p.hose h).dsc = .committing ∧ x.committed = true
  · rw [Part.hose_enterShut_leaves hx hl.1 hl.2]
    unfold Hose.left
    cases hn : ((p.hose h).shut x p.now).nozzle <;> exact ⟨rfl, fun v => by cases v <;> rfl, rfl, rfl, nofun⟩
  · rw [Part.hose_enterShut_waits hx fun hd => Bool.eq_false_iff.mpr fun hc => hl ⟨hd, hc⟩]
    exact ⟨rfl, fun v => by cases v <;> rfl, rfl, rfl, id⟩

end EnterShut

/-! ## The report of CLOSED (R87) -/

section Closed

variable {s : State} {h : HoseId} {v : ValveId}

/-- A valve that shows CLOSED as commanded (R81). -/
def Valve.confirmedClosed (x : Valve) : Valve := { x with switch := .closed, settle := none, latch := false }

/-- The part with the report of CLOSED taken as commanded, before what follows from it. -/
def Part.confirmedClosed (p : Part) (h : HoseId) (v : ValveId) : Part :=
  p.modValves h fun q => q.setValve v ((p.hose h).valves.valve v).confirmedClosed

theorem Part.hose_confirmedClosed {p : Part} {x : Context} (hx : (p.hose h).context = some x) (v : ValveId) :
    (p.confirmedClosed h v).hose h = { p.hose h with
      valves := (p.hose h).valves.setValve v ((p.hose h).valves.valve v).confirmedClosed, context := some x } := by
  rw [Part.confirmedClosed, Part.hose_modValves_same, ← hx]

theorem Part.hose_confirmedClosed_ne (p : Part) {k : HoseId} (hk : k ≠ h) (v : ValveId) :
    (p.confirmedClosed h v).hose k = p.hose k := Part.hose_modValves_ne _ _ hk

theorem Part.reported_closed {p : Part} (hp : (p.hose h).valves.phase = .shutting) :
    p.reported h v .closed = p.confirmedClosed h v :=
  Part.reported_eq (by rw [commandOf_closed (by rw [hp]; rfl)]; exact Valve.report_closed ..)

theorem exec_switchChange_enterShut (hg : s.part.cfl.stage ≠ .imageLoad) (hp : (s.part.hose h).valves.phase = .shutting)
    (hv : ((s.part.hose h).valves.valve v).switch = .opened)
    (hw : ∀ w, w ≠ v → ((s.part.hose h).valves.valve w).switch = .closed ∨ ((s.part.hose h).valves.valve w).latch = true) :
    exec (.switchChange h v .closed) s = s.goesTo (settle (s.part.switched h v .closed)
      (((s.part.switched h v .closed).confirmedClosed h v).enterShut h)) := by
  have reported : (s.part.switched h v .closed).reported h v .closed = (s.part.switched h v .closed).confirmedClosed h v :=
    Part.reported_closed (p := s.part.switched h v .closed) hp
  have valves : (((s.part.switched h v .closed).reported h v .closed).hose h).valves =
      (s.part.hose h).valves.setValve v ((s.part.hose h).valves.valve v).confirmedClosed := by
    rw [reported, Part.confirmedClosed, Part.hose_modValves_same]
    rfl
  have phase : (((s.part.switched h v .closed).reported h v .closed).hose h).valves.phase = .shutting := by
    rw [valves, Vsq.phase_setValve, hp]
  rw [exec_switchChange hg (by rw [hv]; decide), Part.moveValves_shutting phase, Part.shutTest_settled phase, reported]
  rw [valves]
  exact Vsq.settled_of_last (.inl rfl) hw

end Closed

/-! ## The close fault (R82) -/

/-- The flag that a close fault adds in STOPPING (06 R109). -/
theorem FaultSet.union_valve (f : FaultSet) : f.union (Cause.flag .valveFault) = { f with valve := true } := by
  simp [FaultSet.union, Cause.flag]

/-- The part with a close fault on a hose in STOPPING counted, latched and told to its transaction, the grant released. -/
def Part.closeFaultTold (p : Part) (h : HoseId) (v : ValveId) : Part :=
  ((p.closeFault h v).dropGrant h).addFaults h (Cause.flag .valveFault)

theorem Part.hose_closeFaultTold {p : Part} {h : HoseId} {x : Context} (hx : (p.hose h).context = some x) (v : ValveId) :
    (p.closeFaultTold h v).hose h = { p.hose h with
      valves := (p.hose h).valves.setValve v ((p.hose h).valves.valve v).closeFault
      context := some { x with faults := { x.faults with valve := true } } } := by
  rw [Part.closeFaultTold, Part.addFaults, Part.hose_modContext_same, Part.hose_dropGrant, Part.hose_closeFault_same, hx,
    Option.map_some, FaultSet.union_valve]

theorem Part.hose_closeFaultTold_ne (p : Part) {h k : HoseId} (hk : k ≠ h) (v : ValveId) :
    (p.closeFaultTold h v).hose k = p.hose k := by
  rw [Part.closeFaultTold, Part.addFaults, Part.hose_modContext_ne _ _ hk, Part.hose_dropGrant, Part.hose_closeFault_ne _ hk]

theorem Part.requests_closeFaultTold (p : Part) (h : HoseId) (v : ValveId) (i : PumpId) :
    ((p.closeFaultTold h v).pumps.get i).requests = (p.pumps.get i).requests := by cases i <;> rfl

/-- A close fault on the last valve of a hose in STOPPING takes the sequencer into SHUT (R82). -/
theorem Part.positionFault_enterShut {p : Part} {h : HoseId} {v : ValveId} {x : Context}
    (hp : (p.hose h).valves.phase = .shutting) (hd : (p.hose h).dsc = .stopping) (hx : (p.hose h).context = some x)
    (hw : ∀ w, w ≠ v → ((p.hose h).valves.valve w).switch = .closed ∨ ((p.hose h).valves.valve w).latch = true) :
    p.positionFault h v = (p.closeFaultTold h v).enterShut h := by
  have own := Part.hose_closeFaultTold hx v
  have dsc : (((p.closeFault h v).dropGrant h).hose h).dsc = .stopping := by
    rw [Part.hose_dropGrant, Part.hose_closeFault_same]
    exact hd
  rw [Part.positionFault_closed (by rw [hp]; rfl), Part.takeCause_late _ (.inl dsc)]
  show (p.closeFaultTold h v).shutTest h = _
  rw [Part.shutTest_settled]
  · rw [own, Vsq.phase_setValve, hp]
  · rw [own]
    exact Vsq.settled_of_last (.inr rfl) hw

/-! ## The end of the event -/

/-- With no request waiting an event at which one hose has changed a valve and entered SHUT ends with that; its grant is gone
(R87, R96). -/
theorem Part.Quiet.settle_enterShut {b p : Part} {h : HoseId} {y : Vsq} {x : Context} (hb : b.Quiet)
    (hr : ∀ i, (p.pumps.get i).requests = (b.pumps.get i).requests)
    (hh : p.hose h = { b.hose h with valves := y, context := some x }) (hne : ∀ k, k ≠ h → p.hose k = b.hose k) :
    (settle b (p.enterShut h)).hose h = (p.enterShut h).hose h
    ∧ (∀ k, k ≠ h → (settle b (p.enterShut h)).hose k = b.hose k)
    ∧ ∀ i, h ∉ ((settle b (p.enterShut h)).pumps.get i).grants := by
  have hx : (p.hose h).context = some x := by rw [hh]
  obtain ⟨-, released, requests, -⟩ := p.hose_enterShut h x hx
  obtain ⟨-, -, -, -, begun⟩ := Part.hose_enterShut_shut hx
  have none_waits (i : PumpId) : ((p.enterShut h).pumps.get i).requests = [] := by rw [requests, hr, hb.requests]
  have rest (k : HoseId) (hk : k ≠ h) : (p.enterShut h).hose k = b.hose k := (p.hose_enterShut_ne hk).trans (hne k hk)
  refine ⟨hose_settle_idle b _ none_waits fun hf => ?_, fun k hk => ?_, fun i => ?_⟩
  · rw [hh] at begun
    exact begun hf
  · rw [hose_settle_idle b _ none_waits (by rw [rest k hk]; exact id), rest k hk]
  · rw [settle, pumps_finish, settleHoses, Part.pumps_joinRequests, settlePumps_idle none_waits, Part.grants_restPump,
      Part.grants_restPump]
    exact released i

/-! ## The obligation -/

/-- Settles O36: either event settles the last valve, so its hose enters SHUT, and with no request waiting the event ends there. -/
theorem valvesShut : Obligations.ValvesShut := by
  refine ⟨?_, ?_⟩
  · intro s h v x st hg hst hx hp hv hw quiet
    have taken := exec_switchChange_enterShut hg hp hv hw
    have own := Part.hose_confirmedClosed (p := s.part.switched h v .closed) hx v
    obtain ⟨same, rest, released⟩ := (quiet.of_pumps (q := s.part.switched h v .closed) rfl).settle_enterShut
      (p := (s.part.switched h v .closed).confirmedClosed h v) (fun _ => rfl) own fun k hk => Part.hose_confirmedClosed_ne _ hk v
    have context := congrArg Hose.context own
    obtain ⟨phase, valves, window, reader, -⟩ := Part.hose_enterShut_shut context
    refine ⟨_, taken, ?_⟩
    rw [same]
    refine ⟨phase, ?_, by rw [reader], by rw [reader], released, rest, fun hd hpf => ?_,
      fun hd hpf => ⟨?_, fun hc => ?_, fun hc => ?_⟩⟩
    · rw [valves, own, Vsq.valve_setValve_same]
      rfl
    · rw [Part.hose_enterShut_waits context (by rw [own]; exact fun hc => absurd (hd.symm.trans hc) (by decide)), own]
      exact ⟨if_neg (by rw [hpf]; decide), hd, rfl⟩
    · rw [window, Vsq.windowAt, if_pos hpf, own]
      cases v <;> rfl
    · rw [Part.hose_enterShut_waits context fun _ => hc, own]
      exact ⟨hd, rfl⟩
    · rw [Part.hose_enterShut_leaves context (by rw [own]; exact hd) hc, own]
      exact ⟨rfl, rfl, Hose.left_offHook, Hose.left_onHook⟩
  · intro s h v x due quiet hd hx hpf hp ht hw
    have taken := exec_settleExpiry ht
    rw [Part.positionFault_enterShut (p := s.part.reach due) hp hd hx hw] at taken
    have own := Part.hose_closeFaultTold (p := s.part.reach due) hx v
    obtain ⟨same, rest, released⟩ := (quiet.of_pumps (q := s.part.reach due) rfl).settle_enterShut
      ((s.part.reach due).requests_closeFaultTold h v) own fun k hk => Part.hose_closeFaultTold_ne _ hk v
    have stopping : (((s.part.reach due).closeFaultTold h v).hose h).dsc = .stopping := by rw [own]; exact hd
    have shut := Part.hose_enterShut_waits (congrArg Hose.context own) fun hc => absurd (stopping.symm.trans hc) (by decide)
    rw [own] at shut
    refine ⟨_, taken, ?_⟩
    rw [same, shut]
    refine ⟨rfl, ?_, ?_, ?_, rfl, rfl, released, hd, rfl, rest⟩
    · exact if_neg (by rw [hpf]; decide)
    · cases v <;> rfl
    · cases v <;> rfl

end Sys2Proof.Machine
end

section
/-! O37: the end of the overrun window (05 R88, R89; 06 R112), and the closing part that it fixes and queues. -/

namespace Sys2Proof.Machine

open Sys2Proof

/-! ## The write queue with a closing part queued (07 R129, R131) -/

/-- A request that takes the place of a waiting one of its kind is in the queue. -/
theorem mem_replaceWaiting {r : WriteReq} {queue : List WriteReq} (hw : ∃ q ∈ queue, q.kind = r.kind) :
    r ∈ replaceWaiting r queue := by
  induction queue with
  | nil => obtain ⟨q, hq, -⟩ := hw; exact absurd hq List.not_mem_nil
  | cons o rest ih =>
    unfold replaceWaiting
    split
    · exact List.mem_cons_self ..
    · rename_i ho
      obtain ⟨q, hq, hk⟩ := hw
      rcases List.mem_cons.mp hq with rfl | hq
      · exact absurd hk ho
      · exact List.mem_cons_of_mem _ (ih ⟨q, hq, hk⟩)

theorem Tlg.mem_append (t : Tlg) (r : WriteReq) : r ∈ (t.append r).queue := by
  unfold Tlg.append
  repeat' split
  all_goals exact List.mem_append_right _ (List.mem_singleton_self r)

/-- A request that joins the queue is in it. -/
theorem Tlg.mem_join (t : Tlg) (r : WriteReq) : r ∈ (t.join r).queue := by
  unfold Tlg.join
  split
  · exact mem_replaceWaiting ((t.waits_iff _).mp ‹_›)
  · exact t.mem_append r

/-- A waiting opening part that carries its closing part is in the queue. -/
theorem mem_carryClosing {h : HoseId} {queue : List WriteReq} (hw : queue.any (isOpeningOf h) = true) :
    ∃ i, .opening h i true ∈ carryClosing h queue := by
  induction queue with
  | nil => exact absurd hw Bool.false_ne_true
  | cons o rest ih =>
    have onward (hn : isOpeningOf h o = false) : ∃ i, .opening h i true ∈ carryClosing h rest := by
      rw [List.any_cons, hn, Bool.false_or] at hw
      exact ih hw
    have kept {l : List WriteReq} (hl : ∃ i, WriteReq.opening h i true ∈ l) (r : WriteReq) :
        ∃ i, WriteReq.opening h i true ∈ r :: l := hl.imp fun _ hi => List.mem_cons_of_mem _ hi
    unfold carryClosing
    split
    · exact absurd ‹_› (by simp)
    · rename_i j i t he
      cases he
      split
      · rename_i hj
        exact ⟨i, by rw [hj]; exact List.mem_cons_self ..⟩
      · rename_i hj
        exact kept (onward (by simp [isOpeningOf, hj])) _
    · rename_i r t hr he
      cases he
      refine kept (onward ?_) _
      cases o with
      | opening j i carries => cases carries with
        | true => rfl
        | false => exact absurd rfl (hr j i)
      | _ => rfl

/-- A hose's closing part stands in the queue by itself or with its opening part (R129). -/
theorem Part.queue_joinClosing (p : Part) (h : HoseId) (slot : Nat) :
    ((p.joinClosing h slot).tlg.queue.any (fun r => decide (r = .closing h slot)) = true)
      ∨ ∃ i, .opening h i true ∈ (p.joinClosing h slot).tlg.queue := by
  unfold Part.joinClosing
  split
  · exact .inr (mem_carryClosing ‹_›)
  · exact .inl (List.any_eq_true.mpr ⟨_, p.tlg.mem_join _, by simp⟩)

/-- Queueing a closing part changes the write queue alone. -/
theorem Part.joinClosing_shape (p : Part) (h : HoseId) (slot : Nat) : ∃ queue displaced, p.joinClosing h slot =
    p.setTlg { p.tlg with queue := queue, ckptDisplaced := displaced } := by
  unfold Part.joinClosing Part.joinWrite Tlg.join Tlg.append
  repeat' split
  all_goals exact ⟨_, _, rfl⟩

theorem Part.hose_joinClosing (p : Part) (h : HoseId) (slot : Nat) (k : HoseId) :
    (p.joinClosing h slot).hose k = p.hose k := by
  obtain ⟨queue, displaced, shape⟩ := p.joinClosing_shape h slot
  rw [shape, Part.hose_setTlg]

theorem Part.slot_joinClosing (p : Part) (h : HoseId) (slot i : Nat) : (p.joinClosing h slot).slot i = p.slot i := by
  obtain ⟨queue, displaced, shape⟩ := p.joinClosing_shape h slot
  rw [shape]
  rfl

/-! ## What the end of the window leaves (R88, R89, 06 R112) -/

theorem FaultSet.union_none (f : FaultSet) : f.union {} = f := by simp [FaultSet.union]

/-- The overrun test (R89): false while no settings are loaded. -/
def Part.overruns (p : Part) (h : HoseId) : Bool :=
  match p.hoseSettings h with
  | none => false
  | some st => decide ((p.hose h).valves.active + st.overrunTolerance < (p.hose h).meter.gross)

/-- The fault set of the record (06 R112; 04 R68, R71, R74; 05 R89). -/
def Hose.finalFaults (u : Hose) (x : Context) (overruns : Bool) : FaultSet :=
  { x.faults with
    meter := x.faults.meter || u.meter.sticky, overrate := x.faults.overrate || u.meter.overrate
    overrun := x.faults.overrun || overruns, creep := x.faults.creep || u.meter.creepMark }

/-- The hose with its metering window closed and its closing part queued (06 R112). -/
def Hose.committed (u : Hose) (x : Context) (overruns : Bool) : Hose :=
  { u with
    valves := { u.valves with overrun := none }
    meter := { u.meter with
      window := false, rateStart := none, rateRun := 0, heldRate := 0, rateTimer := none, overrateTimer := none
      creepMark := false }
    context := some { x with faults := u.finalFaults x overruns }
    dsc := .committing }

/-- The closing part of a hose's record with a fault set (06 R112). -/
def Part.closingPart (p : Part) (h : HoseId) (x : Context) (faults : FaultSet) : Closing :=
  let u := p.hose h
  let t := meanTemp u.meter (p.comp x.compartment).temperature
  let standard := standardOf p.cfl.settings x.grade u.meter.gross t
  { sequence := x.sequence.getD 0
    endTime := x.startTime.getD 0 + (x.elapsed - x.elapsedAtFlow)
    fields := .fill u.valves.active u.meter.gross standard t (amountOf p.cfl.settings x.grade x.account standard)
      (x.cause.getD .preset) faults }

/-- The part with the hose in COMMITTING and its closing part fixed, before it is queued (06 R112). -/
def Part.fixedClosing (p : Part) (h : HoseId) (x : Context) : Part :=
  (p.modSlot x.slot fun s =>
    { s with closing := some (p.closingPart h x ((p.hose h).finalFaults x (p.overruns h))) }).setHose h
      ((p.hose h).committed x (p.overruns h))

theorem Part.setHose_setHose (p : Part) (h : HoseId) (u w : Hose) : (p.setHose h u).setHose h w = p.setHose h w := by
  cases h <;> rfl

theorem Part.slot_modSlot_same {p : Part} {i : Nat} (hl : i < p.tlg.slots.length) (f : Slot → Slot) :
    (p.modSlot i f).slot i = f (p.slot i) := by
  unfold Part.slot Part.modSlot
  rw [Part.tlg_setTlg, List.getD_eq_getElem?_getD, List.getD_eq_getElem?_getD, List.getElem?_modify_eq,
    List.getElem?_eq_getElem hl]
  rfl

section EndOverrun

variable {p : Part} {h : HoseId} {x : Context} (hx : (p.hose h).context = some x)

include hx

theorem Part.addFaults_eq (f : FaultSet) : p.addFaults h f = p.setHose h
    { p.hose h with context := some { x with faults := x.faults.union f } } :=
  congrArg (fun c => p.setHose h { p.hose h with context := c }) (by rw [hx]; rfl)

/-- The test adds its flag to the fault set (R89). -/
theorem Part.overrunTest_eq : p.overrunTest h = p.setHose h
    { p.hose h with context := some { x with faults := x.faults.union { overrun := p.overruns h } } } := by
  unfold Part.overrunTest Part.overruns
  cases p.hoseSettings h with
  | none =>
    dsimp only
    rw [FaultSet.union_none, ← hx]
    cases h <;> rfl
  | some st => exact Part.addFaults_eq hx _

/-- The window closes with the flags of its meter (04 R68, R71). -/
theorem Part.closeWindow_eq : p.closeWindow h = p.setHose h
    { p.hose h with
      context := some { x with
        faults := x.faults.union { meter := (p.hose h).meter.sticky, overrate := (p.hose h).meter.overrate } }
      meter := { (p.hose h).meter with
        window := false, rateStart := none, rateRun := 0, heldRate := 0, rateTimer := none, overrateTimer := none } } := by
  unfold Part.closeWindow
  dsimp only
  rw [Part.addFaults_eq hx]
  unfold Part.modMeter Part.modHose
  rw [Part.hose_setHose_same, Part.setHose_setHose]

/-- The closing part of a transaction whose window is closed, and the creep mark taken (06 R112, 04 R74). -/
theorem Part.queueClosing_eq : p.queueClosing h =
    ((p.modSlot x.slot fun s =>
      { s with closing := some (p.closingPart h x (x.faults.union { creep := (p.hose h).meter.creepMark })) }).setHose h
      { p.hose h with
        context := some { x with faults := x.faults.union { creep := (p.hose h).meter.creepMark } }
        meter := { (p.hose h).meter with creepMark := false }
        dsc := .committing }).joinClosing h x.slot := by
  unfold Part.queueClosing
  dsimp only
  rw [Part.addFaults_eq hx]
  unfold Part.modMeter Part.modHose
  rw [Part.hose_setHose_same, Part.hose_setHose_same]
  cases h <;> rfl

/-- The end of the window: the hose in COMMITTING, the closing part fixed in its slot and queued. -/
theorem Part.endOverrun_eq : p.endOverrun h = (p.fixedClosing h x).joinClosing h x.slot := by
  have overruns : (p.modValves h fun v => { v with overrun := none }).overruns h = p.overruns h := by
    unfold Part.overruns
    rw [Part.hose_modValves_same]
    rfl
  have tested := Part.overrunTest_eq (p := p.modValves h fun v => { v with overrun := none }) (h := h) (x := x)
    (by rw [Part.hose_modValves_same]; exact hx)
  rw [overruns, Part.hose_modValves_same] at tested
  unfold Part.endOverrun
  rw [tested, Part.closeWindow_eq (by rw [Part.hose_setHose_same]), Part.hose_setHose_same, Part.setHose_setHose,
    Part.queueClosing_eq (by rw [Part.hose_setHose_same])]
  simp only [Part.hose_setHose_same]
  have faults (m : Meter) : ((x.faults.union { overrun := p.overruns h }).union { meter := m.sticky, overrate := m.overrate }).union
      { creep := m.creepMark } = { x.faults with
        meter := x.faults.meter || m.sticky, overrate := x.faults.overrate || m.overrate
        overrun := x.faults.overrun || p.overruns h, creep := x.faults.creep || m.creepMark } := by
    simp [FaultSet.union]
  rw [faults]
  cases h <;> rfl

/-- The slot of the record with its closing part (R112). -/
theorem Part.slot_endOverrun (hl : x.slot < p.tlg.slots.length) : ((p.endOverrun h).slot x.slot).closing =
    some (p.closingPart h x ((p.hose h).finalFaults x (p.overruns h))) := by
  rw [Part.endOverrun_eq hx, Part.slot_joinClosing]
  exact congrArg Slot.closing (Part.slot_modSlot_same hl _)

theorem Part.hose_endOverrun : (p.endOverrun h).hose h = (p.hose h).committed x (p.overruns h) := by
  rw [Part.endOverrun_eq hx, Part.hose_joinClosing, Part.fixedClosing, Part.hose_setHose_same]

/-- The end of the window touches its hose and the log alone. -/
theorem Part.endOverrun_shape : p.endOverrun h =
    (p.setHose h ((p.hose h).committed x (p.overruns h))).setTlg (p.endOverrun h).tlg := by
  obtain ⟨queue, displaced, shape⟩ := Part.joinClosing_shape (p.fixedClosing h x) h x.slot
  rw [Part.endOverrun_eq hx, shape]
  rfl

end EndOverrun

theorem exec_overrunWindowExpiry {s : State} {h : HoseId} {due : Nat} (hd : (s.part.hose h).valves.overrun = some due) :
    exec (.overrunWindowExpiry h) s = s.goesTo ((s.part.reach due).endOverrun h) := by
  show execOverrunWindowExpiry h s = _
  unfold execOverrunWindowExpiry
  rw [exec_next, hd]

/-- Settles O37: the hose in COMMITTING, its closing part in its slot and in the write queue, and nothing else changed. -/
theorem overrunWindowEnds : Obligations.OverrunWindowEnds := by
  intro s h x st due hst hx hd hl
  have overruns : (s.part.reach due).overruns h =
      decide ((s.part.hose h).valves.active + st.overrunTolerance < (s.part.hose h).meter.gross) := by
    unfold Part.overruns
    rw [show (s.part.reach due).hoseSettings h = some st from hst]
    rfl
  have context : ((s.part.reach due).hose h).context = some x := hx
  have shape := Part.endOverrun_shape context
  have own := Part.hose_endOverrun context
  refine ⟨_, _, exec_overrunWindowExpiry hd, ?_, ?_, ?_, ?_, Part.slot_endOverrun context hl, rfl, ⟨?_, ?_⟩, ?_,
    fun j hj => ?_, ?_⟩
  · rw [own]; rfl
  · rw [own]; rfl
  · rw [own]; rfl
  · rw [own]; rfl
  · unfold Part.closingPart Hose.finalFaults
    rw [overruns]
    rfl
  · intro set a hset ha
    unfold priceOf
    rw [hset]
    simp [ha]
  · rw [Part.endOverrun_eq context]
    exact Part.queue_joinClosing _ h x.slot
  · rw [shape, Part.hose_setTlg, Part.hose_setHose_ne _ _ hj, Part.hose_reach]
  · rw [shape]
    rfl

end Sys2Proof.Machine
end

section
/-! O38 (05 R83, R93, R96; 06 R107): the pump timers, the start of a flow, and the drive of a pump. -/

namespace Sys2Proof.Machine

open Sys2Proof

/-! ## The start of a flow (R83) -/

section Start

variable {p : Part} {h : HoseId} {st : HoseSettings} {x : Context}

/-- The context of a transaction whose flow starts (06 R107). -/
def Context.started (x : Context) : Context :=
  { x with startTime := some (x.authTime + x.elapsed), elapsedAtFlow := x.elapsed }

/-- The hose whose flow starts: TRIM, the metering window open (R83). -/
def Hose.started (u : Hose) (now : Nat) (st : HoseSettings) (x : Context) : Hose :=
  { u with
    valves := u.valves.enter now (some st.settleTime) .trim, dsc := .flowing, pumpWait := none
    meter := u.meter.openWindow now st.noFlowTime, context := some x.started }

/-- With an active preset above 0 and the trim valve closed the flow starts in TRIM and stays there (R83, R84). -/
theorem Part.startFlow_eq (hd : (p.hose h).dsc = .awaitPump) (hst : p.hoseSettings h = some st)
    (hx : (p.hose h).context = some x) (hn : (p.hose h).valves.pending = none) (ha : 0 < (p.hose h).valves.active)
    (hs : (p.hose h).valves.trim.switch = .closed) : p.startFlow h = p.setHose h ((p.hose h).started p.now st x) := by
  have load : (p.hose h).valves.load = (p.hose h).valves := by
    unfold Vsq.load
    rw [hn]
  have started : p.startFlow h = (p.setHose h ((p.hose h).started p.now st x)).moveValves h := by
    unfold Part.startFlow
    rw [hd, hst, hx]
    exact congrArg (fun v => (p.setHose h { (p.hose h).started p.now st x with
      valves := v.enter p.now (some st.settleTime) .trim }).moveValves h) load
  have settings : (p.setHose h ((p.hose h).started p.now st x)).hoseSettings h = some st := hst
  have closed : ((p.hose h).started p.now st x).valves.trim.switch ≠ .opened := by
    rw [show ((p.hose h).started p.now st x).valves.trim.switch = _ from (Vsq.enter_trim ..).1, hs]
    decide
  have still : ((p.hose h).started p.now st x).valves.move st ((p.hose h).started p.now st x).meter.gross =
      (((p.hose h).started p.now st x).valves, .trim) := by
    unfold Vsq.move
    rw [show ((p.hose h).started p.now st x).valves.phase = .trim from rfl]
    dsimp only
    exact (if_neg (Nat.not_le_of_lt ha)).trans (if_neg fun ht => closed ht.1)
  rw [started, Part.moveValves_of_move settings (ph := .trim) (by rw [Part.hose_setHose_same]; exact still),
    Part.hose_setHose_same]
  exact if_pos rfl

/-- From SHUT the trim valve, closed and at rest, is supervised on its way to OPEN (R81, R83). -/
theorem Vsq.settle_enter_trim {q : Vsq} (hp : q.phase = .shut) (hs : q.trim.switch = .closed) (ht : q.trim.settle = none)
    (now t : Nat) : (q.enter now (some t) .trim).trim.settle = some (now + 100 * t) := by
  unfold Vsq.enter
  dsimp only
  rw [hp, if_neg (by decide)]
  unfold Valve.supervise superviseTimer
  dsimp only
  rw [hs, ht, if_neg (by decide)]
  rfl

end Start

/-! ## The opening part (06 R107) -/

/-- The requests of an event at which one hose alone has changed are that hose's, its opening part among them. -/
theorem Part.joinRequests_only {b q : Part} {h : HoseId} (hne : ∀ k, k ≠ h → q.hose k = b.hose k) :
    b.joinRequests q = b.joinRequest q h := by
  have others {r : Part} {k : HoseId} (hr : r.hose k = b.hose k) : b.joinRequest r k = r :=
    Part.Quiet.joinRequest_eq b k (by rw [hr]; exact id) (by rw [hr])
  have kept (k : HoseId) (hk : k ≠ h) : (b.joinRequest q h).hose k = b.hose k := by
    rw [← hne k hk]
    unfold Part.joinRequest
    split
    · exact q.hose_queueOpening_ne hk
    · split
      · exact q.hose_queueCheckpoint h k
      · rfl
  unfold Part.joinRequests
  simp only [allHoses, List.foldl_cons, List.foldl_nil]
  cases h with
  | h1 => rw [others (kept .h2 (by decide)), others (kept .h3 (by decide)), others (kept .h4 (by decide))]
  | h2 => rw [others (hne .h1 (by decide)), others (kept .h3 (by decide)), others (kept .h4 (by decide))]
  | h3 => rw [others (hne .h1 (by decide)), others (hne .h2 (by decide)), others (kept .h4 (by decide))]
  | h4 => rw [others (hne .h1 (by decide)), others (hne .h2 (by decide)), others (hne .h3 (by decide))]

/-- Joining the write queue leaves the slots and the sequence numbers alone. -/
theorem Tlg.join_shape (t : Tlg) (r : WriteReq) : ∃ queue displaced,
    t.join r = { t with queue := queue, ckptDisplaced := displaced } := by
  unfold Tlg.join Tlg.append
  repeat' split
  all_goals exact ⟨_, _, rfl⟩

/-- The opening part numbers the record, opens its slot, and takes the sequence number (07 R126). -/
theorem Part.queueOpening_spec {p : Part} {h : HoseId} {x : Context} (hx : (p.hose h).context = some x)
    (hl : x.slot < p.tlg.slots.length) :
    let q := p.queueOpening h
    q.hose h = { p.hose h with context := some { x with sequence := some p.tlg.nextSequence } }
    ∧ (q.slot x.slot).state = .opened ∧ q.tlg.nextSequence = p.tlg.nextSequence + 1
    ∧ q.pumps = p.pumps ∧ q.rsc = p.rsc := by
  unfold Part.queueOpening
  rw [hx]
  dsimp only
  unfold Part.joinWrite
  generalize hr : WriteReq.opening h x.slot false = r
  generalize hq : Part.takeSequence _ = q
  obtain ⟨queue, displaced, shape⟩ := q.tlg.join_shape r
  rw [shape, ← hq]
  refine ⟨?_, ?_, rfl, rfl, rfl⟩
  · rw [Part.hose_setTlg, Part.hose_takeSequence, Part.hose_modSlot, Part.hose_modContext_same, hx]
    rfl
  · exact congrArg Slot.state (Part.slot_modSlot_same (p := p.modContext h _) hl _)

/-! ## The commands (R93, R96) -/

section Expiries

variable {s : State} {i : PumpId} {due : Nat}

theorem exec_primeExpiry (hs : (s.part.pumps.get i).state = .priming) (hd : (s.part.pumps.get i).prime = some due) :
    exec (.primeExpiry i) s = s.goesTo (settle (s.part.reach due) ((s.part.reach due).primed i)) := by
  show execPrimeExpiry i s = _
  unfold execPrimeExpiry
  rw [exec_next, hs, hd]

theorem exec_rundownExpiry (hs : (s.part.pumps.get i).state = .rundown) (hd : (s.part.pumps.get i).rundown = some due) :
    exec (.rundownExpiry i) s = s.goesTo
      ((s.part.reach due).modPump i fun m => { m with state := .stopped, rundown := none }) := by
  show execRundownExpiry i s = _
  unfold execRundownExpiry
  rw [exec_next, hs, hd]

/-- A pump changed so that it has nothing to arbitrate leaves the part with nothing to arbitrate. -/
theorem Part.Quiet.modPump {p : Part} (hp : p.Quiet) {f : Pump → Pump} (hr : (f (p.pumps.get i)).requests = [])
    (hg : (f (p.pumps.get i)).state = .running → (f (p.pumps.get i)).grants ≠ []) : (p.modPump i f).Quiet := by
  refine ⟨fun j => ?_, fun j => ?_⟩ <;> unfold Part.modPump <;> rw [Part.pumps_setPumps, ByPump.get_set_pump] <;> split
  · exact hr
  · exact hp.requests j
  · exact hg
  · exact hp.running j

variable (quiet : s.part.Quiet) (hs : (s.part.pumps.get i).state = .priming) (hd : (s.part.pumps.get i).prime = some due)
include quiet hs hd

/-- Without a grant the pump runs down for 5 s (R93). -/
theorem Part.Quiet.exec_primeExpiry_idle (hg : (s.part.pumps.get i).grants = []) : exec (.primeExpiry i) s = s.goesTo
    ((s.part.reach due).modPump i fun m =>
      { m with state := .rundown, prime := none, rundown := some (max s.part.now due + 500000) }) := by
  have primed : (s.part.reach due).primed i = (s.part.reach due).modPump i fun m =>
      { m with state := .rundown, prime := none, rundown := some (max s.part.now due + 500000) } := if_pos hg
  have reached : (s.part.reach due).Quiet := quiet.of_pumps rfl
  rw [exec_primeExpiry hs hd, primed]
  exact congrArg s.goesTo ((reached.modPump (quiet.requests i) (by simp)).settle_hoses rfl rfl)

/-- The part when a pump has primed for one hose and its flow has started, before it asks for its opening part (R96). -/
def Part.flowStarted (p : Part) (i : PumpId) (h : HoseId) (st : HoseSettings) (x : Context) : Part :=
  (p.modPump i fun m => { m with state := .running, prime := none }).setHose h ((p.hose h).started p.now st x)

/-- With one grant the pump runs, and the flow of its hose starts under the next sequence number (R83, R96, 06 R107). -/
theorem Part.Quiet.exec_primeExpiry_granted {h : HoseId} {st : HoseSettings} {x : Context}
    (hg : (s.part.pumps.get i).grants = [h]) (hw : (s.part.hose h).dsc = .awaitPump) (hst : s.part.hoseSettings h = some st)
    (hx : (s.part.hose h).context = some x) (hn : (s.part.hose h).valves.pending = none)
    (ha : 0 < (s.part.hose h).valves.active) (hv : (s.part.hose h).valves.trim.switch = .closed)
    (hl : x.slot < s.part.tlg.slots.length) : exec (.primeExpiry i) s = s.goesTo
    (((s.part.reach due).flowStarted i h st x).queueOpening h) := by
  have primed : (s.part.reach due).primed i = (s.part.reach due).flowStarted i h st x := by
    unfold Part.primed
    rw [Part.pumps_reach, hg, if_neg (List.cons_ne_nil _ _), Part.startFlows_one]
    exact Part.startFlow_eq (p := (s.part.reach due).modPump i _) hw hst hx hn ha hv
  have reached : (s.part.reach due).Quiet := quiet.of_pumps rfl
  have running : ((s.part.reach due).flowStarted i h st x).Quiet :=
    (reached.modPump (f := fun m => { m with state := .running, prime := none }) (quiet.requests i)
      fun _ => by rw [Part.pumps_reach, hg]; exact List.cons_ne_nil _ _).of_pumps rfl
  have own : ((s.part.reach due).flowStarted i h st x).hose h = (s.part.hose h).started (max s.part.now due) st x :=
    Part.hose_setHose_same ..
  have others (k : HoseId) (hk : k ≠ h) : ((s.part.reach due).flowStarted i h st x).hose k = (s.part.reach due).hose k :=
    Part.hose_setHose_ne _ _ hk
  have context : (((s.part.reach due).flowStarted i h st x).hose h).context = some x.started := by rw [own]; rfl
  have asks : (s.part.reach due).joinRequest ((s.part.reach due).flowStarted i h st x) h =
      ((s.part.reach due).flowStarted i h st x).queueOpening h := by
    refine if_pos ?_
    rw [own, Part.hose_reach]
    unfold Hose.begun
    rw [hw]
    rfl
  obtain ⟨-, -, -, -, rsc⟩ := Part.queueOpening_spec context hl
  rw [exec_primeExpiry hs hd, primed, settle, settleHoses, running.settlePumps, Part.joinRequests_only others, asks,
    finish_same (by rw [rsc]; rfl)]

end Expiries

/-! ## The obligation -/

theorem driveOf_iff (state : PumpState) : driveOf state = true ↔ state = .priming ∨ state = .running ∨ state = .rundown := by
  cases state <;> simp [driveOf]

/-- Settles O38: the two outcomes of a prime's expiry at a quiet part, the rundown's, and the drive by the pump's state. -/
theorem pumpTimers : Obligations.PumpTimers := by
  refine ⟨fun s i due quiet hs hd => ⟨quiet.exec_primeExpiry_idle hs hd, ?_⟩, fun s i due => exec_rundownExpiry,
    fun p i => driveOf_iff _⟩
  intro h st x hg hw hst hx hp hn ha hv ht hl
  have context : (((s.part.reach due).flowStarted i h st x).hose h).context = some x.started := by
    rw [Part.flowStarted, Part.hose_setHose_same]; rfl
  have own : ((s.part.reach due).flowStarted i h st x).hose h = (s.part.hose h).started (max s.part.now due) st x :=
    Part.hose_setHose_same ..
  obtain ⟨hose, slot, number, pumps, -⟩ := Part.queueOpening_spec context hl
  have pump : (((s.part.reach due).flowStarted i h st x).queueOpening h).pumps.get i =
      { s.part.pumps.get i with state := .running, prime := none } := by
    rw [pumps]
    exact ByPump.get_set_same ..
  refine ⟨_, quiet.exec_primeExpiry_granted hs hd hg hw hst hx hn ha hv hl, ?_, ?_, ?_⟩
  · rw [pump]
  · rw [pump]; exact hg
  · rw [hose, own]
    exact ⟨rfl, rfl, rfl, Vsq.settle_enter_trim hp hv ht _ _, rfl, rfl, rfl, rfl, rfl, slot, number⟩

end Sys2Proof.Machine
end

section
/-! What the assertion of either input leaves (05 R98, R99; 06 R118, R119): the pumps halted, the write queue without what waits
for nothing, and each hose by the state it was in. -/

namespace Sys2Proof.Machine

open Sys2Proof

/-! ## Members of the write queue (07 R129 to R131) -/

theorem mem_of_mem_replaceWaiting {r o : WriteReq} {queue : List WriteReq} (ho : o ∈ replaceWaiting r queue) :
    o = r ∨ o ∈ queue := by
  induction queue with
  | nil => exact .inr ho
  | cons q rest ih =>
    unfold replaceWaiting at ho
    split at ho
    · exact (List.mem_cons.mp ho).imp_right (List.mem_cons_of_mem _)
    · rcases List.mem_cons.mp ho with rfl | ho
      · exact .inr (List.mem_cons_self ..)
      · exact (ih ho).imp_right (List.mem_cons_of_mem _)

/-- A request that joins brings itself alone. -/
theorem Tlg.mem_of_mem_join {t : Tlg} {r o : WriteReq} (ho : o ∈ (t.join r).queue) : o = r ∨ o ∈ t.queue := by
  have appended {l : List WriteReq} (hl : l ⊆ t.queue) (ho : o ∈ l ++ [r]) : o = r ∨ o ∈ t.queue :=
    (List.mem_append.mp ho).symm.imp (List.mem_singleton.mp ·) (hl ·)
  unfold Tlg.join Tlg.append at ho
  split at ho
  · exact mem_of_mem_replaceWaiting ho
  · split at ho
    · exact appended (List.Subset.refl _) ho
    · split at ho
      · exact appended (withoutOldestCheckpoint_some ‹_›).1.subset ho
      · exact appended (List.Subset.refl _) ho

/-- A closing part that its opening part carries changes that request alone. -/
theorem mem_of_mem_carryClosing {h : HoseId} {o : WriteReq} {queue : List WriteReq} (ho : o ∈ carryClosing h queue) :
    (∃ i, o = .opening h i true) ∨ o ∈ queue := by
  induction queue with
  | nil => exact .inr ho
  | cons q rest ih =>
    have onward (ho : o ∈ q :: carryClosing h rest) : (∃ i, o = .opening h i true) ∨ o ∈ q :: rest := by
      rcases List.mem_cons.mp ho with rfl | ho
      · exact .inr (List.mem_cons_self ..)
      · exact (ih ho).imp_right (List.mem_cons_of_mem _)
    unfold carryClosing at ho
    split at ho
    · exact absurd ‹_› (List.cons_ne_nil _ _)
    · rename_i i t he
      cases he
      split at ho
      · rename_i hj
        rcases List.mem_cons.mp ho with ho | ho
        · exact .inl ⟨i, by rw [ho, hj]⟩
        · exact .inr (List.mem_cons_of_mem _ ho)
      · exact onward ho
    · rename_i he
      cases he
      exact onward ho

/-! ## Pumps halted -/

/-- Both pumps are halted (R98), and every request that waits in the write queue meets P. -/
structure Part.Still (P : WriteReq → Prop) (p : Part) : Prop where
  halted : ∀ i, (p.pumps.get i).halt = p.pumps.get i
  queue : ∀ r ∈ p.tlg.queue, P r

namespace Part.Still

variable {P : WriteReq → Prop} {p q : Part}

theorem congr (hp : p.Still P) (hpumps : q.pumps = p.pumps) (hqueue : q.tlg.queue = p.tlg.queue) : q.Still P :=
  ⟨fun i => by rw [hpumps]; exact hp.halted i, fun r hr => hp.queue r (by rwa [hqueue] at hr)⟩

theorem grants (hp : p.Still P) (i : PumpId) : (p.pumps.get i).grants = [] := by rw [← hp.halted i]; rfl

theorem requests (hp : p.Still P) (i : PumpId) : (p.pumps.get i).requests = [] := by rw [← hp.halted i]; rfl

theorem state (hp : p.Still P) (i : PumpId) : (p.pumps.get i).state = .stopped := by rw [← hp.halted i]; rfl

/-- Halted pumps have nothing to arbitrate. -/
theorem quiet (hp : p.Still P) : p.Quiet :=
  ⟨hp.requests, fun i hr => by rw [hp.state i] at hr; exact absurd hr (by decide)⟩

theorem ite {c : Prop} [Decidable c] (hp : p.Still P) (hq : q.Still P) : (if c then p else q).Still P := by
  split
  · exact hp
  · exact hq

theorem foldHoses (hp : p.Still P) (f : Part → HoseId → Part) (hf : ∀ r h, r.Still P → (f r h).Still P) :
    (allHoses.foldl f p).Still P := List.foldlRecOn (motive := Part.Still P) allHoses f hp fun r hr k _ => hf r k hr

/-! ### What leaves the pumps and the write queue alone -/

theorem modHose (hp : p.Still P) (h : HoseId) (f : Hose → Hose) : (p.modHose h f).Still P := hp.congr rfl rfl

theorem addFaults (hp : p.Still P) (h : HoseId) (f : FaultSet) : (p.addFaults h f).Still P := hp.congr rfl rfl

theorem event (hp : p.Still P) (e : Event) : (p.event e).Still P := hp.congr rfl rfl

theorem offer (hp : p.Still P) (n : Notice) (y : Bool) : (p.offer n y).Still P := by
  rw [Part.offer_shape]
  exact hp.congr rfl rfl

theorem offerClosing (hp : p.Still P) (number : Nat) (n : Notice) : (p.offerClosing number n).Still P := by
  rw [Part.offerClosing_shape]
  exact hp.congr rfl rfl

theorem drainTest (hp : p.Still P) : p.drainTest.Still P := by
  have requested : (p.setRestock .requested).Still P := hp.congr rfl rfl
  unfold Part.drainTest Part.enterRequested Part.requestBay
  refine ite ?_ hp
  split
  · refine offer ?_ _ _
    exact requested.congr rfl rfl
  · exact requested

theorem finish (hp : p.Still P) (b : Part) : (finish b p).Still P := by
  unfold Machine.finish Part.offerStock
  refine hp.ite ?_
  split
  · exact hp.offer _ _
  · exact hp

/-- No hose has a grant to release. -/
theorem dropGrant (hp : p.Still P) (h : HoseId) : (p.dropGrant h).Still P := by
  rw [Part.dropGrant_id fun i => by rw [hp.grants i]; exact List.not_mem_nil]
  exact hp

/-- No hose has a request to withdraw. -/
theorem withdraw (hp : p.Still P) (h : HoseId) : (p.withdraw h).Still P := by
  rw [Part.withdraw_id _ _ fun i t ht => by rw [hp.requests i] at ht; exact absurd ht List.not_mem_nil]
  exact hp

/-! ### Stops (06 R109, R113) -/

theorem beginShutting (hp : p.Still P) (h : HoseId) : (p.beginShutting h).Still P := ite (hp.modHose h _) hp

theorem dropClaim (hp : p.Still P) (h : HoseId) : (p.dropClaim h).Still P := by
  unfold Part.dropClaim
  split
  · exact (hp.modHose h _).offerClosing _ _
  · exact hp

theorem endLoadout (hp : p.Still P) (x : Context) : (p.endLoadout x).Still P := by
  unfold Part.endLoadout
  split
  · exact hp.congr rfl rfl
  · exact hp

theorem stopBeforeFlow (hp : p.Still P) (h : HoseId) (c : Cause) : (p.stopBeforeFlow h c).Still P := by
  unfold Part.stopBeforeFlow
  split
  · exact hp
  · have released := ((((hp.event (.stopped h c)).modHose h fun u => { u with holdOff := none }).withdraw h).dropGrant h).modHose
      h fun u => { u with pumpWait := none }
    have unclaimed := ((released.modHose h fun u => { u with valves := { u.valves with pending := none } }).modHose h fun u =>
      { u with reader := { u.reader with supervised := none, grace := none } }).dropClaim h
    refine drainTest (modHose (endLoadout ?_ _) h _)
    exact unclaimed.congr rfl rfl

theorem leaveCommitting (hp : p.Still P) (h : HoseId) : (p.leaveCommitting h).Still P := by
  unfold Part.leaveCommitting
  split
  · exact hp
  · exact (hp.modHose h _).drainTest

theorem enterShut (hp : p.Still P) (h : HoseId) : (p.enterShut h).Still P := by
  unfold Part.enterShut
  dsimp only
  refine ite (leaveCommitting ?_ h) ?_
  all_goals exact dropGrant (modHose (hp.modHose h _) h _) h

theorem shutTest (hp : p.Still P) (h : HoseId) : (p.shutTest h).Still P := ite (hp.enterShut h) hp

theorem takeCause (hp : p.Still P) (h : HoseId) (c : Cause) : (p.takeCause h c).Still P := by
  unfold Part.takeCause
  split
  · exact hp.stopBeforeFlow h c
  · exact hp.stopBeforeFlow h c
  · exact ((((hp.modHose h _).event _).modHose h _).beginShutting h).shutTest h
  · exact hp.addFaults h _
  · exact hp.addFaults h _
  all_goals exact hp

/-! ### Closing parts (06 R112, R119) -/

theorem overrunTest (hp : p.Still P) (h : HoseId) : (p.overrunTest h).Still P := by
  unfold Part.overrunTest
  split
  · exact hp
  · exact hp.addFaults h _

theorem closeWindow (hp : p.Still P) (h : HoseId) : (p.closeWindow h).Still P := hp.congr rfl rfl

section Closing

variable (hP : ∀ h i, P (.closing h i) ∧ P (.opening h i true))
include hP

theorem joinClosing (hp : p.Still P) (h : HoseId) (slot : Nat) : (p.joinClosing h slot).Still P := by
  unfold Part.joinClosing
  refine ite ⟨hp.halted, fun r hr => ?_⟩ ⟨hp.halted, fun r hr => ?_⟩
  · rcases mem_of_mem_carryClosing hr with ⟨i, rfl⟩ | hr
    · exact (hP h i).2
    · exact hp.queue r hr
  · rcases Tlg.mem_of_mem_join hr with rfl | hr
    · exact (hP h slot).1
    · exact hp.queue r hr

theorem queueClosing (hp : p.Still P) (h : HoseId) : (p.queueClosing h).Still P := by
  have marked := (hp.addFaults h { creep := (p.hose h).meter.creepMark }).modHose h fun u =>
    { u with meter := { u.meter with creepMark := false } }
  unfold Part.queueClosing
  dsimp only
  split
  · exact marked
  · refine joinClosing hP (modHose ?_ h _) h _
    exact marked.congr rfl rfl

theorem endOverrun (hp : p.Still P) (h : HoseId) : (p.endOverrun h).Still P :=
  queueClosing hP (((hp.modHose h fun u => { u with valves := { u.valves with overrun := none } }).overrunTest h).closeWindow h) h

theorem commitEarly (hp : p.Still P) (h : HoseId) : (p.commitEarly h).Still P :=
  (endOverrun hP (hp.modHose h _) h).shutTest h

theorem powerFailHose (hp : p.Still P) (h : HoseId) : (p.powerFailHose h).Still P := by
  unfold Part.powerFailHose
  split
  · exact hp.takeCause h _
  · exact hp.takeCause h _
  · exact commitEarly hP ((hp.modHose h _).event _) h
  · exact hp.commitEarly hP h
  all_goals exact hp

end Closing

/-! ### The end of the event -/

section Requests

variable (hP : ∀ h i, P (.opening h i false)) (hw : p.pins.powerFail = true)

include hP in
theorem queueOpening (hp : p.Still P) (h : HoseId) : (p.queueOpening h).Still P := by
  unfold Part.queueOpening
  split
  · exact hp
  · refine ⟨hp.halted, fun r hr => ?_⟩
    rcases Tlg.mem_of_mem_join hr with rfl | hr
    · exact hP h _
    · exact hp.queue r hr

include hw in
/-- Under a power-fail warning a checkpoint is dropped (07 R133). -/
theorem queueCheckpoint (hp : p.Still P) (h : HoseId) : (p.queueCheckpoint h).Still P := by
  rw [Part.queueCheckpoint_shape]
  refine hp.congr rfl ?_
  rw [Part.tlg_setTlg, Part.queueCheckpoint, Part.checkpoint_powerFail hw]

include hP hw in
theorem joinRequest (hp : p.Still P) (b : Part) (h : HoseId) : (b.joinRequest p h).Still P :=
  ite (hp.queueOpening hP h) (ite (hp.queueCheckpoint hw h) hp)

include hP hw in
/-- The end of the event has nothing to arbitrate, and no checkpoint joins (05 R95, 07 R133). -/
theorem settle (hp : p.Still P) (b : Part) : (settle b p).Still P := by
  have joined : (b.joinRequests p).Still P ∧ (b.joinRequests p).pins.powerFail = true :=
    List.foldlRecOn (motive := fun r : Part => r.Still P ∧ r.pins.powerFail = true) allHoses _ ⟨hp, hw⟩
      fun r hr h _ => ⟨hr.1.joinRequest hP hr.2 b h, by
        rw [(Stays.refl (free := False)).joinRequest b h |>.pins_eq]
        exact hr.2⟩
  rw [Machine.settle, settleHoses, hp.quiet.settlePumps]
  exact joined.1.finish b

end Requests

end Part.Still

/-- The end of an event with the pumps halted leaves them so. -/
theorem Part.Still.pumps_settle {P : WriteReq → Prop} {p : Part} (hp : p.Still P) (b : Part) :
    (Machine.settle b p).pumps = p.pumps := by
  rw [Machine.settle, settleHoses, hp.quiet.settlePumps, pumps_finish, Part.pumps_joinRequests]

theorem Part.halted_shutDown (p : Part) (i : PumpId) : (p.shutDown.pumps.get i).halt = p.shutDown.pumps.get i := by
  cases i <;> rfl

/-! ## The hoses -/

/-- The shutting of the valves changes the valves and the meter of a hose alone (R86, R98). -/
theorem Part.hose_shutDown (p : Part) (k : HoseId) : ∃ valves meter,
    p.shutDown.hose k = { p.hose k with valves := valves, meter := meter } := by
  obtain ⟨q, before, after⟩ := hose_fold (fun p h => p.beginShutting h) (fun q _ _ hk => q.hose_beginShutting_ne hk) p k
  have own : ∃ valves meter, (q.beginShutting k).hose k = { q.hose k with valves := valves, meter := meter } := by
    unfold Part.beginShutting
    split
    · exact ⟨_, _, Part.hose_modHose_same ..⟩
    · exact ⟨_, _, rfl⟩
  obtain ⟨valves, meter, own⟩ := own
  exact ⟨valves, meter, by rw [← before, ← own, ← after]; rfl⟩

end Sys2Proof.Machine
end

section
/-! O39 and O40: the emergency input (05 R98, 06 R118) and the power-fail warning (05 R99, 06 R119, 07 R133). -/

namespace Sys2Proof.Machine

open Sys2Proof

/-! ## The end of the event -/

/-- The levels of the inputs stand through the end of an event. -/
theorem pins_settle (b p : Part) : (settle b p).pins = p.pins :=
  ((Stays.refl (free := True)).settle (fun _ => trivial) b).pins_eq

/-- A pump that is halted stands still. -/
theorem Pump.halted {m : Pump} (hm : m.halt = m) :
    m.state = .stopped ∧ m.grants = [] ∧ m.requests = [] ∧ m.prime = none ∧ m.rundown = none := by
  rw [← hm]
  exact ⟨rfl, rfl, rfl, rfl, rfl⟩

/-- With the pumps halted the end of an event leaves a hose alone whose flow does not start at it. -/
theorem Part.Still.hose_settle {P : WriteReq → Prop} {p : Part} (hp : p.Still P) (b : Part) {k : HoseId}
    (hk : (p.hose k).begun = true → (b.hose k).begun = true) : (Machine.settle b p).hose k = p.hose k :=
  hose_settle_idle b p hp.requests hk

/-- A stop before flow leaves no flow begun. -/
theorem Part.begun_stopBeforeFlow {p : Part} {h : HoseId} {x : Context} (hx : (p.hose h).context = some x) (c : Cause) :
    ((p.stopBeforeFlow h c).hose h).begun = false := by
  rw [p.hose_stopBeforeFlow h c hx]
  unfold Hose.begun restState
  cases (p.hose h).nozzle <;> rfl

/-! ## The emergency input (R98, 06 R118) -/

theorem Part.still_emergencyStop (p : Part) : p.emergencyStop.Still fun _ => True :=
  Part.Still.foldHoses ⟨Part.halted_shutDown _, fun _ _ => trivial⟩ _ fun _ h hr => hr.takeCause h .emergency

/-- The hoses act one by one after the shutting of the valves, and each finds itself as it was but for valves and meter. -/
theorem Part.hose_fold_shutDown (f : Part → HoseId → Part) (hne : ∀ q h k, k ≠ h → (f q h).hose k = q.hose k) (p : Part)
    (k : HoseId) : ∃ (q : Part) (valves : Vsq) (meter : Meter), q.hose k = { p.hose k with valves := valves, meter := meter }
      ∧ (allHoses.foldl f p.shutDown).hose k = (f q k).hose k := by
  obtain ⟨q, before, after⟩ := hose_fold f hne p.shutDown k
  obtain ⟨valves, meter, shut⟩ := p.hose_shutDown k
  exact ⟨q, valves, meter, before.trans shut, after⟩

theorem Part.hose_emergencyStop (p : Part) (k : HoseId) : ∃ (q : Part) (valves : Vsq) (meter : Meter),
    q.hose k = { p.hose k with valves := valves, meter := meter } ∧ p.emergencyStop.hose k = (q.takeCause k .emergency).hose k :=
  Part.hose_fold_shutDown (fun q h => q.takeCause h .emergency) (fun q _ _ hk => q.hose_takeCause_ne hk _)
    (p.setPins { p.pins with emergency := true }) k

section Emergency

variable {p : Part} {h : HoseId} {x : Context} (hx : (p.hose h).context = some x)
include hx

/-- A transaction before flow is undone (06 R113). -/
theorem Part.emergency_before_flow (hd : (p.hose h).dsc = .authorising ∨ (p.hose h).dsc = .awaitPump) :
    let u := (settle p p.emergencyStop).hose h
    u.context = none ∧ u.dsc = restState (p.hose h).nozzle
      ∧ u.summary = some { sequence := none, cause := some .emergency, faults := x.faults } := by
  obtain ⟨q, valves, meter, own, taken⟩ := p.hose_emergencyStop h
  have context : (q.hose h).context = some x := by rw [own]; exact hx
  rw [Part.takeCause_before q (by rw [own]; exact hd)] at taken
  rw [p.still_emergencyStop.hose_settle p (by rw [taken, Part.begun_stopBeforeFlow context]; exact nofun), taken,
    q.hose_stopBeforeFlow h .emergency context, own]
  exact ⟨rfl, rfl, rfl⟩

/-- A flowing hose stops with EMERGENCY (06 R110). -/
theorem Part.emergency_flowing (hd : (p.hose h).dsc = .flowing) :
    let u := (settle p p.emergencyStop).hose h
    u.dsc = .stopping ∧ u.context = some { x with cause := some .emergency } := by
  obtain ⟨q, valves, meter, own, taken⟩ := p.hose_emergencyStop h
  obtain ⟨dsc, context⟩ := Part.takeCause_flowing q (h := h) (by rw [own]; exact hd) .emergency
  rw [← taken] at dsc context
  rw [p.still_emergencyStop.hose_settle p fun _ => Hose.begun_flowing hd]
  refine ⟨dsc, context.trans ?_⟩
  rw [own, hx]
  rfl

end Emergency

/-- The release of an input, with nothing to arbitrate (R98, R99). -/
theorem Part.Quiet.settle_setPins {p : Part} (hp : p.Quiet) (pins : Pins) : settle p (p.setPins pins) = p.setPins pins :=
  (hp.of_pumps (q := p.setPins pins) rfl).settle_hoses rfl rfl

/-- Settles O39: the valves by the shutting that nothing undoes, the pumps halted, and each hose by the state it was in; the release
of an input has nothing to settle. -/
theorem emergencyInput : Obligations.EmergencyInput := by
  refine ⟨fun s he => ⟨_, exec_emergencyAsserted he, ?_, fun i => ?_, s.part.emergency_allShut.1, ?_, ?_⟩,
    fun s quiet => ⟨?_, ?_⟩⟩
  · rw [pins_settle, s.part.pins_emergencyStop]
  · have still := s.part.still_emergencyStop
    rw [still.pumps_settle]
    exact Pump.halted (still.halted i)
  · exact fun h x hx hd => Part.emergency_before_flow hx hd
  · exact fun h x hx hd => Part.emergency_flowing hx hd
  · exact congrArg s.goesTo (quiet.settle_setPins _)
  · exact congrArg s.goesTo (quiet.settle_setPins _)

/-! ## The power-fail warning (R99, 06 R119, 07 R133) -/

/-- The shutting of the valves leaves the log alone. -/
theorem Part.tlg_shutDown (p : Part) : p.shutDown.tlg = p.tlg := by
  have each (q : Part) (h : HoseId) : (q.beginShutting h).tlg = q.tlg := by
    unfold Part.beginShutting
    split <;> rfl
  exact List.foldlRecOn (motive := fun q : Part => q.tlg = p.tlg) allHoses _ rfl fun q hq h _ => (each q h).trans hq

/-- What waits is what the filter of R133 keeps, and closing parts. -/
theorem Part.still_powerFailStop (p : Part) : p.powerFailStop.Still fun r => r.kept = true := by
  refine Part.Still.foldHoses ⟨Part.halted_shutDown _, fun r hr => ?_⟩ _
    fun _ h hr => hr.powerFailHose (fun _ _ => ⟨rfl, rfl⟩) h
  rw [Part.tlg_shutDown] at hr
  exact (List.mem_filter.mp hr).2

theorem Part.hose_endOverrun_ne (p : Part) {h k : HoseId} (hk : k ≠ h) : (p.endOverrun h).hose k = p.hose k := by
  have tested (q : Part) : (q.overrunTest h).hose k = q.hose k := by
    unfold Part.overrunTest
    split
    · rfl
    · exact Part.hose_modContext_ne _ _ hk
  have closed (q : Part) : (q.closeWindow h).hose k = q.hose k :=
    (Part.hose_modMeter_ne _ _ hk).trans (Part.hose_modContext_ne _ _ hk)
  have marked (q : Part) (f : FaultSet) : ((q.addFaults h f).modMeter h fun m => { m with creepMark := false }).hose k = q.hose k :=
    (Part.hose_modMeter_ne _ _ hk).trans (Part.hose_modContext_ne _ _ hk)
  have queued (q : Part) : (q.queueClosing h).hose k = q.hose k := by
    unfold Part.queueClosing
    dsimp only
    split
    · exact marked q _
    · rw [Part.hose_joinClosing, Part.hose_modHose_ne _ _ hk, Part.hose_modSlot]
      exact marked q _
  unfold Part.endOverrun
  rw [queued, closed, tested, Part.hose_modValves_ne _ _ hk]

/-- What a hose does at the warning leaves the other hoses alone (06 R119). -/
theorem Part.hose_powerFailHose_ne (p : Part) {h k : HoseId} (hk : k ≠ h) : (p.powerFailHose h).hose k = p.hose k := by
  have early (q : Part) : (q.commitEarly h).hose k = q.hose k := by
    unfold Part.commitEarly
    rw [Part.hose_shutTest_ne _ hk, Part.hose_endOverrun_ne _ hk, Part.hose_modContext_ne _ _ hk]
  unfold Part.powerFailHose
  split
  · exact p.hose_takeCause_ne hk _
  · exact p.hose_takeCause_ne hk _
  · rw [early, Part.hose_event, Part.hose_modContext_ne _ _ hk]
  · exact early p
  all_goals rfl

/-- A hose whose commit is not complete waits through its entry into SHUT (06 R114). -/
theorem Part.shutTest_waits {p : Part} {h : HoseId} {x : Context} (hx : (p.hose h).context = some x) (hc : x.committed = false) :
    ((p.shutTest h).hose h).dsc = (p.hose h).dsc ∧ ((p.shutTest h).hose h).context = some x := by
  unfold Part.shutTest
  split
  · rw [Part.hose_enterShut_waits hx fun _ => hc]
    exact ⟨rfl, hx⟩
  · exact ⟨rfl, hx⟩

theorem Part.hose_powerFailStop (p : Part) (k : HoseId) : ∃ (q : Part) (valves : Vsq) (meter : Meter),
    q.hose k = { p.hose k with valves := valves, meter := meter } ∧ p.powerFailStop.hose k = (q.powerFailHose k).hose k :=
  Part.hose_fold_shutDown (fun q h => q.powerFailHose h) (fun q _ _ hk => q.hose_powerFailHose_ne hk)
    ((p.setPins { p.pins with powerFail := true }).setTlg { p.tlg with queue := p.tlg.queue.filter WriteReq.kept }) k

section Warning

variable {p : Part} {h : HoseId} {x : Context} (hx : (p.hose h).context = some x)
include hx

/-- A hose that commits at the warning is in COMMITTING (05 R88, 06 R119). -/
theorem Part.commitEarly_waits (hc : x.committed = false) : ((p.commitEarly h).hose h).dsc = .committing
    ∧ ∃ y, ((p.commitEarly h).hose h).context = some y ∧ y.cause = x.cause ∧ y.powerFail = true := by
  have context : ((p.modContext h fun c => { c with powerFail := true }).hose h).context = some { x with powerFail := true } := by
    rw [Part.hose_modContext_same, hx]
    rfl
  have own := Part.hose_endOverrun context
  obtain ⟨dsc, waiting⟩ := Part.shutTest_waits (congrArg Hose.context own) hc
  unfold Part.commitEarly
  dsimp only
  rw [dsc, waiting, own]
  exact ⟨rfl, _, rfl, rfl, rfl⟩

/-- A flowing hose commits with EMERGENCY (06 R119). -/
theorem Part.powerFail_flowing (hd : (p.hose h).dsc = .flowing) (hc : x.committed = false) :
    let u := (settle p p.powerFailStop).hose h
    u.dsc = .committing ∧ ∃ y, u.context = some y ∧ y.cause = some .emergency ∧ y.powerFail = true := by
  obtain ⟨q, valves, meter, own, taken⟩ := p.hose_powerFailStop h
  have stopped : q.powerFailHose h =
      ((q.modContext h fun c => { c with cause := some .emergency }).event (.stopped h .emergency)).commitEarly h := by
    unfold Part.powerFailHose
    rw [show (q.hose h).dsc = .flowing by rw [own]; exact hd]
  have context : (((q.modContext h fun c => { c with cause := some .emergency }).event (.stopped h .emergency)).hose h).context =
      some { x with cause := some .emergency } := by
    rw [Part.hose_event, Part.hose_modContext_same, own, hx]
    rfl
  have waits := Part.commitEarly_waits context hc
  rw [← stopped, ← taken] at waits
  rw [p.still_powerFailStop.hose_settle p fun _ => Hose.begun_flowing hd]
  exact waits

/-- A transaction before flow is undone (06 R113, R119). -/
theorem Part.powerFail_before_flow (hd : (p.hose h).dsc = .authorising ∨ (p.hose h).dsc = .awaitPump) :
    let u := (settle p p.powerFailStop).hose h
    u.context = none ∧ u.dsc = restState (p.hose h).nozzle := by
  obtain ⟨q, valves, meter, own, taken⟩ := p.hose_powerFailStop h
  have before : (q.hose h).dsc = .authorising ∨ (q.hose h).dsc = .awaitPump := by rw [own]; exact hd
  have context : (q.hose h).context = some x := by rw [own]; exact hx
  have stopped : q.powerFailHose h = q.stopBeforeFlow h .emergency := by
    rw [← Part.takeCause_before q before]
    unfold Part.powerFailHose
    rcases before with hb | hb <;> rw [hb]
  rw [stopped] at taken
  rw [p.still_powerFailStop.hose_settle p (by rw [taken, Part.begun_stopBeforeFlow context]; exact nofun), taken,
    q.hose_stopBeforeFlow h .emergency context, own]
  exact ⟨rfl, rfl⟩

end Warning

/-- The warning cuts no write in progress (07 R133). -/
theorem Part.writing_powerFail (p : Part) : (settle p p.powerFailStop).tlg.writing = p.tlg.writing := by
  have stays : Stays False ((p.setPins { p.pins with powerFail := true }).setTlg
      { p.tlg with queue := p.tlg.queue.filter WriteReq.kept }) (settle p p.powerFailStop) :=
    ((shutDown_stays Stays.refl).trans p.powerFailStop_stays).settle p.powerFailStop_asserted p
  exact congrArg (fun t => t.2.2.2.1) stays.fixed_eq

/-- Settles O40: the valves and pumps as at an emergency, the write queue by what joins it, and each hose by the state it was
in. -/
theorem powerFailWarning : Obligations.PowerFailWarning := by
  intro s hp
  have still := s.part.still_powerFailStop
  have warned : s.part.powerFailStop.pins.powerFail = true := by rw [s.part.pins_powerFailStop]
  refine ⟨_, exec_powerFailWarning hp, ?_, fun i => ?_, s.part.powerFail_allShut.1, ?_, s.part.writing_powerFail, ?_, ?_⟩
  · rw [pins_settle, s.part.pins_powerFailStop]
  · rw [still.pumps_settle]
    obtain ⟨state, grants, requests, -⟩ := Pump.halted (still.halted i)
    exact ⟨state, grants, requests⟩
  · exact (still.settle (fun _ _ => rfl) warned s.part).queue
  · exact fun h x hx hd hc => Part.powerFail_flowing hx hd hc
  · exact fun h x hx hd => Part.powerFail_before_flow hx hd

end Sys2Proof.Machine
end

section
/-! O31: the first cause that a flowing hose takes while its trim valve shows OPEN (06 R109 to R111, 05 R86, 04 R72). -/

namespace Sys2Proof.Machine

open Sys2Proof

/-! ## The stop and the end of its event -/

/-- The events queued depend on the events that wait and on nothing else of the console line. -/
theorem Cnl.events_offer_congr {c d : Cnl} (hc : c.events = d.events) (e : Event) : (c.offer e).events = (d.offer e).events := by
  unfold Cnl.offer
  rw [hc]
  split <;> simp

/-- A flowing hose whose sequencer shuts for an end cause (R110, 05 R86, 04 R72). -/
def Hose.stopped (now : Nat) (settle : Option Nat) (cause : Cause) (u : Hose) : Hose :=
  { u with
    dsc := .stopping, context := u.context.map fun x => { x with cause := some cause }
    valves := u.valves.enter now settle .shutting, meter := { u.meter with noFlow := none } }

/-- The part p in which a cause of hose h is told, against the part b before the event: the hose has its state, its transaction and
its valves, and of the other blocks time, pins and the answer in progress may differ. -/
structure Part.Tells (b : Part) (h : HoseId) (p : Part) : Prop where
  dsc : (p.hose h).dsc = (b.hose h).dsc
  context : (p.hose h).context = (b.hose h).context
  valves : (p.hose h).valves = (b.hose h).valves
  boundary : (p.hose h).meter.boundary = (b.hose h).meter.boundary
  others : ∀ k, k ≠ h → p.hose k = b.hose k
  events : p.cnl.events = b.cnl.events
  blocks : (p.pumps, p.tlg, p.inv, p.alc, p.machines, p.totals, p.rsc, p.snc, p.cfl)
    = (b.pumps, b.tlg, b.inv, b.alc, b.machines, b.totals, b.rsc, b.snc, b.cfl)

section Stopped

variable {b p : Part} {h : HoseId} {x : Context} (tells : b.Tells h p) (cause : Cause) (quiet : b.Quiet)
  (hd : (b.hose h).dsc = .flowing) (hx : (b.hose h).context = some x) (hflow : (b.hose h).valves.phase.flowing = true)
  (hopen : (b.hose h).valves.trim.switch = .opened) (hlatch : (b.hose h).valves.trim.latch = false)
include tells quiet hd hx hflow hopen hlatch

/-- The first cause in flow leaves nothing to settle: the hose is in STOPPING with its end cause, the valves shut, the STOPPED
event is queued, and no other block is touched (R110, R111). -/
theorem Part.Tells.settle_takeCause :
    let q := settle b (p.takeCause h cause)
    (q.hose h).dsc = .stopping ∧ (q.hose h).context = some { x with cause := some cause }
      ∧ (q.hose h).valves.phase = .shutting ∧ (q.hose h).meter.noFlow = none
      ∧ q.cnl.events = (b.cnl.offer (.stopped h cause)).events ∧ (∀ k, k ≠ h → q.hose k = b.hose k)
      ∧ (q.pumps, q.tlg, q.inv, q.alc, q.machines, q.totals, q.rsc, q.snc, q.cfl)
          = (b.pumps, b.tlg, b.inv, b.alc, b.machines, b.totals, b.rsc, b.snc, b.cfl) := by
  have taken : p.takeCause h cause = (p.event (.stopped h cause)).modHose h
      (Hose.stopped p.now ((p.hoseSettings h).map (·.settleTime)) cause) :=
    p.takeCause_open cause (tells.dsc.trans hd) (tells.valves ▸ hflow) (tells.valves ▸ hopen) (tells.valves ▸ hlatch)
  have own := (Part.hose_modHose_same (p.event (.stopped h cause)) h
    (Hose.stopped p.now ((p.hoseSettings h).map (·.settleTime)) cause)).trans (congrArg _ (Part.hose_event ..))
  have others (k : HoseId) (hk : k ≠ h) := (Part.hose_modHose_ne (p.event (.stopped h cause)) (h := h)
    (Hose.stopped p.now ((p.hoseSettings h).map (·.settleTime)) cause) hk).trans (tells.others k hk)
  have blocks := tells.blocks
  have settled := quiet.settle_one h (q := (p.event (.stopped h cause)).modHose h _) (congrArg (·.1) blocks)
    (congrArg (·.2.2.2.2.2.2.1.state) blocks) others (fun _ => Hose.begun_flowing hd)
    ((congrArg (·.meter.boundary) own).trans tells.boundary).le
  dsimp only
  rw [taken, settled, own]
  exact ⟨rfl, congrArg (Option.map _) (tells.context.trans hx), rfl, rfl, Cnl.events_offer_congr tells.events _, others, blocks⟩

end Stopped

/-! ## The four commands -/

section Commands

variable {s : State} {h : HoseId}

theorem exec_noFlowExpiry_tells {due : Nat} (hn : (s.part.hose h).meter.noFlow = some due) :
    ∃ p, exec (.noFlowExpiry h) s = s.goesTo (settle s.part (p.takeCause h .noFlow)) ∧ s.part.Tells h p := by
  refine ⟨(s.part.reach due).modMeter h fun m => { m with noFlow := none }, ?_, ?_⟩
  · show execNoFlowExpiry h s = _
    unfold execNoFlowExpiry
    rw [exec_next, hn]
  · have own := (s.part.reach due).hose_modMeter_same h fun m => { m with noFlow := none }
    exact ⟨by rw [own]; rfl, by rw [own]; rfl, by rw [own]; rfl, by rw [own]; rfl, fun _ hk => Part.hose_modMeter_ne _ _ hk, rfl, rfl⟩

theorem exec_tagGraceExpiry_tells {due : Nat} (hg : (s.part.hose h).reader.grace = some due) :
    ∃ p, exec (.tagGraceExpiry h) s = s.goesTo (settle s.part (p.takeCause h .tagLost)) ∧ s.part.Tells h p := by
  refine ⟨(s.part.reach due).modReader h fun r => { r with grace := none }, ?_, ?_⟩
  · show execTagGraceExpiry h s = _
    unfold execTagGraceExpiry
    rw [exec_next, hg]
  · have own := (s.part.reach due).hose_modReader_same h fun r => { r with grace := none }
    exact ⟨by rw [own]; rfl, by rw [own]; rfl, by rw [own]; rfl, by rw [own]; rfl, fun _ hk => Part.hose_modReader_ne _ _ hk, rfl, rfl⟩

/-- The part with a hose's nozzle switch at a position, before the change is taken (11 section 11.6). -/
def Part.nozzleAt (p : Part) (h : HoseId) (n : Nozzle) : Part := p.modPins h fun k => { k with nozzle := n }

/-- A hose whose nozzle is hung up, before its state takes the hang (04 R73, 11 R180). -/
def Hose.hung (u : Hose) : Hose :=
  { u with nozzle := .onHook, standing := none, meter := { u.meter with creep := 0, creepSent := false } }

/-- A hang that is a change of position, after the start sequence (R102, R103). -/
theorem exec_nozzleHang_taken (hrun : s.part.cfl.stage = .running) (hoff : (s.part.hose h).nozzle = .offHook) :
    exec (.nozzleHang h) s = s.goesTo (settle (s.part.nozzleAt h .onHook) ((s.part.nozzleAt h .onHook).hang h)) :=
  congrArg s.goesTo (if_pos (c := (s.part.nozzleAt h .onHook).cfl.stage = .running
    ∧ ((s.part.nozzleAt h .onHook).hose h).nozzle = .offHook) ⟨hrun, hoff⟩)

/-- Outside LIFTED and DONE a hang is told as a stop cause (R103). -/
theorem Part.hang_takeCause {p : Part} (hl : (p.hose h).dsc ≠ .lifted) (hd : (p.hose h).dsc ≠ .done) :
    p.hang h = (p.modHose h Hose.hung).takeCause h .hung := by
  unfold Part.hang
  split
  · exact absurd ‹_› hl
  · exact absurd ‹_› hd
  · rfl

theorem Part.tells_hung (p : Part) (h : HoseId) : p.Tells h (p.modHose h Hose.hung) := by
  have own := p.hose_modHose_same h Hose.hung
  exact ⟨by rw [own]; rfl, by rw [own]; rfl, by rw [own]; rfl, by rw [own]; rfl, fun _ hk => Part.hose_modHose_ne _ _ hk, rfl, rfl⟩

/-- STOP at a free line is answered OK and told as a stop cause (R117). -/
theorem exec_stop_flowing {field : Nat} (free : s.part.LineFree) (hh : hoseField (some field) = some h)
    (hd : (s.part.hose h).dsc = .flowing) :
    exec (.stop (some field)) s = s.goesTo (settle s.part ((s.part.respond .ok).takeCause h .operator)) := by
  refine congrArg s.goesTo ((free.request _).trans ?_)
  unfold Part.stopRequest
  simp only [hh, hd]

theorem Part.tells_respond (p : Part) (h : HoseId) (r : Response) : p.Tells h (p.respond r) :=
  ⟨rfl, rfl, rfl, rfl, fun _ _ => rfl, rfl, rfl⟩

end Commands

/-- Settles O31: each cause is told with the hose's transaction and valves as they stood, and the first-cause rule does the rest. -/
theorem firstCauseInFlow : Obligations.FirstCauseInFlow := by
  intro s h x st quiet hrun hd hx _ hflow hopen hlatch stopped
  refine ⟨fun hn => ?_, fun hg => ?_, fun hoff => ?_, fun field free hh => ?_⟩
  · obtain ⟨due, hn⟩ := Option.ne_none_iff_exists'.mp hn
    obtain ⟨p, taken, tells⟩ := exec_noFlowExpiry_tells hn
    exact ⟨_, taken, tells.settle_takeCause .noFlow quiet hd hx hflow hopen hlatch⟩
  · obtain ⟨due, hg⟩ := Option.ne_none_iff_exists'.mp hg
    obtain ⟨p, taken, tells⟩ := exec_tagGraceExpiry_tells hg
    exact ⟨_, taken, tells.settle_takeCause .tagLost quiet hd hx hflow hopen hlatch⟩
  · have hung : (s.part.nozzleAt h .onHook).hang h = _ :=
      Part.hang_takeCause (fun hl => nomatch hd.symm.trans hl) (fun hl => nomatch hd.symm.trans hl)
    have quietNow : (s.part.nozzleAt h .onHook).Quiet := quiet.of_pumps rfl
    exact ⟨_, (exec_nozzleHang_taken hrun hoff).trans (by rw [hung]),
      ((s.part.nozzleAt h .onHook).tells_hung h).settle_takeCause .hung quietNow hd hx hflow hopen hlatch⟩
  · exact ⟨_, exec_stop_flowing free hh hd,
      (s.part.tells_respond h .ok).settle_takeCause .operator quiet hd hx hflow hopen hlatch⟩

end Sys2Proof.Machine
end

section
/-! O32: a stop before flow at the end of the pump wait (05 R97, 06 R113), and what stands of it through the arbitration that
follows. -/

namespace Sys2Proof.Machine

open Sys2Proof

/-! ## What the stop leaves of the log -/

theorem Part.tlg_offer (p : Part) (n : Notice) (y : Bool) : (p.offer n y).tlg = p.tlg := by
  rw [Part.offer_shape]
  rfl

theorem Part.tlg_drainTest (p : Part) : p.drainTest.tlg = p.tlg := by
  unfold Part.drainTest Part.enterRequested Part.requestBay
  split
  · split
    · exact Part.tlg_offer ..
    · rfl
  · rfl

theorem Part.tlg_endLoadout (p : Part) (x : Context) : (p.endLoadout x).tlg = p.tlg := by
  unfold Part.endLoadout
  split <;> rfl

theorem Part.tlg_dropClaim (p : Part) (h : HoseId) : (p.dropClaim h).tlg = p.tlg := by
  unfold Part.dropClaim
  split
  · exact Part.tlg_offerClosing ..
  · rfl

/-- A stop before flow returns the slot of the transaction (R113, 07 R127). -/
theorem Part.tlg_stopBeforeFlow {p : Part} {h : HoseId} {x : Context} (hx : (p.hose h).context = some x) (c : Cause) :
    (p.stopBeforeFlow h c).tlg = (p.returnSlot x.slot).tlg := by
  unfold Part.stopBeforeFlow
  rw [hx]
  dsimp only
  rw [Part.tlg_drainTest, Part.tlg_modHose, Part.tlg_endLoadout]
  unfold Part.returnSlot Part.modSlot
  rw [Part.tlg_setTlg, Part.tlg_setTlg, Part.tlg_dropClaim]
  rfl

/-! ## A hose rid of its transaction -/

/-- Hose h neither waits for a pump nor holds a place of one, and, where `alone` holds, slot i is FREE and no transaction's. -/
structure Part.Rid (h : HoseId) (i : Nat) (alone : Prop) (p : Part) : Prop where
  grants : ∀ k, h ∉ (p.pumps.get k).grants
  requests : ∀ k, ∀ r ∈ (p.pumps.get k).requests, r.hose ≠ h
  free : alone → (p.slot i).state = .free
  others : alone → ∀ j y, (p.hose j).context = some y → y.slot ≠ i

namespace Part.Rid

variable {h j : HoseId} {i : Nat} {alone : Prop} {p q : Part}

theorem congr (hp : p.Rid h i alone) (hh : q.hoses = p.hoses) (hpumps : q.pumps = p.pumps) (hs : q.tlg.slots = p.tlg.slots) :
    q.Rid h i alone := by
  refine ⟨by rw [hpumps]; exact hp.grants, by rw [hpumps]; exact hp.requests, fun ha => ?_, fun ha => ?_⟩
  · unfold Part.slot
    rw [hs]
    exact hp.free ha
  · unfold Part.hose
    rw [hh]
    exact hp.others ha

/-- A change of a hose that brings it no other record's slot. -/
theorem modHose (hp : p.Rid h i alone) (j : HoseId) (f : Hose → Hose)
    (hf : ∀ y, (f (p.hose j)).context = some y → ∃ z, (p.hose j).context = some z ∧ z.slot = y.slot) :
    (p.modHose j f).Rid h i alone := by
  refine ⟨hp.grants, hp.requests, hp.free, fun ha k y hy => ?_⟩
  by_cases hk : k = j
  · subst hk
    rw [Part.hose_modHose_same] at hy
    obtain ⟨z, hz, hs⟩ := hf y hy
    exact hs ▸ hp.others ha k z hz
  · rw [Part.hose_modHose_ne _ _ hk] at hy
    exact hp.others ha k y hy

/-- A change of a hose that leaves its transaction alone. -/
theorem modShell (hp : p.Rid h i alone) (j : HoseId) (f : Hose → Hose) (hf : (f (p.hose j)).context = (p.hose j).context) :
    (p.modHose j f).Rid h i alone := hp.modHose j f fun y hy => ⟨y, hf.symm.trans hy, rfl⟩

/-- A change of a hose that clears its transaction. -/
theorem modCleared (hp : p.Rid h i alone) (j : HoseId) (f : Hose → Hose) (hf : (f (p.hose j)).context = none) :
    (p.modHose j f).Rid h i alone := hp.modHose j f fun y hy => by rw [hf] at hy; cases hy

theorem modContext (hp : p.Rid h i alone) (j : HoseId) (f : Context → Context) (hf : ∀ z, (f z).slot = z.slot) :
    (p.modContext j f).Rid h i alone := hp.modHose j _ fun y hy => by
  obtain ⟨z, hz, rfl⟩ := Option.map_eq_some_iff.mp hy
  exact ⟨z, hz, (hf z).symm⟩

/-- A slot changed that another transaction holds. -/
theorem modSlot (hp : p.Rid h i alone) {l : Nat} (f : Slot → Slot) (hl : alone → l ≠ i) : (p.modSlot l f).Rid h i alone := by
  refine ⟨hp.grants, hp.requests, fun ha => ?_, hp.others⟩
  rw [← hp.free ha]
  unfold Part.modSlot Part.slot
  rw [Part.tlg_setTlg, List.getD_eq_getElem?_getD, List.getD_eq_getElem?_getD, List.getElem?_modify_ne _ _ (hl ha)]

/-- The pumps changed with no place and no request for hose h. -/
theorem setPumps (hp : p.Rid h i alone) (m : ByPump Pump) (hg : ∀ k, h ∉ (m.get k).grants)
    (hr : ∀ k, ∀ r ∈ (m.get k).requests, r.hose ≠ h) : (p.setPumps m).Rid h i alone := ⟨hg, hr, hp.free, hp.others⟩

/-- One pump changed so. -/
theorem modPump (hp : p.Rid h i alone) (k : PumpId) (f : Pump → Pump) (hg : h ∉ (f (p.pumps.get k)).grants)
    (hr : ∀ r ∈ (f (p.pumps.get k)).requests, r.hose ≠ h) : (p.modPump k f).Rid h i alone := by
  refine hp.setPumps _ (fun l => ?_) fun l => ?_ <;> rw [ByPump.get_set_pump] <;> split
  · exact hg
  · exact hp.grants l
  · exact hr
  · exact hp.requests l

theorem ite {c : Prop} [Decidable c] (hp : p.Rid h i alone) (hq : q.Rid h i alone) : (if c then p else q).Rid h i alone := by
  split
  · exact hp
  · exact hq

theorem foldHoses (hp : p.Rid h i alone) (f : Part → HoseId → Part) (hf : ∀ r k, r.Rid h i alone → (f r k).Rid h i alone) :
    (allHoses.foldl f p).Rid h i alone :=
  List.foldlRecOn (motive := fun r => r.Rid h i alone) allHoses f hp fun r hr k _ => hf r k hr

/-! ### Notices, events and the restock coordinator -/

theorem event (hp : p.Rid h i alone) (e : Event) : (p.event e).Rid h i alone := hp.congr rfl rfl rfl

theorem offer (hp : p.Rid h i alone) (m : Notice) (y : Bool) : (p.offer m y).Rid h i alone := by
  rw [Part.offer_shape]
  exact hp.congr rfl rfl rfl

theorem finish (hp : p.Rid h i alone) (b : Part) : (finish b p).Rid h i alone := by
  unfold Machine.finish Part.offerStock
  refine hp.ite ?_
  split
  · exact hp.offer _ _
  · exact hp

theorem drainTest (hp : p.Rid h i alone) : p.drainTest.Rid h i alone := by
  unfold Part.drainTest Part.enterRequested Part.requestBay
  have requested : (p.setRestock .requested).Rid h i alone := hp.congr rfl rfl rfl
  refine Rid.ite ?_ hp
  split
  · refine Rid.offer ?_ _ _
    exact requested.congr rfl rfl rfl
  · exact requested

/-! ### The end of another flow -/

theorem dropGrant (hp : p.Rid h i alone) (j : HoseId) : (p.dropGrant j).Rid h i alone := by
  refine hp.setPumps _ (fun k => ?_) fun k => ?_
  · have held := hp.grants k
    cases k <;> exact fun hm => held (List.mem_filter.mp hm).1
  · have asked := hp.requests k
    cases k <;> exact asked

theorem leaveCommitting (hp : p.Rid h i alone) (j : HoseId) : (p.leaveCommitting j).Rid h i alone := by
  unfold Part.leaveCommitting
  split
  · exact hp
  · exact (hp.modCleared j _ rfl).drainTest

theorem enterShut (hp : p.Rid h i alone) (j : HoseId) : (p.enterShut j).Rid h i alone := by
  unfold Part.enterShut
  have shut (f : Vsq → Vsq) : (((p.modValves j f).superviseOff j).dropGrant j).Rid h i alone :=
    ((hp.modShell j (fun u => { u with valves := f u.valves }) rfl).modShell j
      (fun u => { u with reader := { u.reader with supervised := none, grace := none } }) rfl).dropGrant j
  exact Rid.ite ((shut _).leaveCommitting j) (shut _)

theorem shutTest (hp : p.Rid h i alone) (j : HoseId) : (p.shutTest j).Rid h i alone := Rid.ite (hp.enterShut j) hp

theorem beginShutting (hp : p.Rid h i alone) (j : HoseId) : (p.beginShutting j).Rid h i alone := Rid.ite (hp.modShell j _ rfl) hp

/-- In flow a stop cause touches the hose and its place (06 R110, R111). -/
theorem takeCause_flowing (hp : p.Rid h i alone) (hd : (p.hose j).dsc = .flowing) (c : Cause) :
    (p.takeCause j c).Rid h i alone := by
  unfold Part.takeCause
  rw [hd]
  have told := (hp.modContext j (fun x => { x with cause := some c }) fun _ => rfl).event (.stopped j c)
  exact ((told.modShell j (fun u => { u with dsc := .stopping }) rfl).beginShutting j).shutTest j

/-- The moves of the valves in flow (05 R84, R85). -/
theorem moveValves_flowing (hp : p.Rid h i alone) (hd : (p.hose j).dsc = .flowing) : (p.moveValves j).Rid h i alone := by
  unfold Part.moveValves
  split
  · exact hp
  · dsimp only
    generalize ((p.hose j).valves.move _ _).1 = v
    have moved : (p.modValves j fun _ => v).Rid h i alone := hp.modShell j (fun u => { u with valves := v }) rfl
    have flowing : (((p.modValves j fun _ => v).beginShutting j).hose j).dsc = .flowing := by
      rw [(Part.dsc_context_beginShutting _ j).1, Part.hose_modValves_same]
      exact hd
    exact Rid.ite moved (Rid.ite ((moved.beginShutting j).takeCause_flowing flowing _) (moved.modShell j _ rfl))

/-! ### The end of the event -/

theorem wakePump (hp : p.Rid h i alone) (k : PumpId) : (p.wakePump k).Rid h i alone :=
  Rid.ite (hp.modPump k _ (hp.grants k) (hp.requests k)) hp

theorem restPump (hp : p.Rid h i alone) (k : PumpId) : (p.restPump k).Rid h i alone :=
  Rid.ite (hp.modPump k _ (hp.grants k) (hp.requests k)) hp

/-- Only a hose that waits is granted a place (05 R95). -/
theorem grantPump (hp : p.Rid h i alone) {k : PumpId} {r : Request} (hr : p.nextGrantee k = some r) :
    (p.grantPump k r).Rid h i alone := by
  have waits : r ∈ (p.pumps.get k).requests := by
    unfold Part.nextGrantee at hr
    split at hr
    · exact (List.mem_filter.mp ((grantOrder_perm _).mem_iff.mp (List.mem_of_head? hr))).1
    · cases hr
  refine hp.modPump k _ ?_ fun t ht => hp.requests k t (List.mem_filter.mp ht).1
  simpa using ⟨hp.grants k, (hp.requests k r waits).symm⟩

theorem grantLoop (hp : p.Rid h i alone) (k : PumpId) (fuel : Nat) (starts : List HoseId) :
    (grantLoop k fuel p starts).1.Rid h i alone := by
  induction fuel generalizing p starts with
  | zero => exact hp
  | succ fuel ih =>
    unfold Machine.grantLoop
    split
    · exact hp
    · split
      · exact hp
      · exact ih (hp.grantPump ‹_›) _

theorem arbitrate (hp : p.Rid h i alone) : p.arbitrate.1.Rid h i alone := by
  unfold Part.arbitrate
  split
  · exact hp
  · exact (((hp.wakePump .p1).wakePump .p2).grantLoop .p1 4 []).grantLoop .p2 4 _

theorem startFlow (hp : p.Rid h i alone) (j : HoseId) : (p.startFlow j).Rid h i alone := by
  unfold Part.startFlow
  split
  · rename_i x _ _ hx
    exact (hp.modHose j _ fun y hy => by cases hy; exact ⟨x, hx, rfl⟩).moveValves_flowing (by rw [Part.hose_modHose_same])
  · exact hp

theorem settlePumps (hp : p.Rid h i alone) (fuel : Nat) : (settlePumps fuel p).Rid h i alone := by
  induction fuel generalizing p with
  | zero => exact (hp.restPump _).restPump _
  | succ fuel ih =>
    unfold Machine.settlePumps
    exact Rid.ite ((hp.arbitrate.restPump _).restPump _)
      (ih (hp.arbitrate.foldHoses _ fun _ k hr => Rid.ite (hr.startFlow k) hr))

theorem queueOpening (hp : p.Rid h i alone) (j : HoseId) : (p.queueOpening j).Rid h i alone := by
  unfold Part.queueOpening
  split
  · exact hp
  · rename_i x hx
    have numbered := hp.modContext j (fun z => { z with sequence := some p.tlg.nextSequence }) fun _ => rfl
    exact (numbered.modSlot _ fun ha => hp.others ha j x hx).congr rfl rfl (Tlg.slots_join _ _)

theorem queueCheckpoint (hp : p.Rid h i alone) (j : HoseId) : (p.queueCheckpoint j).Rid h i alone := by
  unfold Part.queueCheckpoint Part.checkpoint
  dsimp only
  repeat' split
  all_goals exact hp.congr rfl rfl rfl

theorem joinRequest (hp : p.Rid h i alone) (b : Part) (j : HoseId) : (b.joinRequest p j).Rid h i alone :=
  Rid.ite (hp.queueOpening j) (Rid.ite (hp.queueCheckpoint j) hp)

theorem settle (hp : p.Rid h i alone) (b : Part) : (settle b p).Rid h i alone :=
  ((hp.settlePumps 5).foldHoses _ fun _ j hr => hr.joinRequest b j).finish b

end Part.Rid

/-! ## The stop -/

/-- A stop before flow rids the hose of its transaction (R113). -/
theorem Part.rid_stopBeforeFlow {p : Part} {h : HoseId} {x : Context} (hx : (p.hose h).context = some x) (c : Cause) :
    (p.stopBeforeFlow h c).Rid h x.slot
      (x.slot < p.tlg.slots.length ∧ ∀ k y, k ≠ h → (p.hose k).context = some y → y.slot ≠ x.slot) := by
  refine ⟨fun k => ?_, fun k => ?_, fun ⟨hl, _⟩ => ?_, fun ⟨_, ho⟩ j y hy => ?_⟩
  · rw [p.pumps_stopBeforeFlow h c hx]
    cases k <;> simp [Part.dropGrant, ByPump.get]
  · rw [p.pumps_stopBeforeFlow h c hx]
    cases k <;> simp [Part.dropGrant, Part.withdraw, ByPump.get]
  · unfold Part.slot
    rw [Part.tlg_stopBeforeFlow hx]
    unfold Part.returnSlot Part.modSlot
    rw [Part.tlg_setTlg, List.getD_eq_getElem?_getD, List.getElem?_modify_eq, List.getElem?_eq_getElem hl]
    rfl
  · by_cases hj : j = h
    · subst hj
      rw [p.hose_stopBeforeFlow j c hx] at hy
      cases hy
    · rw [p.hose_stopBeforeFlow_ne hj c] at hy
      exact ho j y hj hy

/-- Settles O32: the stop undoes the transaction, and the arbitration and the log's requests that follow bring the hose nothing. -/
theorem pumpWaitEnds : Obligations.PumpWaitEnds := by
  intro s h x due hd hx hw hoff
  have taken := exec_pumpWaitExpiry_waiting hw hd
  generalize hp : (s.part.reach due).modHose h (fun u => { u with pumpWait := none }) = p at taken
  have own : p.hose h = { s.part.hose h with pumpWait := none } := by rw [← hp, Part.hose_modHose_same]; rfl
  have same (k : HoseId) (hk : k ≠ h) : p.hose k = s.part.hose k := by rw [← hp, Part.hose_modHose_ne _ _ hk, Part.hose_reach]
  have context : (p.hose h).context = some x := by rw [own]; exact hx
  have stopped := p.hose_stopBeforeFlow h .pumpWait context
  rw [own, hoff] at stopped
  have left : (settle (s.part.reach due) (p.stopBeforeFlow h .pumpWait)).hose h = _ :=
    (hose_settle _ _ (by rw [stopped]; exact nofun) (by rw [Part.begun_stopBeforeFlow context]; exact nofun)).trans stopped
  have rid := (Part.rid_stopBeforeFlow context .pumpWait).settle (s.part.reach due)
  refine ⟨_, taken, ?_⟩
  rw [left]
  refine ⟨rfl, rfl, rfl, rfl, rfl, rfl, rfl, rfl, rfl, fun i => ⟨rid.grants i, rid.requests i⟩, fun hl ho => rid.free ⟨?_, ?_⟩⟩
  · rw [← hp]
    exact hl
  · exact fun k y hk hy => ho k y hk (same k hk ▸ hy)

end Sys2Proof.Machine
end

section
/-! O43: READLOG (07 R138) and RELEASE (07 R139). -/

namespace Sys2Proof.Machine

open Sys2Proof

/-! ## READLOG (R138) -/

section Readlog

variable {s : State} (free : s.part.LineFree)
include free

theorem exec_readlog_number {n : Nat} (hn : 1 ≤ n) (hl : n ≤ 4294967295) :
    exec (.readlog (some n)) s = s.goesTo (s.part.readRecord n) := by
  refine congrArg s.goesTo ((free.request _).trans ?_)
  unfold Part.readlog sequenceField
  simp only [if_pos (show n ≤ max32 from hl), if_neg (show n ≠ 0 by omega)]

theorem exec_readlog_oldest {n : Nat} (hn : nextAbove 0 s.part.tlg.slots = some n) :
    exec (.readlog (some 0)) s = s.goesTo (s.part.readRecord n) := by
  refine congrArg s.goesTo ((free.request _).trans ?_)
  unfold Part.readlog sequenceField
  simp only [if_pos (show 0 ≤ max32 from Nat.zero_le _), if_true, hn]

theorem exec_readlog_empty (hn : nextAbove 0 s.part.tlg.slots = none) :
    exec (.readlog (some 0)) s = s.goesTo (s.part.refuse .notFound) := by
  refine congrArg s.goesTo ((free.request _).trans ?_)
  unfold Part.readlog sequenceField
  simp only [if_pos (show 0 ≤ max32 from Nat.zero_le _), if_true, hn]

end Readlog

theorem Part.readRecord_none {p : Part} {n : Nat} (hn : ∀ u ∈ p.tlg.slots, ∀ o, u.record = some o → o.sequence ≠ n) :
    p.readRecord n = p.refuse .notFound := by
  unfold Part.readRecord
  cases hs : slotOf n p.tlg.slots with
  | none => rfl
  | some i =>
    obtain ⟨⟨u, o, hu, ho, he⟩, -⟩ := slotOf_some hs
    exact absurd he (hn u (List.mem_of_getElem? hu) o ho)

section Held

variable {slots : List Slot} {n j : Nat} {u : Slot} {o : Opening} (hu : slots[j]? = some u) (ho : u.record = some o)
  (hn : o.sequence = n)
include hu ho hn

/-- The slot of a number is the first that holds it. -/
theorem slotOf_first (hfirst : ∀ l v r, l < j → slots[l]? = some v → v.record = some r → r.sequence ≠ n) :
    slotOf n slots = some j := by
  cases hs : slotOf n slots with
  | none => exact absurd hn (slotOf_none hs u (List.mem_of_getElem? hu) o ho)
  | some i =>
    obtain ⟨⟨v, r, hv, hr, he⟩, before⟩ := slotOf_some hs
    rcases Nat.lt_trichotomy i j with hij | rfl | hij
    · exact absurd he (hfirst i v r hij hv hr)
    · rfl
    · exact absurd hn (before j u o hij hu ho)

/-- A number that no record is below is the oldest (R126). -/
theorem nextAbove_oldest (h1 : 1 ≤ n) (hmin : ∀ v ∈ slots, ∀ r, v.record = some r → 1 ≤ r.sequence → n ≤ r.sequence) :
    nextAbove 0 slots = some n := by
  have mem := List.mem_of_getElem? hu
  cases hs : nextAbove 0 slots with
  | none => have := nextAbove_none hs u mem o ho; omega
  | some m =>
    obtain ⟨h0, ⟨v, hv, r, hr, he⟩, least⟩ := nextAbove_some hs
    have below := least u mem o ho (by omega)
    have above := hmin v hv r hr (by omega)
    exact congrArg some (by omega)

end Held

theorem Part.readRecord_some {p : Part} {n j : Nat} {u : Slot} {o : Opening} (hs : slotOf n p.tlg.slots = some j)
    (hu : p.tlg.slots[j]? = some u) (ho : u.record = some o) :
    p.readRecord n = p.respond (.okRecord (recordBytes u.state o u.closing) ((nextAbove n p.tlg.slots).getD 0)) := by
  have slot : p.slot j = u := by
    unfold Part.slot
    rw [List.getD_eq_getElem?_getD, hu]
    rfl
  unfold Part.readRecord
  simp only [hs, slot, ho]

/-- The number of the next record in ring order: 0 where no record is above, else the least above (R138). -/
theorem nextAbove_getD (n : Nat) (slots : List Slot) :
    let m := (nextAbove n slots).getD 0
    (m = 0 → ∀ v ∈ slots, ∀ r, v.record = some r → r.sequence ≤ n)
    ∧ (m ≠ 0 → n < m ∧ (∃ v ∈ slots, ∃ r, v.record = some r ∧ r.sequence = m)
        ∧ ∀ v ∈ slots, ∀ r, v.record = some r → n < r.sequence → m ≤ r.sequence) := by
  cases hs : nextAbove n slots with
  | none => exact ⟨fun _ => nextAbove_none hs, fun hm => absurd rfl hm⟩
  | some m =>
    have found := nextAbove_some hs
    exact ⟨fun hm => absurd (hm ▸ found.1) (Nat.not_lt_zero n), fun _ => found⟩

/-! ## The release mark (R131, R139) -/

theorem withoutOldestCheckpoint_append {r : WriteReq} {front back : List WriteReq} (hf : ∀ a ∈ front, a.isCheckpoint = false)
    (hr : r.isCheckpoint = true) : withoutOldestCheckpoint (front ++ r :: back) = some (front ++ back) := by
  induction front with
  | nil => exact if_pos hr
  | cons a front ih =>
    obtain ⟨ha, hrest⟩ := List.forall_mem_cons.mp hf
    rw [List.cons_append, withoutOldestCheckpoint, if_neg (by simp [ha]), ih hrest]
    rfl

section Join

variable {t : Tlg} {r : WriteReq}

/-- A request takes the place of the first of its kind. -/
theorem Tlg.join_replaces {q : WriteReq} {front back : List WriteReq} (hqueue : t.queue = front ++ q :: back)
    (hq : q.kind = r.kind) (hf : ∀ a ∈ front, a.kind ≠ r.kind) : t.join r = { t with queue := front ++ r :: back } := by
  unfold Tlg.join
  rw [if_pos ((t.waits_iff _).mpr ⟨q, by simp [hqueue], hq⟩), hqueue, replaceWaiting_split hq hf]

variable (hnone : ∀ a ∈ t.queue, a.kind ≠ r.kind)
include hnone

theorem Tlg.join_appends : t.join r = t.append r :=
  if_neg fun hw => by
    obtain ⟨a, ha, hk⟩ := (t.waits_iff _).mp hw
    exact hnone a ha hk

theorem Tlg.join_room (hl : t.queue.length < 8) : t.join r = { t with queue := t.queue ++ [r] } :=
  (Tlg.join_appends hnone).trans (if_pos hl)

/-- At a full queue the oldest checkpoint gives way (R131). -/
theorem Tlg.join_full {c : WriteReq} {front back : List WriteReq} (hl : t.queue.length = 8) (hqueue : t.queue = front ++ c :: back)
    (hc : c.isCheckpoint = true) (hf : ∀ a ∈ front, a.isCheckpoint = false) :
    t.join r = { t with queue := front ++ back ++ [r], ckptDisplaced := bump max16 t.ckptDisplaced } := by
  rw [Tlg.join_appends hnone]
  unfold Tlg.append
  rw [if_neg (by omega), hqueue, withoutOldestCheckpoint_append hf hc]

end Join

/-! ## RELEASE (R139) -/

theorem allHoses_any (f : HoseId → Bool) : allHoses.any f = true ↔ ∃ h, f h = true :=
  List.any_eq_true.trans ⟨fun ⟨h, _, hf⟩ => ⟨h, hf⟩, fun ⟨h, hf⟩ => ⟨h, mem_allHoses h, hf⟩⟩

theorem Part.holdsSlot_iff (p : Part) (i : Nat) :
    p.holdsSlot i = true ↔ ∃ h x, (p.hose h).context = some x ∧ x.slot = i := by
  unfold Part.holdsSlot
  simp only [allHoses_any, Option.any_eq_true, beq_iff_eq]

/-- What the release of records answers: the slots, the count, and the last number freed. -/
def Part.released (p : Part) (limit : Nat) : List Slot × Nat × Nat :=
  releaseLoop limit p.alc.shift p.holdsSlot p.tlg.slots.length p.tlg.slots 0 0

/-- The log after a RELEASE: the slots, and the mark where one is queued. -/
def Part.releasedLog (p : Part) (limit : Nat) : Tlg :=
  let t := { p.tlg with slots := (p.released limit).1 }
  if (p.released limit).2.1 = 0 ∨ p.pins.powerFail = true then t else t.join (.mark (p.released limit).2.2)

theorem Part.releaseTo_eq (p : Part) (limit : Nat) :
    p.releaseTo limit = (p.setTlg (p.releasedLog limit)).respond (.okReleased (p.released limit).2.1) := by
  show Part.respond (if (p.released limit).2.1 = 0 then _ else Part.queueMark _ _) _ = _
  unfold Part.releasedLog Part.queueMark
  by_cases hc : (p.released limit).2.1 = 0
  · rw [if_pos hc, if_pos (.inl hc)]
    rfl
  · cases hp : p.pins.powerFail
    · rw [if_neg hc, if_neg (by simp [hp]), if_neg (by simp [hc])]
      rfl
    · rw [if_neg hc, if_pos (by exact hp), if_pos (.inr rfl)]
      rfl

theorem Part.slots_releasedLog (p : Part) (limit : Nat) : (p.releasedLog limit).slots = (p.released limit).1 := by
  unfold Part.releasedLog
  dsimp only
  split
  · rfl
  · exact Tlg.slots_join _ _

/-- A RELEASE that frees no record changes nothing of the log. -/
theorem Part.releasedLog_none {p : Part} {limit : Nat} (hr : p.released limit = (p.tlg.slots, 0, 0)) : p.releasedLog limit = p.tlg := by
  unfold Part.releasedLog
  rw [hr]
  exact if_pos (.inl rfl)

/-- No mark is queued under the power-fail warning (07 R133). -/
theorem Part.releasedLog_powerFail {p : Part} (limit : Nat) (hp : p.pins.powerFail = true) :
    p.releasedLog limit = { p.tlg with slots := (p.released limit).1 } := if_pos (.inr hp)

/-- The last number freed is queued as the mark. -/
theorem Part.releasedLog_mark {p : Part} {limit : Nat} (hc : (p.released limit).2.1 ≠ 0) (hp : p.pins.powerFail = false) :
    p.releasedLog limit = ({ p.tlg with slots := (p.released limit).1 } : Tlg).join (.mark (p.released limit).2.2) :=
  if_neg (by simp [hc, hp])

theorem exec_release_number {s : State} {limit : Nat} (free : s.part.LineFree) (hl : limit ≤ 4294967295) :
    exec (.release (some limit)) s = s.goesTo ((s.part.setTlg (s.part.releasedLog limit)).respond
      (.okReleased (s.part.released limit).2.1)) := by
  rw [← Part.releaseTo_eq]
  refine congrArg s.goesTo ((free.request _).trans ?_)
  unfold Part.releaseRequest sequenceField
  simp only [if_pos (show limit ≤ max32 from hl)]

/-- Settles O43: READLOG by the slot that the number is first found in and the least number above it; RELEASE by what the loop frees
and by how its mark joins the write queue. -/
theorem readAndRelease : Obligations.ReadAndRelease := by
  refine ⟨fun s free => ⟨fun n hl h1 hn => ?_, fun hz => ?_, fun n j u o h1 hu ho hn hfirst => ?_⟩, fun s limit free hl => ?_⟩
  · rw [exec_readlog_number free h1 hl, Part.readRecord_none hn]
  · refine exec_readlog_empty free ?_
    cases hs : nextAbove 0 s.part.tlg.slots with
    | none => rfl
    | some m =>
      obtain ⟨h0, ⟨v, hv, r, hr, he⟩, -⟩ := nextAbove_some hs
      have := hz v hv r hr
      omega
  · have answer := Part.readRecord_some (slotOf_first hu ho hn hfirst) hu ho
    exact ⟨_, fun hl => answer ▸ exec_readlog_number free h1 hl,
      fun hmin => answer ▸ exec_readlog_oldest free (nextAbove_oldest hu ho hn h1 hmin), nextAbove_getD n s.part.tlg.slots⟩
  · have spec := releaseLoop_spec limit s.part.alc.shift s.part.holdsSlot s.part.tlg.slots.length s.part.tlg.slots 0 0
      List.countP_le_length
    rw [show releaseLoop limit s.part.alc.shift s.part.holdsSlot s.part.tlg.slots.length s.part.tlg.slots 0 0 =
      s.part.released limit from rfl] at spec
    obtain ⟨freed, nodup, mem, length, slots, count, none, last⟩ := spec
    rw [Nat.zero_add] at count
    refine ⟨_, freed, exec_release_number free hl, by rw [count]; rfl, nodup, mem, s.part.holdsSlot_iff, ?_⟩
    dsimp only [Part.tlg_respond, Part.tlg_setTlg]
    rw [Part.slots_releasedLog]
    refine ⟨length, slots, fun hnil => ?_, fun _ hp => s.part.releasedLog_powerFail limit hp,
      fun i u o hi hu ho hmax hp => ?_, rfl⟩
    · rw [Part.releasedLog_none (none hnil), count, hnil]
      rfl
    · have some_freed : freed ≠ [] := List.ne_nil_of_mem hi
      obtain ⟨⟨j, hj, v, r, hv, hr, he⟩, greatest⟩ := last some_freed
      have mark : (s.part.released limit).2.2 = o.sequence :=
        Nat.le_antisymm (he ▸ hmax j v r hj hv hr) (greatest i hi u o hu ho)
      rw [Part.releasedLog_mark (by rw [count]; exact fun hc => some_freed (List.length_eq_zero_iff.mp hc)) hp, mark]
      have room := Tlg.join_room (t := { s.part.tlg with slots := (s.part.released limit).1 }) (r := .mark o.sequence)
      have full := Tlg.join_full (t := { s.part.tlg with slots := (s.part.released limit).1 }) (r := .mark o.sequence)
      exact ⟨fun front n back hqueue hf => Tlg.join_replaces hqueue rfl hf,
        fun hnone => ⟨room hnone, fun front c back hlen hqueue hc hf => full hnone hlen hqueue hc hf⟩⟩

end Sys2Proof.Machine
end

section
/-! O33: lifts, identification at a lift, hangs and STOP by the state of the hose (06 R103, R117; 02 R28, R30). -/

namespace Sys2Proof.Machine

open Sys2Proof

/-! ## Changes of one hose -/

theorem Part.modHose_modHose (p : Part) (h : HoseId) (f g : Hose → Hose) :
    (p.modHose h f).modHose h g = p.modHose h fun u => g (f u) := by
  unfold Part.modHose
  rw [Part.setHose_setHose, Part.hose_setHose_same]

theorem Part.modHose_self {p : Part} {h : HoseId} {f : Hose → Hose} (hf : f (p.hose h) = p.hose h) : p.modHose h f = p := by
  unfold Part.modHose
  rw [hf]
  cases h <;> rfl

/-- A cause without a flag adds nothing to a fault set (06 R109). -/
theorem Part.addFaults_none (p : Part) (h : HoseId) : p.addFaults h {} = p := by
  unfold Part.addFaults Part.modContext
  refine Part.modHose_self ?_
  simp only [FaultSet.union_none, Option.map_id']

/-- With nothing to arbitrate, an event that leaves the flow of its hose as it was ends as it is. -/
theorem Part.Quiet.settle_modHose {b : Part} (hb : b.Quiet) {h : HoseId} {f : Hose → Hose}
    (hf : (f (b.hose h)).begun = true → (b.hose h).begun = true) (hm : (f (b.hose h)).meter.boundary = (b.hose h).meter.boundary) :
    settle b (b.modHose h f) = b.modHose h f :=
  hb.settle_one h rfl rfl (fun _ hk => Part.hose_modHose_ne _ _ hk) (by rw [Part.hose_modHose_same]; exact hf)
    (by rw [Part.hose_modHose_same]; exact hm.le)

/-! ## Lifts (R103) -/

/-- A hose lifted in IDLE, before it takes an identification. -/
def Part.liftedOff (p : Part) (h : HoseId) : Part :=
  (p.nozzleAt h .offHook).modHose h fun u => { u with nozzle := .offHook, dsc := .lifted }

/-- A lift that is a change of position, after the start sequence (R102, R103). -/
theorem exec_nozzleLift_taken {s : State} {h : HoseId} (hrun : s.part.cfl.stage = .running)
    (hon : (s.part.hose h).nozzle = .onHook) :
    exec (.nozzleLift h) s = s.goesTo (settle (s.part.nozzleAt h .offHook) ((s.part.nozzleAt h .offHook).lift h)) :=
  congrArg s.goesTo (if_pos (c := (s.part.nozzleAt h .offHook).cfl.stage = .running
    ∧ ((s.part.nozzleAt h .offHook).hose h).nozzle = .onHook) ⟨hrun, hon⟩)

section Lift

variable {p : Part} {h : HoseId}

/-- Outside IDLE a lift moves the nozzle alone. -/
theorem Part.lift_elsewhere (hd : (p.hose h).dsc ≠ .idle) :
    p.lift h = p.modHose h fun u => { u with nozzle := .offHook } := by
  unfold Part.lift
  rw [if_neg hd]
  refine Part.modHose_congr ?_
  rw [if_neg hd]

variable (hd : (p.hose h).dsc = .idle)
include hd

theorem Part.lift_untagged (ht : (p.hose h).reader.readTag = none) :
    p.lift h = p.modHose h fun u => { u with nozzle := .offHook, dsc := .lifted } := by
  unfold Part.lift
  simp only [if_pos hd, ht]
  refine Part.modHose_congr ?_
  rw [if_pos hd]

/-- With a tag read a lift in IDLE is an identification (02 R28). -/
theorem Part.lift_tagged {code : TagCode} (ht : (p.hose h).reader.readTag = some code) :
    (p.nozzleAt h .offHook).lift h = (p.liftedOff h).identify h .tag (p.lookupTag code) := by
  have idle : ((p.nozzleAt h .offHook).hose h).dsc = .idle := hd
  have tag : ((p.nozzleAt h .offHook).hose h).reader.readTag = some code := ht
  have lifts : ((p.nozzleAt h .offHook).modHose h fun u =>
      { u with nozzle := .offHook, dsc := if u.dsc = .idle then .lifted else u.dsc }) = p.liftedOff h := by
    refine Part.modHose_congr ?_
    rw [if_pos idle]
  unfold Part.lift
  simp only [if_pos idle, tag, lifts]
  rfl

end Lift

/-! ### Identification at a lift (02 R28, R30) -/

theorem Part.hose_liftedOff_same (p : Part) (h : HoseId) :
    (p.liftedOff h).hose h = { p.hose h with nozzle := .offHook, dsc := .lifted } := Part.hose_modHose_same ..

theorem Part.hose_liftedOff_ne (p : Part) {h k : HoseId} (hk : k ≠ h) : (p.liftedOff h).hose k = p.hose k :=
  Part.hose_modHose_ne _ _ hk

/-- A lift leaves the terms of an identification as they are: the hose had and has nothing to draw (03 R54). -/
theorem Part.terms_liftedOff {p : Part} {h : HoseId} (hd : (p.hose h).dsc = .idle) (st : HoseSettings) (m : MachineRow) :
    (p.liftedOff h).terms h st m = p.terms h st m := by
  have shell (k : HoseId) : (p.liftedOff h).hose k =
      { p.hose k with nozzle := ((p.liftedOff h).hose k).nozzle, dsc := ((p.liftedOff h).hose k).dsc } := by
    by_cases hk : k = h
    · subst hk
      rw [Part.hose_liftedOff_same]
    · rw [Part.hose_liftedOff_ne p hk]
  have valves k : ((p.liftedOff h).hose k).valves = (p.hose k).valves := by rw [shell]
  have claim k : ((p.liftedOff h).hose k).claim = (p.hose k).claim := by rw [shell]
  have context k : ((p.liftedOff h).hose k).context = (p.hose k).context := by rw [shell]
  have standing k : ((p.liftedOff h).hose k).standing = (p.hose k).standing := by rw [shell]
  have fillable k : ((p.liftedOff h).hose k).dsc.fillable = (p.hose k).dsc.fillable := by
    by_cases hk : k = h
    · subst hk
      rw [Part.hose_liftedOff_same, hd]
      rfl
    · rw [Part.hose_liftedOff_ne p hk]
  have holds : (p.liftedOff h).holdsClaim = p.holdsClaim := by
    funext pick k
    unfold Part.holdsClaim
    rw [claim]
  have unmetered : (p.liftedOff h).unmetered = p.unmetered := by
    funext c k
    unfold Part.unmetered
    simp only [context, fillable, valves]
  have reserved : (p.liftedOff h).ownReserved = p.ownReserved := by
    funext hoses pick
    unfold Part.ownReserved
    simp only [holds, valves]
  unfold Part.terms Part.requestedTerm Part.machineTerm Part.accountTerm Part.stockTerm
  rw [standing, reserved, unmetered]
  rfl

section Identified

variable {s : State} {h : HoseId} {code : TagCode} (hrun : s.part.cfl.stage = .running)
  (hon : (s.part.hose h).nozzle = .onHook) (hd : (s.part.hose h).dsc = .idle) (ht : (s.part.hose h).reader.readTag = some code)
include hrun hon hd ht

theorem exec_nozzleLift_identified : exec (.nozzleLift h) s = s.goesTo (settle (s.part.nozzleAt h .offHook)
    ((s.part.liftedOff h).identify h .tag (s.part.lookupTag code))) := by
  rw [exec_nozzleLift_taken hrun hon, Part.lift_tagged hd ht]

variable (quiet : s.part.Quiet)
include quiet

/-- An identification that is refused leaves the hose in LIFTED, and is told (03 R53, R55). -/
theorem exec_nozzleLift_refused {c : Code}
    (hc : (s.part.liftedOff h).identify h .tag (s.part.lookupTag code) = (s.part.liftedOff h).event (.refused h c)) :
    exec (.nozzleLift h) s = s.goesTo ((s.part.liftedOff h).event (.refused h c)) := by
  have quietNow : (s.part.nozzleAt h .offHook).Quiet := quiet.of_pumps rfl
  rw [exec_nozzleLift_identified hrun hon hd ht, hc, quietNow.settle_one (q := (s.part.liftedOff h).event _) h rfl
    rfl (fun k hk => s.part.hose_liftedOff_ne hk)]
  · rw [Part.hose_event, Part.hose_liftedOff_same]
    exact nofun
  · rw [Part.hose_event, Part.hose_liftedOff_same]
    exact le_rfl

variable {i slot : Nat} {st : HoseSettings} {m : MachineRow} (hf : s.part.lookupTag code = some i)
  (hm : s.part.machines[i]? = some m) (hst : s.part.hoseSettings h = some st) (hslot : s.part.reservable = some slot)
  (hc : s.part.refusalOf h .tag (some i) = none)
include hf hm hst hslot hc

theorem exec_nozzleLift_small (hl : (s.part.terms h st m).least < 200) :
    exec (.nozzleLift h) s = s.goesTo ((s.part.liftedOff h).event (.refused h (s.part.terms h st m).refusal)) := by
  have terms := Part.terms_liftedOff hd st m
  have passes : (s.part.liftedOff h).refusalOf h .tag (some i) = none := hc
  have settings : (s.part.liftedOff h).hoseSettings h = some st := hst
  have row : (s.part.liftedOff h).machines[i]? = some m := hm
  have free_slot : (s.part.liftedOff h).reservable = some slot := hslot
  refine exec_nozzleLift_refused hrun hon hd ht quiet ?_
  rw [hf, Part.identify_small passes settings row free_slot (by rw [terms]; exact hl), terms]

/-- From 200 cL on, where the entry calls for a claim (03 R56). -/
theorem exec_nozzleLift_claimed (hl : 200 ≤ (s.part.terms h st m).least) (hn : s.part.needsClaim m.entry = true) :
    exec (.nozzleLift h) s =
      s.goesTo ((s.part.liftedOff h).authorise h st .tag i m slot (s.part.terms h st m).least.toNat) := by
  have quietNow : (s.part.nozzleAt h .offHook).Quiet := quiet.of_pumps rfl
  have terms := Part.terms_liftedOff hd st m
  have passes : (s.part.liftedOff h).refusalOf h .tag (some i) = none := hc
  have settings : (s.part.liftedOff h).hoseSettings h = some st := hst
  have row : (s.part.liftedOff h).machines[i]? = some m := hm
  have free_slot : (s.part.liftedOff h).reservable = some slot := hslot
  have needs : (s.part.liftedOff h).needsClaim m.entry = true := hn
  rw [exec_nozzleLift_identified hrun hon hd ht, hf,
    Part.identify_authorised passes settings row free_slot (by rw [terms]; exact hl), terms,
    Part.authorise_under_claim needs,
    quietNow.settle_authorised (p := s.part.liftedOff h) rfl rfl (fun _ hk => s.part.hose_liftedOff_ne hk)
      (by rw [Part.hose_liftedOff_same]; rfl)]

end Identified

/-! ## Hangs (R103) -/

section Hang

variable {p : Part} {h : HoseId}

/-- In LIFTED and DONE a hang leads to IDLE (R103, 02 R27, 05 R92). -/
theorem Part.hang_rest (hr : p.rsc.state ≠ .draining) (hd : (p.hose h).dsc = .lifted ∨ (p.hose h).dsc = .done) :
    p.hang h = p.modHose h fun u => u.hung.toIdle := by
  have rested : p.hang h = ((p.modHose h Hose.hung).modHose h Hose.toIdle).drainTest := by
    unfold Part.hang
    rcases hd with hd | hd <;> rw [hd] <;> rfl
  rw [rested, Part.drainTest_not_draining (by exact hr), Part.modHose_modHose]

/-- In STOPPING a hang leaves the state, and HUNG has no flag to add (06 R109, R111). -/
theorem Part.hang_stopping (hd : (p.hose h).dsc = .stopping) : p.hang h = p.modHose h Hose.hung := by
  have stopping : ((p.modHose h Hose.hung).hose h).dsc = .stopping := by
    rw [Part.hose_modHose_same]
    exact hd
  rw [Part.hang_takeCause (by rw [hd]; decide) (by rw [hd]; decide), Part.takeCause_late _ (.inl stopping)]
  exact Part.addFaults_none _ h

end Hang

/-! ## STOP (R117) -/

section Stop

variable {s : State} {h : HoseId} {field : Nat} (free : s.part.LineFree) (hh : hoseField (some field) = some h)
include free hh

theorem exec_stop_inactive (hd : (s.part.hose h).dsc = .idle ∨ (s.part.hose h).dsc = .lifted ∨ (s.part.hose h).dsc = .done) :
    exec (.stop (some field)) s = s.goesTo (s.part.refuse .notActive) := by
  refine congrArg s.goesTo ((free.request _).trans ?_)
  unfold Part.stopRequest
  rcases hd with hd | hd | hd <;> simp only [hh, hd]

theorem exec_stop_stopping (hd : (s.part.hose h).dsc = .stopping ∨ (s.part.hose h).dsc = .committing) :
    exec (.stop (some field)) s = s.goesTo (s.part.respond .ok) := by
  refine congrArg s.goesTo ((free.request _).trans ?_)
  unfold Part.stopRequest
  rcases hd with hd | hd <;> simp only [hh, hd]

end Stop

/-- Settles O33: the lifts and the hangs by the change they make of the hose, which leaves nothing to settle; the identification at a
lift by its outcome. -/
theorem nozzleChanges : Obligations.NozzleChanges := by
  refine ⟨?_, ?_, fun s h field free hh => ⟨exec_stop_inactive free hh, exec_stop_stopping free hh⟩, ?_⟩
  · intro s h hrun quiet hon p
    have quietNow : (s.part.nozzleAt h .offHook).Quiet := quiet.of_pumps rfl
    refine ⟨fun hd ht => ?_, fun hd => ?_⟩
    · refine (exec_nozzleLift_taken hrun hon).trans (congrArg s.goesTo ?_)
      rw [Part.lift_untagged (p := s.part.nozzleAt h .offHook) hd ht]
      exact quietNow.settle_modHose (fun hb => absurd hb Bool.false_ne_true) rfl
    · refine (exec_nozzleLift_taken hrun hon).trans (congrArg s.goesTo ?_)
      rw [Part.lift_elsewhere (p := s.part.nozzleAt h .offHook) hd]
      exact quietNow.settle_modHose id rfl
  · intro s h hrun quiet hoff hr hung p
    have quietNow : (s.part.nozzleAt h .onHook).Quiet := quiet.of_pumps rfl
    refine ⟨fun hd => ?_, fun hd => ?_⟩
    · refine (exec_nozzleHang_taken hrun hoff).trans (congrArg s.goesTo ?_)
      rw [Part.hang_rest (p := s.part.nozzleAt h .onHook) hr hd]
      exact quietNow.settle_modHose (fun hb => absurd hb Bool.false_ne_true) rfl
    · refine (exec_nozzleHang_taken hrun hoff).trans (congrArg s.goesTo ?_)
      rw [Part.hang_stopping (p := s.part.nozzleAt h .onHook) hd]
      exact quietNow.settle_modHose id rfl
  · intro s h code hrun quiet hon hd ht found lifted
    refine ⟨fun c hc => exec_nozzleLift_refused hrun hon hd ht quiet (Part.identify_refused (p := s.part.liftedOff h) hc), ?_⟩
    intro i slot st m hf hm hst hslot hc t
    have passes : s.part.refusalOf h .tag (some i) = none := hf ▸ hc
    refine ⟨fun hl => exec_nozzleLift_small hrun hon hd ht quiet hf hm hst hslot passes hl, fun hl hn hin => ?_⟩
    obtain ⟨-, ⟨x, own, position, machine, -, method, preset, claim, -, xslot, -⟩, others, -⟩ :=
      (s.part.liftedOff h).authorise_claimed h st .tag i m slot t.toNat hn hin
    refine ⟨_, exec_nozzleLift_claimed hrun hon hd ht quiet hf hm hst hslot passes hl hn, ?_⟩
    rw [own, Part.hose_liftedOff_same, Part.tag_of_lookupTag hf hm]
    exact ⟨rfl, rfl, rfl, rfl, rfl, ⟨x, rfl, position, machine, method, preset, xslot, claim⟩,
      fun k hk => (others k hk).trans (s.part.hose_liftedOff_ne hk)⟩

end Sys2Proof.Machine
end

section
/-! What a sample event makes of a compartment's figures (08 R142 to R146, R151, R152). -/

namespace Sys2Proof.Machine

open Sys2Proof

/-! ## Readings and histories (R142, R144) -/

theorem clampLevel_fst (x : Int) : (clampLevel x).1 = (max 0 (min 4000 x)).toNat := by
  unfold clampLevel clampReading
  dsimp only
  split
  · simp only; omega
  · split <;> simp only <;> omega

theorem clampTemp_fst (x : Int) : (clampTemp x).1 = max (-400) (min 850 x) := by
  unfold clampTemp clampReading
  split
  · simp only; omega
  · split <;> simp only <;> omega

theorem foldl_max_le_iff (l : List Nat) (a b : Nat) : l.foldl max a ≤ b ↔ a ≤ b ∧ ∀ x ∈ l, x ≤ b := by
  induction l generalizing a with
  | nil => simp
  | cons y l ih => rw [List.foldl_cons, ih, max_le_iff, List.forall_mem_cons, and_assoc]

theorem le_foldl_min_iff (l : List Nat) (a b : Nat) : b ≤ l.foldl min a ↔ b ≤ a ∧ ∀ x ∈ l, b ≤ x := by
  induction l generalizing a with
  | nil => simp
  | cons y l ih => rw [List.foldl_cons, ih, le_min_iff, List.forall_mem_cons, and_assoc]

theorem listMax_le_iff (l : List Nat) (b : Nat) : listMax l ≤ b ↔ ∀ x ∈ l, x ≤ b :=
  (foldl_max_le_iff l 0 b).trans (and_iff_right (Nat.zero_le b))

theorem le_listMin_iff {l : List Nat} (hl : l ≠ []) (b : Nat) : b ≤ listMin l ↔ ∀ x ∈ l, b ≤ x := by
  cases l with
  | nil => exact absurd rfl hl
  | cons y l => exact (le_foldl_min_iff l y b).trans List.forall_mem_cons.symm

/-- A history is settled when it is full and no two of its volumes lie further apart than the tolerance. -/
theorem settledOf_iff (st : CompSettings) (l : List Nat) :
    settledOf st l = true ↔ l.length = 8 ∧ ∀ x ∈ l, ∀ y ∈ l, x ≤ y + st.settleTolerance * 100 := by
  unfold settledOf
  rw [Bool.and_eq_true, decide_eq_true_eq, decide_eq_true_eq]
  refine and_congr_right fun hlen => ?_
  have nonempty : l ≠ [] := List.ne_nil_of_length_eq_add_one hlen
  calc listMax l - listMin l ≤ st.settleTolerance * 100
      ↔ listMax l ≤ st.settleTolerance * 100 + listMin l := Nat.sub_le_iff_le_add
    _ ↔ ∀ x ∈ l, x - st.settleTolerance * 100 ≤ listMin l := by
        rw [listMax_le_iff]
        exact forall₂_congr fun _ _ => by omega
    _ ↔ ∀ x ∈ l, ∀ y ∈ l, x ≤ y + st.settleTolerance * 100 :=
        forall₂_congr fun _ _ => (le_listMin_iff nonempty _).trans (forall₂_congr fun _ _ => by omega)

/-! ## The figures of one compartment -/

/-- The history of a compartment after a sample at a level (R142 to R144). -/
def Compartment.historyAt (st : CompSettings) (level : Int) (k : Compartment) : List Nat :=
  (k.history ++ [strapVolume st.strapping (max 0 (min 4000 level)).toNat]).drop (k.history.length + 1 - 8)

/-- The gauge of that history. -/
def Compartment.gaugeAt (st : CompSettings) (level : Int) (k : Compartment) : Nat :=
  (k.historyAt st level).sum / (k.historyAt st level).length

/-- What the opening of the book leaves alone (R146). -/
theorem Compartment.openBook_figures (k : Compartment) :
    k.openBook.history = k.history ∧ k.openBook.gauge = k.gauge ∧ k.openBook.settled = k.settled
      ∧ k.openBook.temperature = k.temperature ∧ k.openBook.samples = k.samples ∧ k.openBook.low = k.low := by
  unfold Compartment.openBook
  split <;> exact ⟨rfl, rfl, rfl, rfl, rfl, rfl⟩

theorem Compartment.openBook_set {k : Compartment} (hk : k.openingBook ≠ none) : k.openBook = k := by
  unfold Compartment.openBook
  rw [if_neg (by simp [hk])]

theorem Compartment.openBook_unsettled {k : Compartment} (hk : k.settled = false) : k.openBook = k := by
  unfold Compartment.openBook
  rw [if_neg (by simp [hk])]

theorem Compartment.openBook_first {k : Compartment} (hk : k.openingBook = none) (hs : k.settled = true) : k.openBook =
    { k with openingBook := k.gauge, book := ((k.gauge.getD 0 : Nat) : Int), receipts := 0, meteredOut := 0 } :=
  if_pos (by simp [hk, hs])

/-- The figures of a compartment after a sample, the opening book and the low-level state apart (R142 to R145). -/
theorem Compartment.sample_figures (st : CompSettings) (level temp : Int) (k : Compartment) :
    let w := k.sample st level temp
    w.history = k.historyAt st level ∧ w.gauge = some (k.gaugeAt st level)
      ∧ w.temperature = some (max (-400) (min 850 temp)) ∧ w.samples = min (k.samples + 1) 4294967295
      ∧ (w.settled = true ↔ (k.historyAt st level).length = 8
          ∧ ∀ x ∈ k.historyAt st level, ∀ y ∈ k.historyAt st level, x ≤ y + st.settleTolerance * 100)
      ∧ w.low = k.low := by
  have joined : joinHistory k.history (strapVolume st.strapping (clampLevel level).1) = k.historyAt st level := by
    rw [joinHistory_eq, clampLevel_fst]
    rfl
  have gauge := (k.gauge_sample st level temp).1
  unfold Compartment.sample at gauge ⊢
  dsimp only at gauge ⊢
  rw [joined] at gauge ⊢
  obtain ⟨history, -, settled, temperature, samples, low⟩ := Compartment.openBook_figures { k with
    history := k.historyAt st level, gauge := gaugeOf (k.historyAt st level), settled := settledOf st (k.historyAt st level)
    temperature := some (clampTemp temp).1, receiptCheck := k.receiptCheck.map (bump 8), samples := bump max32 k.samples
    clampedLevels := if (clampLevel level).2 then bump max16 k.clampedLevels else k.clampedLevels
    clampedTemps := if (clampTemp temp).2 then bump max16 k.clampedTemps else k.clampedTemps }
  refine ⟨history, gauge, temperature.trans ?_, samples, ?_, low⟩
  · rw [clampTemp_fst]
  · rw [settled]
    exact settledOf_iff st _

/-- The opening book at a sample event (R146). -/
theorem Compartment.sample_book (st : CompSettings) (level temp : Int) (k : Compartment) :
    let w := k.sample st level temp
    (k.openingBook ≠ none → w.openingBook = k.openingBook ∧ w.book = k.book)
      ∧ (k.openingBook = none → w.settled = false → w.openingBook = none)
      ∧ (k.openingBook = none → w.settled = true → w.openingBook = w.gauge ∧ w.book = ((w.gauge.getD 0 : Nat) : Int)
          ∧ w.receipts = 0 ∧ w.meteredOut = 0) := by
  unfold Compartment.sample
  dsimp only
  refine ⟨fun hk => ?_, fun hk hs => ?_, fun hk hs => ?_⟩
  · rw [Compartment.openBook_set (by exact hk)]
    exact ⟨rfl, rfl⟩
  · rw [(Compartment.openBook_figures _).2.2.1] at hs
    rw [Compartment.openBook_unsettled hs]
    exact hk
  · rw [(Compartment.openBook_figures _).2.2.1] at hs
    rw [Compartment.openBook_first (by exact hk) hs]
    exact ⟨rfl, rfl, rfl, rfl⟩

/-! ## The low-level test (R151, R152) -/

/-- The low-level state after a test. -/
def Compartment.lowAfter (st : CompSettings) (k : Compartment) : Bool :=
  match k.gauge with
  | none => k.low
  | some g => if k.low then decide (g ≤ st.cutOff * 100 + st.capacity * 5) else decide (g ≤ st.cutOff * 100)

section LowTest

variable {p : Part} {c : CompId} {cs : CompSettings} {g : Nat}

theorem Part.lowTest_ungauged (hg : (p.comp c).gauge = none) : p.lowTest c cs = p := by
  unfold Part.lowTest
  rw [hg]

variable (hg : (p.comp c).gauge = some g)
include hg

/-- The entry into LOW. -/
theorem Part.lowTest_enters (hl : (p.comp c).low = false) (h : g ≤ cs.cutOff * 100) :
    p.lowTest c cs = ((p.modComp c fun k => { k with low := true }).stopLow c).event (.low c true) := by
  unfold Part.lowTest
  simp only [hg, hl, Bool.false_eq_true, if_false, if_pos h]

theorem Part.lowTest_stays_out (hl : (p.comp c).low = false) (h : cs.cutOff * 100 < g) : p.lowTest c cs = p := by
  unfold Part.lowTest
  simp only [hg, hl, Bool.false_eq_true, if_false, if_neg (Nat.not_le.mpr h)]

theorem Part.lowTest_stays_in (hl : (p.comp c).low = true) (h : g ≤ cs.cutOff * 100 + cs.capacity * 5) : p.lowTest c cs = p := by
  unfold Part.lowTest
  simp only [hg, hl, if_true, if_neg (Nat.not_lt.mpr h)]

/-- The leaving of LOW. -/
theorem Part.lowTest_leaves (hl : (p.comp c).low = true) (h : cs.cutOff * 100 + cs.capacity * 5 < g) :
    p.lowTest c cs = (p.modComp c fun k => { k with low := false }).event (.low c false) := by
  unfold Part.lowTest
  simp only [hg, hl, if_true, if_pos h]

end LowTest

theorem Part.comp_of_inv {p q : Part} (hq : q.inv = p.inv) (c : CompId) : q.comp c = p.comp c :=
  congrArg (fun i : Inv => i.comps.get c) hq

theorem Part.comp_modComp_same (p : Part) (c : CompId) (f : Compartment → Compartment) : (p.modComp c f).comp c = f (p.comp c) :=
  ByComp.get_set_same ..

theorem Part.comp_modComp_ne (p : Part) {c d : CompId} (f : Compartment → Compartment) (hd : d ≠ c) :
    (p.modComp c f).comp d = p.comp d := ByComp.get_set_ne _ _ hd

/-- Of its compartment the test changes the low-level state alone. -/
theorem Part.comp_lowTest (p : Part) (c : CompId) (cs : CompSettings) :
    (p.lowTest c cs).comp c = { p.comp c with low := (p.comp c).lowAfter cs } := by
  have kept (low : Bool) (hl : (p.comp c).low = low) : p.comp c = { p.comp c with low := low } := by rw [← hl]
  unfold Compartment.lowAfter
  cases hg : (p.comp c).gauge with
  | none => rw [Part.lowTest_ungauged hg]
  | some g =>
    cases hl : (p.comp c).low
    · by_cases h : g ≤ cs.cutOff * 100
      · rw [Part.lowTest_enters hg hl h]
        rw [Part.comp_of_inv ((Part.inv_event _ _).trans (Part.stays_stopLow _ c).inv_eq), Part.comp_modComp_same]
        simp [h]
      · rw [Part.lowTest_stays_out hg hl (Nat.not_le.mp h)]
        simpa [h] using kept false hl
    · by_cases h : g ≤ cs.cutOff * 100 + cs.capacity * 5
      · rw [Part.lowTest_stays_in hg hl h]
        simpa [h] using kept true hl
      · rw [Part.lowTest_leaves hg hl (Nat.not_le.mp h)]
        rw [Part.comp_of_inv (Part.inv_event _ _), Part.comp_modComp_same]
        simp [h]

end Sys2Proof.Machine
end

section
/-! O44: the sample event (08 R142 to R146, R151, R152; 09 R156, R157). -/

namespace Sys2Proof.Machine

open Sys2Proof

/-! ## What the parts of the event leave alone -/

/-- What a sample event leaves of the part beyond the compartments, the hoses and the restock coordinator. -/
def Part.sampleFrame (p : Part) : Timer × Timer × List MachineRow × List Totals × Pins × Cfl × Nat :=
  (p.inv.sampleTimer, p.inv.stockTimer, p.machines, p.totals, p.pins, p.cfl, p.now)

theorem Stays.sampleFrame_eq {free : Prop} {p q : Part} (hq : Stays free p q) : q.sampleFrame = p.sampleFrame := by
  unfold Part.sampleFrame
  rw [hq.inv_eq, hq.machines_eq, hq.totals_eq, hq.pins_eq, hq.cfl_eq, hq.now_eq]

theorem Part.stays_handTemperatures (p : Part) : Stays True p p.handTemperatures := by
  refine Stays.refl.foldHoses _ _ fun r h hr => ?_
  split
  · exact hr.modMeter h _
  · exact hr

theorem Part.sampleFrame_lowTest (p : Part) (c : CompId) (cs : CompSettings) : (p.lowTest c cs).sampleFrame = p.sampleFrame := by
  unfold Part.lowTest
  split
  · rfl
  · split
    · split <;> rfl
    · split
      · exact (Part.stays_stopLow (p.modComp c fun k => { k with low := true }) c).sampleFrame_eq
      · rfl

theorem Part.sampleFrame_recordVariance (p : Part) (c : CompId) : (p.recordVariance c).sampleFrame = p.sampleFrame :=
  ((Stays.refl (free := True)).wholeRecord c _ _).sampleFrame_eq

theorem Part.sampleFrame_varianceTest (p : Part) (c : CompId) (cs : CompSettings) (magnitude : Nat) :
    (p.varianceTest c cs magnitude).sampleFrame = p.sampleFrame := by
  unfold Part.varianceTest
  split
  · split <;> rfl
  · split
    · exact p.sampleFrame_recordVariance c
    · rfl

theorem Part.sampleFrame_stockTests (p : Part) (c : CompId) (cs : CompSettings) : (p.stockTests c cs).sampleFrame = p.sampleFrame := by
  unfold Part.stockTests
  dsimp only
  split
  · split
    · split
      · exact Part.sampleFrame_recordVariance _ c
      · exact Part.sampleFrame_varianceTest _ c cs _
    · exact Part.sampleFrame_varianceTest _ c cs _
  · rfl

theorem Part.stays_enterDraining (p : Part) : Stays True p p.enterDraining := Stays.refl.enterDraining

theorem Part.sampleFrame_restockTrigger (p : Part) (st : Settings) : (p.restockTrigger st).sampleFrame = p.sampleFrame := by
  unfold Part.restockTrigger
  split
  · dsimp only
    split
    · exact (Part.stays_enterDraining _).sampleFrame_eq
    · rfl
  · rfl

/-! ## Figures that the stock tests change (R149, R150) -/

/-- The figures of a compartment that the stock tests leave alone. -/
def Compartment.gauged (k : Compartment) : Compartment := { k with latched := false, difference := none, receiptCheck := none }

theorem Part.gauged_modComp (p : Part) (c : CompId) {f : Compartment → Compartment} (hf : ∀ k, (f k).gauged = k.gauged) (d : CompId) :
    ((p.modComp c f).comp d).gauged = (p.comp d).gauged := by
  by_cases hd : d = c
  · subst hd
    rw [Part.comp_modComp_same, hf]
  · rw [Part.comp_modComp_ne _ _ hd]

theorem Part.gauged_recordVariance (p : Part) (c d : CompId) : ((p.recordVariance c).comp d).gauged = (p.comp d).gauged := by
  unfold Part.recordVariance
  dsimp only
  refine (Part.gauged_modComp _ c (by exact fun _ => rfl) d).trans ?_
  exact congrArg Compartment.gauged (Part.comp_of_inv ((Stays.refl (free := True)).wholeRecord c _ _).inv_eq d)

theorem Part.gauged_varianceTest (p : Part) (c : CompId) (cs : CompSettings) (magnitude : Nat) (d : CompId) :
    ((p.varianceTest c cs magnitude).comp d).gauged = (p.comp d).gauged := by
  unfold Part.varianceTest
  split
  · split
    · exact p.gauged_modComp c (by exact fun _ => rfl) d
    · rfl
  · split
    · exact p.gauged_recordVariance c d
    · rfl

theorem Part.gauged_stockTests (p : Part) (c : CompId) (cs : CompSettings) (d : CompId) :
    ((p.stockTests c cs).comp d).gauged = (p.comp d).gauged := by
  have found := p.gauged_modComp c (f := fun k => { k with difference := some (((p.comp c).gauge.getD 0 : Nat) - (p.comp c).book) })
    (fun _ => rfl) d
  unfold Part.stockTests
  dsimp only
  split
  · split
    · have checked := (Part.gauged_modComp _ c (f := fun k => { k with receiptCheck := none }) (fun _ => rfl) d).trans found
      split
      · exact (Part.gauged_recordVariance _ c d).trans checked
      · exact (Part.gauged_varianceTest _ c cs _ d).trans checked
    · exact (Part.gauged_varianceTest _ c cs _ d).trans found
  · rfl

/-! ## The parts of the event -/

/-- The part with both readings taken, before the temperatures are handed over (R142 to R146). -/
def Part.gaugesRead (p : Part) (r : Readings) (st : Settings) : Part :=
  (p.modComp .a (Compartment.sample st.comps.a r.levelA r.tempA)).modComp .b (Compartment.sample st.comps.b r.levelB r.tempB)

theorem Part.comp_gaugesRead (p : Part) (r : Readings) (st : Settings) (c : CompId) : (p.gaugesRead r st).comp c =
    (p.comp c).sample (st.comps.get c) (levelOf r c) (tempOf r c) := by cases c <;> rfl

/-- The part when the low-level tests have been made. -/
def Part.lowTested (p : Part) (r : Readings) (st : Settings) : Part :=
  ((p.gaugesRead r st).handTemperatures.lowTest .a st.comps.a).lowTest .b st.comps.b

theorem Part.takeSample_eq {p : Part} {st : Settings} (hs : p.cfl.settings = some st) (r : Readings) :
    p.takeSample r = p.lowTested r st := by
  unfold Part.takeSample
  rw [hs]
  rfl

theorem Part.testSample_eq {p : Part} {st : Settings} (hs : p.cfl.settings = some st) :
    p.testSample = ((p.stockTests .a st.comps.a).stockTests .b st.comps.b).restockTrigger st := by
  unfold Part.testSample
  rw [hs]

section Event

variable (p : Part) (r : Readings) (st : Settings)

theorem Part.comp_handed (c : CompId) : (p.gaugesRead r st).handTemperatures.comp c =
    (p.comp c).sample (st.comps.get c) (levelOf r c) (tempOf r c) :=
  (Part.comp_of_inv (Part.stays_handTemperatures _).inv_eq c).trans (p.comp_gaugesRead r st c)

theorem Part.comp_lowTested (c : CompId) :
    let k := (p.comp c).sample (st.comps.get c) (levelOf r c) (tempOf r c)
    (p.lowTested r st).comp c = { k with low := k.lowAfter (st.comps.get c) } := by
  unfold Part.lowTested
  cases c
  · rw [(Part.lowTest_others _ .b _).2.2 .a (by decide), Part.comp_lowTest, Part.comp_handed]
    rfl
  · rw [Part.comp_lowTest, (Part.lowTest_others _ .a _).2.2 .b (by decide), Part.comp_handed]
    rfl

theorem Part.sampleFrame_lowTested : (p.lowTested r st).sampleFrame = p.sampleFrame := by
  unfold Part.lowTested
  rw [Part.sampleFrame_lowTest, Part.sampleFrame_lowTest, (Part.stays_handTemperatures _).sampleFrame_eq]
  rfl

end Event

end Sys2Proof.Machine
end

section
/-! O44: what a sample event does to the hoses (08 R151, 06 R109 to R113) and to the restock coordinator (09 R156, R157). -/

namespace Sys2Proof.Machine

open Sys2Proof

/-! ## The command -/

/-- The part at the sample, its timer started anew (R142). -/
def Part.sampleStarted (p : Part) (due : Nat) : Part := (p.reach due).setInv { p.inv with sampleTimer := some (due + 200000) }

/-- The part when the hoses' part of the event is over. -/
def Part.sampleSettled (p : Part) (r : Readings) (st : Settings) (due : Nat) : Part :=
  settleHoses (p.reach due) ((p.sampleStarted due).lowTested r st)

/-- The part when both compartments' stock tests have been made. -/
def Part.stockTested (p : Part) (st : Settings) : Part := (p.stockTests .a st.comps.a).stockTests .b st.comps.b

/-- The part after the event. -/
def Part.afterSample (p : Part) (r : Readings) (st : Settings) (due : Nat) : Part :=
  finish (p.reach due) (((p.sampleSettled r st due).stockTested st).restockTrigger st)

section Sampled

variable (p : Part) (r : Readings) (st : Settings) (due : Nat)

theorem Part.stays_settleHoses (b : Part) : Stays True p (settleHoses b p) := Stays.refl.settleHoses (fun _ => trivial) b

theorem Part.sampleFrame_sampleSettled : (p.sampleSettled r st due).sampleFrame =
    (some (due + 200000), p.inv.stockTimer, p.machines, p.totals, p.pins, p.cfl, max p.now due) := by
  unfold Part.sampleSettled
  rw [(Part.stays_settleHoses _ _).sampleFrame_eq, Part.sampleFrame_lowTested]
  rfl

theorem Part.sampleFrame_stockTested : (p.stockTested st).sampleFrame = p.sampleFrame := by
  unfold Part.stockTested
  rw [Part.sampleFrame_stockTests, Part.sampleFrame_stockTests]

theorem Part.cfl_stockTested_sampleSettled : ((p.sampleSettled r st due).stockTested st).cfl = p.cfl := by
  have frame := (Part.sampleFrame_stockTested (p.sampleSettled r st due) st).trans (p.sampleFrame_sampleSettled r st due)
  exact congrArg (·.2.2.2.2.2.1) frame

theorem Part.now_stockTested_sampleSettled : ((p.sampleSettled r st due).stockTested st).now = max p.now due := by
  have frame := (Part.sampleFrame_stockTested (p.sampleSettled r st due) st).trans (p.sampleFrame_sampleSettled r st due)
  exact congrArg (·.2.2.2.2.2.2) frame

theorem Part.stays_finish (b : Part) : Stays True p (finish b p) := Stays.refl.finish b

theorem Part.sampleFrame_afterSample : (p.afterSample r st due).sampleFrame =
    (some (due + 200000), p.inv.stockTimer, p.machines, p.totals, p.pins, p.cfl, max p.now due) := by
  unfold Part.afterSample
  rw [(Part.stays_finish _ _).sampleFrame_eq, Part.sampleFrame_restockTrigger, Part.sampleFrame_stockTested,
    Part.sampleFrame_sampleSettled]

end Sampled

theorem exec_sampleEvent_due {s : State} {st : Settings} {due : Nat} (hd : s.part.inv.sampleTimer = some due)
    (hs : s.part.cfl.settings = some st) (r : Readings) :
    exec (.sampleEvent r) s = s.goesTo (s.part.afterSample r st due) := by
  have settled : (s.part.sampleSettled r st due).cfl.settings = some st := by
    have frame := s.part.sampleFrame_sampleSettled r st due
    rw [show (s.part.sampleSettled r st due).cfl = s.part.cfl from congrArg (·.2.2.2.2.2.1) frame, hs]
  have first : (s.part.sampleStarted due).takeSample r = (s.part.sampleStarted due).lowTested r st :=
    Part.takeSample_eq (p := s.part.sampleStarted due) hs r
  show execSampleEvent r s = _
  unfold execSampleEvent
  rw [exec_next, hd]
  show State.goesTo s (finish _ (settleHoses _ ((s.part.sampleStarted due).takeSample r)).testSample) = _
  rw [first, show settleHoses (s.part.reach due) ((s.part.sampleStarted due).lowTested r st) = s.part.sampleSettled r st due from rfl,
    Part.testSample_eq settled]
  rfl

/-! ## The figures -/

theorem Part.inv_afterSample {p : Part} {st : Settings} (hs : p.cfl.settings = some st) (r : Readings) (due : Nat) :
    (p.afterSample r st due).inv = ((p.sampleSettled r st due).stockTested st).inv := by
  have settings : ((p.sampleSettled r st due).stockTested st).cfl.settings = some st := by
    rw [Part.cfl_stockTested_sampleSettled, hs]
  exact (Part.stays_finish _ _).inv_eq.trans (Part.restockTrigger_spec _ st settings).2.1

/-- The figures that the stock tests leave alone are those of the reading and the low-level test. -/
theorem Part.gauged_afterSample {p : Part} {st : Settings} (hs : p.cfl.settings = some st) (r : Readings) (due : Nat) (c : CompId) :
    let k := (p.comp c).sample (st.comps.get c) (levelOf r c) (tempOf r c)
    ((p.afterSample r st due).comp c).gauged = ({ k with low := k.lowAfter (st.comps.get c) } : Compartment).gauged := by
  intro k
  rw [Part.comp_of_inv (Part.inv_afterSample hs r due)]
  unfold Part.stockTested
  rw [Part.gauged_stockTests, Part.gauged_stockTests]
  unfold Part.sampleSettled
  rw [Part.comp_of_inv (Part.stays_settleHoses _ _).inv_eq, Part.comp_lowTested]
  rfl

/-! ## The hoses -/

theorem Part.hose_lowTest_elsewhere {p : Part} {h : HoseId} {c : CompId} (hc : p.hoseComp h ≠ some c) (cs : CompSettings) :
    (p.lowTest c cs).hose h = p.hose h := by
  cases hg : (p.comp c).gauge with
  | none => rw [Part.lowTest_ungauged hg]
  | some g => exact (p.hose_lowTest c cs h g hg).1 (.inl hc)

section Hoses

variable {p : Part} {r : Readings} {st : Settings} {h : HoseId} {c : CompId}

/-- The hand-over of temperatures finds and leaves a hose as it was, but for its meter (R145). -/
theorem Part.hose_handed (p : Part) (r : Readings) (st : Settings) (h : HoseId) :
    ∃ meter, (p.gaugesRead r st).handTemperatures.hose h = { p.hose h with meter := meter } := by
  obtain ⟨-, -, -, shell⟩ := (p.gaugesRead r st).handTemperatures_others
  exact ⟨_, congrArg (fun u : Hose => { u with meter := ((p.gaugesRead r st).handTemperatures.hose h).meter }) (shell h)⟩

theorem Part.hoseComp_of_cfl {p q : Part} (hq : q.cfl = p.cfl) (h : HoseId) : q.hoseComp h = p.hoseComp h := by
  unfold Part.hoseComp
  rw [Part.hoseSettings_of_cfl hq]

theorem Part.cfl_handed (p : Part) (r : Readings) (st : Settings) : (p.gaugesRead r st).handTemperatures.cfl = p.cfl :=
  (Part.stays_handTemperatures _).cfl_eq

variable (hc : p.hoseComp h = some c)
include hc

/-- A hose is reached by the test of its own compartment alone: the part in which that test finds it and the part in which it
leaves it. -/
theorem Part.hose_lowTested_own : ∃ (q : Part) (meter : Meter), q.hose h = { p.hose h with meter := meter }
    ∧ q.hoseComp h = some c ∧ q.comp c = (p.comp c).sample (st.comps.get c) (levelOf r c) (tempOf r c)
    ∧ (p.lowTested r st).hose h = (q.lowTest c (st.comps.get c)).hose h := by
  obtain ⟨meter, own⟩ := p.hose_handed r st h
  have handed : (p.gaugesRead r st).handTemperatures.hoseComp h = some c := (Part.hoseComp_of_cfl (p.cfl_handed r st) h).trans hc
  have tested := (p.gaugesRead r st).handTemperatures.lowTest_others .a st.comps.a
  have after : ((p.gaugesRead r st).handTemperatures.lowTest .a st.comps.a).hoseComp h = some c :=
    (Part.hoseComp_of_cfl tested.1 h).trans handed
  cases c
  · exact ⟨_, meter, own, handed, p.comp_handed r st .a, Part.hose_lowTest_elsewhere (by rw [after]; decide) _⟩
  · exact ⟨_, meter, (Part.hose_lowTest_elsewhere (by rw [handed]; decide) _).trans own, after,
      (tested.2.2 .b (by decide)).trans (p.comp_handed r st .b), rfl⟩

/-- At the entry into LOW a hose of the compartment takes LOW_STOCK (R151). -/
theorem Part.hose_lowTested_enters (hl : (p.comp c).low = false)
    (hg : (p.comp c).gaugeAt (st.comps.get c) (levelOf r c) ≤ (st.comps.get c).cutOff * 100) :
    ∃ (q : Part) (meter : Meter), q.hose h = { p.hose h with meter := meter }
      ∧ (p.lowTested r st).hose h = (q.takeCause h .lowStock).hose h := by
  obtain ⟨q, meter, own, comp, figures, after⟩ := Part.hose_lowTested_own (r := r) (st := st) hc
  obtain ⟨-, gauge, -, -, -, low⟩ := (p.comp c).sample_figures (st.comps.get c) (levelOf r c) (tempOf r c)
  rw [← figures] at gauge low
  obtain ⟨q', found, taken⟩ := (q.hose_lowTest c (st.comps.get c) h _ gauge).2 comp (low.trans hl) hg
  exact ⟨q', meter, found.trans own, after.trans taken⟩

/-- Elsewhere the test leaves the hose alone. -/
theorem Part.hose_lowTested_stays
    (hg : (p.comp c).low = true ∨ (st.comps.get c).cutOff * 100 < (p.comp c).gaugeAt (st.comps.get c) (levelOf r c)) :
    ∃ meter, (p.lowTested r st).hose h = { p.hose h with meter := meter } := by
  obtain ⟨q, meter, own, comp, figures, after⟩ := Part.hose_lowTested_own (r := r) (st := st) hc
  obtain ⟨-, gauge, -, -, -, low⟩ := (p.comp c).sample_figures (st.comps.get c) (levelOf r c) (tempOf r c)
  rw [← figures] at gauge low
  have unchanged := (q.hose_lowTest c (st.comps.get c) h _ gauge).1 (.inr (hg.imp_left low.trans))
  exact ⟨meter, (after.trans unchanged).trans own⟩

end Hoses

/-- The stock tests and the trigger leave the hoses alone. -/
theorem Part.hose_afterSample {p : Part} {st : Settings} (hs : p.cfl.settings = some st) (r : Readings) (due : Nat) (h : HoseId) :
    (p.afterSample r st due).hose h = (p.sampleSettled r st due).hose h := by
  have settings : ((p.sampleSettled r st due).stockTested st).cfl.settings = some st := by
    rw [Part.cfl_stockTested_sampleSettled, hs]
  have hoses : (((p.sampleSettled r st due).stockTested st).restockTrigger st).hoses = (p.sampleSettled r st due).hoses := by
    rw [(Part.restockTrigger_spec _ st settings).1]
    unfold Part.stockTested
    rw [(Part.stockTests_others _ .b _).1, (Part.stockTests_others _ .a _).1]
  unfold Part.afterSample
  rw [Part.hose_finish]
  exact congrArg (Quad.get · h) hoses

section Taken

variable {p : Part} {r : Readings} {st : Settings} {due : Nat} {h : HoseId} (hs : p.cfl.settings = some st)
include hs

/-- A hose that starts no flow at the event is left as the low-level tests left it. -/
theorem Part.hose_afterSample_settled (hd : (((p.sampleStarted due).lowTested r st).hose h).dsc ≠ .awaitPump)
    (hb : (((p.sampleStarted due).lowTested r st).hose h).begun = true → (p.hose h).begun = true) :
    (p.afterSample r st due).hose h = ((p.sampleStarted due).lowTested r st).hose h :=
  (Part.hose_afterSample hs r due h).trans (hose_settleHoses (p.reach due) _ hd hb)

variable {c : CompId} {x : Context} (hc : p.hoseComp h = some c)
include hc

/-- A hose whose compartment does not enter LOW is left alone. -/
theorem Part.hose_afterSample_stays (hd : (p.hose h).dsc ≠ .awaitPump)
    (hg : (p.comp c).low = true ∨ (st.comps.get c).cutOff * 100 < (p.comp c).gaugeAt (st.comps.get c) (levelOf r c)) :
    ∃ meter, (p.afterSample r st due).hose h = { p.hose h with meter := meter } := by
  obtain ⟨meter, left⟩ : ∃ meter, ((p.sampleStarted due).lowTested r st).hose h = { p.hose h with meter := meter } :=
    Part.hose_lowTested_stays (p := p.sampleStarted due) hc hg
  refine ⟨meter, (Part.hose_afterSample_settled hs ?_ ?_).trans left⟩
  · rw [left]
    exact hd
  · rw [left, Hose.begun_of_dsc rfl]
    exact id

variable (hx : (p.hose h).context = some x) (hl : (p.comp c).low = false)
  (hg : (p.comp c).gaugeAt (st.comps.get c) (levelOf r c) ≤ (st.comps.get c).cutOff * 100)
include hx hl hg

/-- The entry into LOW stops a flowing hose with LOW_STOCK (06 R110, 05 R86). -/
theorem Part.hose_afterSample_flowing (hd : (p.hose h).dsc = .flowing) :
    let u := (p.afterSample r st due).hose h
    u.dsc = .stopping ∧ u.context = some { x with cause := some .lowStock }
      ∧ ((p.hose h).valves.phase.flowing = true → (p.hose h).valves.trim.switch = .opened → (p.hose h).valves.trim.latch = false →
          u.valves.phase = .shutting) := by
  obtain ⟨q, meter, own, taken⟩ : ∃ (q : Part) (meter : Meter), q.hose h = { p.hose h with meter := meter }
      ∧ ((p.sampleStarted due).lowTested r st).hose h = (q.takeCause h .lowStock).hose h :=
    Part.hose_lowTested_enters (p := p.sampleStarted due) hc hl hg
  have flowing : (q.hose h).dsc = .flowing := by rw [own]; exact hd
  obtain ⟨dsc, context⟩ := q.takeCause_flowing flowing .lowStock
  have left : (p.afterSample r st due).hose h = (q.takeCause h .lowStock).hose h :=
    (Part.hose_afterSample_settled hs (by rw [taken, dsc]; decide) fun _ => Hose.begun_flowing hd).trans taken
  dsimp only
  rw [left]
  refine ⟨dsc, context.trans ?_, fun hflow hopen hlatch => ?_⟩
  · rw [own]
    exact congrArg _ hx
  · rw [q.takeCause_open .lowStock flowing (by rw [own]; exact hflow) (by rw [own]; exact hopen) (by rw [own]; exact hlatch),
      Part.hose_modHose_same]
    rfl

/-- Before flow it undoes the transaction (06 R113). -/
theorem Part.hose_afterSample_before (hd : (p.hose h).dsc = .authorising ∨ (p.hose h).dsc = .awaitPump) :
    let u := (p.afterSample r st due).hose h
    u.context = none ∧ u.claim = none ∧ u.summary = some { sequence := none, cause := some .lowStock, faults := x.faults }
      ∧ u.dsc = restState (p.hose h).nozzle := by
  obtain ⟨q, meter, own, taken⟩ : ∃ (q : Part) (meter : Meter), q.hose h = { p.hose h with meter := meter }
      ∧ ((p.sampleStarted due).lowTested r st).hose h = (q.takeCause h .lowStock).hose h :=
    Part.hose_lowTested_enters (p := p.sampleStarted due) hc hl hg
  have context : (q.hose h).context = some x := by rw [own]; exact hx
  rw [q.takeCause_before (by rw [own]; exact hd)] at taken
  have stopped := q.hose_stopBeforeFlow h .lowStock context
  have rests : (restState (q.hose h).nozzle) ≠ .awaitPump := by
    unfold restState
    split <;> decide
  have left : (p.afterSample r st due).hose h = (q.stopBeforeFlow h .lowStock).hose h :=
    (Part.hose_afterSample_settled hs (by rw [taken, stopped]; exact rests)
      (by rw [taken, Part.begun_stopBeforeFlow context]; exact nofun)).trans taken
  dsimp only
  rw [left, stopped, own]
  exact ⟨rfl, rfl, rfl, rfl⟩

/-- In STOPPING and COMMITTING LOW_STOCK has no flag to add (06 R109, R111). -/
theorem Part.hose_afterSample_late (hd : (p.hose h).dsc = .stopping ∨ (p.hose h).dsc = .committing) :
    ((p.afterSample r st due).hose h).dsc = (p.hose h).dsc ∧ ((p.afterSample r st due).hose h).context = some x := by
  obtain ⟨q, meter, own, taken⟩ : ∃ (q : Part) (meter : Meter), q.hose h = { p.hose h with meter := meter }
      ∧ ((p.sampleStarted due).lowTested r st).hose h = (q.takeCause h .lowStock).hose h :=
    Part.hose_lowTested_enters (p := p.sampleStarted due) hc hl hg
  rw [q.takeCause_late (by rw [own]; exact hd), show Cause.flag .lowStock = {} from rfl, Part.addFaults_none, own] at taken
  have left := Part.hose_afterSample_settled (due := due) hs (by rw [taken]; rcases hd with hd | hd <;> rw [hd] <;> decide)
    (by rw [taken, Hose.begun_of_dsc rfl]; exact id)
  rw [left, taken]
  exact ⟨rfl, hx⟩

end Taken

end Sys2Proof.Machine
end

section
/-! O44, assembled: the restock coordinator at a sample event (09 R156, R157), and the event as a whole. -/

namespace Sys2Proof.Machine

open Sys2Proof

/-! ## The restock coordinator -/

theorem rearms_iff (k : Compartment) (cs : CompSettings) :
    rearms k cs = true ↔ k.openingBook ≠ none ∧ ((cs.restockLevel * 100 : Nat) : Int) ≤ k.book := by
  unfold rearms
  rw [Bool.and_eq_true, Option.isSome_iff_ne_none, decide_eq_true_eq]

theorem wantsRestock_iff (k : Compartment) (cs : CompSettings) : wantsRestock k cs = true ↔
    cs.autoRequest = true ∧ k.openingBook ≠ none ∧ k.book < ((cs.restockLevel * 100 : Nat) : Int) := by
  unfold wantsRestock
  rw [Bool.and_eq_true, Bool.and_eq_true, Option.isSome_iff_ne_none, decide_eq_true_eq, and_assoc]

theorem drained_iff (p : Part) : drained p = true ↔ ∀ h, (p.hose h).dsc = .idle ∨ (p.hose h).dsc = .lifted := by
  unfold drained
  rw [allHoses_all]
  exact forall_congr' fun h => by rw [Bool.or_eq_true, beq_iff_eq, beq_iff_eq]

theorem rsc_finish (b p : Part) : (finish b p).rsc = p.rsc := by
  unfold finish
  split
  · rfl
  · exact (SameRest.of_offerStock p).rsc

section Restock

variable {p : Part} {st : Settings} (hs : p.cfl.settings = some st) (r : Readings) (due : Nat)

/-- Up to the trigger the event leaves the arming flags alone and neither enters nor leaves NORMAL. -/
theorem RestockKept.of_stockTested (p : Part) (r : Readings) (st : Settings) (due : Nat) :
    RestockKept p ((p.sampleSettled r st due).stockTested st) := by
  have read : RestockKept p ((p.sampleStarted due).gaugesRead r st).handTemperatures :=
    (RestockKept.of_rsc (p := p) (q := p.sampleStarted due) rfl).trans
      (RestockKept.of_handTemperatures (p.sampleStarted due) (Compartment.sample st.comps.a r.levelA r.tempA)
        (Compartment.sample st.comps.b r.levelB r.tempB))
  have tested : RestockKept p ((p.sampleStarted due).lowTested r st) :=
    (read.trans (RestockKept.of_lowTest _ .a st.comps.a)).trans (RestockKept.of_lowTest _ .b st.comps.b)
  refine (tested.trans (RestockKept.of_settleHoses (p.reach due) _)).step ?_
  exact (RestockKept.rsc_stockTests _ _ _).trans (RestockKept.rsc_stockTests _ _ _)

/-- The arming flag of a compartment that the trigger examines. -/
def Part.armedFor (p : Part) (q : Part) (st : Settings) (c : CompId) : Prop :=
  p.rsc.armed.get c = true ∨ (q.comp c).openingBook ≠ none ∧ (((st.comps.get c).restockLevel * 100 : Nat) : Int) ≤ (q.comp c).book

/-- A compartment that is low for the trigger. -/
def Part.lowFor (q : Part) (st : Settings) (c : CompId) : Prop :=
  (st.comps.get c).autoRequest = true ∧ (q.comp c).openingBook ≠ none
    ∧ (q.comp c).book < (((st.comps.get c).restockLevel * 100 : Nat) : Int)

/-- The condition under which the trigger fires. -/
def Part.fires (p : Part) (q : Part) (st : Settings) : Prop :=
  p.rsc.state = .normal ∧ ∃ c, p.armedFor q st c ∧ q.lowFor st c

include hs

/-- At a depot the trigger makes no examination. -/
theorem Part.armed_afterSample_depot (hr : st.identity.role = .depot) : (p.afterSample r st due).rsc.armed = p.rsc.armed := by
  have settings : ((p.sampleSettled r st due).stockTested st).cfl.settings = some st := by
    rw [Part.cfl_stockTested_sampleSettled, hs]
  obtain ⟨-, -, depot, -⟩ := Part.restockTrigger_spec _ st settings
  have unchanged : (p.afterSample r st due).rsc = ((p.sampleSettled r st due).stockTested st).rsc :=
    (rsc_finish _ _).trans (depot hr)
  rw [unchanged, (RestockKept.of_stockTested p r st due).armed]

/-- The examination at a bowser (R156). -/
theorem Part.restock_afterSample (hr : st.identity.role = .bowser) :
    let q := p.afterSample r st due
    (p.fires q st → (∀ c, q.rsc.armed.get c = true ↔ p.armedFor q st c ∧ ¬ q.lowFor st c)
        ∧ ((∀ h, (q.hose h).dsc = .idle ∨ (q.hose h).dsc = .lifted) →
          q.rsc.state = .requested ∧ q.rsc.repeatTimer = some (max p.now due + 1000000))
        ∧ (∀ h, (q.hose h).dsc ≠ .idle → (q.hose h).dsc ≠ .lifted → q.rsc.state = .draining))
      ∧ (¬ p.fires q st → (∀ c, q.rsc.armed.get c = true ↔ p.armedFor q st c) ∧ (p.rsc.state = .normal → q.rsc.state = .normal)) := by
  intro q
  generalize hX : (p.sampleSettled r st due).stockTested st = X
  have settings : X.cfl.settings = some st := by rw [← hX, Part.cfl_stockTested_sampleSettled, hs]
  have kept : RestockKept p X := hX ▸ RestockKept.of_stockTested p r st due
  have clock : X.now = max p.now due := by rw [← hX, Part.now_stockTested_sampleSettled]
  have figures (c : CompId) : q.comp c = X.comp c := hX ▸ Part.comp_of_inv (Part.inv_afterSample hs r due) c
  obtain ⟨hoses, -, -, bowser⟩ := Part.restockTrigger_spec X st settings
  have rsc : q.rsc = (X.restockTrigger st).rsc := hX ▸ rsc_finish _ _
  have hose (h : HoseId) : q.hose h = X.hose h := by
    show (finish (p.reach due) (((p.sampleSettled r st due).stockTested st).restockTrigger st)).hose h = _
    rw [Part.hose_finish, hX]
    exact congrArg (Quad.get · h) hoses
  have armed (c : CompId) : (X.rsc.armed.get c || rearms (X.comp c) (st.comps.get c)) = true ↔ p.armedFor q st c := by
    rw [Bool.or_eq_true, rearms_iff, kept.armed, ← figures]
    rfl
  have low (c : CompId) : wantsRestock (X.comp c) (st.comps.get c) = true ↔ q.lowFor st c := by
    rw [wantsRestock_iff, ← figures]
    rfl
  have fires : (X.rsc.state = .normal ∧ ∃ c, ((X.rsc.armed.get c || rearms (X.comp c) (st.comps.get c))
      && wantsRestock (X.comp c) (st.comps.get c)) = true) ↔ p.fires q st :=
    and_congr kept.normal (exists_congr fun c => by rw [Bool.and_eq_true, armed, low])
  have atRest : drained X = true ↔ ∀ h, (q.hose h).dsc = .idle ∨ (q.hose h).dsc = .lifted :=
    (drained_iff X).trans (forall_congr' fun h => by rw [hose])
  obtain ⟨fired, quiet⟩ := bowser hr
  rw [rsc, ← clock]
  refine ⟨fun hf => ?_, fun hf => ?_⟩
  · obtain ⟨flags, requested, draining⟩ := fired (fires.mpr hf)
    refine ⟨fun c => ?_, fun rest => requested (atRest.mpr rest), fun h hi hl => draining ?_⟩
    · rw [flags, Bool.and_eq_true, armed, Bool.not_eq_true', ← Bool.not_eq_true, low]
    · exact Bool.eq_false_iff.mpr fun hd => (atRest.mp hd h).elim hi hl
  · obtain ⟨flags, state⟩ := quiet (mt fires.mp hf)
    exact ⟨fun c => by rw [flags, armed], fun hn => state.trans (kept.normal.mpr hn)⟩

end Restock

/-! ## The clauses of the statement -/

/-- The low-level state after a test, where there is a gauge. -/
theorem Compartment.lowAfter_gauged {k : Compartment} {g : Nat} (hg : k.gauge = some g) (cs : CompSettings) :
    (k.low = false → k.lowAfter cs = decide (g ≤ cs.cutOff * 100))
      ∧ (k.low = true → k.lowAfter cs = decide (g ≤ cs.cutOff * 100 + cs.capacity * 5)) := by
  unfold Compartment.lowAfter
  rw [hg]
  exact ⟨fun hl => if_neg (by rw [hl]; decide), fun hl => if_pos hl⟩

/-- The figures of a compartment after the event (R142 to R146, R151, R152). -/
theorem Part.figures_afterSample {p : Part} {st : Settings} (hs : p.cfl.settings = some st) (r : Readings) (due : Nat) (c : CompId) :
    let k := p.comp c
    let cs := st.comps.get c
    let history := k.historyAt cs (levelOf r c)
    let gauge := k.gaugeAt cs (levelOf r c)
    let w := (p.afterSample r st due).comp c
    w.history = history ∧ w.gauge = some gauge ∧ w.temperature = some (max (-400) (min 850 (tempOf r c)))
      ∧ w.samples = min (k.samples + 1) 4294967295
      ∧ (w.settled = true ↔ history.length = 8 ∧ ∀ x ∈ history, ∀ y ∈ history, x ≤ y + cs.settleTolerance * 100)
      ∧ (k.openingBook ≠ none → w.openingBook = k.openingBook ∧ w.book = k.book)
      ∧ (k.openingBook = none → w.settled = false → w.openingBook = none)
      ∧ (k.openingBook = none → w.settled = true → w.openingBook = some gauge ∧ w.book = gauge ∧ w.receipts = 0 ∧ w.meteredOut = 0)
      ∧ (k.low = false → w.low = decide (gauge ≤ cs.cutOff * 100))
      ∧ (k.low = true → w.low = decide (gauge ≤ cs.cutOff * 100 + cs.capacity * 5)) := by
  intro k cs history gauge w
  have kept := Part.gauged_afterSample hs r due c
  obtain ⟨hist, gauged, temp, samples, settled, low⟩ := k.sample_figures cs (levelOf r c) (tempOf r c)
  obtain ⟨opened, unsettled, first⟩ := k.sample_book cs (levelOf r c) (tempOf r c)
  obtain ⟨above, below⟩ := Compartment.lowAfter_gauged gauged cs
  have wSettled : w.settled = (k.sample cs (levelOf r c) (tempOf r c)).settled :=
    (congrArg Compartment.settled kept :)
  have wOpening : w.openingBook = (k.sample cs (levelOf r c) (tempOf r c)).openingBook :=
    (congrArg Compartment.openingBook kept :)
  have wBook : w.book = (k.sample cs (levelOf r c) (tempOf r c)).book :=
    (congrArg Compartment.book kept :)
  have wLow : w.low = (k.sample cs (levelOf r c) (tempOf r c)).lowAfter cs := (congrArg Compartment.low kept :)
  refine ⟨(congrArg Compartment.history kept).trans hist, (congrArg Compartment.gauge kept).trans gauged,
    (congrArg Compartment.temperature kept).trans temp, (congrArg Compartment.samples kept).trans samples, ?_, ?_, ?_, ?_, ?_, ?_⟩
  · rw [wSettled]
    exact settled
  · rw [wOpening, wBook]
    exact opened
  · rw [wOpening, wSettled]
    exact unsettled
  · rw [wSettled]
    intro hk hset
    obtain ⟨opening, book, receipts, metered⟩ := first hk hset
    rw [gauged] at opening book
    exact ⟨wOpening.trans opening, wBook.trans book, (congrArg Compartment.receipts kept).trans receipts,
      (congrArg Compartment.meteredOut kept).trans metered⟩
  · exact fun hl => wLow.trans (above (low.trans hl))
  · exact fun hl => wLow.trans (below (low.trans hl))

/-- With every hose of the compartment idle the entry into LOW stops nothing. -/
theorem Part.lowTest_enters_idle {p : Part} {c : CompId} {cs : CompSettings} {g : Nat} (hg : (p.comp c).gauge = some g)
    (hl : (p.comp c).low = false) (h : g ≤ cs.cutOff * 100)
    (hi : ∀ h, p.hoseComp h = some c → (p.hose h).dsc = .idle ∨ (p.hose h).dsc = .lifted ∨ (p.hose h).dsc = .done) :
    p.lowTest c cs = (p.modComp c fun k => { k with low := true }).event (.low c true) := by
  rw [Part.lowTest_enters hg hl h, Part.stopLow_idle (p.modComp c fun k => { k with low := true }) c hi]

/-- Settles O44: the event is cut at its low-level tests, the hoses' part and the stock tests, and each part's figures are those
that the next one leaves alone. -/
theorem sampleEvents : Obligations.SampleEvents := by
  unfold Obligations.SampleEvents
  refine ⟨fun s r st due hd hs => ⟨s.part.afterSample r st due, exec_sampleEvent_due hd hs r, ?_⟩,
    fun s r st due hd hs => ⟨s.part.afterSample r st due, exec_sampleEvent_due hd hs r, ?_, ?_⟩,
    fun p c cs => ⟨Part.lowTest_ungauged, fun g hg => ⟨fun hl h => ⟨Part.lowTest_enters hg hl h, Part.lowTest_enters_idle hg hl h⟩,
      Part.lowTest_stays_out hg, Part.lowTest_stays_in hg, Part.lowTest_leaves hg⟩⟩⟩
  case refine_1 =>
    have frame := s.part.sampleFrame_afterSample r st due
    exact ⟨congrArg (·.1) frame, congrArg (·.2.1) frame,
      congrArg (fun f => (f.2.2.1, f.2.2.2.1, f.2.2.2.2.1, f.2.2.2.2.2.1)) frame, Part.figures_afterSample hs r due⟩
  case refine_2 =>
    intro c h x hc hx
    refine ⟨fun hl hg => ⟨Part.hose_afterSample_flowing hs hc hx hl hg, fun before => ?_,
      Part.hose_afterSample_late hs hc hx hl hg⟩, fun hg hd => ?_⟩
    · obtain ⟨context, claim, summary, dsc⟩ := Part.hose_afterSample_before (due := due) hs hc hx hl hg before
      exact ⟨context, claim, summary, fun hook => dsc.trans (by rw [hook]; rfl), fun off => dsc.trans (by rw [off]; rfl)⟩
    · obtain ⟨meter, left⟩ := Part.hose_afterSample_stays (due := due) hs hc hd hg
      rw [left]
      exact ⟨rfl, hx⟩
  case refine_3 => exact ⟨Part.armed_afterSample_depot hs r due, Part.restock_afterSample hs r due⟩

end Sys2Proof.Machine
end

section
/-! O41 (07 R128, R132): the next write taken, what a write that has ended leaves in memory, and the write that follows it. -/

namespace Sys2Proof.Machine

open Sys2Proof

/-! ## The next write is taken -/

section Taking

variable {p : Part} {r w : WriteReq} {rest ws : List WriteReq} {c : CompId} {i : Nat}

theorem Part.takeWrite_inProgress (hw : p.tlg.writing ≠ none) : p.takeWrite = p := by
  obtain ⟨r, hr⟩ := Option.ne_none_iff_exists'.mp hw
  unfold Part.takeWrite
  rw [hr]

/-- Only a whole record's taking does more than move the oldest waiting request. -/
theorem Part.takeWrite_next (hw : p.tlg.writing = none) (hq : p.tlg.queue = r :: rest) (hr : ∀ c i, r ≠ .whole c i) :
    p.takeWrite = p.setTlg { p.tlg with writing := some r, queue := rest, writeTimer := some (p.now + 800) } := by
  unfold Part.takeWrite
  rw [hw, hq]
  cases r with
  | whole c i => exact absurd rfl (hr c i)
  | opening | closing | checkpoint | mark => rfl

theorem Part.takeWrite_whole (hw : p.tlg.writing = none) (hq : p.tlg.queue = .whole c i :: rest) :
    p.takeWrite = (p.setTlg
      { p.tlg with writing := some (.whole c i), queue := rest, writeTimer := some (p.now + 800) }).refill c := by
  unfold Part.takeWrite
  rw [hw, hq]
  rfl

theorem Part.refill_empty (hl : p.tlg.waitLists.get c = []) : p.refill c = p := by
  unfold Part.refill
  rw [hl]

theorem Tlg.append_room {t : Tlg} (hlen : t.queue.length < 8) (r : WriteReq) : t.append r = { t with queue := t.queue ++ [r] } :=
  if_pos hlen

theorem Part.refill_room (hl : p.tlg.waitLists.get c = w :: ws) (hlen : p.tlg.queue.length < 8) :
    p.refill c = p.setTlg { p.tlg with waitLists := p.tlg.waitLists.set c ws, queue := p.tlg.queue ++ [w] } := by
  unfold Part.refill
  rw [hl]
  exact congrArg p.setTlg (Tlg.append_room (t := { p.tlg with waitLists := p.tlg.waitLists.set c ws }) hlen w)

end Taking

/-! ## A write ends -/

section Ending

variable {p : Part} {r : WriteReq} {i : Nat} {u v : Slot} {o : Opening} {k : Closing}

/-- The log after any write: it is counted, and none is in progress (07 R128). -/
def Tlg.ended (t : Tlg) : Tlg := { t with writing := none, writeTimer := none, writes := min (t.writes + 1) 4294967295 }

theorem Part.endWrite_checkpoint (p : Part) (h : HoseId) (n g : Nat) :
    p.endWrite (.checkpoint h n g) = p.setTlg { p.tlg.ended with checkpoints := p.tlg.checkpoints.set h (.valid (n, g)) } := rfl

theorem Part.endWrite_mark (p : Part) (n : Nat) :
    p.endWrite (.mark n) = p.setTlg { p.tlg.ended with markArea := .valid n } := rfl

/-- A write whose memory is a slot leaves that slot `v`, and then has its effect. -/
theorem Part.endWrite_slot (hm : p.memoryWrite r = p.setTlg { p.tlg with slots := p.tlg.slots.set i v }) :
    p.endWrite r = (p.written i v).completed r := by
  unfold Part.endWrite
  rw [hm]
  rfl

variable (hu : p.tlg.slots[i]? = some u) (ho : u.opening = some o)
include hu ho

/-- An opening part alone has no effect beyond its memory. -/
theorem Part.endWrite_opening (h : HoseId) :
    p.endWrite (.opening h i false) = p.written i { u with nvOpening := .valid o } := by
  refine Part.endWrite_slot ?_
  unfold Part.memoryWrite Part.modSlot
  dsimp only
  rw [modify_of_getElem _ _ _ hu, ho]
  rfl

/-- A whole record has both its parts in memory, and its slot becomes CLOSED (07 R132). -/
theorem Part.endWrite_whole (hk : u.closing = some k) (c : CompId) :
    p.endWrite (.whole c i) = p.written i { u with state := .closed, nvOpening := .valid o, nvClosing := .valid k } := by
  have memory : p.memoryWrite (.whole c i) = p.setTlg
      { p.tlg with slots := p.tlg.slots.set i { u with nvOpening := .valid o, nvClosing := .valid k } } := by
    unfold Part.memoryWrite Part.modSlot
    dsimp only
    rw [modify_of_getElem _ _ _ hu, ho, hk]
    rfl
  exact (Part.endWrite_slot memory).trans (Part.closeSlot_written (List.getElem?_eq_some_iff.mp hu).1 _)

end Ending

/-! ## WRITE_COMPLETE where the write touches the log alone -/

section Completed

variable {s : State} {r : WriteReq} {due : Nat} {t : Tlg} (quiet : s.part.Quiet) (hw : s.part.tlg.writing = some r)
  (ht : s.part.tlg.writeTimer = some due) (he : (s.part.reach due).endWrite r = (s.part.reach due).setTlg t)
include quiet hw ht he

/-- The event settles nothing between the end of the write and the taking of the next. -/
theorem Part.Quiet.exec_writeComplete_log : exec .writeComplete s = s.goesTo ((s.part.reach due).setTlg t).takeWrite := by
  have settled : settle (s.part.reach due) ((s.part.reach due).setTlg t) = (s.part.reach due).setTlg t :=
    (quiet.of_pumps (q := (s.part.reach due).setTlg t) rfl).settle_hoses rfl rfl
  rw [exec_writeComplete s hw ht, he, settled]

/-- With nothing waiting the log stays without a write in progress. -/
theorem Part.Quiet.exec_writeComplete_last (hq : t.queue = []) :
    exec .writeComplete s = s.goesTo ((s.part.reach due).setTlg t) := by
  rw [quiet.exec_writeComplete_log hw ht he, Part.takeWrite_empty hq]

end Completed

/-- Settles O41: a write is taken where none is in progress, and the end of a write is its memory, its count and its effect, after
which the next is taken so. -/
theorem writes : Obligations.Writes := by
  unfold Obligations.Writes
  refine ⟨fun s => ⟨?_, ?_, ?_⟩, fun s r due quiet hw ht hq => ⟨?_, ?_, ?_, ?_⟩, fun s h n g due r rest quiet hw ht hq hr => ?_⟩
  case refine_1 => exact fun idle => congrArg s.goesTo (idle.elim Part.takeWrite_inProgress Part.takeWrite_empty)
  case refine_2 => exact fun r rest hw hq hr => congrArg s.goesTo (Part.takeWrite_next hw hq hr)
  case refine_3 =>
    exact fun c i rest hw hq => ⟨fun hl => congrArg s.goesTo ((Part.takeWrite_whole hw hq).trans (Part.refill_empty hl)),
      fun w ws hl hlen => congrArg s.goesTo ((Part.takeWrite_whole hw hq).trans (Part.refill_room hl hlen))⟩
  case refine_4 =>
    rintro h n g rfl
    exact quiet.exec_writeComplete_last hw ht (Part.endWrite_checkpoint _ h n g) hq
  case refine_5 =>
    rintro n rfl
    exact quiet.exec_writeComplete_last hw ht (Part.endWrite_mark _ n) hq
  case refine_6 =>
    rintro h i u o rfl hu ho
    exact quiet.exec_writeComplete_last hw ht (Part.endWrite_opening (p := s.part.reach due) hu ho h) hq
  case refine_7 =>
    rintro c i u o k rfl hu ho hk
    exact quiet.exec_writeComplete_last hw ht (Part.endWrite_whole (p := s.part.reach due) hu ho hk c) hq
  case refine_8 =>
    rw [quiet.exec_writeComplete_log hw ht (Part.endWrite_checkpoint _ h n g)]
    exact congrArg s.goesTo (Part.takeWrite_next (p := (s.part.reach due).setTlg _) rfl hq hr)

end Sys2Proof.Machine
end

section
/-! O45: the receipt check, the variance test and the STOCK of the timer (08 R149, R150, R153). -/

namespace Sys2Proof.Machine

open Sys2Proof

/-! ## Two changes of one compartment -/

theorem Part.modComp_congr {p : Part} {c : CompId} {f g : Compartment → Compartment} (h : f (p.comp c) = g (p.comp c)) :
    p.modComp c f = p.modComp c g := congrArg (fun k => p.setInv { p.inv with comps := p.inv.comps.set c k }) h

theorem Part.modComp_modComp (p : Part) (c : CompId) (f g : Compartment → Compartment) :
    (p.modComp c f).modComp c g = p.modComp c fun k => g (f k) := by cases c <;> rfl

theorem Part.modComp_unchanged {p : Part} {c : CompId} {f : Compartment → Compartment} (h : f (p.comp c) = p.comp c) :
    p.modComp c f = p := by
  rw [Part.modComp_congr (g := id) h]
  cases c <;> rfl

/-! ## A VARIANCE record (R149) -/

/-- A whole-record request touches the log alone (07 R132). -/
theorem Part.wholeRecord_shape (p : Part) (c : CompId) (o : OpeningFields) (k : ClosingFields) :
    ∃ t, p.wholeRecord c o k = p.setTlg t := by
  unfold Part.wholeRecord
  split
  · exact ⟨_, rfl⟩
  · split
    · exact ⟨_, rfl⟩
    · dsimp only
      split <;> exact ⟨_, rfl⟩

/-- The difference of a VARIANCE event, in litres. -/
def Compartment.varianceLitres (k : Compartment) : Int := (k.gaugeLitres : Int) - litres k.book

theorem Part.recordVariance_shape (p : Part) (c : CompId) : ∃ t, p.recordVariance c =
    ((p.setTlg t).event (.variance c (p.comp c).varianceLitres)).modComp c fun k => { k with latched := true } := by
  obtain ⟨t, recorded⟩ := p.wholeRecord_shape c (.variance c)
    (.variance (litres (p.comp c).book) (p.comp c).gaugeLitres (p.comp c).varianceLitres)
  refine ⟨t, ?_⟩
  rw [← recorded]
  rfl

/-- Beyond the log, a VARIANCE record sets the latch and offers its event. -/
theorem Part.recordVariance_spec (p : Part) (c : CompId) :
    let q := p.recordVariance c
    q.comp c = { p.comp c with latched := true } ∧ q.cnl = p.cnl.offer (.variance c (p.comp c).varianceLitres)
      ∧ (q.hoses, q.pumps, q.snc, q.alc, q.machines, q.rsc) = (p.hoses, p.pumps, p.snc, p.alc, p.machines, p.rsc) := by
  obtain ⟨t, recorded⟩ := p.recordVariance_shape c
  rw [recorded]
  exact ⟨Part.comp_modComp_same .., rfl, rfl⟩

/-! ## The variance test (R149) -/

section VarianceTest

variable {p : Part} {c : CompId} {st : CompSettings} {magnitude : Nat}

/-- A latched compartment keeps its latch while the difference is above half the limit. -/
theorem Part.varianceTest_latched (hl : (p.comp c).latched = true) : p.varianceTest c st magnitude =
    p.modComp c fun k => { k with latched := decide (st.varianceLimit * 50 < magnitude) } := by
  unfold Part.varianceTest
  rw [if_pos hl]
  by_cases near : magnitude ≤ st.varianceLimit * 50
  · rw [if_pos near, decide_eq_false (Nat.not_lt.mpr near)]
  · rw [if_neg near, decide_eq_true (Nat.not_le.mp near)]
    exact (Part.modComp_unchanged (by rw [← hl])).symm

theorem Part.varianceTest_within (hl : (p.comp c).latched = false) (hm : magnitude ≤ st.varianceLimit * 100) :
    p.varianceTest c st magnitude = p := by
  unfold Part.varianceTest
  rw [hl, if_neg Bool.false_ne_true, if_neg (Nat.not_lt.mpr hm)]

theorem Part.varianceTest_beyond (hl : (p.comp c).latched = false) (hm : st.varianceLimit * 100 < magnitude) :
    p.varianceTest c st magnitude = p.recordVariance c := by
  unfold Part.varianceTest
  rw [hl, if_neg Bool.false_ne_true, if_pos hm]

end VarianceTest

/-! ## The stock tests of a compartment (R149, R150) -/

/-- The latest difference, gauge less book. -/
def Compartment.variance (k : Compartment) : Int := ((k.gauge.getD 0 : Nat) : Int) - k.book

/-- A compartment with its latest difference found, and no longer with a receipt check that was due. -/
def Compartment.checked (k : Compartment) : Compartment :=
  { k with difference := some k.variance, receiptCheck := if k.receiptCheck = some 8 then none else k.receiptCheck }

theorem Compartment.checked_due {k : Compartment} (h : k.receiptCheck = some 8) :
    k.checked = { k with difference := some k.variance, receiptCheck := none } := by
  unfold Compartment.checked
  rw [if_pos h]

theorem Compartment.checked_not_due {k : Compartment} (h : k.receiptCheck ≠ some 8) :
    k.checked = { k with difference := some k.variance } := by
  unfold Compartment.checked
  rw [if_neg h]

/-- The condition under which the tests are made (R149). -/
def Part.testable (p : Part) (c : CompId) : Prop :=
  (p.comp c).openingBook ≠ none ∧ (p.comp c).settled = true
    ∧ ∀ h, p.hoseComp h = some c → (p.hose h).dsc ≠ .flowing ∧ (p.hose h).dsc ≠ .stopping

theorem Part.still_iff (p : Part) (c : CompId) : p.still c = true ↔
    ∀ h, p.hoseComp h = some c → (p.hose h).dsc ≠ .flowing ∧ (p.hose h).dsc ≠ .stopping := by
  unfold Part.still
  rw [allHoses_all]
  refine forall_congr' fun h => ?_
  simp only [Bool.or_eq_true, Bool.not_eq_true', Bool.or_eq_false_iff, beq_eq_false_iff_ne, ← imp_iff_not_or]

theorem Part.testable_iff (p : Part) (c : CompId) :
    ((p.comp c).openingBook.isSome && (p.comp c).settled && p.still c) = true ↔ p.testable c := by
  rw [Bool.and_eq_true, Bool.and_eq_true, Option.isSome_iff_ne_none, Part.still_iff, and_assoc]
  rfl

theorem Part.latched_checked (p : Part) (c : CompId) :
    ((p.modComp c Compartment.checked).comp c).latched = (p.comp c).latched := by
  rw [Part.comp_modComp_same]
  rfl

section StockTests

variable {p : Part} {c : CompId}

theorem Part.stockTests_untestable (h : ¬ p.testable c) (st : CompSettings) : p.stockTests c st = p := by
  unfold Part.stockTests
  exact if_neg (mt (p.testable_iff c).mp h)

variable (ready : p.testable c) (st : CompSettings)
include ready

/-- A receipt check that finds a difference above the limit records it whatever the latch; otherwise the variance test is made. -/
theorem Part.stockTests_testable : p.stockTests c st =
    if (p.comp c).receiptCheck = some 8 ∧ st.varianceLimit * 100 < (p.comp c).variance.natAbs then
      (p.modComp c Compartment.checked).recordVariance c
    else (p.modComp c Compartment.checked).varianceTest c st (p.comp c).variance.natAbs := by
  unfold Part.stockTests
  dsimp only
  rw [if_pos ((p.testable_iff c).mpr ready)]
  by_cases due : (p.comp c).receiptCheck = some 8
  · rw [if_pos due, Part.modComp_modComp, Part.modComp_congr (g := Compartment.checked) (Compartment.checked_due due).symm]
    simp only [due, true_and]
    rfl
  · rw [if_neg due, if_neg (fun both => due both.1),
      Part.modComp_congr (g := Compartment.checked) (Compartment.checked_not_due due).symm]
    rfl

/-- With the latch clear and the difference within the limit, the tests leave what the receipt check leaves. -/
theorem Part.stockTests_within (hl : (p.comp c).latched = false)
    (hm : (p.comp c).variance.natAbs ≤ st.varianceLimit * 100) : p.stockTests c st = p.modComp c Compartment.checked := by
  rw [Part.stockTests_testable ready, if_neg fun both => Nat.not_lt.mpr hm both.2]
  exact Part.varianceTest_within ((p.latched_checked c).trans hl) hm

/-- With the latch set and no receipt check due, the tests examine the latch alone. -/
theorem Part.stockTests_latched (hr : (p.comp c).receiptCheck ≠ some 8) (hl : (p.comp c).latched = true) :
    p.stockTests c st = p.modComp c fun k =>
      { k.checked with latched := decide (st.varianceLimit * 50 < (p.comp c).variance.natAbs) } := by
  rw [Part.stockTests_testable ready, if_neg fun both => hr both.1,
    Part.varianceTest_latched ((p.latched_checked c).trans hl), Part.modComp_modComp]

/-- A difference above the limit is recorded where the latch is clear or a receipt check is due. -/
theorem Part.stockTests_beyond (hm : st.varianceLimit * 100 < (p.comp c).variance.natAbs)
    (h : (p.comp c).latched = false ∨ (p.comp c).receiptCheck = some 8) :
    p.stockTests c st = (p.modComp c Compartment.checked).recordVariance c := by
  rw [Part.stockTests_testable ready]
  by_cases due : (p.comp c).receiptCheck = some 8
  · exact if_pos ⟨due, hm⟩
  · rw [if_neg fun both => due both.1]
    exact Part.varianceTest_beyond ((p.latched_checked c).trans (h.resolve_right due)) hm

end StockTests

/-! ## The STOCK notice and its timer (R153) -/

theorem stockFigures_eq (k : Compartment) (st : CompSettings) : stockFigures k st =
    { book := if k.openingBook = none then 0 else k.book.tdiv 100, gauge := (k.gauge.getD 0) / 100, capacity := st.capacity
      settled := if k.settled = true then 1 else 0 } := by
  unfold stockFigures
  cases k.openingBook <;> rfl

theorem exec_stockTimerExpiry {s : State} {due : Nat} (ht : s.part.inv.stockTimer = some due) : exec .stockTimerExpiry s =
    s.goesTo ((s.part.reach due).setInv { s.part.inv with stockTimer := some (due + 6000000) }).offerStock := by
  show execStockTimerExpiry s = _
  unfold execStockTimerExpiry
  rw [exec_next, ht]
  rfl

/-- Settles O45: the tests by the receipt check's count, the latch and the difference, each branch with what it leaves of the
compartment; and the timer's expiry with the notice of the moment. -/
theorem varianceAndStock : Obligations.VarianceAndStock := by
  unfold Obligations.VarianceAndStock
  refine ⟨fun p c st => ⟨?unready, ?within, ?latched, ?checked, ?beyond⟩, stockFigures_eq, fun s st due ht hs => ?timer⟩
  case unready => exact fun unready => Part.stockTests_untestable unready st
  case within =>
    exact fun ready hr hl hm =>
      (Part.stockTests_within ready st hl hm).trans (Part.modComp_congr (Compartment.checked_not_due hr))
  case latched =>
    intro ready hr hl
    rw [Part.stockTests_latched ready st hr hl]
    exact Part.modComp_congr (by rw [Compartment.checked_not_due hr]; rfl)
  case checked =>
    exact fun ready hr hl hm =>
      (Part.stockTests_within ready st hl hm).trans (Part.modComp_congr (Compartment.checked_due hr))
  case beyond =>
    intro ready hm h q
    have recorded : q = (p.modComp c Compartment.checked).recordVariance c := Part.stockTests_beyond ready st hm h
    obtain ⟨figures, event, frame⟩ := (p.modComp c Compartment.checked).recordVariance_spec c
    rw [Part.comp_modComp_same] at figures event
    rw [recorded]
    exact ⟨figures, event, frame⟩
  case timer =>
    exact (exec_stockTimerExpiry ht).trans (congrArg s.goesTo (Part.offerStock_of_settings (p := (s.part.reach due).setInv _) hs))

end Sys2Proof.Machine
end

section
/-! O46: RESTOCK, RESTOCK_CANCEL and RESTOCK_DONE by role and restock state (09 R156, R157, R160). -/

namespace Sys2Proof.Machine

open Sys2Proof

/-! ## The refusals that the depot's and the bowser's requests share -/

section RoleRefusal

variable {p : Part} {wanted : Role}

theorem Part.roleRefusal_fault (hf : p.cfl.load = .fault) : p.roleRefusal wanted = some .configFault := if_pos hf

theorem Part.roleRefusal_other (hf : p.cfl.load ≠ .fault) (hr : p.role ≠ some wanted) : p.roleRefusal wanted = some .wrongRole :=
  (if_neg hf).trans (if_pos hr)

theorem Part.roleRefusal_none (hf : p.cfl.load ≠ .fault) (hr : p.role = some wanted) : p.roleRefusal wanted = none :=
  (if_neg hf).trans (if_neg fun other => other hr)

end RoleRefusal

/-- The three requests of the bowser side answer a refusal by load or role alike (09 R156, R160). -/
theorem exec_restock_refused {s : State} {code : Code} (free : s.part.LineFree) (hc : s.part.roleRefusal .bowser = some code) :
    ∀ c ∈ [Instr.restock, .restockCancel, .restockDone], exec c s = s.goesTo (s.part.refuse code) := by
  have refused {act : Part → Part} (h : act s.part = s.part.refuse code) :
      nextPart (fun p => p.request act) s = s.goesTo (s.part.refuse code) := congrArg s.goesTo ((free.request act).trans h)
  simp only [List.forall_mem_cons, List.not_mem_nil, false_implies, implies_true, and_true]
  refine ⟨refused ?_, refused ?_, refused ?_⟩
  · unfold Part.restock
    rw [hc]
  · unfold Part.restockCancel
    rw [hc]
  · unfold Part.restockDone
    rw [hc]

/-! ## The entry into DRAINING or at once into REQUESTED (09 R156, R157) -/

theorem Part.enterDraining_working {p : Part} (h : ∃ k, (p.hose k).dsc ≠ .idle ∧ (p.hose k).dsc ≠ .lifted) :
    p.enterDraining = (p.setRsc { p.rsc with state := .draining }).event (.restockState .draining) := by
  obtain ⟨k, idle, lifted⟩ := h
  exact if_neg fun all => ((drained_iff p).mp all k).elim idle lifted

theorem Part.enterDraining_drained {p : Part} (h : ∀ k, (p.hose k).dsc = .idle ∨ (p.hose k).dsc = .lifted) :
    p.enterDraining = p.enterRequested := if_pos ((drained_iff p).mpr h)

/-! ## The requests at a bowser -/

section Bowser

variable {s : State} (free : s.part.LineFree) (hc : s.part.roleRefusal .bowser = none)
include free hc

theorem exec_restock_badState (hs : s.part.rsc.state ≠ .normal) : exec .restock s = s.goesTo (s.part.refuse .badState) := by
  refine congrArg s.goesTo ((free.request _).trans ?_)
  unfold Part.restock
  rw [hc]
  exact if_neg hs

theorem exec_restock_taken (hs : s.part.rsc.state = .normal) :
    exec .restock s = s.goesTo (finish s.part (s.part.respond .ok).enterDraining) := by
  refine congrArg s.goesTo ((free.request _).trans ?_)
  unfold Part.restock
  rw [hc]
  exact if_pos hs

theorem exec_restockCancel_badState (hs : s.part.rsc.state = .normal ∨ s.part.rsc.state = .receiving) :
    exec .restockCancel s = s.goesTo (s.part.refuse .badState) := by
  refine congrArg s.goesTo ((free.request _).trans ?_)
  unfold Part.restockCancel
  rcases hs with hs | hs <;> rw [hc, hs]

theorem exec_restockCancel_taken
    (hs : s.part.rsc.state = .draining ∨ s.part.rsc.state = .requested ∨ s.part.rsc.state = .granted) :
    exec .restockCancel s = s.goesTo (finish s.part (s.part.respond .ok).returnNormal) := by
  refine congrArg s.goesTo ((free.request _).trans ?_)
  unfold Part.restockCancel
  rcases hs with hs | hs | hs <;> rw [hc, hs]

theorem exec_restockDone_badState (hs : s.part.rsc.state ≠ .receiving) :
    exec .restockDone s = s.goesTo (s.part.refuse .badState) := by
  refine congrArg s.goesTo ((free.request _).trans ?_)
  unfold Part.restockDone
  rw [hc]
  exact if_neg hs

theorem exec_restockDone_taken (hs : s.part.rsc.state = .receiving) :
    exec .restockDone s = s.goesTo (finish s.part (s.part.respond .ok).returnNormal) := by
  refine congrArg s.goesTo ((free.request _).trans ?_)
  unfold Part.restockDone
  rw [hc]
  exact if_pos hs

end Bowser

/-! ## Each change with its event, its BAYREQ and its STOCK (09 R155) -/

section Changes

variable {p q : Part}

/-- A restock change that ends with its event. -/
theorem finish_event {x : Rsc} (e : Event) (h : x.state ≠ p.rsc.state) :
    finish p ((q.setRsc x).event e) = ((q.setRsc x).event e).offerStock := finish_changed h

/-- A restock change that ends with its event and a BAYREQ. -/
theorem finish_event_offer {x : Rsc} (e : Event) (n : Notice) (h : x.state ≠ p.rsc.state) :
    finish p (((q.setRsc x).event e).offer n false) = (((q.setRsc x).event e).offer n false).offerStock :=
  finish_changed ((RestockKept.rsc_offer _ n false).symm ▸ h)

end Changes

/-- The part after a request that takes the bowser back to NORMAL (09 R160). -/
def Part.returnedNormal (p : Part) (st : Settings) : Part :=
  (((((p.respond .ok).setRsc
    { p.rsc with state := .normal, repeatTimer := none, grant := none, awaited := ⟨false, false⟩ }).event
    (.restockState .normal)).offer (bayreqNotice p st true) false).offerStock)

theorem Part.finish_returnNormal {p : Part} {st : Settings} (hst : p.cfl.settings = some st) (hs : p.rsc.state ≠ .normal) :
    finish p (p.respond .ok).returnNormal = p.returnedNormal st := by
  rw [Part.returnNormal_eq (p := p.respond .ok) hst]
  exact finish_event_offer _ _ hs.symm

/-- Settles O46: the refusals by load and role, then each request by the restock state it meets. -/
theorem restockRequests : Obligations.RestockRequests := by
  unfold Obligations.RestockRequests
  intro s free returned
  refine ⟨fun hf => exec_restock_refused free (Part.roleRefusal_fault hf),
    fun hf hr => exec_restock_refused free (Part.roleRefusal_other hf hr), fun st hf hst hr => ?_⟩
  have bowser : s.part.role = some .bowser :=
    (Part.role_of_identity (Part.identity_of_settings hst)).trans (congrArg some hr)
  have taken := Part.roleRefusal_none hf bowser
  have back (hs : s.part.rsc.state ≠ .normal) : s.goesTo (finish s.part (s.part.respond .ok).returnNormal) =
    s.goesTo (returned st) := congrArg s.goesTo (Part.finish_returnNormal hst hs)
  refine ⟨exec_restock_badState free taken, ?working, ?drained, ?cancel, ?done, ?normal⟩
  case working =>
    intro hs hw
    rw [exec_restock_taken free taken hs, Part.enterDraining_working (p := s.part.respond .ok) hw]
    exact congrArg s.goesTo (finish_event _ (by rw [hs]; nofun))
  case drained =>
    intro hs hd
    rw [exec_restock_taken free taken hs, Part.enterDraining_drained (p := s.part.respond .ok) hd,
      Part.enterRequested_eq (p := s.part.respond .ok) hst]
    exact congrArg s.goesTo (finish_event_offer _ _ (by rw [hs]; nofun))
  case cancel =>
    intro hs
    have unreceived : s.part.rsc.state ≠ .receiving := by rcases hs with h | h | h <;> rw [h] <;> decide
    have abnormal : s.part.rsc.state ≠ .normal := by rcases hs with h | h | h <;> rw [h] <;> decide
    exact ⟨(exec_restockCancel_taken free taken hs).trans (back abnormal), exec_restockDone_badState free taken unreceived⟩
  case done =>
    intro hs
    exact ⟨exec_restockCancel_badState free taken (.inr hs),
      (exec_restockDone_taken free taken hs).trans (back (by rw [hs]; decide))⟩
  case normal =>
    intro hs
    exact ⟨exec_restockCancel_badState free taken (.inl hs), exec_restockDone_badState free taken (by rw [hs]; decide)⟩

end Sys2Proof.Machine
end

section
/-! O47: the restock coordinator's timers (09 R157, R162, R163). -/

namespace Sys2Proof.Machine

open Sys2Proof

/-! ## The BAYREQ repeat (09 R157) -/

theorem Part.requestBay_eq {p : Part} {st : Settings} (hst : p.cfl.settings = some st) : p.requestBay =
    (p.setRsc { p.rsc with
      repeatTimer := some (p.now + 1000000)
      awaited := ⟨decide (0 < spaceOf p.inv.comps.a st.comps.a), decide (0 < spaceOf p.inv.comps.b st.comps.b)⟩ }).offer
      (bayreqNotice p st false) false := by
  unfold Part.requestBay
  rw [hst]
  rfl

theorem exec_bayreqRepeatExpiry {s : State} {due : Nat} (ht : s.part.rsc.repeatTimer = some due)
    (hf : s.part.rsc.frozenAt = none) (hs : s.part.rsc.state = .requested) :
    exec .bayreqRepeatExpiry s = s.goesTo (s.part.reach due).requestBay := by
  show execBayreqRepeatExpiry s = _
  unfold execBayreqRepeatExpiry
  rw [exec_next, ht, hf]
  exact congrArg s.goesTo (if_pos hs)

/-! ## The two timers of a bay (09 R163) -/

section BayExpiry

variable {s : State} {b : BayId} {e : BayEntry} {due : Nat} (hb : s.part.rsc.bays.get b = some e)
  (hf : s.part.rsc.frozenAt = none)
include hb hf

theorem exec_grantExpiry (ht : e.timer = .expiry due) :
    exec (.grantExpiry b) s = s.goesTo (((s.part.reach due).revokeBay b e).grantStep 2) := by
  refine congrArg s.goesTo ?_
  unfold Part.expireGrant
  simp only [hb, hf, ht]

theorem exec_releaseTimerExpiry (ht : e.timer = .release due) :
    exec (.releaseTimerExpiry b) s = s.goesTo (((s.part.reach due).setBay b none).grantStep 2) := by
  refine congrArg s.goesTo ?_
  unfold Part.expireRelease
  simp only [hb, hf, ht]

end BayExpiry

/-! ## A grant revoked and a grant given -/

/-- What the depot side of the restock coordinator leaves of the part: the other blocks and the pins. -/
def Part.depotFrame (p : Part) : Quad Hose × ByPump Pump × List MachineRow × List Totals × Inv × Tlg × Alc × Pins × Cfl :=
  (p.hoses, p.pumps, p.machines, p.totals, p.inv, p.tlg, p.alc, p.pins, p.cfl)

@[simp] theorem Part.depotFrame_setRsc (p : Part) (r : Rsc) : (p.setRsc r).depotFrame = p.depotFrame := rfl

@[simp] theorem Part.depotFrame_event (p : Part) (e : Event) : (p.event e).depotFrame = p.depotFrame := rfl

@[simp] theorem Part.depotFrame_offer (p : Part) (n : Notice) (y : Bool) : (p.offer n y).depotFrame = p.depotFrame := by
  rw [Part.offer_shape]
  rfl

theorem Part.depotFrame_revokeBay (p : Part) (b : BayId) (e : BayEntry) : (p.revokeBay b e).depotFrame = p.depotFrame := by
  simp [Part.revokeBay, Part.insertStation, Part.setBay]

theorem Part.depotFrame_grantBay (p : Part) (b : BayId) (e : QueueEntry) (rest : List QueueEntry) :
    (p.grantBay b e rest).depotFrame = p.depotFrame := by
  simp [Part.grantBay]

/-- The place in the queue of a station whose grant is revoked: behind those of its urgency (09 R163; log 20). -/
def BayEntry.requeued (e : BayEntry) (arrival : Nat) : QueueEntry :=
  { station := e.station, urgency := e.urgency, arrival := arrival + 1, spaces := e.spaces }

theorem Part.rsc_revokeBay (p : Part) (b : BayId) (e : BayEntry) : (p.revokeBay b e).rsc =
    { p.rsc with
      bays := p.rsc.bays.set b none, arrival := p.rsc.arrival + 1
      queue := insertEntry (e.requeued p.rsc.arrival) p.rsc.queue } := by
  unfold Part.revokeBay Part.insertStation Part.setBay
  simp only [Part.rsc_setRsc, Part.rsc_event, RestockKept.rsc_offer]
  rfl

theorem Part.rsc_grantBay_eq (p : Part) (b : BayId) (e : QueueEntry) (rest : List QueueEntry) : (p.grantBay b e rest).rsc =
    { p.rsc with
      queue := rest, grantCounter := nextGrant p.rsc.grantCounter
      bays := p.rsc.bays.set b (some
        { station := e.station, grant := nextGrant p.rsc.grantCounter, urgency := e.urgency, spaces := e.spaces
          loaded := ⟨0, 0⟩, active := 0, noteOffered := false, timer := .expiry (p.now + 90000000) }) } :=
  RestockKept.rsc_offer (p.setRsc _) _ _

theorem Part.cfl_revokeBay (p : Part) (b : BayId) (e : BayEntry) : (p.revokeBay b e).cfl = p.cfl := by
  unfold Part.revokeBay Part.insertStation
  rw [Part.cfl_setRsc, Part.cfl_setBay, Part.cfl_event, (SameRest.of_offer p _ _).cfl]

section Room

variable {p : Part} (hj : p.snc.joined = true) (hl : p.snc.queue.length < 16)
include hj hl

theorem Part.snc_revokeBay (b : BayId) (e : BayEntry) : (p.revokeBay b e).snc =
    { p.snc with queue := p.snc.queue ++ [⟨.baygrant e.station (bayNumber b) e.grant 1, false⟩] } := by
  unfold Part.revokeBay Part.insertStation
  rw [Part.snc_setRsc, Part.snc_setBay, Part.snc_event, Part.offer_appended hj _ _ hl, Part.snc_setSnc]

theorem Part.snc_grantBay (b : BayId) (e : QueueEntry) (rest : List QueueEntry) : (p.grantBay b e rest).snc =
    { p.snc with
      queue := p.snc.queue ++ [⟨.baygrant e.station (bayNumber b) (nextGrant p.rsc.grantCounter) 0, false⟩] } := by
  unfold Part.grantBay
  rw [Part.snc_event, Part.offer_appended]
  · rfl
  · exact hj
  · exact hl

end Room

/-- The one free bay is granted to the head of the queue, and none is free after it (09 R162). -/
theorem Part.grantStep_only {p : Part} {b : BayId} {r : QueueEntry} {rest : List QueueEntry} (hq : p.rsc.queue = r :: rest)
    (hown : p.hasBay b = true) (hb : p.rsc.bays.get b = none)
    (others : ∀ k, k ≠ b → p.rsc.bays.get k ≠ none ∨ p.hasBay k = false) : p.grantStep 2 = p.grantBay b r rest := by
  refine Part.grantStep_one (Part.freeBay_only hown hb others) hq (.inr (Part.freeBay_none fun k => ?_))
  rw [Part.rsc_grantBay_eq, Part.hasBay_of_cfl (Part.cfl_grantBay ..)]
  by_cases hk : k = b
  · subst hk
    simp
  · rw [ByBay.get_set_ne _ _ hk]
    exact others k hk

section GrantExpired

variable {p : Part} {b : BayId} {e : BayEntry} {r : QueueEntry} {rest : List QueueEntry}

/-- A revoked station does not pass a head of at least its urgency that waits already. -/
theorem BayEntry.insertEntry_requeued {arrival : Nat} (hu : e.urgency ≤ r.urgency) (ha : r.arrival ≤ arrival) :
    insertEntry (e.requeued arrival) (r :: rest) = r :: insertEntry (e.requeued arrival) rest := by
  refine if_neg ?_
  show ¬ (r.urgency < e.urgency ∨ r.urgency = e.urgency ∧ arrival + 1 < r.arrival)
  omega

/-- The part after a bay is taken from its holder and given to the head of the queue (09 R162, R163). -/
def Part.passOn (p : Part) (b : BayId) (e : BayEntry) (r : QueueEntry) (rest : List QueueEntry) : Part :=
  (p.revokeBay b e).grantBay b r (insertEntry (e.requeued p.rsc.arrival) rest)

/-- The bay of a grant that expires, the only free one then, goes to the head of the queue (09 R162, R163). -/
theorem Part.grantStep_revokeBay (hq : p.rsc.queue = r :: rest) (hu : e.urgency ≤ r.urgency) (ha : r.arrival ≤ p.rsc.arrival)
    (hown : p.hasBay b = true) (others : ∀ k, k ≠ b → p.rsc.bays.get k ≠ none ∨ p.hasBay k = false) :
    (p.revokeBay b e).grantStep 2 = p.passOn b e r rest := by
  have bays := Part.hasBay_of_cfl (p.cfl_revokeBay b e)
  refine Part.grantStep_only ?_ ((bays b).trans hown) ?_ fun k hk => ?_
  · rw [Part.rsc_revokeBay, hq]
    exact BayEntry.insertEntry_requeued hu ha
  · rw [Part.rsc_revokeBay]
    exact ByBay.get_set_same ..
  · rw [Part.rsc_revokeBay, ByBay.get_set_ne _ _ hk, bays]
    exact others k hk

theorem Part.rsc_passOn (hb : p.rsc.bays.get b = some e) (r : QueueEntry) (rest : List QueueEntry) : (p.passOn b e r rest).rsc =
    { p.rsc with
      queue := insertEntry (e.requeued p.rsc.arrival) rest, arrival := p.rsc.arrival + 1
      grantCounter := nextGrant p.rsc.grantCounter
      bays := p.rsc.bays.set b (some
        { station := r.station, grant := nextGrant p.rsc.grantCounter, urgency := r.urgency, spaces := r.spaces
          loaded := ⟨0, 0⟩, active := 0, noteOffered := false, timer := .expiry (p.now + 90000000) }) } := by
  have clock : (p.revokeBay b e).now = p.now := ((Stays.refl (free := True)).revokeBay b e hb).now_eq
  unfold Part.passOn
  rw [Part.rsc_grantBay_eq, clock, Part.rsc_revokeBay]
  cases b <;> rfl

theorem Part.depotFrame_passOn (p : Part) (b : BayId) (e : BayEntry) (r : QueueEntry) (rest : List QueueEntry) :
    (p.passOn b e r rest).depotFrame = p.depotFrame :=
  (Part.depotFrame_grantBay ..).trans (Part.depotFrame_revokeBay ..)

/-- The revoke goes out before the grant (01 R15, 09 R163). -/
theorem Part.queue_passOn (hj : p.snc.joined = true) (hl : p.snc.queue.length < 15) (b : BayId) (e : BayEntry) (r : QueueEntry)
    (rest : List QueueEntry) : (p.passOn b e r rest).snc.queue = p.snc.queue ++
      [⟨.baygrant e.station (bayNumber b) e.grant 1, false⟩,
        ⟨.baygrant r.station (bayNumber b) (nextGrant p.rsc.grantCounter) 0, false⟩] := by
  have revoked := Part.snc_revokeBay hj (Nat.lt_succ_of_lt hl) b e
  have joined : (p.revokeBay b e).snc.joined = true := by rw [revoked]; exact hj
  have room : (p.revokeBay b e).snc.queue.length < 16 := by
    rw [revoked, List.length_append]
    exact Nat.succ_lt_succ hl
  unfold Part.passOn
  rw [Part.snc_grantBay joined room, revoked, Part.rsc_revokeBay]
  exact List.append_assoc ..

end GrantExpired

/-- Settles O47: the repeat and the release by their equations; at a grant's expiry the revoke and the one grant that follows,
each by what it makes of the restock record and of the transmit queue. -/
theorem bayTimers : Obligations.BayTimers := by
  unfold Obligations.BayTimers
  refine ⟨?repeated, ?expired, ?released⟩
  case repeated =>
    intro s st due ht hf hs hst
    exact (exec_bayreqRepeatExpiry ht hf hs).trans (congrArg s.goesTo (Part.requestBay_eq (p := s.part.reach due) hst))
  case expired =>
    intro s b e due r rest hb ht hf hq hu ha hown others
    have record := Part.rsc_passOn (p := s.part.reach due) hb r rest
    refine ⟨(s.part.reach due).passOn b e r rest, (exec_grantExpiry hb hf ht).trans
      (congrArg s.goesTo (Part.grantStep_revokeBay (p := s.part.reach due) hq hu ha hown others)), ?_⟩
    refine ⟨?bay, fun k hk => ?other, ?counter, ?waits, ?length,
      fun hj hl => Part.queue_passOn (p := s.part.reach due) hj hl b e r rest, Part.depotFrame_passOn ..⟩
    case bay =>
      rw [record]
      exact ByBay.get_set_same ..
    case other =>
      rw [record]
      exact ByBay.get_set_ne _ _ hk
    case counter => rw [record]; rfl
    case waits =>
      rw [record]
      exact (insertEntry_perm _ _).mem_iff.mpr List.mem_cons_self
    case length =>
      rw [record, hq]
      exact (insertEntry_perm _ _).length_eq
  case released =>
    intro s b e due hb ht hf hq
    exact (exec_releaseTimerExpiry hb hf ht).trans
      (congrArg s.goesTo (Part.grantStep_empty 2 ((s.part.reach due).setBay b none) hq))

end Sys2Proof.Machine
end

section
/-! O49: DELIVERY, the receipt it books and the whole record it requests (09 R167, 08 R148, 07 R126, R132). -/

namespace Sys2Proof.Machine

open Sys2Proof

/-! ## The receipt (08 R148) -/

theorem Compartment.receive_unopened {k : Compartment} (h : k.openingBook = none) (gross : Nat) : k.receive gross = k := by
  unfold Compartment.receive
  rw [h]
  rfl

theorem Compartment.receive_opened {k : Compartment} (h : k.openingBook ≠ none) {gross : Nat}
    (hr : -2147483648 ≤ k.receipts + gross ∧ k.receipts + gross ≤ 2147483647)
    (hb : -2147483648 ≤ k.book + gross ∧ k.book + gross ≤ 2147483647) :
    k.receive gross = { k with receipts := k.receipts + gross, book := k.book + gross, receiptCheck := some 0 } := by
  unfold Compartment.receive
  rw [if_pos (Option.isSome_iff_ne_none.mpr h), fitSigned32_fits hr.1 hr.2, fitSigned32_fits hb.1 hb.2]

/-! ## The slot that a whole record takes (07 R126, R132) -/

theorem lowestFree_none {slots : List Slot} (h : ∀ u ∈ slots, u.state ≠ .free) : lowestFree slots = none :=
  List.findIdx?_eq_none_iff.mpr fun u hu => beq_eq_false_iff_ne.mpr (h u hu)

theorem lowestFree_some {slots : List Slot} {i : Nat} {u : Slot} (hu : slots[i]? = some u) (hf : u.state = .free)
    (below : ∀ (j : Nat) (v : Slot), j < i → slots[j]? = some v → v.state ≠ .free) : lowestFree slots = some i := by
  obtain ⟨inside, rfl⟩ := List.getElem?_eq_some_iff.mp hu
  refine List.findIdx?_eq_some_iff_getElem.mpr ⟨inside, beq_iff_eq.mpr hf, fun j hj => ?_⟩
  simpa using below j _ hj (List.getElem?_eq_getElem (hj.trans inside))

section Reservable

variable {p : Part}

theorem Part.reservable_none (h : (∀ u ∈ p.tlg.slots, u.state ≠ .free) ∨ 4294966271 < p.tlg.nextSequence) :
    p.reservable = none := by
  unfold Part.reservable
  rcases h with full | exhausted
  · rw [lowestFree_none full, ite_self]
  · exact if_pos (decide_eq_true exhausted)

theorem Part.reservable_some {i : Nat} {u : Slot} (hn : p.tlg.nextSequence ≤ 4294966271) (hu : p.tlg.slots[i]? = some u)
    (hf : u.state = .free) (below : ∀ (j : Nat) (v : Slot), j < i → p.tlg.slots[j]? = some v → v.state ≠ .free) :
    p.reservable = some i := by
  have numbered : ¬ p.tlg.exhausted = true := by simpa [Tlg.exhausted] using hn
  exact (if_neg numbered).trans (lowestFree_some hu hf below)

end Reservable

/-! ## The whole-record request (07 R132) -/

/-- The log after the loss of a record. -/
def Tlg.recordLost (t : Tlg) : Tlg := { t with recordsLost := min (t.recordsLost + 1) 65535 }

/-- The log after a slot and the next sequence number are given to a record. -/
def Part.recordGiven (p : Part) (i : Nat) (u : Slot) (o : OpeningFields) (k : ClosingFields) : Tlg :=
  { p.tlg with
    nextSequence := p.tlg.nextSequence + 1
    slots := p.tlg.slots.set i
      { u with
        state := .opened
        opening := some
          { sequence := p.tlg.nextSequence, shift := p.alc.shift, startTime := p.alc.shiftSeconds, fields := o }
        closing := some { sequence := p.tlg.nextSequence, endTime := p.alc.shiftSeconds, fields := k } } }

section WholeRecord

variable {p : Part} {c : CompId} (o : OpeningFields) (k : ClosingFields)

theorem Part.wholeRecord_noSlot (h : p.reservable = none) : p.wholeRecord c o k = p.setTlg p.tlg.recordLost := by
  unfold Part.wholeRecord
  rw [h]
  rfl

theorem Part.wholeRecord_listFull (h : 4 ≤ (p.tlg.waitLists.get c).length) :
    p.wholeRecord c o k = p.setTlg p.tlg.recordLost := by
  cases hr : p.reservable with
  | none => exact Part.wholeRecord_noSlot o k hr
  | some i =>
    unfold Part.wholeRecord
    rw [hr]
    exact if_pos h

variable {i : Nat} {u : Slot} (hr : p.reservable = some i) (hu : p.tlg.slots[i]? = some u)
  (hl : (p.tlg.waitLists.get c).length < 4)
include hr hu hl

/-- A whole record that is not lost: its slot and its number, and its place in the queue or in the wait list. -/
theorem Part.wholeRecord_given : p.wholeRecord c o k =
    if p.tlg.waits (.whole c) then
      p.setTlg { p.recordGiven i u o k with waitLists := p.tlg.waitLists.set c (p.tlg.waitLists.get c ++ [.whole c i]) }
    else p.setTlg ((p.recordGiven i u o k).join (.whole c i)) := by
  unfold Part.wholeRecord Part.recordGiven
  rw [hr, ← modify_of_getElem _ _ _ hu fun s => { s with
    state := .opened
    opening := some { sequence := p.tlg.nextSequence, shift := p.alc.shift, startTime := p.alc.shiftSeconds, fields := o }
    closing := some { sequence := p.tlg.nextSequence, endTime := p.alc.shiftSeconds, fields := k } }]
  exact if_neg (Nat.not_le.mpr hl)

/-- With no whole record of the compartment waiting it joins the write queue. -/
theorem Part.wholeRecord_queued (hlen : p.tlg.queue.length < 8) (hnone : ∀ r ∈ p.tlg.queue, r.kind ≠ .whole c) :
    p.wholeRecord c o k = p.setTlg { p.recordGiven i u o k with queue := p.tlg.queue ++ [.whole c i] } := by
  have unwaited : ¬ p.tlg.waits (.whole c) = true := fun hw => by
    obtain ⟨r, hr, hk⟩ := (p.tlg.waits_iff _).mp hw
    exact hnone r hr hk
  rw [Part.wholeRecord_given o k hr hu hl, if_neg unwaited]
  exact congrArg p.setTlg (Tlg.join_room (t := p.recordGiven i u o k) hnone hlen)

/-- Behind a whole record of the compartment that waits it joins the wait list. -/
theorem Part.wholeRecord_listed (hw : ∃ r ∈ p.tlg.queue, r.kind = .whole c) : p.wholeRecord c o k = p.setTlg
    { p.recordGiven i u o k with waitLists := p.tlg.waitLists.set c (p.tlg.waitLists.get c ++ [.whole c i]) } :=
  (Part.wholeRecord_given o k hr hu hl).trans (if_pos ((p.tlg.waits_iff _).mpr hw))

end WholeRecord

theorem WriteReq.kind_whole_iff (r : WriteReq) (c : CompId) : r.kind = .whole c ↔ ∃ i, r = .whole c i := by
  cases r <;> simp [WriteReq.kind]

/-! ## DELIVERY (09 R167) -/

section Delivery

variable {s : State} (free : s.part.LineFree) {compartment gross : Nat}
include free

theorem exec_delivery_noCompartment (hc : compOfCode compartment = none) :
    exec (.delivery (some compartment) (some gross)) s = s.goesTo (s.part.refuse .badValue) := by
  refine congrArg s.goesTo ((free.request _).trans ?_)
  unfold Part.delivery
  simp only [compField, hc]

variable {c : CompId} (hc : compOfCode compartment = some c)
include hc

theorem exec_delivery_refused {code : Code} (hr : s.part.roleRefusal .depot = some code) :
    exec (.delivery (some compartment) (some gross)) s = s.goesTo (s.part.refuse code) := by
  refine congrArg s.goesTo ((free.request _).trans ?_)
  unfold Part.delivery
  simp only [compField, hc, hr]

variable (hr : s.part.roleRefusal .depot = none)
include hr

theorem exec_delivery_badGross (hg : gross < 1 ∨ 6000000 < gross) :
    exec (.delivery (some compartment) (some gross)) s = s.goesTo (s.part.refuse .badValue) := by
  refine congrArg s.goesTo ((free.request _).trans ?_)
  unfold Part.delivery
  simp only [compField, hc, hr, if_pos hg]

theorem exec_delivery_taken (hg : ¬ (gross < 1 ∨ 6000000 < gross)) :
    exec (.delivery (some compartment) (some gross)) s = s.goesTo
      (((s.part.respond .ok).modComp c fun k => k.receive gross).wholeRecord c (.delivery c) (.delivery gross)) := by
  refine congrArg s.goesTo ((free.request _).trans ?_)
  unfold Part.delivery
  simp only [compField, hc, hr, if_neg hg]

end Delivery

/-- Settles O49: the checks of the request in their order, the receipt with and without an opening book, and the whole record lost,
queued or listed. -/
theorem deliveries : Obligations.Deliveries := by
  unfold Obligations.Deliveries
  refine ⟨?request, fun k gross => ⟨fun h => Compartment.receive_unopened h gross, ?opened⟩, ?record⟩
  case request =>
    intro s compartment gross free booked
    refine ⟨fun out => exec_delivery_noCompartment free (compOfCode_none (by omega) (by omega)), fun c hc => ⟨?_, ?_, ?_, ?_⟩⟩
    · exact fun hf => exec_delivery_refused free hc (Part.roleRefusal_fault hf)
    · exact fun hf hr => exec_delivery_refused free hc (Part.roleRefusal_other hf hr)
    · exact fun hf hr hg => exec_delivery_badGross free hc (Part.roleRefusal_none hf hr) (by omega)
    · exact fun hf hr low high => exec_delivery_taken free hc (Part.roleRefusal_none hf hr) (by omega)
  case opened =>
    exact fun h rlow rhigh blow bhigh => Compartment.receive_opened h ⟨rlow, rhigh⟩ ⟨blow, bhigh⟩
  case record =>
    intro p c o k lost
    refine ⟨fun h => Part.wholeRecord_noSlot o k (Part.reservable_none h), Part.wholeRecord_listFull o k, ?_⟩
    intro i u hn hu hf below hl given
    have slot := Part.reservable_some hn hu hf below
    refine ⟨fun hlen hnone => Part.wholeRecord_queued o k slot hu hl hlen fun r hr hk => ?_, fun ⟨j, hj⟩ => ?_⟩
    · obtain ⟨j, rfl⟩ := (r.kind_whole_iff c).mp hk
      exact hnone _ hr j rfl
    · exact Part.wholeRecord_listed o k slot hu hl ⟨_, hj, rfl⟩

end Sys2Proof.Machine
end

section
/-! O3: the values the chapters give for reset, and the invariants of the steps there. -/

namespace Sys2Proof.Machine

open Sys2Proof

theorem Tlg.bounded_start : Tlg.start.Bounded where
  kinds := List.nodup_nil
  queue := Nat.zero_le 8
  waits c := by cases c <;> exact Nat.zero_le 4
  wholes c r hr := by cases c <;> exact absurd hr List.not_mem_nil

theorem Alc.bounded_start : Alc.start.Bounded where
  claims := Nat.zero_le 56
  perOrigin _ := Nat.zero_le 4
  origins _ hc := absurd hc List.not_mem_nil

theorem Cfl.bounded_start {n : Nat} (low : 1 ≤ n) (high : n ≤ 14) : (Cfl.start (some n)).Bounded where
  station m hm := by
    cases hm
    exact ⟨low, high⟩
  settings hs := absurd rfl hs

/-- Every queue and table is empty at reset, and the tables of fixed size have their sizes. -/
theorem Part.bounded_reset : Part.reset.Bounded where
  events := Nat.zero_le 16
  busy := Nat.zero_le 4
  queue := Nat.zero_le 16
  attempts := Nat.zero_le 4
  peers := List.length_replicate
  slots := List.length_replicate
  totals := List.length_replicate
  log := Tlg.bounded_start
  claims := Alc.bounded_start
  restock := Rsc.Bounded.empty rfl rfl
  station := Cfl.bounded_start (Nat.le_refl 1) (by decide)

theorem Part.safe_reset : Part.reset.Safe := fun asserted => absurd ⟨rfl, rfl⟩ asserted

theorem Part.hose_reset (h : HoseId) : Part.reset.hose h = Hose.start := Quad.get_replicate _ h

theorem Part.pump_reset (i : PumpId) : Part.reset.pumps.get i = Pump.start := by cases i <;> rfl

theorem Part.comp_reset (c : CompId) : Part.reset.comp c = Compartment.start := by cases c <;> rfl

/-- Settles O3: block by block from the blocks' start values. -/
theorem resetValues : Obligations.ResetValues := by
  unfold Obligations.ResetValues
  refine ⟨rfl, ⟨rfl, rfl, rfl, rfl⟩, ⟨rfl, rfl, rfl, rfl, rfl, rfl, rfl⟩, ⟨rfl, rfl, rfl⟩, fun h => ?hose, fun i => ?pump,
    ⟨rfl, rfl, List.length_replicate⟩, fun c => ?comp, ⟨rfl, rfl, rfl, rfl, rfl⟩, ⟨rfl, rfl, rfl, rfl⟩, Part.bounded_reset,
    Part.safe_reset⟩
  case hose =>
    rw [show State.reset.part.hose h = Hose.start from Part.hose_reset h]
    exact ⟨rfl, rfl, rfl, rfl, rfl, rfl, rfl, rfl, rfl, rfl, rfl, rfl, rfl, rfl, rfl, rfl, rfl, rfl⟩
  case pump =>
    unfold Part.pumpDrive
    rw [show State.reset.part.pumps.get i = Pump.start from Part.pump_reset i]
    exact ⟨rfl, rfl, rfl, rfl⟩
  case comp =>
    rw [show State.reset.part.comp c = Compartment.start from Part.comp_reset c]
    exact ⟨rfl, rfl, rfl, rfl, rfl, rfl, rfl⟩

end Sys2Proof.Machine
end

section
/-! O53 (10 R170): the checks of an image load, each under the checks before it. -/

namespace Sys2Proof.Machine

open Sys2Proof

/-! ## The tests of checks 8 to 10 as propositions -/

/-- One point of a strapping table lies below another in level and in volume. -/
def PointBelow (x y : Nat × Nat) : Prop := x.1 < y.1 ∧ x.2 < y.2

theorem increasing_iff (l : List (Nat × Nat)) : increasing l = true ↔ l.Pairwise PointBelow := by
  have : IsTrans (Nat × Nat) PointBelow := ⟨fun _ _ _ hxy hyz => ⟨hxy.1.trans hyz.1, hxy.2.trans hyz.2⟩⟩
  induction l with
  | nil => simp [increasing]
  | cons x l ih =>
    cases l with
    | nil => simp [increasing]
    | cons y l =>
      rw [List.pairwise_cons_cons_iff_of_trans]
      simp [increasing, PointBelow, ih]

theorem distinct_iff {α : Type} [DecidableEq α] (l : List α) : distinct l = true ↔ l.Nodup := by
  induction l with
  | nil => simp [distinct]
  | cons x l ih =>
    have absent : (l.any fun y => decide (y = x)) = false ↔ x ∉ l := by simp [List.forall_mem_ne']
    unfold distinct
    rw [List.nodup_cons, ← ih, ← absent, Bool.and_eq_true, Bool.not_eq_true']

/-! ## Check 7: another station as depot -/

theorem contentOf_depot {station : Nat} {b : List Byte} {h : Header} {st : Settings} {machines : List MachineEntry}
    (hc : contentOf station b h = some (st, machines)) (hr : st.identity.role = .bowser) : st.identity.depotStation ≠ station := by
  simp only [contentOf, Option.bind_eq_bind, Option.bind_eq_some_iff] at hc
  obtain ⟨identity, -, hc⟩ := hc
  repeat obtain ⟨_, -, hc⟩ := hc
  split at hc
  · cases hc
  · rename_i hn
    cases hc
    exact fun hd => hn ⟨hr, hd⟩

/-! ## Check 4 -/

theorem lengthOk_outside {b : List Byte} {h : Header} (ho : h.length < 34 ∨ 16384 < h.length ∨ 2048 ≤ h.presence) :
    lengthOk b h = false := by
  have : ¬ (34 ≤ h.length ∧ h.length ≤ 16384 ∧ h.presence < 2048) := by omega
  unfold lengthOk
  simp only [Bool.and_eq_false_iff, decide_eq_false_iff_not]
  omega

/-! ## Checks 7 to 10 -/

/-- Checks 7 to 10 (R170): the fields of the sections, and what holds between them. -/
def sectionChecks (station : Nat) (b : List Byte) (h : Header) : CheckResult × Option (Settings × List MachineEntry) :=
  match contentOf station b h with
  | none => (.badValue, none)
  | some (st, machines) =>
    if !(increasing st.comps.a.strapping && increasing st.comps.b.strapping) then (.badStrapping, none)
    else if !distinct (machines.map (·.number)) then (.duplicateMachine, none)
    else if !distinct ((machines.map (·.tag)).filter fun t => !(t == 0)) then (.duplicateTag, none)
    else (.good, some (st, machines))

section Sections

variable {station : Nat} {b : List Byte} {h : Header}

theorem sectionChecks_value (hc : contentOf station b h = none) : sectionChecks station b h = (.badValue, none) := by
  unfold sectionChecks
  rw [hc]

variable {st : Settings} {machines : List MachineEntry} (hc : contentOf station b h = some (st, machines))
include hc

theorem sectionChecks_strapping
    (hs : ¬ (st.comps.a.strapping.Pairwise PointBelow ∧ st.comps.b.strapping.Pairwise PointBelow)) :
    sectionChecks station b h = (.badStrapping, none) := by
  rw [← increasing_iff, ← increasing_iff, ← Bool.and_eq_true, Bool.not_eq_true] at hs
  unfold sectionChecks
  simp only [hc, hs, Bool.not_false, if_true]

variable (hs : st.comps.a.strapping.Pairwise PointBelow ∧ st.comps.b.strapping.Pairwise PointBelow)
include hs

theorem sectionChecks_machine (hn : ¬ (machines.map (·.number)).Nodup) :
    sectionChecks station b h = (.duplicateMachine, none) := by
  rw [← increasing_iff, ← increasing_iff, ← Bool.and_eq_true] at hs
  rw [← distinct_iff, Bool.not_eq_true] at hn
  unfold sectionChecks
  simp only [hc, hs, hn, Bool.not_true, Bool.false_eq_true, if_false, Bool.not_false, if_true]

variable (hn : (machines.map (·.number)).Nodup)
include hn

theorem sectionChecks_tag (ht : ¬ ((machines.map (·.tag)).filter fun t => !(t == 0)).Nodup) :
    sectionChecks station b h = (.duplicateTag, none) := by
  rw [← increasing_iff, ← increasing_iff, ← Bool.and_eq_true] at hs
  rw [← distinct_iff] at hn
  rw [← distinct_iff, Bool.not_eq_true] at ht
  unfold sectionChecks
  simp only [hc, hs, hn, ht, Bool.not_true, Bool.false_eq_true, if_false, Bool.not_false, if_true]

theorem sectionChecks_good (ht : ((machines.map (·.tag)).filter fun t => !(t == 0)).Nodup) :
    sectionChecks station b h = (.good, some (st, machines)) := by
  rw [← increasing_iff, ← increasing_iff, ← Bool.and_eq_true] at hs
  rw [← distinct_iff] at hn ht
  unfold sectionChecks
  simp only [hc, hs, hn, ht, Bool.not_true, Bool.false_eq_true, if_false]

end Sections

/-! ## The checks in order -/

section Checks

variable {station : Nat} {b : List Byte} {h : Header}

theorem checkImage_marker (hm : h.marker ≠ 0x6B1D) : checkImage station b h = (.badMarker, none) := if_pos hm

variable (hm : h.marker = 0x6B1D)
include hm

theorem checkImage_format (hf : h.format ≠ 1) : checkImage station b h = (.badFormat, none) := by
  unfold checkImage
  rw [if_neg (not_not.mpr hm), if_pos hf]

variable (hf : h.format = 1)
include hf

theorem checkImage_length (hl : lengthOk b h = false) : checkImage station b h = (.badLength, none) := by
  unfold checkImage
  rw [if_neg (not_not.mpr hm), if_neg (not_not.mpr hf), if_pos (by rw [hl]; rfl)]

variable (hl : lengthOk b h = true)
include hl

theorem checkImage_crc (hc : (crc32 (withoutCrc b h.length)).toNat ≠ h.crc) : checkImage station b h = (.badCrc, none) := by
  unfold checkImage
  rw [if_neg (not_not.mpr hm), if_neg (not_not.mpr hf), if_neg (by rw [hl]; decide), if_pos hc]

variable (hc : (crc32 (withoutCrc b h.length)).toNat = h.crc)
include hc

theorem checkImage_missing (hs : h.has 0 = false ∨ h.has 5 = false ∨ h.has 6 = false) :
    checkImage station b h = (.missingSection, none) := by
  have missing : (h.has 0 && h.has 5 && h.has 6) = false := by
    simp only [Bool.and_eq_false_iff, or_assoc]
    exact hs
  unfold checkImage
  rw [if_neg (not_not.mpr hm), if_neg (not_not.mpr hf), if_neg (by rw [hl]; decide), if_neg (not_not.mpr hc),
    if_pos (by rw [missing]; rfl)]

variable (hs : h.has 0 = true ∧ h.has 5 = true ∧ h.has 6 = true)
include hs

theorem checkImage_sections : checkImage station b h = sectionChecks station b h := by
  obtain ⟨identity, compartmentA, compartmentB⟩ := hs
  unfold checkImage
  rw [if_neg (not_not.mpr hm), if_neg (not_not.mpr hf), if_neg (by rw [hl]; decide), if_neg (not_not.mpr hc),
    if_neg (by rw [identity, compartmentA, compartmentB]; decide)]
  rfl

end Checks

/-! ## The load -/

section Load

variable {b : List Byte} (station : Nat)

/-- Check 1: the header or the length it gives is not read. -/
theorem loadImage_unread (hb : b.length < 34 ∨ b.length < (headerOf b).length) :
    (loadImage station (some b)).check = .noAnswer := by
  unfold loadImage
  dsimp only
  split
  · rfl
  · rw [if_pos (hb.resolve_left ‹_›)]

theorem loadImage_read (hb : 34 ≤ b.length) (hl : (headerOf b).length ≤ b.length) : loadImage station (some b) =
    { check := (checkImage station b (headerOf b)).1
      header := some ((headerOf b).length, BitVec.ofNat 32 (headerOf b).crc)
      presence := some (BitVec.ofNat 16 (headerOf b).presence), content := (checkImage station b (headerOf b)).2 } := by
  unfold loadImage
  dsimp only
  rw [if_neg (Nat.not_lt.mpr hb), if_neg (Nat.not_lt.mpr hl)]

end Load

/-- Settles O53: check by check, each where the checks before it pass. -/
theorem loadChecks : Obligations.LoadChecks := by
  unfold Obligations.LoadChecks
  refine ⟨fun _ => ⟨rfl, rfl⟩, fun station store => ?inForce, fun station b => ?inOrder⟩
  case inForce => rw [← Option.isSome_iff_ne_none, loadImage_content]
  case inOrder =>
    intro h check
    refine ⟨loadImage_unread station, fun hb hl => ?_⟩
    have read := loadImage_read station hb hl
    have outcome {c : CheckResult} (hc : checkImage station b h = (c, none)) : check = c := by
      show (loadImage station (some b)).check = c
      rw [read, hc]
    refine ⟨fun hm => outcome (checkImage_marker hm), fun hm hf => outcome (checkImage_format hm hf), fun hm hf =>
      ⟨fun ho => outcome (checkImage_length hm hf (lengthOk_outside ho)), fun hn => outcome (checkImage_length hm hf hn),
        fun hok => ⟨fun hc => outcome (checkImage_crc hm hf hok hc), fun hc =>
          ⟨fun hs => outcome (checkImage_missing hm hf hok hc hs), fun h0 h5 h6 => ?_⟩⟩⟩⟩
    have sections := checkImage_sections (station := station) hm hf hok hc ⟨h0, h5, h6⟩
    refine ⟨fun hn => outcome (sections.trans (sectionChecks_value hn)), fun st machines hst => ?_⟩
    intro rising numbers tags
    refine ⟨contentOf_depot hst, fun hr => outcome (sections.trans (sectionChecks_strapping hst hr)), fun ha hb =>
      ⟨fun hn => outcome (sections.trans (sectionChecks_machine hst ⟨ha, hb⟩ hn)),
        fun hn ht => outcome (sections.trans (sectionChecks_tag hst ⟨ha, hb⟩ hn ht)), fun hn ht => ?_⟩⟩
    rw [read, sections.trans (sectionChecks_good hst ⟨ha, hb⟩ hn ht)]

end Sys2Proof.Machine
end

section
/-! O50 (10 R169, R173, R174): START, and the log's memory that the failing supply leaves it. -/

namespace Sys2Proof.Machine

open Sys2Proof

/-! ## The write in progress (R174) -/

/-- The memory when the write in progress is complete or torn. -/
def Part.writeCut (p : Part) (fate : WriteFate) : Part :=
  match p.tlg.writing with
  | none => p
  | some r =>
    match fate with
    | .complete => p.memoryWrite r
    | .torn whole => p.memoryTorn r whole

/-- The memory when the scan's writes are cut. -/
def Tlg.scanCut (t : Tlg) (scanDone : Nat) (fate : WriteFate) : Tlg :=
  let done := t.scanWritesTo (t.scanWrites.take scanDone)
  match t.scanWrites.drop scanDone with
  | [] => done
  | w :: _ =>
    match fate with
    | .complete => done.scanWrite w
    | .torn _ => done.scanTornWrite w

theorem Part.powerCut_eq (p : Part) (scanDone : Nat) (fate : WriteFate) :
    p.powerCut scanDone fate = (p.writeCut fate).setTlg ((p.writeCut fate).tlg.scanCut scanDone fate) := rfl

/-! ## What a cut leaves -/

theorem Part.memoryWrite_shape (p : Part) (r : WriteReq) : p.memoryWrite r = p.setTlg (p.memoryWrite r).tlg := by
  cases r <;> rfl

theorem Part.memoryTorn_shape (p : Part) (r : WriteReq) (whole : Bool) :
    p.memoryTorn r whole = p.setTlg (p.memoryTorn r whole).tlg := by
  cases r with
  | opening _ _ withClosing => cases withClosing <;> cases whole <;> rfl
  | whole _ _ => cases whole <;> rfl
  | closing _ _ => rfl
  | checkpoint _ _ _ => rfl
  | mark _ => rfl

theorem Part.slots_memoryWrite (p : Part) (r : WriteReq) : (p.memoryWrite r).tlg.slots.length = p.tlg.slots.length := by
  cases r with
  | opening _ _ _ => exact List.length_modify ..
  | whole _ _ => exact List.length_modify ..
  | closing _ _ => exact List.length_modify ..
  | checkpoint _ _ _ => rfl
  | mark _ => rfl

theorem Part.slots_memoryTorn (p : Part) (r : WriteReq) (whole : Bool) :
    (p.memoryTorn r whole).tlg.slots.length = p.tlg.slots.length := by
  cases r with
  | opening _ _ withClosing => cases withClosing <;> cases whole <;> exact List.length_modify ..
  | whole _ _ => cases whole <;> exact List.length_modify ..
  | closing _ _ => exact List.length_modify ..
  | checkpoint _ _ _ => rfl
  | mark _ => rfl

theorem Part.writeCut_shape (p : Part) (fate : WriteFate) : p.writeCut fate = p.setTlg (p.writeCut fate).tlg := by
  unfold Part.writeCut
  split
  · rfl
  · cases fate with
    | complete => exact p.memoryWrite_shape _
    | torn whole => exact p.memoryTorn_shape _ whole

theorem Part.slots_writeCut (p : Part) (fate : WriteFate) : (p.writeCut fate).tlg.slots.length = p.tlg.slots.length := by
  unfold Part.writeCut
  split
  · rfl
  · cases fate with
    | complete => exact p.slots_memoryWrite _
    | torn whole => exact p.slots_memoryTorn _ whole

theorem Tlg.slots_scanWrite (t : Tlg) (w : ScanWrite) : (t.scanWrite w).slots.length = t.slots.length :=
  scanWrites_length t [w]

theorem Tlg.slots_scanTornWrite (t : Tlg) (w : ScanWrite) : (t.scanTornWrite w).slots.length = t.slots.length := by
  unfold Tlg.scanTornWrite
  split
  · rfl
  · rfl
  · exact List.length_modify ..

theorem Tlg.slots_scanCut (t : Tlg) (scanDone : Nat) (fate : WriteFate) : (t.scanCut scanDone fate).slots.length = t.slots.length := by
  unfold Tlg.scanCut
  split
  · rw [scanWrites_length]
  · cases fate with
    | complete => rw [Tlg.slots_scanWrite, scanWrites_length]
    | torn whole => rw [Tlg.slots_scanTornWrite, scanWrites_length]

theorem Tlg.scanCut_scanned {t : Tlg} (hs : t.scanWrites = []) (scanDone : Nat) (fate : WriteFate) : t.scanCut scanDone fate = t := by
  unfold Tlg.scanCut
  rw [hs, List.drop_nil, List.take_nil]
  rfl

/-- Beyond the log a cut leaves everything. -/
theorem Part.powerCut_shape (p : Part) (scanDone : Nat) (fate : WriteFate) :
    p.powerCut scanDone fate = p.setTlg (p.powerCut scanDone fate).tlg := by
  rw [Part.powerCut_eq, Part.writeCut_shape]
  rfl

theorem Part.slots_powerCut (p : Part) (scanDone : Nat) (fate : WriteFate) :
    (p.powerCut scanDone fate).tlg.slots.length = p.tlg.slots.length := by
  rw [Part.powerCut_eq, Part.tlg_setTlg, Tlg.slots_scanCut, Part.slots_writeCut]

/-- With no write in progress the memory stays (R174). -/
theorem Part.powerCut_idle {p : Part} (hw : p.tlg.writing = none) (hs : p.tlg.scanWrites = []) (scanDone : Nat) (fate : WriteFate) :
    p.powerCut scanDone fate = p := by
  have cut : p.writeCut fate = p := by
    unfold Part.writeCut
    rw [hw]
  rw [Part.powerCut_eq, cut, Tlg.scanCut_scanned hs]
  rfl

/-- The closing part in progress is complete or torn in its slot (R174, 07 R135). -/
theorem Part.closing_powerCut {p : Part} {h : HoseId} {i : Nat} {k : Closing} (hw : p.tlg.writing = some (.closing h i))
    (hs : p.tlg.scanWrites = []) (hi : i < p.tlg.slots.length) (hk : (p.slot i).closing = some k) (scanDone : Nat) :
    ((p.powerCut scanDone .complete).slot i).nvClosing = .valid k
      ∧ ∀ whole, ((p.powerCut scanDone (.torn whole)).slot i).nvClosing = .bad := by
  have cut (fate : WriteFate) (f : Slot → Slot) (hc : p.writeCut fate = p.modSlot i f) :
      (p.powerCut scanDone fate).slot i = f (p.slot i) := by
    rw [Part.powerCut_eq, hc, Tlg.scanCut_scanned (by exact hs)]
    simp [Part.slot, Part.modSlot, List.getElem?_eq_getElem hi]
  refine ⟨?_, fun whole => ?_⟩
  · rw [cut .complete _ (by unfold Part.writeCut; rw [hw]; rfl)]
    simp [hk]
  · rw [cut (.torn whole) _ (by unfold Part.writeCut; rw [hw]; rfl)]

/-! ## The restart -/

theorem exec_start (s : State) (straps scanDone : Nat) (fate : WriteFate) :
    exec (.start straps scanDone fate) s = s.goesTo ((s.part.powerCut scanDone fate).started straps) := rfl

theorem Part.pins_started (p : Part) (scanDone : Nat) (fate : WriteFate) (straps : Nat) :
    ((p.powerCut scanDone fate).started straps).pins = { p.pins with straps := straps }
      ∧ ((p.powerCut scanDone fate).started straps).now = p.now := by
  rw [Part.powerCut_shape]
  exact ⟨rfl, rfl⟩

theorem Tlg.memory_restarted (t : Tlg) :
    (t.restarted.slots.map fun u => (u.nvOpening, u.nvClosing)) = t.slots.map fun u => (u.nvOpening, u.nvClosing) := by
  simp [Tlg.restarted]

theorem Part.nvClosing_started (p : Part) (straps i : Nat) : ((p.started straps).slot i).nvClosing = (p.slot i).nvClosing := by
  show ((p.tlg.slots.map fun u : Slot => { u with state := .free, opening := none, closing := none }).getD i _).nvClosing = _
  unfold Part.slot
  rw [List.getD_eq_getElem?_getD, List.getD_eq_getElem?_getD, List.getElem?_map]
  cases p.tlg.slots[i]? <;> rfl

/-- Settles O50: the start values are those of reset, and the log's memory is what the cut left. -/
theorem startCommand : Obligations.StartCommand := by
  unfold Obligations.StartCommand
  intro s straps scanDone fate
  obtain ⟨pins, now⟩ := s.part.pins_started scanDone fate straps
  refine ⟨_, exec_start s straps scanDone fate, rfl, rfl, rfl, rfl, rfl, ?check, pins, now, rfl, rfl, ?slots, ?free, ?kept, ?cut⟩
  case check =>
    show (if (stationOf straps).isNone then _ else _) = _
    unfold stationOf
    split <;> rfl
  case slots => exact (List.length_map _).trans (s.part.slots_powerCut scanDone fate)
  case free =>
    intro u hu
    obtain ⟨v, -, rfl⟩ := List.mem_map.mp hu
    rfl
  case kept =>
    intro hw hs
    rw [Part.powerCut_idle hw hs]
    exact ⟨s.part.tlg.memory_restarted, rfl⟩
  case cut =>
    intro h i k hw hs hi hk
    obtain ⟨complete, torn⟩ := Part.closing_powerCut hw hs hi hk scanDone
    rw [Part.nvClosing_started]
    exact ⟨fun hf => by rw [hf, complete], fun whole hf => by rw [hf, torn]⟩

end Sys2Proof.Machine
end

section
/-! What the end of the start sequence and a good RELOAD share (08 R142, R153, R154; 01 R20): sampling begins, the net is joined. -/

namespace Sys2Proof.Machine

open Sys2Proof

/-! ## Sampling begins -/

theorem Part.sampleFrame_takeSample (p : Part) (r : Readings) : (p.takeSample r).sampleFrame = p.sampleFrame := by
  cases hs : p.cfl.settings with
  | none =>
    unfold Part.takeSample
    rw [hs]
  | some st => rw [Part.takeSample_eq hs, Part.sampleFrame_lowTested]

theorem Part.sampleFrame_testSample (p : Part) : p.testSample.sampleFrame = p.sampleFrame := by
  cases hs : p.cfl.settings with
  | none =>
    unfold Part.testSample
    rw [hs]
  | some st => rw [Part.testSample_eq hs, Part.sampleFrame_restockTrigger, Part.sampleFrame_stockTests, Part.sampleFrame_stockTests]

theorem Part.sampleFrame_beginSampling (p : Part) (r : Readings) : (p.beginSampling r).sampleFrame =
    (some (p.now + 200000), p.inv.stockTimer, p.machines, p.totals, p.pins, p.cfl, p.now) := by
  unfold Part.beginSampling
  rw [Part.sampleFrame_testSample, Part.sampleFrame_takeSample]
  rfl

theorem Part.cfl_beginSampling (p : Part) (r : Readings) : (p.beginSampling r).cfl = p.cfl :=
  congrArg (·.2.2.2.2.2.1) (p.sampleFrame_beginSampling r)

theorem Part.now_beginSampling (p : Part) (r : Readings) : (p.beginSampling r).now = p.now :=
  congrArg (·.2.2.2.2.2.2) (p.sampleFrame_beginSampling r)

/-! ## The net is joined -/

/-- The site-net controller joined, with one STOCK waiting (01 R20, 08 R153). -/
def Snc.joinedWith (c : Snc) (now : Nat) (n : Notice) : Snc :=
  { c with joined := true, tx := .idle, inHand := none, attempts := 0, idleGap := none, backoff := none, echoWindow := none
           queue := [⟨n, true⟩], cursor := 0, sweep := some (now + 400000) }

theorem Part.joinNet_eq {p : Part} {st : Settings} (hs : p.cfl.settings = some st) : p.joinNet =
    (p.setSnc (p.snc.joinedWith p.now (stockNotice p st))).setInv { p.inv with stockTimer := some (p.now + 6000000) } := by
  unfold Part.joinNet Part.offerStock
  simp only [Part.cfl_setInv, Part.cfl_setSnc, hs]
  rfl

end Sys2Proof.Machine
end

section
/-! O52 (10 R173): the end of the start sequence, and what the scan's writes have left in memory. -/

namespace Sys2Proof.Machine

open Sys2Proof

/-! ## The command -/

/-- The part when the scan's writes have ended. -/
def Part.scanned (p : Part) : Part := p.setTlg { p.tlg.scanWritesTo p.tlg.scanWrites with scanWrites := [] }

theorem exec_scanWritesDone {s : State} (hs : s.part.cfl.stage = .scanWrites) (r : Readings) :
    exec (.scanWritesDone r) s = s.goesTo (s.part.scanEnd r) := by
  simp only [exec, execScanWritesDone, exec_next]
  rw [if_pos hs]

/-! ## Into service -/

/-- In FAULT the ALC is in LISTEN with no timer, and nothing else is done. -/
theorem Part.intoService_fault {p : Part} (hs : p.cfl.settings = none) (r : Readings) :
    p.intoService r = p.setAlc { p.alc with listen := .listen, listenTimer := none } := by
  unfold Part.intoService
  rw [hs]

theorem Part.intoService_loaded {p : Part} {st : Settings} (hs : p.cfl.settings = some st) (r : Readings) :
    p.intoService r = ((p.beginSampling r).enterListen st.identity.listenTime).joinNet := by
  unfold Part.intoService
  rw [hs]

theorem Part.kept_intoService (p : Part) (r : Readings) : ((p.intoService r).machines, (p.intoService r).totals,
    (p.intoService r).pins, (p.intoService r).cfl) = (p.machines, p.totals, p.pins, p.cfl) := by
  cases hs : p.cfl.settings with
  | none => rw [Part.intoService_fault hs]; rfl
  | some st =>
    have sampled : (p.beginSampling r).cfl.settings = some st := by rw [Part.cfl_beginSampling, hs]
    rw [Part.intoService_loaded hs, Part.joinNet_eq (by exact sampled)]
    exact congrArg (fun f => (f.2.2.1, f.2.2.2.1, f.2.2.2.2.1, f.2.2.2.2.2.1)) (p.sampleFrame_beginSampling r)

/-! ## The nozzles (06 R102) -/

theorem Part.hose_readNozzles {p : Part} {h : HoseId} (hn : (p.pins.hoses.get h).nozzle = .offHook) :
    p.readNozzles.hose h = { p.hose h with nozzle := .offHook, dsc := .lifted } := by
  unfold Part.readNozzles Part.hose
  rw [Part.hoses_setHoses, Quad.get_map, hn]

/-! ## The memory (07 R134, R136) -/

/-- What the memory holds in a slot. -/
theorem Part.slot_of_fixed {p : Part} {t : Tlg} (hf : p.tlg.fixed = t.fixed) {i : Nat} {w : Slot} (hw : t.slots[i]? = some w) :
    (p.slot i).nvOpening = w.nvOpening ∧ (p.slot i).nvClosing = w.nvClosing := by
  have same := congrArg (·[i]?) (congrArg Prod.fst hf)
  simp only [Tlg.fixed, List.getElem?_map, hw, Option.map_some, Option.map_eq_some_iff, Prod.mk.injEq] at same
  obtain ⟨u, hu, opening, closing⟩ := same
  unfold Part.slot
  rw [List.getD_eq_getElem?_getD, hu]
  exact ⟨opening, closing⟩

/-- The advanced boot number goes to its copy alone (R134). -/
theorem Tlg.scanWrite_boot (t : Tlg) (second : Bool) (v : Nat) :
    (t.scanWrite (.boot second v)).bootFirst = (if second = true then t.bootFirst else .valid v)
      ∧ (t.scanWrite (.boot second v)).bootSecond = (if second = true then .valid v else t.bootSecond)
      ∧ (t.scanWrite (.boot second v)).slots = t.slots := by cases second <;> exact ⟨rfl, rfl, rfl⟩

/-- The start sequence ends with what the entry into service has left; the line is cleared and the nozzles are read. -/
theorem Part.blocks_scanEnd (p : Part) (r : Readings) : (p.scanEnd r).snc = (p.scanned.intoService r).snc
    ∧ (p.scanEnd r).inv = (p.scanned.intoService r).inv ∧ (p.scanEnd r).alc = (p.scanned.intoService r).alc := ⟨rfl, rfl, rfl⟩

/-- Settles O52: the blocks are those that the entry into service leaves, and the memory is that of the scan's writes. -/
theorem scanWritesDone : Obligations.ScanWritesDone := by
  unfold Obligations.ScanWritesDone
  intro s r hstage
  have cfl : (s.part.scanned.intoService r).cfl = s.part.cfl := congrArg (·.2.2.2) (s.part.scanned.kept_intoService r)
  have pins : (s.part.scanned.intoService r).pins = s.part.pins := congrArg (·.2.2.1) (s.part.scanned.kept_intoService r)
  obtain ⟨snc, inv, alc⟩ := s.part.blocks_scanEnd r
  have fixed := s.part.fixed_scanEnd r
  obtain ⟨number, mark, checkpoints⟩ := s.part.tlg.scanWritesTo_marks s.part.tlg.scanWrites
  refine ⟨_, exec_scanWritesDone hstage r, ?cfl, ?done, rfl, rfl, rfl, ?fault, ?loaded, ?nozzles, ?kept, ?memory, ?number, ?areas⟩
  case cfl => exact congrArg (fun c : Cfl => { c with stage := .running }) cfl
  case done => exact congrArg (·.2.2.2.2.2.1) fixed
  case fault =>
    intro hs
    rw [snc, inv, alc, Part.intoService_fault (p := s.part.scanned) hs]
    exact ⟨rfl, rfl, rfl⟩
  case loaded =>
    intro st hs
    have frame := s.part.scanned.sampleFrame_beginSampling r
    have now : (s.part.scanned.beginSampling r).now = s.part.now := Part.now_beginSampling _ r
    have sampled : (s.part.scanned.beginSampling r).cfl.settings = some st := by
      rw [Part.cfl_beginSampling]
      exact hs
    rw [snc, inv, alc, Part.intoService_loaded (p := s.part.scanned) hs, Part.joinNet_eq (by exact sampled),
      ← now]
    exact ⟨rfl, rfl, rfl, rfl, rfl, ⟨_, rfl, rfl⟩, (congrArg (·.1) frame).trans (by rw [now]; rfl), rfl, rfl, rfl⟩
  case nozzles =>
    intro h hn
    have lifted : (s.part.scanEnd r).hose h = { (s.part.scanned.intoService r).hose h with nozzle := .offHook, dsc := .lifted } :=
      Part.hose_readNozzles (p := s.part.scanned.intoService r) (by rw [pins]; exact hn)
    rw [lifted]
    exact ⟨rfl, rfl⟩
  case kept => exact congrArg (fun f => (f.1, f.2.1, f.2.2.1)) (s.part.scanned.kept_intoService r)
  case memory =>
    intro second v closings hw hclosings
    rw [hw] at fixed
    obtain ⟨first, copy, slots⟩ := Tlg.scanWritesTo_closings closings hclosings (s.part.tlg.scanWrite (.boot second v))
    obtain ⟨bootFirst, bootSecond, sameSlots⟩ := s.part.tlg.scanWrite_boot second v
    refine ⟨(congrArg (·.2.1.1) fixed).trans (first.trans bootFirst),
      (congrArg (·.2.1.2.1) fixed).trans (copy.trans bootSecond), fun i u hu => ?_⟩
    obtain ⟨w, hw, opening, closing⟩ := slots i u (by rw [sameSlots, hu])
    obtain ⟨nvOpening, nvClosing⟩ := Part.slot_of_fixed fixed hw
    rw [nvOpening, nvClosing]
    refine ⟨opening, fun k hk unique => ?_, fun hn => ?_⟩
    · obtain ⟨-, hn⟩ | ⟨k', hk', written⟩ := closing
      · exact absurd hk (hn k)
      · rw [written, unique k' hk']
    · obtain ⟨stays, -⟩ | ⟨k', hk', -⟩ := closing
      · exact stays
      · exact absurd hk' (hn k')
  case number => exact (congrArg (·.2.1.2.2.1) fixed).trans number
  case areas =>
    rw [show (s.part.scanEnd r).tlg.markArea = _ from (congrArg (·.2.1.2.2.2) fixed).trans mark,
      show (s.part.scanEnd r).tlg.checkpoints = _ from (congrArg (·.2.2.1) fixed).trans checkpoints]

end Sys2Proof.Machine
end

section
/-! The response to the request in progress (11 R178) stands through the end of an event: what the hoses, the pumps and the log do there
offers notices and events alone. -/

namespace Sys2Proof.Machine

open Sys2Proof

section Response

variable (p : Part)

@[simp] theorem Part.response_event (e : Event) : (p.event e).cnl.response = p.cnl.response := by rw [Part.event_shape]; rfl

@[simp] theorem Part.response_offer (n : Notice) (y : Bool) : (p.offer n y).cnl.response = p.cnl.response := by
  rw [Part.offer_shape]
  rfl

theorem Part.response_offerStock : p.offerStock.cnl.response = p.cnl.response := by
  unfold Part.offerStock
  split
  · exact p.response_offer _ _
  · rfl

theorem Part.response_drainTest : p.drainTest.cnl.response = p.cnl.response := by
  unfold Part.drainTest Part.enterRequested Part.requestBay
  split
  · split
    · rw [Part.response_offer]
      exact p.response_event _
    · exact p.response_event _
  · rfl

variable (h : HoseId)

theorem Part.response_dropClaim : (p.dropClaim h).cnl.response = p.cnl.response := by
  unfold Part.dropClaim
  split
  · exact Part.response_offer _ _ _
  · rfl

theorem Part.response_endLoadout (x : Context) : (p.endLoadout x).cnl.response = p.cnl.response := by
  unfold Part.endLoadout
  split <;> rfl

theorem Part.response_stopBeforeFlow (c : Cause) : (p.stopBeforeFlow h c).cnl.response = p.cnl.response := by
  unfold Part.stopBeforeFlow
  split
  · rfl
  · simp only [Part.response_drainTest, Part.cnl_modHose, Part.response_endLoadout, Part.cnl_returnSlot, Part.response_dropClaim,
      Part.cnl_superviseOff, Part.cnl_modValves, Part.cnl_dropGrant, Part.cnl_withdraw, Part.response_event]

theorem Part.response_leaveCommitting : (p.leaveCommitting h).cnl.response = p.cnl.response := by
  unfold Part.leaveCommitting
  split
  · rfl
  · exact Part.response_drainTest _

theorem Part.response_enterShut : (p.enterShut h).cnl.response = p.cnl.response := by
  unfold Part.enterShut
  dsimp only
  generalize released : Part.dropGrant _ h = q
  have same : q.cnl = p.cnl := by rw [← released]; rfl
  rw [← same]
  split
  · exact q.response_leaveCommitting h
  · rfl

theorem Part.response_shutTest : (p.shutTest h).cnl.response = p.cnl.response := by
  unfold Part.shutTest
  split
  · exact p.response_enterShut h
  · rfl

@[simp] theorem Part.cnl_beginShutting : (p.beginShutting h).cnl = p.cnl := by
  unfold Part.beginShutting
  split <;> rfl

theorem Part.response_takeCause (c : Cause) : (p.takeCause h c).cnl.response = p.cnl.response := by
  unfold Part.takeCause
  split
  case h_3 =>
    dsimp only
    rw [Part.response_shutTest, Part.cnl_beginShutting]
    exact Part.response_event _ _
  case h_1 => exact p.response_stopBeforeFlow h c
  case h_2 => exact p.response_stopBeforeFlow h c
  all_goals rfl

theorem Part.response_moveValves : (p.moveValves h).cnl.response = p.cnl.response := by
  unfold Part.moveValves
  split
  · rfl
  · dsimp only
    split
    · rfl
    · split
      · rw [Part.response_takeCause, Part.cnl_beginShutting]
        rfl
      · rfl

theorem Part.response_startFlow : (p.startFlow h).cnl.response = p.cnl.response := by
  unfold Part.startFlow
  split
  · exact Part.response_moveValves _ h
  · rfl

theorem response_foldHoses {f : Part → HoseId → Part} (hf : ∀ p h, (f p h).cnl.response = p.cnl.response) (l : List HoseId) :
    (l.foldl f p).cnl.response = p.cnl.response := by
  induction l generalizing p with
  | nil => rfl
  | cons h l ih => rw [List.foldl_cons, ih, hf]

theorem Part.response_startFlows (starts : List HoseId) : (p.startFlows starts).cnl.response = p.cnl.response := by
  refine response_foldHoses p (fun q h => ?_) _
  split
  · exact q.response_startFlow h
  · rfl

theorem cnl_grantLoop (i : PumpId) (n : Nat) (starts : List HoseId) : (grantLoop i n p starts).1.cnl = p.cnl := by
  induction n generalizing p starts with
  | zero => rfl
  | succ n ih =>
    unfold grantLoop
    split
    · rfl
    · split
      · rfl
      · exact ih _ _

theorem Part.cnl_wakePump (i : PumpId) : (p.wakePump i).cnl = p.cnl := by
  unfold Part.wakePump
  split <;> rfl

theorem Part.cnl_restPump (i : PumpId) : (p.restPump i).cnl = p.cnl := by
  unfold Part.restPump
  split <;> rfl

theorem Part.cnl_arbitrate : p.arbitrate.1.cnl = p.cnl := by
  unfold Part.arbitrate
  split
  · rfl
  · dsimp only
    rw [cnl_grantLoop, cnl_grantLoop, Part.cnl_wakePump, Part.cnl_wakePump]

theorem response_settlePumps (n : Nat) : (settlePumps n p).cnl.response = p.cnl.response := by
  induction n generalizing p with
  | zero => exact congrArg Cnl.response ((Part.cnl_restPump _ .p2).trans (p.cnl_restPump .p1))
  | succ n ih =>
    unfold settlePumps
    dsimp only
    split
    · rw [Part.cnl_restPump, Part.cnl_restPump, Part.cnl_arbitrate]
    · rw [ih, Part.response_startFlows, Part.cnl_arbitrate]

theorem Part.response_joinRequests (b : Part) : (b.joinRequests p).cnl.response = p.cnl.response := by
  refine response_foldHoses p (fun q h => ?_) _
  unfold Part.joinRequest
  split
  · unfold Part.queueOpening
    split <;> rfl
  · split
    · unfold Part.queueCheckpoint Part.checkpoint
      dsimp only
      repeat' split
      all_goals rfl
    · rfl

theorem response_settle (b : Part) : (settle b p).cnl.response = p.cnl.response := by
  have hoses : (settleHoses b p).cnl.response = p.cnl.response := (Part.response_joinRequests _ b).trans (response_settlePumps p 5)
  unfold settle finish
  split
  · exact hoses
  · exact (Part.response_offerStock _).trans hoses

end Response

end Sys2Proof.Machine
end

section
/-! O54 (10 R175, R177): RELOAD requested, and a RELOAD whose load ends in FAULT. -/

namespace Sys2Proof.Machine

open Sys2Proof

/-! ## The request (R175) -/

theorem Part.allIdle_iff (p : Part) : p.allIdle = true ↔ ∀ h, (p.hose h).dsc = .idle := by
  unfold Part.allIdle
  rw [allHoses_all]
  exact forall_congr' fun h => beq_iff_eq

/-- What RELOAD is taken on (R175). -/
theorem Part.reloadable_iff (p : Part) :
    (p.allIdle && p.rsc.state == .normal) = true ↔ (∀ h, (p.hose h).dsc = .idle) ∧ p.rsc.state = .normal := by
  rw [Bool.and_eq_true, Part.allIdle_iff, beq_iff_eq]

section Request

variable {s : State} (free : s.part.LineFree)
include free

theorem exec_reload : exec .reload s = s.goesTo s.part.reloadRequest := by
  simp only [exec, execReload, exec_next, free.request]

theorem exec_reload_busy (hb : (∃ h, (s.part.hose h).dsc ≠ .idle) ∨ s.part.rsc.state ≠ .normal) :
    exec .reload s = s.goesTo (s.part.refuse .busy) := by
  rw [exec_reload free]
  unfold Part.reloadRequest
  rw [if_neg]
  rw [Part.reloadable_iff]
  rintro ⟨idle, normal⟩
  obtain ⟨h, hd⟩ | hn := hb
  · exact hd (idle h)
  · exact hn normal

variable (idle : ∀ h, (s.part.hose h).dsc = .idle) (normal : s.part.rsc.state = .normal)
include idle normal

theorem exec_reload_taken {n : Nat} (hn : s.part.cfl.station = some n) : exec .reload s = s.goesTo
    ((s.part.setCfl { s.part.cfl with load := .loading }).setCnl { s.part.cnl with reloading := true }) := by
  rw [exec_reload free]
  unfold Part.reloadRequest
  rw [if_pos (s.part.reloadable_iff.mpr ⟨idle, normal⟩), hn]

/-- With a strap fault the load ends at once (R169). -/
theorem exec_reload_unstrapped (hn : s.part.cfl.station = none) :
    exec .reload s = s.goesTo (s.part.reloadFault (loadFor none none)) := by
  rw [exec_reload free]
  unfold Part.reloadRequest
  rw [if_pos (s.part.reloadable_iff.mpr ⟨idle, normal⟩), hn]

end Request

/-! ## The end of the load -/

section Ends

variable {s : State} (hstage : s.part.cfl.stage = .running) (hreload : s.part.cnl.reloading = true)
  (store : Option (List Byte)) (r : Readings)
include hstage hreload

theorem exec_imageLoadEnd_reload : exec (.imageLoadEnd store r) s = s.goesTo (s.part.reloadEnd store r) := by
  simp only [exec, execImageLoadEnd, exec_next]
  rw [if_neg (by rw [hstage]; decide), if_pos hreload]

variable {n : Nat} (hstation : s.part.cfl.station = some n)
include hstation

theorem exec_imageLoadEnd_fault (hc : (loadImage n store).content = none) :
    exec (.imageLoadEnd store r) s = s.goesTo (s.part.reloadFault (loadImage n store)) := by
  have loaded : loadFor s.part.cfl.station store = loadImage n store := by rw [hstation]; rfl
  rw [exec_imageLoadEnd_reload hstage hreload]
  unfold Part.reloadEnd
  simp only [loaded, hc]

theorem exec_imageLoadEnd_good {st : Settings} {entries : List MachineEntry} (hc : (loadImage n store).content = some (st, entries)) :
    exec (.imageLoadEnd store r) s = s.goesTo (s.part.reloadGood (loadImage n store) st entries r) := by
  have loaded : loadFor s.part.cfl.station store = loadImage n store := by rw [hstation]; rfl
  rw [exec_imageLoadEnd_reload hstage hreload]
  unfold Part.reloadEnd
  simp only [loaded, hc]

end Ends

end Sys2Proof.Machine
end

section
/-! O54 (10 R176): a RELOAD that ends in GOOD, block by block. -/

namespace Sys2Proof.Machine

open Sys2Proof

/-! ## The first sample after the histories were emptied (08 R144, R146) -/

/-- One sample settles no history, so it opens no book. -/
theorem Compartment.sample_first {k : Compartment} (hk : k.history = []) (cs : CompSettings) (level temp : Int) :
    (k.sample cs level temp).settled = false ∧ (k.sample cs level temp).openingBook = k.openingBook
      ∧ (k.sample cs level temp).book = k.book := by
  have one (v : Nat) : settledOf cs (joinHistory k.history v) = false := by simp [hk, joinHistory, settledOf]
  unfold Compartment.sample
  dsimp only
  rw [Compartment.openBook_unsettled (by exact one _)]
  exact ⟨one _, rfl, rfl⟩

theorem Part.stockTests_unsettled {p : Part} {c : CompId} (hc : (p.comp c).settled = false) (cs : CompSettings) :
    p.stockTests c cs = p := by
  unfold Part.stockTests
  dsimp only
  rw [if_neg (by simp [hc])]

theorem Part.testSample_unsettled {p : Part} {st : Settings} (hs : p.cfl.settings = some st)
    (hc : ∀ c, (p.comp c).settled = false) : p.testSample = p.restockTrigger st := by
  rw [Part.testSample_eq hs, Part.stockTests_unsettled (hc .a), Part.stockTests_unsettled (hc .b)]

/-! ## What sampling leaves of the net and of the allotment controller -/

/-- What a RELOAD claims of the net and of the allotment controller, the listen state apart. -/
def Part.netFrame (p : Part) : Bool × Nat × List Peer × List PeerClaim × Nat :=
  (p.snc.joined, p.snc.cursor, p.snc.peers, p.alc.peerClaims, p.alc.shift)

theorem Stays.netFrame_eq {free : Prop} {p q : Part} (hq : Stays free p q) : q.netFrame = p.netFrame := by
  have net := congrArg (fun c : Snc => (c.joined, c.cursor, c.peers)) hq.snc_eq
  have claims := congrArg (fun c : Alc => (c.peerClaims, c.shift)) hq.alc_eq
  exact congrArg₂ (fun (a : Bool × Nat × List Peer) (b : List PeerClaim × Nat) => (a.1, a.2.1, a.2.2, b)) net claims

theorem Part.netFrame_lowTest (p : Part) (c : CompId) (cs : CompSettings) : (p.lowTest c cs).netFrame = p.netFrame := by
  unfold Part.lowTest
  split
  · rfl
  · split
    · split <;> rfl
    · split
      · exact (Part.stays_stopLow (p.modComp c fun k => { k with low := true }) c).netFrame_eq
      · rfl

theorem Part.netFrame_restockTrigger (p : Part) (st : Settings) : (p.restockTrigger st).netFrame = p.netFrame := by
  unfold Part.restockTrigger
  split
  · dsimp only
    split
    · exact (Part.stays_enterDraining _).netFrame_eq
    · rfl
  · rfl

theorem Part.netFrame_lowTested (p : Part) (r : Readings) (st : Settings) : (p.lowTested r st).netFrame = p.netFrame := by
  unfold Part.lowTested
  rw [Part.netFrame_lowTest, Part.netFrame_lowTest, (Part.stays_handTemperatures _).netFrame_eq]
  rfl

theorem Part.cfl_lowTested (p : Part) (r : Readings) (st : Settings) : (p.lowTested r st).cfl = p.cfl :=
  congrArg (·.2.2.2.2.2.1) (p.sampleFrame_lowTested r st)

/-- The part with its sample timer started (R142). -/
def Part.sampleTimed (p : Part) : Part := p.setInv { p.inv with sampleTimer := p.after (sec 2) }

theorem Part.comp_lowTested_first {p : Part} {c : CompId} (hh : (p.comp c).history = []) (r : Readings) (st : Settings) :
    ((p.lowTested r st).comp c).settled = false ∧ ((p.lowTested r st).comp c).openingBook = (p.comp c).openingBook
      ∧ ((p.lowTested r st).comp c).book = (p.comp c).book := by
  rw [Part.comp_lowTested]
  exact Compartment.sample_first hh _ _ _

section FirstSample

variable {p : Part} {st : Settings} (hs : p.cfl.settings = some st) (hh : ∀ c, (p.comp c).history = []) (r : Readings)
include hs hh

/-- Sampling begins on empty histories: the stock tests find nothing settled. -/
theorem Part.beginSampling_first : p.beginSampling r = (p.sampleTimed.lowTested r st).restockTrigger st := by
  show (p.sampleTimed.takeSample r).testSample = _
  rw [Part.takeSample_eq (p := p.sampleTimed) hs]
  exact Part.testSample_unsettled ((congrArg Cfl.settings (p.sampleTimed.cfl_lowTested r st)).trans hs)
    fun c => (Part.comp_lowTested_first (p := p.sampleTimed) (hh c) r st).1

theorem Part.netFrame_beginSampling : (p.beginSampling r).netFrame = p.netFrame := by
  rw [Part.beginSampling_first hs hh, Part.netFrame_restockTrigger, Part.netFrame_lowTested]
  rfl

/-- No book moves (08 R154). -/
theorem Part.books_beginSampling (c : CompId) : ((p.beginSampling r).comp c).openingBook = (p.comp c).openingBook
    ∧ ((p.beginSampling r).comp c).book = (p.comp c).book := by
  have settings : (p.sampleTimed.lowTested r st).cfl.settings = some st :=
    (congrArg Cfl.settings (p.sampleTimed.cfl_lowTested r st)).trans hs
  rw [Part.beginSampling_first hs hh, Part.comp_of_inv (Part.restockTrigger_spec _ st settings).2.1]
  exact (Part.comp_lowTested_first (p := p.sampleTimed) (hh c) r st).2

end FirstSample

/-! ## The image in force (R176) -/

theorem Part.reloadRole_shape (p : Part) (role : Role) : ∃ c, p.reloadRole role = p.setRsc c := by
  unfold Part.reloadRole
  dsimp only
  split
  · split <;> exact ⟨_, rfl⟩
  · exact ⟨_, rfl⟩

theorem Part.stays_reloadBays (p : Part) : Stays True p p.reloadBays := by
  unfold Part.reloadBays Part.trimBay
  split
  · split
    · split
      · exact .refl
      · exact (Stays.refl.revokeBay _ _ ‹_›).grantStep 2
    · exact .refl
  · exact .refl

theorem Compartment.emptied_books (k : Compartment) :
    k.emptied.history = [] ∧ k.emptied.openingBook = k.openingBook ∧ k.emptied.book = k.book := ⟨rfl, rfl, rfl⟩

theorem Part.comp_emptyHistories (p : Part) (c : CompId) : p.emptyHistories.comp c = (p.comp c).emptied := by cases c <;> rfl

section InForce

variable (p : Part) (r : LoadResult) (st : Settings) (entries : List MachineEntry)

/-- The machine table of the image, each row moved with its number. -/
def Part.reloadRows : List MachineRow := entries.map fun e => machineRow p.station (p.movedRow e) e

/-- The part with the image's settings in force, its tables still those of the image before. -/
def Part.imageLoaded : Part :=
  { p with cfl := p.cfl.loaded r, alc := { p.alc with peerClaims := [] }, snc := { p.snc with cursor := 0 } }

/-- The tables rebuilt, the lines read and the histories emptied. -/
def Part.tablesRebuilt : Part := ((p.rebuildMachines entries).readLines.stopSupervision).emptyHistories

theorem Part.blocks_tablesRebuilt : (p.tablesRebuilt entries).machines = p.reloadRows entries
    ∧ (p.tablesRebuilt entries).totals = p.totals ∧ (p.tablesRebuilt entries).now = p.now
    ∧ (p.tablesRebuilt entries).netFrame = p.netFrame := ⟨rfl, rfl, rfl, rfl⟩

theorem Part.blocks_putInForce : (p.putInForce r st entries).machines = p.reloadRows entries
    ∧ (p.putInForce r st entries).totals = p.totals ∧ (p.putInForce r st entries).now = p.now
    ∧ (p.putInForce r st entries).netFrame = (p.snc.joined, 0, p.snc.peers, [], p.alc.shift) := by
  obtain ⟨c, shape⟩ := ((p.imageLoaded r).tablesRebuilt entries).reloadRole_shape st.identity.role
  have inForce : p.putInForce r st entries = ((p.imageLoaded r).tablesRebuilt entries).setRsc c := shape
  rw [inForce]
  exact (p.imageLoaded r).blocks_tablesRebuilt entries

theorem Part.comp_putInForce (c : CompId) : (p.putInForce r st entries).comp c = (p.comp c).emptied := by
  rw [Part.comp_of_inv (p.putInForce_leaves r st entries).2.2.2.2, Part.comp_emptyHistories]

theorem Part.entries_reloadRows : (p.reloadRows entries).map (·.entry) = entries := by
  unfold Part.reloadRows
  rw [List.map_map]
  exact List.map_id entries

/-- The hold state is the image's (02 R33), and the row is the machine number's (03 R41). -/
theorem Part.mem_reloadRows {m : MachineRow} (hm : m ∈ p.reloadRows entries) :
    m.hold = { held := m.entry.held, reason := m.entry.reason, version := 0, author := p.station }
      ∧ ∀ o, p.machines.find? (fun o => o.entry.number == m.entry.number) = some o → m.drawn = o.drawn := by
  obtain ⟨e, -, rfl⟩ := List.mem_map.mp hm
  refine ⟨rfl, fun o ho => ?_⟩
  show p.movedRow e = o.drawn
  unfold Part.movedRow
  rw [show (p.machines.find? fun m => m.entry.number == e.number) = some o from ho]

end InForce

/-! ## The blocks of the part after the RELOAD -/

/-- The part when the sampling has begun. -/
def Part.reloadSampled (p : Part) (r : LoadResult) (st : Settings) (entries : List MachineEntry) (readings : Readings) : Part :=
  (p.putInForce r st entries).reloadBays.beginSampling readings

/-- The part when the listen time runs and the net is joined. -/
def Part.reloadJoined (p : Part) (r : LoadResult) (st : Settings) (entries : List MachineEntry) (readings : Readings) : Part :=
  let t := (p.reloadSampled r st entries readings).enterListen st.identity.listenTime
  if p.snc.joined then t else t.joinNet

/-- The part when the request is answered. -/
def Part.reloadAnswered (p : Part) (r : LoadResult) (st : Settings) (entries : List MachineEntry) (readings : Readings) : Part :=
  let t := p.reloadJoined r st entries readings
  (t.setCnl { t.cnl with reloading := false }).respond .okLoad

theorem Part.reloadGood_eq (p : Part) (r : LoadResult) (st : Settings) (entries : List MachineEntry) (readings : Readings) :
    p.reloadGood r st entries readings = settle (p.putInForce r st entries) (p.reloadAnswered r st entries readings) := rfl

theorem Part.stays_settle (p b : Part) : Stays True p (settle b p) := Stays.refl.settle (fun _ => trivial) b

theorem Part.reloadBays_ready (p : Part) (r : LoadResult) (st : Settings) (entries : List MachineEntry) :
    (p.putInForce r st entries).reloadBays.cfl = p.cfl.loaded r
      ∧ ∀ c, (p.putInForce r st entries).reloadBays.comp c = (p.comp c).emptied := by
  have bays := (p.putInForce r st entries).stays_reloadBays
  exact ⟨bays.cfl_eq.trans (p.putInForce_leaves r st entries).2.2.1,
    fun c => (Part.comp_of_inv bays.inv_eq c).trans (p.comp_putInForce r st entries c)⟩

section Reloaded

variable (p : Part) {r : LoadResult} {st : Settings} {entries : List MachineEntry} (hr : r.content = some (st, entries))
  (readings : Readings)
include hr

theorem Cfl.settings_loaded (c : Cfl) : (c.loaded r).settings = some st := by
  show r.content.map (·.1) = some st
  rw [hr]
  rfl

theorem Part.blocks_reloadSampled :
    let q := p.reloadSampled r st entries readings
    q.inv.sampleTimer = some (p.now + 200000) ∧ q.machines = p.reloadRows entries ∧ q.totals = p.totals ∧ q.cfl = p.cfl.loaded r
      ∧ q.now = p.now ∧ q.netFrame = (p.snc.joined, 0, p.snc.peers, [], p.alc.shift)
      ∧ ∀ c, (q.comp c).openingBook = (p.comp c).openingBook ∧ (q.comp c).book = (p.comp c).book := by
  intro q
  obtain ⟨machines, totals, now, net⟩ := p.blocks_putInForce r st entries
  obtain ⟨cfl, comps⟩ := p.reloadBays_ready r st entries
  have bays := (p.putInForce r st entries).stays_reloadBays
  have loaded : (p.putInForce r st entries).reloadBays.cfl.settings = some st := by rw [cfl, Cfl.settings_loaded hr]
  have empty (c : CompId) : ((p.putInForce r st entries).reloadBays.comp c).history = [] := by rw [comps]; rfl
  have frame := (p.putInForce r st entries).reloadBays.sampleFrame_beginSampling readings
  rw [bays.machines_eq, bays.totals_eq, bays.now_eq, machines, totals, now, cfl] at frame
  refine ⟨congrArg (·.1) frame, congrArg (·.2.2.1) frame, congrArg (·.2.2.2.1) frame, congrArg (·.2.2.2.2.2.1) frame,
    congrArg (·.2.2.2.2.2.2) frame, ?_, fun c => ?_⟩
  · exact (Part.netFrame_beginSampling loaded empty readings).trans (bays.netFrame_eq.trans net)
  · have books := Part.books_beginSampling loaded empty readings c
    rw [comps] at books
    exact books

/-- The listen time runs, and the net is joined where it was not (R176, 01 R20). -/
theorem Part.blocks_reloadJoined :
    let q := p.reloadJoined r st entries readings
    q.inv.sampleTimer = some (p.now + 200000) ∧ q.machines = p.reloadRows entries ∧ q.totals = p.totals ∧ q.cfl = p.cfl.loaded r
      ∧ q.netFrame = (true, 0, p.snc.peers, [], p.alc.shift)
      ∧ q.alc.listen = (if st.identity.listenTime = 0 then .ready else .listen)
      ∧ q.alc.listenTimer = (if st.identity.listenTime = 0 then none else some (p.now + 100000 * st.identity.listenTime))
      ∧ ∀ c, (q.comp c).openingBook = (p.comp c).openingBook ∧ (q.comp c).book = (p.comp c).book := by
  intro q
  obtain ⟨timer, machines, totals, cfl, now, net, books⟩ := p.blocks_reloadSampled hr readings
  have q_eq : q = if p.snc.joined then (p.reloadSampled r st entries readings).enterListen st.identity.listenTime
    else ((p.reloadSampled r st entries readings).enterListen st.identity.listenTime).joinNet := rfl
  generalize p.reloadSampled r st entries readings = t at timer machines totals cfl now net books q_eq
  have loaded : t.cfl.settings = some st := by rw [cfl, Cfl.settings_loaded hr]
  rw [← now] at timer ⊢
  by_cases joined : p.snc.joined = true
  · rw [if_pos joined] at q_eq
    rw [joined] at net
    rw [q_eq]
    exact ⟨timer, machines, totals, cfl, net, rfl, rfl, books⟩
  · rw [if_neg joined, Part.joinNet_eq (p := t.enterListen st.identity.listenTime) loaded] at q_eq
    rw [q_eq]
    refine ⟨timer, machines, totals, cfl, ?_, rfl, rfl, books⟩
    exact congrArg (fun f : Bool × Nat × List Peer × List PeerClaim × Nat => (true, 0, f.2.2)) net

/-- The blocks of the part after a RELOAD that ends in GOOD: the end of the event moves none of them. -/
theorem Part.blocks_reloadGood :
    let q := p.reloadGood r st entries readings
    q.inv.sampleTimer = some (p.now + 200000) ∧ q.machines = p.reloadRows entries ∧ q.totals = p.totals ∧ q.cfl = p.cfl.loaded r
      ∧ q.netFrame = (true, 0, p.snc.peers, [], p.alc.shift)
      ∧ q.alc.listen = (if st.identity.listenTime = 0 then .ready else .listen)
      ∧ q.alc.listenTimer = (if st.identity.listenTime = 0 then none else some (p.now + 100000 * st.identity.listenTime))
      ∧ (∀ c, (q.comp c).openingBook = (p.comp c).openingBook ∧ (q.comp c).book = (p.comp c).book)
      ∧ q.cnl.response = some .okLoad ∧ q.cnl.reloading = false := by
  intro q
  have ends : Stays True (p.reloadAnswered r st entries readings) q := Part.stays_settle _ _
  obtain ⟨timer, machines, totals, cfl, net, listen, listenTimer, books⟩ := p.blocks_reloadJoined hr readings
  refine ⟨(congrArg Inv.sampleTimer ends.inv_eq).trans timer, ends.machines_eq.trans machines, ends.totals_eq.trans totals,
    ends.cfl_eq.trans cfl, ends.netFrame_eq.trans net, (congrArg Alc.listen ends.alc_eq).trans listen,
    (congrArg Alc.listenTimer ends.alc_eq).trans listenTimer, fun c => ?_, response_settle _ _, congrArg Cnl.reloading ends.cnl_eq⟩
  rw [Part.comp_of_inv ends.inv_eq]
  exact books c

end Reloaded

end Sys2Proof.Machine
end

section
/-! O54 (09 R168): the restock coordinator at a RELOAD that ends in GOOD, with no transaction on any hose. -/

namespace Sys2Proof.Machine

open Sys2Proof

/-! ## The bays that the image gives (R162, R163) -/

theorem Part.hasBay_loaded {p : Part} {st : Settings} (hs : p.cfl.settings = some st) (b : BayId) :
    p.hasBay b = decide (bayNumber b ≤ st.identity.bays) := by
  unfold Part.hasBay Part.identity
  rw [hs]
  rfl

theorem Part.depotFrame_grantStep (n : Nat) (p : Part) : (p.grantStep n).depotFrame = p.depotFrame := by
  induction n generalizing p with
  | zero => rfl
  | succ n ih =>
    unfold Part.grantStep
    split
    · rw [ih, Part.depotFrame_grantBay]
    · rfl

theorem Part.depotFrame_reloadBays (p : Part) : p.reloadBays.depotFrame = p.depotFrame := by
  unfold Part.reloadBays Part.trimBay
  split
  · split
    · split
      · rfl
      · rw [Part.depotFrame_grantStep, Part.depotFrame_revokeBay]
    · rfl
  · rfl

theorem Part.reloadBays_bowser {p : Part} (hr : p.role = some .bowser) : p.reloadBays = p := by
  unfold Part.reloadBays
  rw [if_neg (by rw [hr]; decide)]

theorem Part.reloadBays_kept {p : Part} (hb : p.rsc.bays.b2 = none ∨ p.hasBay .b2 = true) : p.reloadBays = p := by
  unfold Part.reloadBays Part.trimBay
  split
  · split
    · rename_i e he
      rw [if_pos (hb.resolve_left (by rw [show p.rsc.bays.b2 = some e from he]; exact nofun))]
    · rfl
  · rfl

/-- The grant of a bay that is gone is revoked, and no bay is free for the grant step that follows. -/
theorem Part.rsc_reloadBays_revoked {p : Part} {w e : BayEntry} (hr : p.role = some .depot) (hb : p.rsc.bays = ⟨some w, some e⟩)
    (hn : p.hasBay .b2 = false) : p.reloadBays.rsc =
      { p.rsc with
        bays := ⟨some w, none⟩, arrival := p.rsc.arrival + 1
        queue := insertEntry (e.requeued p.rsc.arrival) p.rsc.queue } := by
  have revoked : p.reloadBays = (p.revokeBay .b2 e).grantStep 2 := by
    unfold Part.reloadBays Part.trimBay
    rw [if_pos hr, hb]
    exact if_neg (by rw [hn]; decide)
  have rsc := p.rsc_revokeBay .b2 e
  rw [hb] at rsc
  have bay : (p.revokeBay .b2 e).hasBay .b2 = false := by
    unfold Part.hasBay Part.identity at hn ⊢
    rw [Part.cfl_revokeBay]
    exact hn
  have full : (p.revokeBay .b2 e).freeBay = none := by
    unfold Part.freeBay
    rw [rsc, bay]
    simp [ByBay.set]
  rw [revoked, Part.grantStep_full _ _ full, rsc]
  rfl

/-! ## The sample event of the load -/

theorem Part.pumps_restockTrigger (p : Part) (st : Settings) : (p.restockTrigger st).pumps = p.pumps := by
  unfold Part.restockTrigger Part.enterDraining Part.enterRequested Part.requestBay
  split
  · dsimp only
    split
    · split
      · split
        · rw [(SameRest.of_offer _ _ _).pumps]
          simp [Part.setRestock]
        · rfl
      · rfl
    · rfl
  · rfl

theorem Part.atRest_testSample (p : Part) : p.testSample.hoses = p.hoses ∧ p.testSample.pumps = p.pumps := by
  cases hs : p.cfl.settings with
  | none =>
    unfold Part.testSample
    rw [hs]
    exact ⟨rfl, rfl⟩
  | some st =>
    have tested := (SameRest.of_stockTests p .a st.comps.a).trans (SameRest.of_stockTests _ .b st.comps.b)
    rw [Part.testSample_eq hs, (Part.restockTrigger_spec _ st (by rw [tested.cfl, hs])).1, Part.pumps_restockTrigger]
    exact ⟨tested.hoses, tested.pumps⟩

theorem Part.atRest_joinNet (p : Part) : p.joinNet.hoses = p.hoses ∧ p.joinNet.pumps = p.pumps ∧ p.joinNet.rsc = p.rsc := by
  unfold Part.joinNet
  exact ⟨(SameRest.of_offerStock _).hoses, (SameRest.of_offerStock _).pumps, (SameRest.of_offerStock _).rsc⟩

/-- The part when the first sample under the new image is taken. -/
def Part.reloadRead (p : Part) (r : LoadResult) (st : Settings) (entries : List MachineEntry) (readings : Readings) : Part :=
  (p.putInForce r st entries).reloadBays.sampleTimed.takeSample readings

theorem Part.reloadSampled_eq (p : Part) (r : LoadResult) (st : Settings) (entries : List MachineEntry) (readings : Readings) :
    p.reloadSampled r st entries readings = (p.reloadRead r st entries readings).testSample := rfl

section AtRest

variable {p : Part} (rest : ∀ h, (p.hose h).dsc = .idle ∨ (p.hose h).dsc = .lifted) (r : LoadResult) (st : Settings)
  (entries : List MachineEntry) (readings : Readings)
include rest

/-- With no transaction on any hose the first sample stops nothing. -/
theorem Part.reloadRead_atRest :
    let q := p.reloadRead r st entries readings
    q.hoses = (p.putInForce r st entries).hoses ∧ q.pumps = p.pumps ∧ q.rsc = (p.putInForce r st entries).reloadBays.rsc
      ∧ q.cfl = p.cfl.loaded r ∧ (∀ h, (q.hose h).dsc = .idle ∨ (q.hose h).dsc = .lifted)
      ∧ ∀ c, (q.comp c).openingBook = (p.comp c).openingBook ∧ (q.comp c).book = (p.comp c).book := by
  intro q
  obtain ⟨dsc, pumps, -, -, -⟩ := p.putInForce_leaves r st entries
  obtain ⟨cfl, comps⟩ := p.reloadBays_ready r st entries
  have frame := (p.putInForce r st entries).depotFrame_reloadBays
  have idle (h : HoseId) : ((p.putInForce r st entries).reloadBays.sampleTimed.hose h).dsc = .idle
      ∨ ((p.putInForce r st entries).reloadBays.sampleTimed.hose h).dsc = .lifted := by
    have same : (p.putInForce r st entries).reloadBays.sampleTimed.hose h = (p.putInForce r st entries).hose h :=
      congrArg (Quad.get · h) (congrArg (·.1) frame)
    rw [same, dsc]
    exact rest h
  have taken : SameRest (p.putInForce r st entries).reloadBays.sampleTimed q :=
    SameRest.of_takeSample _ readings (fun c => congrArg Compartment.history (comps c)) idle
  refine ⟨taken.hoses.trans (congrArg (·.1) frame), taken.pumps.trans ((congrArg (·.2.1) frame).trans pumps), taken.rsc,
    taken.cfl.trans cfl, taken.idle idle, fun c => ?_⟩
  have emptied : (p.putInForce r st entries).reloadBays.sampleTimed.comp c = (p.comp c).emptied := comps c
  have books := taken.books c
  rw [emptied] at books
  exact books

/-- With nothing to arbitrate and no hose that asks the log, the end of the event leaves the restock coordinator as the sample
event left it. -/
theorem Part.rsc_reloadGood (quiet : p.Quiet) :
    (p.reloadGood r st entries readings).rsc = (p.reloadSampled r st entries readings).rsc := by
  have answered : (p.reloadAnswered r st entries readings).hoses = (p.reloadSampled r st entries readings).hoses
      ∧ (p.reloadAnswered r st entries readings).pumps = (p.reloadSampled r st entries readings).pumps
      ∧ (p.reloadAnswered r st entries readings).rsc = (p.reloadSampled r st entries readings).rsc := by
    unfold Part.reloadAnswered Part.reloadJoined
    generalize p.reloadSampled r st entries readings = t
    dsimp only
    split
    · exact ⟨rfl, rfl, rfl⟩
    · exact Part.atRest_joinNet (t.enterListen st.identity.listenTime)
  obtain ⟨hoses, pumps, rsc⟩ := answered
  obtain ⟨readHoses, readPumps, -⟩ := Part.reloadRead_atRest rest r st entries readings
  obtain ⟨testedHoses, testedPumps⟩ := (p.reloadRead r st entries readings).atRest_testSample
  have same (h : HoseId) : (p.reloadAnswered r st entries readings).hose h = (p.putInForce r st entries).hose h :=
    congrArg (Quad.get · h) (hoses.trans (testedHoses.trans readHoses))
  have still : (p.reloadAnswered r st entries readings).Quiet := quiet.of_pumps (pumps.trans (testedPumps.trans readPumps))
  rw [Part.reloadGood_eq, settle, rsc_finish, still.settleHoses_eq (fun h => by rw [same]; exact id) fun h => by rw [same], rsc]

end AtRest

/-! ## The roles (R168) -/

section Roles

variable {p : Part} {r : LoadResult} {st : Settings} {entries : List MachineEntry}

section InForce

variable (hr : r.content = some (st, entries))
include hr

theorem Part.settings_putInForce : (p.putInForce r st entries).cfl.settings = some st := by
  rw [(p.putInForce_leaves r st entries).2.2.1, Cfl.settings_loaded hr]

theorem Part.role_putInForce : (p.putInForce r st entries).role = some st.identity.role := by
  unfold Part.role
  rw [Part.settings_putInForce hr]
  rfl

end InForce

section Thawed

variable (thawed : p.rsc.frozenAt = none)
include thawed

/-- A role that stays keeps the restock coordinator. -/
theorem Part.rsc_putInForce_same (hrole : p.rsc.roleInForce = some st.identity.role) :
    (p.putInForce r st entries).rsc = p.rsc := by
  rw [(p.putInForce_leaves r st entries).2.2.2.1, p.rsc_reloadRole _ _ thawed hrole, if_pos rfl, ← hrole]

/-- A change of role empties the queue, frees the bays and starts the bowser side anew. -/
theorem Part.rsc_putInForce_other {old : Role} (hold : p.rsc.roleInForce = some old) (hne : old ≠ st.identity.role) :
    (p.putInForce r st entries).rsc =
      { p.rsc with
        roleInForce := some st.identity.role, queue := [], bays := ⟨none, none⟩, state := .normal, grant := none
        awaited := ⟨false, false⟩, repeatTimer := none, armed := ⟨true, true⟩ } := by
  rw [(p.putInForce_leaves r st entries).2.2.2.1, p.rsc_reloadRole _ _ thawed hold, if_neg hne]

end Thawed

section Sampled

variable (rest : ∀ h, (p.hose h).dsc = .idle ∨ (p.hose h).dsc = .lifted) (hr : r.content = some (st, entries)) (readings : Readings)
include rest hr

/-- At a depot the sample event leaves the restock coordinator alone. -/
theorem Part.rsc_reloadSampled_depot (hrole : st.identity.role = .depot) :
    (p.reloadSampled r st entries readings).rsc = (p.putInForce r st entries).reloadBays.rsc := by
  obtain ⟨-, -, rsc, cfl, -, -⟩ := Part.reloadRead_atRest rest r st entries readings
  have tested : SameRest (p.reloadRead r st entries readings) (p.reloadRead r st entries readings).testSample := by
    refine SameRest.of_testSample _ fun st' hst' => ?_
    rw [cfl, Cfl.settings_loaded hr] at hst'
    cases hst'
    exact hrole
  exact tested.rsc.trans rsc

variable (hrole : st.identity.role = .bowser)
include hrole

theorem Part.rsc_reloadRead_bowser : (p.reloadRead r st entries readings).rsc = (p.putInForce r st entries).rsc := by
  obtain ⟨-, -, rsc, -, -, -⟩ := Part.reloadRead_atRest rest r st entries readings
  rw [rsc, Part.reloadBays_bowser (by rw [Part.role_putInForce hr, hrole])]

/-- At a bowser in NORMAL it may trigger a restock, and leaves queue, bays and grant alone (R156). -/
theorem Part.rsc_reloadSampled_bowser (normal : (p.putInForce r st entries).rsc.state = .normal) :
    let c := (p.reloadSampled r st entries readings).rsc
    c.queue = (p.putInForce r st entries).rsc.queue ∧ c.bays = (p.putInForce r st entries).rsc.bays
      ∧ c.grant = (p.putInForce r st entries).rsc.grant ∧ (c.state = .normal ∨ c.state = .requested) := by
  obtain ⟨-, -, -, -, idle, -⟩ := Part.reloadRead_atRest rest r st entries readings
  have read := Part.rsc_reloadRead_bowser rest hr readings hrole
  rw [← read] at normal ⊢
  obtain ⟨-, -, queue, bays, grant, state⟩ := (p.reloadRead r st entries readings).testSample_bowser idle normal
  exact ⟨queue, bays, grant, state⟩

/-- Where no compartment arms or triggers, it leaves the restock coordinator alone (R156). -/
theorem Part.rsc_reloadSampled_untriggered
    (untriggered : ∀ k, (p.comp k).openingBook = none ∨ (p.putInForce r st entries).rsc.armed.get k = true
      ∧ ((st.comps.get k).autoRequest = false ∨ (((st.comps.get k).restockLevel * 100 : Nat) : Int) ≤ (p.comp k).book)) :
    (p.reloadSampled r st entries readings).rsc = (p.putInForce r st entries).rsc := by
  obtain ⟨-, -, -, cfl, -, books⟩ := Part.reloadRead_atRest rest r st entries readings
  have read := Part.rsc_reloadRead_bowser rest hr readings hrole
  have settings : (p.reloadRead r st entries readings).cfl.settings = some st := by rw [cfl, Cfl.settings_loaded hr]
  refine ((p.reloadRead r st entries readings).testSample_untriggered st settings fun k => ?_).1.trans read
  obtain ⟨opening, book⟩ := books k
  rw [opening, book, read]
  exact untriggered k

end Sampled

end Roles

/-! ## The obligation -/

/-- What a RELOAD that ends in FAULT leaves (R177). -/
theorem Part.blocks_reloadFault (p : Part) {r : LoadResult} (hr : r.content = none) :
    let q := p.reloadFault r
    q.cnl.response = some (.loadFault r.check) ∧ q.cnl.reloading = false ∧ q.cfl.load = .fault ∧ q.cfl.check = some r.check
      ∧ q.cfl.settings = none := by
  refine ⟨rfl, rfl, ?_, rfl, ?_⟩
  · show (if r.content.isSome then LoadState.good else .fault) = .fault
    rw [hr]
    rfl
  · show r.content.map (·.1) = none
    rw [hr]
    rfl

theorem Part.comp_reloadFault (p : Part) (r : LoadResult) (c : CompId) : (p.reloadFault r).comp c = (p.comp c).emptied := by
  cases c <;> rfl

theorem Part.pump_reloadFault (p : Part) (r : LoadResult) (i : PumpId) : (p.reloadFault r).pumps.get i = (p.pumps.get i).stop := by
  cases i <;> rfl

/-- Settles O54: the request, the load that ends in FAULT, the blocks of one that ends in GOOD, and its restock coordinator by the
roles before and after. -/
theorem reload : Obligations.Reload := by
  unfold Obligations.Reload
  refine ⟨fun s free => ⟨exec_reload_busy free, fun idle normal => ⟨fun n hn => exec_reload_taken free idle normal hn, ?unstrapped⟩⟩,
    fun s store r n hstage hreload hstation => ⟨?fault, ?good⟩, ?restock⟩
  case unstrapped =>
    intro hn
    obtain ⟨response, -, load, check, -⟩ := s.part.blocks_reloadFault (r := loadFor none none) rfl
    exact ⟨_, exec_reload_unstrapped free idle normal hn, load, check, response⟩
  case fault =>
    intro hc
    have empty : (loadImage n store).content = none := by
      rw [← Option.not_isSome_iff_eq_none, loadImage_content]
      exact hc
    obtain ⟨response, reloading, load, check, settings⟩ := s.part.blocks_reloadFault empty
    refine ⟨_, exec_imageLoadEnd_fault hstage hreload store r hstation empty, response, reloading, load, check, settings, rfl, rfl,
      rfl, rfl, rfl, rfl, rfl, rfl, rfl, fun i => ?_, rfl, rfl, fun c => ?_, rfl⟩
    · rw [Part.pump_reloadFault]
      rfl
    · rw [Part.comp_reloadFault]
      exact ⟨rfl, rfl, rfl, rfl, rfl⟩
  case good =>
    intro st entries hc
    obtain ⟨timer, machines, totals, cfl, net, listen, listenTimer, books, response, reloading⟩ := s.part.blocks_reloadGood hc r
    have station : s.part.station = n := by
      unfold Part.station
      rw [hstation]
      rfl
    refine ⟨_, exec_imageLoadEnd_good hstage hreload store r hstation hc, response, reloading, ?_, ?_, ?_, ?_, fun m hm => ?_,
      congrArg (·.2.2.2.1) net, congrArg (·.2.2.2.2) net, listen, listenTimer, congrArg (·.1) net, congrArg (·.2.1) net,
      congrArg (·.2.2.1) net, timer, books, totals⟩
    · rw [cfl]
      show (if (loadImage n store).content.isSome then LoadState.good else .fault) = .good
      rw [hc]
      rfl
    · rw [cfl]
      exact congrArg some ((loadImage_content n store).mp (by rw [hc]; rfl))
    · rw [cfl, Cfl.settings_loaded hc]
    · rw [machines, Part.entries_reloadRows]
    · rw [machines] at hm
      obtain ⟨hold, drawn⟩ := Part.mem_reloadRows _ _ hm
      rw [station] at hold
      exact ⟨hold, drawn⟩
  case restock =>
    intro s store r n st entries hstage hreload hstation hc quiet rest thawed c
    have ends := Part.rsc_reloadGood rest (loadImage n store) st entries r quiet
    have bay (b : BayId) := Part.hasBay_loaded (Part.settings_putInForce (p := s.part) hc) b
    refine ⟨_, exec_imageLoadEnd_good hstage hreload store r hstation hc, ?_⟩
    rw [ends]
    refine ⟨fun hrole hold => ?_, fun hrole hold => ?_, fun hrole hold => ?_, fun hrole hold untriggered => ?_⟩
    · have kept : (s.part.putInForce (loadImage n store) st entries).rsc = c := Part.rsc_putInForce_same thawed (by rw [hold, hrole])
      rw [Part.rsc_reloadSampled_depot rest hc r hrole]
      refine ⟨fun hb => ?_, fun e w hb hone => ?_⟩
      · rw [Part.reloadBays_kept, kept]
        rw [kept, bay]
        exact hb.imp_right fun two => decide_eq_true two
      · rw [Part.rsc_reloadBays_revoked (w := w) (e := e) (by rw [Part.role_putInForce hc, hrole]) (by rw [kept, hb])
          (by rw [bay, hone]; decide), kept]
        rfl
    · rw [Part.rsc_reloadSampled_depot rest hc r hrole]
      have changed := Part.rsc_putInForce_other (r := loadImage n store) (entries := entries) thawed hold (by rw [hrole]; decide)
      rw [Part.reloadBays_kept (.inl (by rw [changed])), changed, hrole]
    · have changed := Part.rsc_putInForce_other (r := loadImage n store) (entries := entries) thawed hold (by rw [hrole]; decide)
      have sampled := Part.rsc_reloadSampled_bowser rest hc r hrole (by rw [changed])
      rw [changed] at sampled
      exact sampled
    · have kept : (s.part.putInForce (loadImage n store) st entries).rsc = c := Part.rsc_putInForce_same thawed (by rw [hold, hrole])
      rw [Part.rsc_reloadSampled_untriggered rest hc r hrole (by rw [kept]; exact untriggered), kept]

end Sys2Proof.Machine
end

section
/-! O59: the two inputs (05 R98, R99) and START (10 R173) keep the capacities of the part, and so does every step. -/

namespace Sys2Proof.Machine

open Sys2Proof

namespace Part.Bounded

variable {p : Part} (hp : p.Bounded)

/-! ## The two inputs -/

section Inputs

include hp

/-- The pins hold no capacity. -/
theorem setPins (x : Pins) : (p.setPins x).Bounded :=
  ⟨hp.events, hp.busy, hp.queue, hp.attempts, hp.peers, hp.slots, hp.totals, hp.log, hp.claims, hp.restock, hp.station⟩

theorem stays {q : Part} (hq : Stays True p q) : q.Bounded := hq.moves.bounded hp

/-- The release of an input (R98, R99). -/
theorem settle_released (x : Pins) : (settle p (p.setPins x)).Bounded :=
  (hp.setPins x).stays (Stays.refl.settle (fun _ => trivial) p)

/-- The assertion of the emergency input (R98, 06 R118). -/
theorem settle_emergencyStop : (settle p p.emergencyStop).Bounded :=
  have shut : Stays True (p.setPins { p.pins with emergency := true }) (p.setPins { p.pins with emergency := true }).shutDown :=
    shutDown_stays Stays.refl
  have told := shut.foldHoses allHoses (fun q h => q.takeCause h .emergency) fun _ h hr => hr.takeCause h .emergency
  (hp.setPins _).stays (told.settle (fun _ => trivial) p)

/-- What the power-fail warning leaves of the write queue is a part of it (07 R133). -/
theorem dropUnkept : (p.setTlg { p.tlg with queue := p.tlg.queue.filter WriteReq.kept }).Bounded :=
  have dropped : Moves True p (p.setTlg { p.tlg with queue := p.tlg.queue.filter WriteReq.kept }) :=
    Moves.refl.setTlg _ id fun hb => hb.of_queue (List.filter_sublist.map _) rfl
  dropped.bounded hp

/-- The power-fail warning (R99, 06 R119, 07 R133). -/
theorem settle_powerFailStop : (settle p p.powerFailStop).Bounded :=
  have shut : Stays True _ p.warned := shutDown_stays Stays.refl
  have told := shut.foldHoses allHoses (fun q h => q.powerFailHose h) fun _ h hr => powerFailHose_stays hr h
  ((hp.setPins { p.pins with powerFail := true }).dropUnkept).stays (told.settle (fun _ => trivial) p)

end Inputs

/-! ## START -/

/-- START empties every queue and table but the log's slots (R173). -/
theorem started (hs : p.tlg.slots.length = 1024) (straps : Nat) : (p.started straps).Bounded where
  events := bounded_reset.events
  busy := bounded_reset.busy
  queue := bounded_reset.queue
  attempts := bounded_reset.attempts
  peers := bounded_reset.peers
  slots := (List.length_map _).trans hs
  totals := bounded_reset.totals
  log := Tlg.Bounded.empty rfl rfl
  claims := bounded_reset.claims
  restock := Rsc.Bounded.empty rfl rfl
  station := by
    refine ⟨fun n hn => ?_, fun hset => absurd rfl hset⟩
    replace hn : (if 1 ≤ straps ∧ straps ≤ 14 then some straps else none) = some n := hn
    split at hn
    case isTrue range =>
      cases hn
      exact range
    case isFalse => exact absurd hn (Option.some_ne_none n).symm

/-! ## Every command -/

/-- START and the commands of the two inputs by what they leave, every other command by what it may move. -/
theorem exec {s : State} {q : Part} (hs : s.part.Bounded) (c : Instr) (hq : Machine.exec c s = s.goesTo q) : q.Bounded := by
  have goes {r : Part} (hr : Machine.exec c s = s.goesTo r) : q = r := by
    rw [hr] at hq
    simpa [State.goesTo] using hq.symm
  cases c with
  | start straps scanDone fate =>
    exact goes (exec_start s straps scanDone fate) ▸ started ((s.part.slots_powerCut scanDone fate).trans hs.slots) straps
  | emergencyAsserted =>
    cases he : s.part.pins.emergency with
    | true => exact goes (exec_emergencyAsserted_again he) ▸ hs
    | false => exact goes (exec_emergencyAsserted he) ▸ hs.settle_emergencyStop
  | powerFailWarning =>
    cases hp : s.part.pins.powerFail with
    | true => exact goes (exec_powerFailWarning_again hp) ▸ hs
    | false => exact goes (exec_powerFailWarning hp) ▸ hs.settle_powerFailStop
  | emergencyDeasserted => exact goes rfl ▸ hs.settle_released _
  | powerFailDeasserted => exact goes rfl ▸ hs.settle_released _
  | _ => exact (exec_moves _ s q (fun _ => trivial) (.inr trivial) hq nofun nofun nofun nofun nofun).bounded hs

end Part.Bounded

/-- What every command keeps of the part, every step keeps. -/
theorem step_keeps {P : Part → Prop} (hexec : ∀ (c : Instr) (s : State) (q : Part), P s.part → exec c s = s.goesTo q → P q)
    {s s' : State} (hs : P s.part) (hstep : step s = .next s') : P s'.part := by
  obtain ⟨pending, p⟩ := s
  cases pending with
  | nil =>
    cases hstep
    exact hs
  | cons c rest =>
    obtain ⟨q, hq⟩ := exec_goesTo c ⟨rest, p⟩
    have next : s' = { pending := rest, part := q } := by
      simpa [State.goesTo] using hstep.symm.trans hq
    rw [next]
    exact hexec c ⟨rest, p⟩ q hs hq

/-- Settles O59: START empties what holds a capacity but the log's slots, the two inputs only take from the queues and then shut the
valves as any stop does, and every other command moves the part within its capacities. -/
theorem stepKeepsBounded : Obligations.StepKeepsBounded :=
  fun _ _ hs hstep => step_keeps (P := Part.Bounded) (fun c _ _ h hq => h.exec c hq) hs hstep

end Sys2Proof.Machine
end

section
/-! O55: the console line (11 R178, R179): requests that find it busy, the answers sent, and messages that no check lets through. -/

namespace Sys2Proof.Machine

open Sys2Proof

/-! ## The line busy (R178) -/

/-- A BUSY answer more waits. -/
theorem Cnl.refuseBusy_waits {c : Cnl} (hw : c.busyWaiting < 4) : c.refuseBusy =
    { c with busyWaiting := c.busyWaiting + 1, busyCount := min (c.busyCount + 1) 65535 } := if_pos hw

/-- With four waiting the request is discarded. -/
theorem Cnl.refuseBusy_overrun {c : Cnl} (hw : 4 ≤ c.busyWaiting) : c.refuseBusy =
    { c with overrun := min (c.overrun + 1) 65535 } := if_neg (Nat.not_lt.mpr hw)

/-- Every message to the console comes to the part through the line. -/
theorem exec_consoleMessage (s : State) (m1 m2 : Field) (what : BadMessage) :
    ∀ c ∈ [Instr.status, .hose m1, .preset m1 m2, .stop m1, .keyed m1 m2, .hold m1 m2, .unhold m1, .shift, .restock,
      .restockCancel, .restockDone, .delivery m1 m2, .readlog m1, .release m1, .accounts, .peers, .diag, .events, .reload,
      .invalidRequest what], ∃ act, exec c s = s.goesTo (s.part.request act) := by
  simp only [List.forall_mem_cons]
  refine ⟨?_, ?_, ?_, ?_, ?_, ?_, ?_, ?_, ?_, ?_, ?_, ?_, ?_, ?_, ?_, ?_, ?_, ?_, ?_, ?_, List.forall_mem_nil _⟩ <;> exact ⟨_, rfl⟩

/-! ## The answers sent (R178) -/

theorem exec_responseSent (s : State) : exec .responseSent s = s.goesTo (s.part.setCnl s.part.cnl.sent) := rfl

theorem Cnl.sent_response {c : Cnl} {a : Response} (ha : c.response = some a) : c.sent = { c with response := none } :=
  if_pos (by rw [ha]; rfl)

/-- Without a response to send and without a load to wait for, the first BUSY answer has gone out. -/
theorem Cnl.sent_busy {c : Cnl} {n : Nat} (hr : c.response = none) (hl : c.reloading = false) (hw : c.busyWaiting = n + 1) :
    c.sent = { c with busyWaiting := n } := by
  unfold Cnl.sent
  rw [if_neg (by rw [hr]; decide), if_neg (by rw [hl]; decide), hw]
  rfl

/-! ## The checks of the fields (R179) -/

theorem hoseField_none {f : Field} (hf : f = none ∨ f = some 0 ∨ ∃ n, 4 < n ∧ f = some n) : hoseField f = none := by
  rcases hf with rfl | rfl | ⟨n, hn, rfl⟩
  · rfl
  · rfl
  · match n, hn with
    | _ + 5, _ => rfl

theorem sequenceField_none {n : Nat} (hn : 4294967295 < n) : sequenceField (some n) = none := if_neg (Nat.not_le.mpr hn)

section Fields

variable (p : Part)

section NoHose

variable {f : Field} (hf : hoseField f = none)
include hf

theorem Part.hoseRequest_noHose : p.hoseRequest f = p.refuse .badValue := by
  unfold Part.hoseRequest
  rw [hf]

theorem Part.stopRequest_noHose : p.stopRequest f = p.refuse .badValue := by
  unfold Part.stopRequest
  rw [hf]

theorem Part.presetRequest_noHose (g : Field) : p.presetRequest f g = p.refuse .badValue := by
  unfold Part.presetRequest
  rw [hf]

theorem Part.keyed_noHose (g : Field) : p.keyed f g = p.refuse .badValue := by
  unfold Part.keyed
  rw [hf]

end NoHose

theorem Part.presetRequest_noVolume (f : Field) : p.presetRequest f none = p.refuse .badValue := by
  unfold Part.presetRequest
  cases hoseField f <;> rfl

theorem Part.keyed_noMachine (f : Field) : p.keyed f none = p.refuse .badValue := by
  unfold Part.keyed
  cases hoseField f <;> rfl

theorem Part.holdRequest_noReason (f : Field) : p.holdRequest f none = p.refuse .badValue := by
  cases f <;> rfl

theorem Part.delivery_noGross (f : Field) : p.delivery f none = p.refuse .badValue := by
  unfold Part.delivery
  cases compField f <;> rfl

theorem Part.readlog_noSequence {f : Field} (hf : sequenceField f = none) : p.readlog f = p.refuse .badValue := by
  unfold Part.readlog
  rw [hf]

theorem Part.releaseRequest_noSequence {f : Field} (hf : sequenceField f = none) : p.releaseRequest f = p.refuse .badValue := by
  unfold Part.releaseRequest
  rw [hf]

end Fields

/-! ## The obligation -/

section Refused

variable {s : State} (free : s.part.LineFree)
include free

/-- A request that names no hose (R179). -/
theorem exec_noHose {f : Field} (hf : hoseField f = none) (g : Field) :
    ∀ c ∈ [Instr.hose f, .stop f, .preset f g, .keyed f g], exec c s = s.goesTo (s.part.refuse .badValue) := by
  simp only [List.forall_mem_cons]
  exact ⟨congrArg s.goesTo ((free.request _).trans (s.part.hoseRequest_noHose hf)),
    congrArg s.goesTo ((free.request _).trans (s.part.stopRequest_noHose hf)),
    congrArg s.goesTo ((free.request _).trans (s.part.presetRequest_noHose hf g)),
    congrArg s.goesTo ((free.request _).trans (s.part.keyed_noHose hf g)), List.forall_mem_nil _⟩

/-- READLOG and RELEASE without a sequence number in its range (R179). -/
theorem exec_noSequence {f : Field} (hf : sequenceField f = none) :
    exec (.readlog f) s = s.goesTo (s.part.refuse .badValue) ∧ exec (.release f) s = s.goesTo (s.part.refuse .badValue) :=
  ⟨congrArg s.goesTo ((free.request _).trans (s.part.readlog_noSequence hf)),
    congrArg s.goesTo ((free.request _).trans (s.part.releaseRequest_noSequence hf))⟩

/-- A request that lacks a field (R179). -/
theorem exec_missingField (f : Field) :
    ∀ c ∈ [Instr.preset f none, .keyed f none, .hold f none, .hold none f, .unhold none, .delivery f none, .delivery none f,
      .readlog none, .release none], exec c s = s.goesTo (s.part.refuse .badValue) := by
  obtain ⟨readlog, release⟩ := exec_noSequence free (f := none) rfl
  simp only [List.forall_mem_cons]
  exact ⟨congrArg s.goesTo ((free.request _).trans (s.part.presetRequest_noVolume f)),
    congrArg s.goesTo ((free.request _).trans (s.part.keyed_noMachine f)),
    congrArg s.goesTo ((free.request _).trans (s.part.holdRequest_noReason f)), congrArg s.goesTo (free.request _),
    congrArg s.goesTo (free.request _), congrArg s.goesTo ((free.request _).trans (s.part.delivery_noGross f)),
    congrArg s.goesTo (free.request _), readlog, release, List.forall_mem_nil _⟩

end Refused

/-- Settles O55: what finds the line busy goes no further than the line; the answers go out in their order; at a free line the checks
of the frame, the kind and the fields refuse before anything is done. -/
theorem consoleLine : Obligations.ConsoleLine := by
  refine ⟨fun s m1 m2 what busy c hc => ?_, fun s => ⟨fun a ha => ?_, fun n hr hl hw => ?_⟩, fun s free => ?_⟩
  · obtain ⟨act, taken⟩ := exec_consoleMessage s m1 m2 what c hc
    rw [taken, Part.request_busy (s.part.lineBusy_iff.mpr busy)]
    exact ⟨fun hw => by rw [Cnl.refuseBusy_waits hw], fun hw => by rw [Cnl.refuseBusy_overrun hw]⟩
  · rw [exec_responseSent, Cnl.sent_response ha]
  · rw [exec_responseSent, Cnl.sent_busy hr hl hw]
  · exact ⟨congrArg s.goesTo (free.request _), congrArg s.goesTo (free.request _),
      fun f hf g => exec_noHose free (hoseField_none hf) g, exec_missingField free,
      fun n hn => exec_noSequence free (sequenceField_none hn)⟩

end Sys2Proof.Machine
end

section
/-! O56: PRESET by hose state (11 R180, 05 R90). -/

namespace Sys2Proof.Machine

open Sys2Proof

/-! ## The pending buffer (05 R90) -/

/-- A value is taken into the pending buffer where it lowers the active preset and what already waits. -/
theorem Vsq.accepts_iff (v : Vsq) (value : Nat) :
    v.accepts value = true ↔ value < v.active ∧ ∀ w, v.pending = some w → value < w := by
  unfold Vsq.accepts
  cases v.pending with
  | none => simp
  | some w => simp [and_comm]

/-- A value that does not lower the preset is not written. -/
theorem Part.writePending_notLower {p : Part} {h : HoseId} {value : Nat} (hv : (p.hose h).valves.accepts value = false) :
    p.writePending h value = (p, false) := by
  unfold Part.writePending
  split
  · rfl
  · exact if_neg (by rw [hv, Bool.and_false]; exact Bool.false_ne_true)

/-- With the valves shut no load point depends on what waits (05 R91). -/
theorem Vsq.loadIfDue_shut {v : Vsq} (hv : v.phase = .shut) (st : HoseSettings) (gross : Nat) : v.loadIfDue st gross = v := by
  refine if_neg ?_
  unfold Vsq.loadDue
  rw [hv]
  split <;> exact Bool.false_ne_true

/-- While the hose authorises the value waits, and no valve moves. -/
theorem Part.writePending_authorising {p : Part} {h : HoseId} {st : HoseSettings} {value : Nat} (hd : (p.hose h).dsc = .authorising)
    (hst : p.hoseSettings h = some st) (hph : (p.hose h).valves.phase = .shut) (hv : (p.hose h).valves.accepts value = true) :
    p.writePending h value = (p.modValves h fun v => { v with pending := some value }, true) := by
  have waits : (p.modValves h fun v => ({ v with pending := some value } : Vsq).loadIfDue st (p.hose h).meter.gross) =
      p.modValves h fun v => { v with pending := some value } := Part.modValves_congr (Vsq.loadIfDue_shut (by exact hph) _ _)
  have still : (p.modValves h fun v => { v with pending := some value }).moveValves h =
      p.modValves h fun v => { v with pending := some value } :=
    Part.moveValves_shut hst (by rw [Part.hose_modValves_same]; dsimp only; rw [hph]; rfl)
  unfold Part.writePending
  simp only [hst, hd, hv, waits, still, Bool.and_self, if_true]

/-! ## A hose without a transaction -/

section Standing

variable {p : Part}

theorem Part.standingPreset_depot (hr : p.role = some .depot) (h : HoseId) (volume : Nat) :
    p.standingPreset h volume = p.refuse .wrongRole := if_pos (by rw [Part.presetDepot_of_role hr]; rfl)

/-- The volume's checks at a bowser. -/
theorem Part.standingPreset_bowser (hr : p.role = some .bowser) (h : HoseId) (volume : Nat) : p.standingPreset h volume =
    if volume = 0 then (p.respond .ok).modHose h fun u => { u with standing := none }
    else if 200 ≤ volume ∧ volume ≤ 6000000 then (p.respond .ok).modHose h fun u => { u with standing := some volume }
    else p.refuse .badValue := if_neg (by rw [Part.presetDepot_of_role hr]; decide)

end Standing

/-! ## An active hose -/

section Lowered

variable {p : Part} {h : HoseId} {volume : Nat}

theorem Part.lowerPreset_tooLarge (hv : 6000000 < volume) : p.lowerPreset h volume = p.refuse .badValue := if_pos hv

theorem Part.lowerPreset_notLower (hv : volume ≤ 6000000)
    (hn : (p.hose h).valves.active ≤ volume ∨ ∃ v, (p.hose h).valves.pending = some v ∧ v ≤ volume) :
    p.lowerPreset h volume = p.refuse .notLower := by
  have rejected : (p.hose h).valves.accepts volume = false := by
    rw [Bool.eq_false_iff, ne_eq, Vsq.accepts_iff]
    rintro ⟨active, pending⟩
    rcases hn with hle | ⟨v, hp, hle⟩
    · exact Nat.not_le.mpr active hle
    · exact Nat.not_le.mpr (pending v hp) hle
  unfold Part.lowerPreset
  rw [if_neg (Nat.not_lt.mpr hv), Part.writePending_notLower rejected]
  rfl

theorem Part.lowerPreset_authorising {st : HoseSettings} (hd : (p.hose h).dsc = .authorising) (quiet : p.Quiet)
    (hst : p.hoseSettings h = some st) (hph : (p.hose h).valves.phase = .shut) (hv : volume ≤ 6000000)
    (active : volume < (p.hose h).valves.active) (pending : ∀ v, (p.hose h).valves.pending = some v → volume < v) :
    p.lowerPreset h volume = (p.respond .ok).modValves h fun v => { v with pending := some volume } := by
  have accepted := ((p.hose h).valves.accepts_iff volume).mpr ⟨active, pending⟩
  unfold Part.lowerPreset
  rw [if_neg (Nat.not_lt.mpr hv), Part.writePending_authorising hd hst hph accepted]
  exact quiet.settle_one h rfl rfl (fun _ hk => by rw [Part.hose_respond, Part.hose_modValves_ne _ _ hk])
    (by rw [Part.hose_respond, Part.hose_modValves_same, Hose.begun_of_dsc rfl]; exact id)
    (by rw [Part.hose_respond, Part.hose_modValves_same])

end Lowered

/-! ## The obligation -/

section Requests

variable {s : State} {h : HoseId} {field : Nat} (free : s.part.LineFree) (hh : hoseField (some field) = some h)
include free hh

theorem exec_preset_standing (hd : (s.part.hose h).dsc = .idle ∨ (s.part.hose h).dsc = .lifted ∨ (s.part.hose h).dsc = .done)
    (volume : Nat) : exec (.preset (some field) (some volume)) s = s.goesTo (s.part.standingPreset h volume) := by
  refine congrArg s.goesTo ((free.request _).trans ?_)
  unfold Part.presetRequest
  rcases hd with hd | hd | hd <;> simp only [hh, hd]

theorem exec_preset_stopping (hd : (s.part.hose h).dsc = .stopping ∨ (s.part.hose h).dsc = .committing) (volume : Nat) :
    exec (.preset (some field) (some volume)) s = s.goesTo (s.part.refuse .badState) := by
  refine congrArg s.goesTo ((free.request _).trans ?_)
  unfold Part.presetRequest
  rcases hd with hd | hd <;> simp only [hh, hd]

theorem exec_preset_active
    (hd : (s.part.hose h).dsc = .authorising ∨ (s.part.hose h).dsc = .awaitPump ∨ (s.part.hose h).dsc = .flowing)
    (volume : Nat) : exec (.preset (some field) (some volume)) s = s.goesTo (s.part.lowerPreset h volume) := by
  refine congrArg s.goesTo ((free.request _).trans ?_)
  unfold Part.presetRequest
  rcases hd with hd | hd | hd <;> simp only [hh, hd]

end Requests

/-- Settles O56: a hose without a transaction by the role and the volume's range, an active hose by what the pending buffer takes;
while the hose authorises, the value waits and nothing else is due. -/
theorem presets : Obligations.Presets := by
  intro s h field volume free hh
  refine ⟨fun hd => ?standing, fun hd => exec_preset_stopping free hh hd volume, fun hd => ?active,
    fun st hd quiet hst hph hv active pending => ?taken⟩
  case standing =>
    rw [exec_preset_standing free hh hd]
    refine ⟨fun hr => by rw [Part.standingPreset_depot hr], fun hr => ?_⟩
    rw [Part.standingPreset_bowser hr]
    refine ⟨fun hz => by rw [if_pos hz], fun low high => ?_, fun outside => ?_⟩
    · rw [if_neg (by omega), if_pos ⟨low, high⟩]
    · rw [if_neg (by omega), if_neg (by omega)]
  case active =>
    rw [exec_preset_active free hh hd]
    exact ⟨fun hv => by rw [Part.lowerPreset_tooLarge hv], fun hv hn => by rw [Part.lowerPreset_notLower hv hn]⟩
  case taken =>
    rw [exec_preset_active free hh (.inl hd), Part.lowerPreset_authorising hd quiet hst hph hv active pending]

end Sys2Proof.Machine
end

section
/-! One step of the queue of commands: the command it takes, and that every command goes on. -/

namespace Sys2Proof.Machine

open Sys2Proof

/-- With no command waiting the part idles (log 1). -/
theorem step_idle (p : Part) : step ⟨[], p⟩ = .next ⟨[], p⟩ := rfl

/-- The command in front is taken, and runs on the queue's rest (log 1). -/
theorem step_front (c : Instr) (rest : List Instr) (p : Part) : step ⟨c :: rest, p⟩ = exec c ⟨rest, p⟩ := rfl

/-- Settles O1, by the two forms of the queue. -/
theorem stepTakesTheFront : Obligations.StepTakesTheFront := ⟨step_front, step_idle⟩

/-- Settles O2: every meaning answers a next state with the queue it met. -/
theorem noCommandStops : Obligations.NoCommandStops := exec_goesTo

end Sys2Proof.Machine
end

section
/-! The frame of a hose event: what the commands that act on a hose or a pump leave alone. -/

namespace Sys2Proof.Machine

open Sys2Proof

/-! ## Hose events: the restock coordinator, tags, valves, pumps and nozzles -/

namespace Stays

variable {free : Prop} {p q : Part}

/-- The restock coordinator's role in force, and the moment at which its timers stopped. -/
theorem restockRole_eq (hq : Stays free p q) : (q.rsc.roleInForce, q.rsc.frozenAt) = (p.rsc.roleInForce, p.rsc.frozenAt) := by
  induction hq with
  | setRsc _ r hrole hfrozen _ ih => rw [Part.rsc_setRsc, hrole, hfrozen, ih]
  | refl => rfl
  | setHose _ _ _ _ ih | setEvents _ _ _ _ ih | setQueue _ _ _ _ ih | setTlg _ _ _ _ ih | setPumps _ _ _ ih => exact ih
  | setRequestOrder _ _ ih | setCounter _ _ ih => exact ih

theorem readerFault (hq : Stays free p q) (h : HoseId) : Stays free p (q.readerFault h) := (hq.modReader h _).event _

theorem badPresent (hq : Stays free p q) (h : HoseId) : Stays free p (q.badPresent h) :=
  (hq.modReader h _).ite (((hq.modReader h _).readerFault h).ite (hq.modReader h _))

theorem takePresent (hq : Stays free p q) (h : HoseId) (code : TagCode) : Stays free p (q.takePresent h code) := by
  have read := hq.modReader h fun r => { r with fault := false, run := 0, readTag := some code, grace := none }
  unfold Part.takePresent
  dsimp only
  split
  · exact read.ite (read.takeCause h _)
  · exact (read.identify h _ _).ite read

theorem takeAbsent (hq : Stays free p q) (h : HoseId) : Stays free p (q.takeAbsent h) := hq.modReader h _

theorem tagReport (hq : Stays free p q) (h : HoseId) (report : TagReport) : Stays free p (q.tagReport h report) := by
  cases report with
  | present code check => exact (hq.takePresent h code).ite (hq.badPresent h)
  | malformed => exact hq.badPresent h
  | absent => exact hq.takeAbsent h
  | readerFault => exact hq.ite (hq.readerFault h)

/-- A valve replaced leaves the phase of its sequencer. -/
theorem setValve (hq : Stays free p q) (h : HoseId) (v : ValveId) (f : Vsq → Valve) :
    Stays free p (q.modValves h fun s => s.setValve v (f s)) :=
  hq.modValves h _ fun hf => Or.inl (by rwa [Vsq.phase_setValve] at hf)

theorem reported (hq : Stays free p q) (h : HoseId) (v : ValveId) (position : Position) :
    Stays free p (q.reported h v position) := hq.setValve h v _

theorem takeSwitch (hq : Stays free p q) (h : HoseId) (v : ValveId) (position : Position) :
    Stays free p (q.takeSwitch h v position) := ((hq.reported h v position).moveValves h).shutTest h

theorem positionFault (hq : Stays free p q) (h : HoseId) (v : ValveId) : Stays free p (q.positionFault h v) := by
  have counted := hq.setValve h v fun s =>
    { s.valve v with
      settle := none, faults := bump max16 (s.valve v).faults
      latch := (s.valve v).latch || commandOf v (q.hose h).valves.phase == .closed }
  exact (Stays.takeCause (((counted.beginShutting h).dropGrant h).ite counted) h _).shutTest h

theorem primed (hq : Stays free p q) (hfree : free) (i : PumpId) : Stays free p (q.primed i) :=
  (hq.modPump i _ fun _ => Or.inl).ite ((hq.modPump i _ fun _ => Or.inl).startFlows hfree _)

theorem lift (hq : Stays free p q) (h : HoseId) : Stays free p (q.lift h) := by
  have lifted := hq.modHose h (fun u => { u with nozzle := .offHook, dsc := if u.dsc = .idle then .lifted else u.dsc }) Or.inl
  unfold Part.lift
  dsimp only
  split
  · split
    · exact lifted.identify h _ _
    · exact lifted
  · exact lifted

theorem hang (hq : Stays free p q) (h : HoseId) : Stays free p (q.hang h) := by
  have hung := hq.modHose h
    (fun u => { u with nozzle := .onHook, standing := none, meter := { u.meter with creep := 0, creepSent := false } }) Or.inl
  have idle := (hung.modHose h Hose.toIdle Or.inl).drainTest
  unfold Part.hang
  dsimp only
  split
  · exact idle
  · exact idle
  · exact hung.takeCause h _

end Stays

/-! ## The frame -/

/-- What a command that acts on a hose or a pump leaves of a part, next to the levels of the pins. -/
def Part.HoseFramed (p : Part) (pins : Pins) (q : Part) : Prop :=
  q.pins = pins
  ∧ (q.cfl, q.machines, q.totals, q.inv, q.nextSecond, q.draws) = (p.cfl, p.machines, p.totals, p.inv, p.nextSecond, p.draws)
  ∧ q.alc = { p.alc with claimCounter := q.alc.claimCounter }
  ∧ q.snc = { p.snc with queue := q.snc.queue, txYielded := q.snc.txYielded, txDropped := q.snc.txDropped }
  ∧ q.cnl = { p.cnl with events := q.cnl.events, lost := q.cnl.lost, response := q.cnl.response }
  ∧ (q.tlg.slots.map fun u => (u.nvOpening, u.nvClosing)) = (p.tlg.slots.map fun u => (u.nvOpening, u.nvClosing))
  ∧ (q.tlg.bootFirst, q.tlg.bootSecond, q.tlg.bootNumber, q.tlg.markArea, q.tlg.checkpoints, q.tlg.writing, q.tlg.writeTimer,
        q.tlg.writes)
      = (p.tlg.bootFirst, p.tlg.bootSecond, p.tlg.bootNumber, p.tlg.markArea, p.tlg.checkpoints, p.tlg.writing,
        p.tlg.writeTimer, p.tlg.writes)
  ∧ (q.rsc.roleInForce, q.rsc.frozenAt) = (p.rsc.roleInForce, p.rsc.frozenAt)

/-- A hose event leaves what the frame names. -/
theorem Stays.framed {free : Prop} {p q : Part} (hq : Stays free p q) : p.HoseFramed p.pins q := by
  have log := hq.fixed_eq
  simp only [Tlg.fixed, Prod.mk.injEq] at log
  obtain ⟨slots, ⟨bootFirst, bootSecond, bootNumber, markArea⟩, checkpoints, writing, writeTimer, -, writes, -, -⟩ := log
  refine ⟨hq.pins_eq, ?_, hq.alc_eq, hq.snc_eq, hq.cnl_eq, slots, ?_, hq.restockRole_eq⟩
  · rw [hq.cfl_eq, hq.machines_eq, hq.totals_eq, hq.inv_eq, hq.nextSecond_eq, hq.draws_eq]
  · rw [bootFirst, bootSecond, bootNumber, markArea, checkpoints, writing, writeTimer, writes]

theorem Part.framed_refl (p : Part) : p.HoseFramed p.pins p := (Stays.refl (free := True)).framed

/-- A hose event that ends at its arbitration leaves what the frame names. -/
theorem Stays.settle_framed {p q : Part} (hq : Stays True p q) (b : Part) : p.HoseFramed p.pins (Machine.settle b q) :=
  (hq.settle (fun _ => trivial) b).framed

/-- The frame names neither the time base nor the moment of an expiry. -/
theorem Stays.expiry_framed {free : Prop} {p q : Part} {due : Nat} (hq : Stays free (p.reach due) q) :
    p.HoseFramed p.pins q := hq.framed

theorem Stays.expiry_settle_framed {p q : Part} {due : Nat} (hq : Stays True (p.reach due) q) (b : Part) :
    p.HoseFramed p.pins (Machine.settle b q) := hq.settle_framed b

/-- The command goes on with a part that keeps the frame, and with the pins at these levels. -/
def State.Frames (s : State) (c : Instr) (pins : Pins) : Prop :=
  ∃ q : Part, exec c s = s.goesTo q ∧ s.part.HoseFramed pins q

/-! ## The timers: time comes to the moment of expiry, and the rest is a hose event -/

section Timers

variable (s : State) (h : HoseId)

theorem tagGraceExpiry_frames : s.Frames (.tagGraceExpiry h) s.part.pins := by
  refine ⟨_, rfl, ?_⟩
  dsimp only
  split
  · exact ((Stays.refl.modReader h _).takeCause h .tagLost).expiry_settle_framed _
  · exact Part.framed_refl _

theorem claimHoldOffExpiry_frames : s.Frames (.claimHoldOffExpiry h) s.part.pins := by
  refine ⟨_, rfl, ?_⟩
  dsimp only
  split
  · exact (Stays.refl.awaitPump h).expiry_settle_framed _
  · exact Part.framed_refl _

theorem rateTimeout_frames : s.Frames (.rateTimeout h) s.part.pins := by
  refine ⟨_, rfl, ?_⟩
  dsimp only
  split
  · exact (Stays.refl.modMeter (free := True) h _).expiry_framed
  · exact Part.framed_refl _

theorem overrateExpiry_frames : s.Frames (.overrateExpiry h) s.part.pins := by
  refine ⟨_, rfl, ?_⟩
  dsimp only
  split
  · exact ((Stays.refl.modMeter (free := True) h _).ite ((Stays.refl.modMeter h _).event _)).expiry_framed
  · exact Part.framed_refl _

theorem noFlowExpiry_frames : s.Frames (.noFlowExpiry h) s.part.pins := by
  refine ⟨_, rfl, ?_⟩
  dsimp only
  split
  · exact ((Stays.refl.modMeter h _).takeCause h .noFlow).expiry_settle_framed _
  · exact Part.framed_refl _

theorem settleExpiry_frames (v : ValveId) : s.Frames (.settleExpiry h v) s.part.pins := by
  refine ⟨_, rfl, ?_⟩
  dsimp only
  split
  · exact (Stays.refl.positionFault h v).expiry_settle_framed _
  · exact Part.framed_refl _

theorem overrunWindowExpiry_frames : s.Frames (.overrunWindowExpiry h) s.part.pins := by
  refine ⟨_, rfl, ?_⟩
  dsimp only
  split
  · exact (Stays.refl.endOverrun (free := True) h).expiry_framed
  · exact Part.framed_refl _

theorem pumpWaitExpiry_frames : s.Frames (.pumpWaitExpiry h) s.part.pins := by
  refine ⟨_, rfl, ?_⟩
  dsimp only
  split
  · exact ((Stays.refl.modHose h _ Or.inl).takeCause h .pumpWait).expiry_settle_framed _
  · exact Part.framed_refl _

theorem primeExpiry_frames (i : PumpId) : s.Frames (.primeExpiry i) s.part.pins := by
  refine ⟨_, rfl, ?_⟩
  dsimp only
  split
  · exact (Stays.refl.primed trivial i).expiry_settle_framed _
  · exact Part.framed_refl _

theorem rundownExpiry_frames (i : PumpId) : s.Frames (.rundownExpiry i) s.part.pins := by
  refine ⟨_, rfl, ?_⟩
  dsimp only
  split
  · exact (Stays.refl.modPump (free := True) i _ fun _ => Or.inl).expiry_framed
  · exact Part.framed_refl _

end Timers

/-! ## The lines: a level is taken, and the rest is a hose event -/

section Lines

variable (s : State) (h : HoseId)

theorem tagReport_frames (report : TagReport) : s.Frames (.tagReport h report) s.part.pins := by
  refine ⟨_, rfl, ?_⟩
  dsimp only
  split
  · exact (Stays.refl.tagReport h report).settle_framed _
  · exact Part.framed_refl _

theorem nozzleLift_frames : s.Frames (.nozzleLift h) (s.part.nozzleAt h .offHook).pins := by
  refine ⟨_, rfl, ?_⟩
  dsimp only
  split
  · exact (Stays.refl.lift h).settle_framed (p := s.part.nozzleAt h .offHook) _
  · exact Part.framed_refl (s.part.nozzleAt h .offHook)

theorem nozzleHang_frames : s.Frames (.nozzleHang h) (s.part.nozzleAt h .onHook).pins := by
  refine ⟨_, rfl, ?_⟩
  dsimp only
  split
  · exact (Stays.refl.hang h).settle_framed (p := s.part.nozzleAt h .onHook) _
  · exact Part.framed_refl (s.part.nozzleAt h .onHook)

theorem switchChange_frames (v : ValveId) (position : Position) :
    s.Frames (.switchChange h v position) (s.part.switched h v position).pins := by
  refine ⟨_, rfl, ?_⟩
  dsimp only
  split
  · exact Part.framed_refl (s.part.switched h v position)
  · exact (Stays.refl.takeSwitch h v position).settle_framed (p := s.part.switched h v position) _

end Lines

/-! ## The console -/

section Requests

variable (p : Part)

theorem Part.stopRequest_framed (f : Field) : p.HoseFramed p.pins (p.stopRequest f) := by
  have answered (r : Response) : p.HoseFramed p.pins (p.respond r) := ((Stays.refl (free := True)).respond r).framed
  have stopped (h : HoseId) : p.HoseFramed p.pins (settle p ((p.respond .ok).takeCause h .operator)) :=
    ((Stays.refl.respond .ok).takeCause h .operator).settle_framed p
  unfold Part.stopRequest
  cases hoseField f with
  | none => exact answered _
  | some h =>
    dsimp only
    cases (p.hose h).dsc with
    | authorising | awaitPump | flowing => exact stopped h
    | stopping | committing | idle | lifted | done => exact answered _

theorem Part.keyed_framed (f g : Field) : p.HoseFramed p.pins (p.keyed f g) := by
  have refused (c : Code) : p.HoseFramed p.pins (p.refuse c) := ((Stays.refl (free := True)).refuse c).framed
  unfold Part.keyed
  split
  · split
    · exact refused _
    · exact ((Stays.refl.respond .ok).identify _ .keyed _).settle_framed p
  · exact refused _

variable {s : State} (lineFree : s.part.LineFree)
include lineFree

theorem stop_frames (f : Field) : s.Frames (.stop f) s.part.pins :=
  ⟨_, congrArg s.goesTo (lineFree.request _), s.part.stopRequest_framed f⟩

theorem keyed_frames (f g : Field) : s.Frames (.keyed f g) s.part.pins :=
  ⟨_, congrArg s.goesTo (lineFree.request _), s.part.keyed_framed f g⟩

end Requests

/-! ## The obligation -/

/-- Settles O58: each command is a change of the time base or of its own line, followed by a hose event, and Stays says what a hose
event leaves alone. -/
theorem hoseEventFrame : Obligations.HoseEventFrame := by
  intro s
  refine ⟨fun h c hc => ?_, tagReport_frames s, fun i => ⟨primeExpiry_frames s i, rundownExpiry_frames s i⟩,
    fun h => ⟨nozzleLift_frames s h, nozzleHang_frames s h⟩, switchChange_frames s,
    fun lineFree f g => ⟨stop_frames lineFree f, keyed_frames lineFree f g⟩⟩
  simp only [List.mem_cons, List.not_mem_nil, or_false] at hc
  rcases hc with rfl | rfl | rfl | rfl | rfl | rfl | rfl | rfl | rfl
  · exact tagGraceExpiry_frames s h
  · exact claimHoldOffExpiry_frames s h
  · exact rateTimeout_frames s h
  · exact overrateExpiry_frames s h
  · exact noFlowExpiry_frames s h
  · exact settleExpiry_frames s h .trim
  · exact settleExpiry_frames s h .main
  · exact overrunWindowExpiry_frames s h
  · exact pumpWaitExpiry_frames s h

end Sys2Proof.Machine
end
